-- ==== Sys2Proof/Word.lean ====
section
/-! DEFINITION. The widths of JCTD's data (00_scope R7, R8): bytes of byte streams, 16-bit code-table entries, 32-bit table-memory and FIFO words. -/

namespace Sys2Proof

/-- A byte of a byte stream, of host memory, or of an operand register file. -/
abbrev Byte := BitVec 8

/-- `HWORD` (00_scope R7): a code-table entry. -/
abbrev HalfWord := BitVec 16

/-- `WORD` (00_scope R7): a word of `TMEM`, `QMEM` or a FIFO, a descriptor, `CMD`, `ARG`, `DATA`. -/
abbrev Word := BitVec 32

end Sys2Proof
end

