-- ==== Sys2Proof/Config.lean ====
section
/-! DEFINITION. The parameters of the block (00_scope R7): the constants the spec fixes, the open parameters as one
record that the state carries, their default set TP (95_test_vectors), the constraints on them, and the free values. -/

namespace Sys2Proof

/-- Transfer granularity of a DMA engine: "each 4 or 32" bytes (00_scope R7). -/
inductive Gran where
  | four
  | thirtyTwo
deriving DecidableEq, Repr

namespace Config

/-- `N_DC` (00_scope R7): entries of a DC code table, bytes of a DC Values array. -/
abbrev nDC : Nat := 12
/-- `N_AC` (00_scope R7): entries of an AC code table, bytes of an AC Values array. -/
abbrev nAC : Nat := 162
/-- `SIZE_LIMIT` (00_scope R7, 90_conflicts C11). -/
abbrev sizeLimit : Nat := 257
/-- `TH_WORDS` (00_scope R7): words moved per threshold event. -/
abbrev thWords : Nat := 8
/-- `DC_TERM` (41_table_programmer R164): the all-ones DC terminator word. -/
abbrev dcTerm : Word := 0xFFFFFFFF#32
/-- `2^AW`, `AW = 32` (00_scope R7): the size of the host address space. -/
abbrev hostSpace : Nat := 4294967296

/-! Free values: constants without a body, so nothing can be proved of what they are. Each is applied to an address or
to the state's draw counter (`draw`, 00_scope R9). -/

/-- What a `TMEM` word that nothing has written reads as (10_state R44: "unspecified contents"). Log 5. -/
opaque tmemFree : BitVec 16 → Word
/-- What word `w` of `QMEM[q]`, numbered `16*q + w`, reads as before anything writes it (10_state R44). Log 5. -/
opaque qmemFree : Nat → Word
/-- What a byte of host memory that nothing has written reads as (70_reset_and_hazards R347: an input). Log 6. -/
opaque hmemFree : Nat → Byte
/-- `draw(5)` of 40_huffman_builder R146. Log 7. -/
opaque drawLen : Nat → BitVec 5
/-- `draw(16)` of 40_huffman_builder R146. Log 7. -/
opaque drawCode : Nat → HalfWord
/-- Whether an unmanaged host with no reply listed answers `REFILL` with `Pause` (93_implementation_defined U10). Log 8. -/
opaque refillPauses : Nat → Bool
/-- The address of the `Supply` reply of an unmanaged host with no reply listed (U10). Log 8. -/
opaque refillAddr : Nat → Word
/-- The length of the `Supply` reply of an unmanaged host with no reply listed (U10). Log 8. -/
opaque refillLen : Nat → Word
/-- Whether an unmanaged host with no reply listed answers `DRAIN` with `Pause` (U10). Log 8. -/
opaque drainPauses : Nat → Bool
/-- A byte the byte source returns when no byte is listed for it (44_stream_buffers R270). Log 10. -/
opaque sourceFree : Nat → Byte

end Config

/-- The open parameters of 00_scope R7. The state carries them and no step changes them, so that a statement about every
state is a statement about every choice of parameters (log 2). -/
structure Config where
  /-- `RAW_BASE`: word address of the raw-spec region (20_memory R71). -/
  rawBase : BitVec 16
  /-- `ENC_AC0_BASE`. -/
  encAc0Base : BitVec 16
  /-- `ENC_DC0_BASE`. -/
  encDc0Base : BitVec 16
  /-- `ENC_AC1_BASE`. -/
  encAc1Base : BitVec 16
  /-- `ENC_DC1_BASE`. -/
  encDc1Base : BitVec 16
  /-- `QMEM_BASE[q]`: no operation addresses `QMEM` by it (20_memory R72: "no rule depends on them"). -/
  qmemBase : List (BitVec 16)
  /-- `NQ`: number of quantization memories. -/
  nq : Nat
  /-- `ZIGZAG[64]` (42_quantization R192). -/
  zigzag : List Nat
  /-- `AC_RESERVED[7]` (41_table_programmer R164). -/
  acReserved : List Word
  /-- `FIFO_DEPTH`. -/
  fifoDepth : Nat
  /-- `GRAN_IN`. -/
  granIn : Gran
  /-- `GRAN_OUT`. -/
  granOut : Gran
  /-- `IBCAP`: capacity of each streaming input buffer, bytes. -/
  ibcap : Nat
  /-- `SB[0].ADDR`. -/
  sb0Addr : Word
  /-- `SB[1].ADDR`. -/
  sb1Addr : Word
deriving DecidableEq, Repr

/-- The default `ZIGZAG` (42_quantization R192). -/
def Config.zigzagDefault : List Nat :=
  [ 0,  1,  8, 16,  9,  2,  3, 10, 17, 24, 32, 25, 18, 11,  4,  5,
   12, 19, 26, 33, 40, 48, 41, 34, 27, 20, 13,  6,  7, 14, 21, 28] ++
  [35, 42, 49, 56, 57, 50, 43, 36, 29, 22, 15, 23, 30, 37, 44, 51,
   58, 59, 52, 45, 38, 31, 39, 46, 53, 60, 61, 54, 47, 55, 62, 63]

/-- The parameter set TP of 95_test_vectors, the defaults of 00_scope R7, 20_memory R72, 41_table_programmer R164 and
42_quantization R192. DESIGN CHOICE, log 2. -/
def Config.default : Config where
  rawBase := 0x00D8#16
  encAc0Base := 0x0140#16
  encDc0Base := 0x01F0#16
  encAc1Base := 0x0198#16
  encDc1Base := 0x01F8#16
  qmemBase := [0x0014#16, 0x0024#16, 0x0034#16, 0x0044#16]
  nq := 4
  zigzag := Config.zigzagDefault
  acReserved := [0x0FFF0FFF#32, 0x0FFF0FFF#32, 0x0FFF0FFF#32, 0x0FD10FD0#32, 0x0FD30FD2#32, 0x0FD50FD4#32, 0x0FD70FD6#32]
  fifoDepth := 16
  granIn := .thirtyTwo
  granOut := .thirtyTwo
  ibcap := 16
  sb0Addr := 0x1000#32
  sb1Addr := 0x1010#32

/-- Two ranges `[a, a+n)` and `[b, b+m)` share no address. -/
def Config.disjoint (a n b m : Nat) : Bool := n == 0 || m == 0 || a + n ≤ b || b + m ≤ a

/-- The five regions of `TMEM` as (first word, words), 20_memory R71. -/
def Config.regions (c : Config) : List (Nat × Nat) :=
  [(c.rawBase.toNat, 103), (c.encAc0Base.toNat, 88), (c.encDc0Base.toNat, 8), (c.encAc1Base.toNat, 88), (c.encDc1Base.toNat, 8)]

/-- Every two ranges of the list are disjoint. -/
def Config.pairwiseDisjoint : List (Nat × Nat) → Bool
  | [] => true
  | r :: rs => rs.all (fun r' => Config.disjoint r.1 r.2 r'.1 r'.2) && Config.pairwiseDisjoint rs

/-- The constraints the spec puts on the open parameters: `ZIGZAG` a permutation of 0..63 (42_quantization R192), the
regions inside the word address space and pairwise disjoint (20_memory R71), seven reserved words (41_table_programmer
R163), `IBCAP` a positive multiple of 4 (00_scope R7), the streaming buffers word aligned, inside host memory and
disjoint (44_stream_buffers R270), and an `NQ` that the 4-bit field `q` reaches (30_encoding R101, log 34). -/
def Config.wf (c : Config) : Bool :=
  c.zigzag.length == 64 && (List.range 64).all (fun i => c.zigzag.contains i) &&
  c.regions.all (fun r => decide (r.1 + r.2 ≤ 65536)) && Config.pairwiseDisjoint c.regions &&
  c.acReserved.length == 7 && decide (1 ≤ c.nq) && decide (c.nq ≤ 16) &&
  decide (0 < c.ibcap) && c.ibcap % 4 == 0 &&
  c.sb0Addr.toNat % 4 == 0 && c.sb1Addr.toNat % 4 == 0 &&
  decide (c.sb0Addr.toNat + c.ibcap ≤ Config.hostSpace) && decide (c.sb1Addr.toNat + c.ibcap ≤ Config.hostSpace) &&
  Config.disjoint c.sb0Addr.toNat c.ibcap c.sb1Addr.toNat c.ibcap

end Sys2Proof
end

