-- ==== Sys2Proof/Syntax.lean ====
section
/-! DEFINITION. The operations of JCTD-OPS v1: the seventeen commands of 30_encoding R104 and the eight event records of
30_encoding R105, one constructor per row of the opcode table, with operands already decoded (30_encoding R103). -/

namespace Sys2Proof

/-- `kind(s)` (00_scope R10). -/
inductive Kind where
  | dc
  | ac
deriving DecidableEq, Repr

/-- A table slot (00_scope R10), numbered as 30_encoding R103 does. The four code-table regions go by the same names
(20_memory R71). -/
inductive Slot where
  | dc0
  | ac0
  | dc1
  | ac1
deriving DecidableEq, Repr

/-- Operand `file` of `LDB` (30_encoding R103). -/
inductive LdbFile where
  | bits (s : Slot)
  | vals (s : Slot)
  | baseline (q : BitVec 4)
deriving DecidableEq, Repr

/-- Operand `reg` of `WRD` (30_encoding R103). -/
inductive DescReg where
  | inAddr
  | inLen
  | outAddr
  | outLen
deriving DecidableEq, Repr

/-- Operand `mask` of `PROGR`: which tables are supplied (30_encoding R103). -/
structure SlotSet where
  dc0 : Bool
  ac0 : Bool
  dc1 : Bool
  ac1 : Bool
deriving DecidableEq, Repr

/-- Operand `op` of `START` (30_encoding R103). -/
inductive JobOp where
  | decode
  | encode
deriving DecidableEq, Repr

/-- Operand `method` of `START` (30_encoding R103). -/
inductive Method where
  | poll
  | interrupt
  | dma
deriving DecidableEq, Repr

/-- Operand `dir` of `PAUSE` and `RESUME`: a subset of `Input`, `Output` (00_scope R10). -/
structure DirSet where
  input : Bool
  output : Bool
deriving DecidableEq, Repr

/-- Operand `sel` of `GETINFO` (30_encoding R103). -/
inductive InfoSel where
  | dimensions
  | attributes
deriving DecidableEq, Repr

/-- One operation: a command of the task context or an event record of the interrupt context. -/
inductive Instr where
  | ldb (file : LdbFile) (index : BitVec 8) (data : Byte)
  | wrd (reg : DescReg) (value : Word)
  | build (slot : Slot)
  | progc (addr : BitVec 16) (src : Option Slot)
  | progr (mask : SlotSet)
  | qgen (q : BitVec 4) (quality : BitVec 8)
  | qest (q : BitVec 4)
  | start (op : JobOp) (method : Method)
  | pause (dir : DirSet)
  | resume (dir : DirSet)
  | poll
  | abort
  | getinfo (sel : InfoSel)
  | getstate
  | geterr
  | sbfill (len : Word)
  | sbinit
  | evErr
  | evHpd
  | evIn
  | evOut
  | evEoc
  | evDmaInCplt
  | evDmaOutCplt
  | evDmaAbort
deriving DecidableEq, Repr

/-- `kind(s)` (00_scope R10). -/
def Slot.kind : Slot → Kind
  | .dc0 => .dc
  | .ac0 => .ac
  | .dc1 => .dc
  | .ac1 => .ac

/-- The number of entries of a table of a kind: `N_DC` or `N_AC` (00_scope R10). -/
def Kind.size : Kind → Nat
  | .dc => Config.nDC
  | .ac => Config.nAC

/-- `N(s)` (00_scope R10). -/
def Slot.size (s : Slot) : Nat := s.kind.size

/-- Whether slot `s` is in the mask. -/
def SlotSet.has (m : SlotSet) : Slot → Bool
  | .dc0 => m.dc0
  | .ac0 => m.ac0
  | .dc1 => m.dc1
  | .ac1 => m.ac1

/-- Whether the operation is an event record (30_encoding R105) and not a command. -/
def Instr.isEvent : Instr → Bool
  | .ldb _ _ _ => false
  | .wrd _ _ => false
  | .build _ => false
  | .progc _ _ => false
  | .progr _ => false
  | .qgen _ _ => false
  | .qest _ => false
  | .start _ _ => false
  | .pause _ => false
  | .resume _ => false
  | .poll => false
  | .abort => false
  | .getinfo _ => false
  | .getstate => false
  | .geterr => false
  | .sbfill _ => false
  | .sbinit => false
  | .evErr => true
  | .evHpd => true
  | .evIn => true
  | .evOut => true
  | .evEoc => true
  | .evDmaInCplt => true
  | .evDmaOutCplt => true
  | .evDmaAbort => true

end Sys2Proof
end

