-- ==== Sys2Proof/Machine/State.lean ====
section
/-! DEFINITION. The state of the block as plain data: every piece of state 10_state gives it, its parameters, what the
environment does next, and the state after reset (10_state R44). -/

namespace Sys2Proof.Machine

open Sys2Proof

/-! ## Memories -/

/-- A memory: the cells something has written, addresses strictly rising; an address that nothing has written is not
listed. -/
abbrev Store (α : Type) := List (Nat × α)

/-! ## Operand register files (10_state R21 to R23) -/

/-- `HSPEC[s]`. `none` is the spec's own state "unwritten" (10_state R44: "the element holds no value"). Log 4. -/
structure HuffSpec where
  /-- `BITS[0..15]`. -/
  bits : List (Option Byte)
  /-- `VALS[0..N(s)-1]`. -/
  vals : List (Option Byte)
deriving DecidableEq, Repr

/-- `HCT[s]`. `none` is "unwritten" (10_state R44). Log 4. -/
structure HuffTable where
  /-- `VALID`. -/
  valid : Bool
  /-- `LEN[0..N(s)-1]`. -/
  len : List (Option (BitVec 5))
  /-- `CODE[0..N(s)-1]`. -/
  code : List (Option HalfWord)
deriving DecidableEq, Repr

/-- One element for each of the four slots, or of the four code-table regions. -/
structure PerSlot (α : Type) where
  dc0 : α
  ac0 : α
  dc1 : α
  ac1 : α
deriving DecidableEq, Repr

/-! ## Control registers (10_state R24 to R34) -/

/-- `STATE` (10_state R24). -/
inductive Fsm where
  | idle
  | configuring
  | polling
  | interrupting
  | dmaActive
  | draining
deriving DecidableEq, Repr

/-- `CTX` (10_state R26). `none` in `op` and `method` is the spec's value `None`. -/
structure Ctx where
  op : Option JobOp
  method : Option Method
  cfgHuff : Bool
  cfgQuant : Bool
  pauseIn : Bool
  pauseOut : Bool
  ending : Bool
deriving DecidableEq, Repr

/-- `CR` (10_state R28). -/
structure Cr where
  run : Bool
  ieIft : Bool
  ieIfnf : Bool
  ieOft : Bool
  ieOfne : Bool
  ieEoc : Bool
  ieHpd : Bool
  ieErr : Bool
  dmaInEn : Bool
  dmaOutEn : Bool
deriving DecidableEq, Repr

/-- The latched flags of `SR` (10_state R29); the level flags are functions of the FIFOs (10_state R30). -/
structure Sr where
  eocf : Bool
  hpdf : Bool
  errf : Bool
deriving DecidableEq, Repr

/-- The buffer descriptors (10_state R31). -/
structure Desc where
  inAddr : Word
  inLen : Word
  inOff : Word
  outAddr : Word
  outLen : Word
  outOff : Word
deriving DecidableEq, Repr

/-- `INFO.COLORSPACE` (10_state R32). -/
inductive ColorSpace where
  | grayscale
  | ycbcr
  | cmyk
deriving DecidableEq, Repr

/-- `INFO.CHROMA` (10_state R32). -/
inductive Chroma where
  | c444
  | c420
  | c422
deriving DecidableEq, Repr

/-- `INFO` (10_state R32). -/
structure Info where
  width : HalfWord
  height : HalfWord
  colorspace : ColorSpace
  chroma : Chroma
  quality : BitVec 7
deriving DecidableEq, Repr

/-- The header status inputs `HDR_*` (10_state R34). -/
structure Hdr where
  width : HalfWord
  height : HalfWord
  ncomp : BitVec 3
  nb0 : BitVec 4
  nb1 : BitVec 4
  nb2 : BitVec 4
  nb3 : BitVec 4
deriving DecidableEq, Repr

/-! ## DMA engines and stream buffers (10_state R37, R38) -/

/-- The state of `DIN` or of `DOUT` (10_state R37). -/
structure Dma where
  busy : Bool
  addr : Word
  len : Word
  done : Word
  abortReq : Bool
  cplt : Bool
  aborted : Bool
  err : Bool
deriving DecidableEq, Repr

/-- The number of a streaming buffer: `RD`, `WR` and the `i` of `SB[i]` (10_state R38). -/
inductive BufIdx where
  | b0
  | b1
deriving DecidableEq, Repr

/-- `SB[i]` but for its address, which is a parameter (10_state R38). -/
structure SbBuf where
  full : Bool
  len : Word
deriving DecidableEq, Repr

/-- The Streaming Buffer Manager (10_state R38). -/
structure StreamBuffers where
  buf0 : SbBuf
  buf1 : SbBuf
  rd : BufIdx
  wr : BufIdx
  off : Word
  wait : Bool
  /-- An `SBFILL` between its two atomic steps, and the buffer `i` its first step filled (44_stream_buffers R273). Log 21. -/
  filling : Option BufIdx
deriving DecidableEq, Repr

/-! ## What crosses the boundary (70_reset_and_hazards R347) -/

/-- The response port (30_encoding R102). -/
structure Response where
  status : BitVec 8
  data : Word
deriving DecidableEq, Repr

/-- The eight events (30_encoding R105). -/
inductive Event where
  | err
  | hpd
  | inp
  | out
  | eoc
  | dmaInCplt
  | dmaOutCplt
  | dmaAbort
deriving DecidableEq, Repr

/-- The effects of the trace (10_state R41). -/
inductive Effect where
  | refill (consumed : Word)
  /-- `DRAIN(addr, len)`, with the bytes the host finds at `addr .. addr+len-1` inside the callback (20_memory R81 (d)).
  Log 25. -/
  | drain (addr len : Word) (bytes : List Byte)
  | infoReady
  | done (op : Option JobOp)
  | error (code : BitVec 8)
deriving DecidableEq, Repr

/-- The host's answer to `REFILL` (43_transfer_fsm R218). -/
inductive RefillReply where
  | supply (addr len : Word)
  | pause
  /-- A callback that issues a command: a fault (60_exceptions R296). Log 30. -/
  | command
deriving DecidableEq, Repr

/-- The host's answer to `DRAIN` (43_transfer_fsm R219). -/
inductive DrainReply where
  | proceed
  | pause
  /-- A callback that issues a command: a fault (60_exceptions R296). Log 30. -/
  | command
deriving DecidableEq, Repr

/-- How the host comes back from `INFO_READY`, `DONE` or `ERROR`, which have no reply (10_state R41): it returns, or it has
issued a command inside the callback, which is a fault (60_exceptions R296). Log 30. -/
inductive NoticeReply where
  | returned
  | command
deriving DecidableEq, Repr

/-- The answer to an event record (30_encoding R105): the model's own field. Log 12. -/
inductive EventOutcome where
  | none
  | taken (e : Event)
  | refused
deriving DecidableEq, Repr

/-- An access to the table memories, for the recorded history of 41_table_programmer R165. Log 24. -/
inductive TableAccess where
  | tread (a : BitVec 16)
  | twrite (a : BitVec 16) (v : Word)
  | qwrite (q : Nat) (w : Nat) (v : Word)
deriving DecidableEq, Repr

/-- One thing `CORE` may do in a step (43_transfer_fsm R236 (b), (c)). -/
inductive CoreAct where
  | pop
  | push (w : Word)
  | header (h : Hdr)
  | endOfConversion
  | error
  | writeQmem (q : BitVec 4) (w : BitVec 4) (v : Word)
deriving DecidableEq, Repr

/-- One thing the host may do between atomic steps: write a byte of host memory, or write the block's state by other
means, which is a fault (60_exceptions R303). Log 30. -/
inductive HostAct where
  | write (addr : Word) (b : Byte)
  | writeBlockState
deriving DecidableEq, Repr

/-- What an agent does next (00_scope R6). `command` is the task context on the command port, `task` the task context going
on with an `SBFILL` in progress, `event` the replay harness, `irq` the interrupt context, `dinError` and `doutError` an
engine step that ends in a transfer error. Logs 1 and 29. -/
inductive Stimulus where
  | command (cmd arg : Word)
  | task
  | event (evt : Word)
  | irq
  | din
  | dinError
  | dout
  | doutError
  | core (a : CoreAct)
  | host (a : HostAct)
deriving DecidableEq, Repr

/-- The host side (00_scope R6): who answers the callbacks and with what. -/
structure HostSide where
  /-- The Streaming Buffer Manager is the host (44_stream_buffers R270). Log 9. -/
  managed : Bool
  /-- The answers to the next `REFILL`s when it is not. Log 8. -/
  refillReplies : List RefillReply
  /-- The answers to the next `DRAIN`s when it is not. Log 8. -/
  drainReplies : List DrainReply
  /-- How the host comes back from the next `INFO_READY`s, `DONE`s and `ERROR`s; where none is listed it returns. Log 30. -/
  notices : List NoticeReply
  /-- The bytes the byte source returns next (44_stream_buffers R270, R273). Log 10. -/
  source : List Byte
deriving DecidableEq, Repr

/-! ## The state -/

/-- The whole machine. -/
structure State where
  /-- The parameters (00_scope R7); no step changes them. Log 2. -/
  cfg : Config
  hspec : PerSlot HuffSpec
  hct : PerSlot HuffTable
  /-- `BASELINE[q][0..63]`, one list for each `q < NQ` (10_state R23). -/
  baseline : List (List (Option Byte))
  fsm : Fsm
  ctx : Ctx
  cr : Cr
  sr : Sr
  desc : Desc
  info : Info
  /-- `LAST_ERROR` (10_state R33). -/
  lastError : BitVec 8
  hdr : Hdr
  /-- `PRG_RAW[s]` (41_table_programmer R171). -/
  prgRaw : PerSlot Bool
  /-- `PRG_ENC[r]` (41_table_programmer R171). -/
  prgEnc : PerSlot Bool
  /-- `TMEM`, by word address (20_memory R70). -/
  tmem : Store Word
  /-- `QMEM`, word `w` of `QMEM[q]` at `16*q + w` (20_memory R70). -/
  qmem : Store Word
  /-- `HMEM`, by byte address (20_memory R70): a list of `Host.Cell`. -/
  hmem : Store Byte
  /-- `IFIFO`, oldest word first (10_state R36). -/
  ififo : List Word
  /-- `OFIFO`, oldest word first (10_state R36). -/
  ofifo : List Word
  din : Dma
  dout : Dma
  sb : StreamBuffers
  /-- The response port; `none` while the command in progress has returned nothing (30_encoding R102). -/
  response : Option Response
  /-- The effect trace, oldest first (10_state R41). -/
  trace : List Effect
  /-- The recorded access history of the table memories, oldest first. Log 24. -/
  history : List TableAccess
  /-- The model's own: the answer to the last event record. Log 12. -/
  lastEvent : EventOutcome
  /-- The model's own: a padded tail word was pushed in this job (43_transfer_fsm R238, 93_implementation_defined U12).
  Log 22. -/
  tailFed : Bool
  /-- The model's own: the counter free values are drawn with (`draw`, 00_scope R9). Log 7. -/
  draws : Nat
  /-- The model's own: the host side. -/
  host : HostSide
  /-- The model's own: what the agents do next, in order. Log 1. -/
  inputs : List Stimulus
deriving DecidableEq, Repr

/-- Why a step may stop with a fault. The first eight are the faults of 60_exceptions R304, the last is the model's. -/
inductive Fault where
  /-- R304 (a): `LDB`, `BUILD`, `PROGC`, `PROGR`, `QGEN`, `QEST` while `STATE` is not `Idle` (60_exceptions R302). Safe:
  the spec gives no result. -/
  | programmingOutsideIdle
  /-- R304 (b): a write outside the table of 10_state R42 by "a host that writes the block's state by other means"
  (60_exceptions R303, 93_implementation_defined U2); no command performs one. Safe. -/
  | singleWriter
  /-- R304 (c): an operand register element that nothing has written is read (10_state R44). Safe. -/
  | unwrittenOperand
  /-- R304 (d): `QEST` with a value other than 1 over a zero baseline element (42_quantization R197). Safe. -/
  | divideByZero
  /-- R304 (e): a `Supply` reply, a `WRD` of a paused job or the descriptor write of an `SBFILL` names a buffer outside host
  memory, or misaligned in method DMA (43_transfer_fsm R218). Safe. -/
  | badBuffer
  /-- R304 (e): a buffer overlaps another (20_memory R74): the buffer of a `Supply` reply or of a `WRD` in a paused job with the
  output buffer or a streaming buffer, and at `START` the output buffer with any other (43_transfer_fsm R212). Safe. -/
  | bufferOverlap
  /-- R304 (f): a command issued from inside a callback, be it `REFILL`, `DRAIN`, `INFO_READY`, `DONE` or `ERROR`
  (60_exceptions R296). Safe. -/
  | commandInCallback
  /-- R304 (g): input follows a padded tail word in the same job, so a mid-stream buffer had a length that is not a
  multiple of 4 (93_implementation_defined U12). Safe. -/
  | raggedMidStream
  /-- An access to a byte address outside the `AW = 32` bit host address space (20_memory R70). Safe. -/
  | hostAddress
deriving DecidableEq, Repr

/-- Why a step may refuse an instruction. -/
inductive Refusal where
  /-- Raised by the dispatcher for an instruction that has no meaning yet; no arm does. Safe. -/
  | notModelled (mnemonic : String)
deriving DecidableEq, Repr

/-! ## Reset (10_state R44, 70_reset_and_hazards R330) -/

/-- An `HSPEC[s]` of `n` Values with every element unwritten. -/
def HuffSpec.reset (n : Nat) : HuffSpec where
  bits := List.replicate 16 none
  vals := List.replicate n none

/-- An `HCT[s]` of `n` entries, `VALID = 0`, every entry unwritten. -/
def HuffTable.reset (n : Nat) : HuffTable where
  valid := false
  len := List.replicate n none
  code := List.replicate n none

/-- The same element for every slot. -/
def PerSlot.const {α : Type} (x : α) : PerSlot α where
  dc0 := x
  ac0 := x
  dc1 := x
  ac1 := x

/-- `CTX` with "all fields 0". -/
def Ctx.reset : Ctx where
  op := none
  method := none
  cfgHuff := false
  cfgQuant := false
  pauseIn := false
  pauseOut := false
  ending := false

/-- `CR = 0`. -/
def Cr.reset : Cr where
  run := false
  ieIft := false
  ieIfnf := false
  ieOft := false
  ieOfne := false
  ieEoc := false
  ieHpd := false
  ieErr := false
  dmaInEn := false
  dmaOutEn := false

/-- The latched flags 0. -/
def Sr.reset : Sr where
  eocf := false
  hpdf := false
  errf := false

/-- The descriptors 0. -/
def Desc.reset : Desc where
  inAddr := 0#32
  inLen := 0#32
  inOff := 0#32
  outAddr := 0#32
  outLen := 0#32
  outOff := 0#32

/-- `INFO` with "all fields 0": `Grayscale`, `4:4:4`, quality 0 (10_state R32). -/
def Info.reset : Info where
  width := 0#16
  height := 0#16
  colorspace := .grayscale
  chroma := .c444
  quality := 0#7

/-- The header inputs: DESIGN CHOICE 0 (10_state R44: "unspecified until `CORE` sets `HPDF`"). Log 3. -/
def Hdr.reset : Hdr where
  width := 0#16
  height := 0#16
  ncomp := 0#3
  nb0 := 0#4
  nb1 := 0#4
  nb2 := 0#4
  nb3 := 0#4

/-- A DMA engine at reset. -/
def Dma.reset : Dma where
  busy := false
  addr := 0#32
  len := 0#32
  done := 0#32
  abortReq := false
  cplt := false
  aborted := false
  err := false

/-- The Streaming Buffer Manager at reset. -/
def StreamBuffers.reset : StreamBuffers where
  buf0 := { full := false, len := 0#32 }
  buf1 := { full := false, len := 0#32 }
  rd := .b0
  wr := .b0
  off := 0#32
  wait := false
  filling := none

/-- The host side at reset: the Streaming Buffer Manager, nothing listed. DESIGN CHOICE, logs 8 to 10 and 30. -/
def HostSide.reset : HostSide where
  managed := true
  refillReplies := []
  drainReplies := []
  notices := []
  source := []

/-- The machine right after reset, with given parameters. -/
def State.resetWith (c : Config) : State where
  cfg := c
  hspec := { dc0 := .reset Config.nDC, ac0 := .reset Config.nAC, dc1 := .reset Config.nDC, ac1 := .reset Config.nAC }
  hct := { dc0 := .reset Config.nDC, ac0 := .reset Config.nAC, dc1 := .reset Config.nDC, ac1 := .reset Config.nAC }
  baseline := List.replicate c.nq (List.replicate 64 none)
  fsm := .idle
  ctx := .reset
  cr := .reset
  sr := .reset
  desc := .reset
  info := .reset
  lastError := 0#8
  hdr := .reset
  prgRaw := .const false
  prgEnc := .const false
  tmem := []
  qmem := []
  hmem := []
  ififo := []
  ofifo := []
  din := .reset
  dout := .reset
  sb := .reset
  response := none
  trace := []
  history := []
  lastEvent := .none
  tailFed := false
  draws := 0
  host := .reset
  inputs := []

/-- The machine right after reset (10_state R44), with the default parameters. -/
def State.reset : State := State.resetWith Config.default

end Sys2Proof.Machine
end

