-- ==== Sys2Proof/Machine/Ops.lean ====
section
/-! DEFINITION. The named operations over memories, FIFOs, engines and control registers that every meaning is written
with: memory cells, byte order, host memory, the table memories, the FIFOs, responses, effects, pauses, DMA priming, and the
two ways an error is taken (60_exceptions R291). -/

namespace Sys2Proof.Machine

open Sys2Proof

/-! ## Memory cells -/

/-- What a memory holds at an address; `none` when nothing has written it. -/
def Store.find {α : Type} : Store α → Nat → Option α
  | [], _ => none
  | (k, v) :: m, a => if k = a then some v else Store.find m a

/-- Write one cell, keeping addresses rising. -/
def Store.put {α : Type} : Store α → Nat → α → Store α
  | [], a, v => [(a, v)]
  | (k, w) :: m, a, v =>
    if k = a then (a, v) :: m else if a < k then (a, v) :: (k, w) :: m else (k, w) :: Store.put m a v

/-- Addresses rise strictly from above `lo` and stay below `hi`. -/
def Store.risesFrom {α : Type} (hi : Nat) : Nat → Store α → Bool
  | _, [] => true
  | lo, (k, _) :: m => decide (lo ≤ k) && decide (k < hi) && Store.risesFrom hi (k + 1) m

/-- The canonical form of a memory of `hi` addresses: strictly rising addresses, each below `hi`. -/
def Store.wf {α : Type} (hi : Nat) (m : Store α) : Bool := Store.risesFrom hi 0 m

/-- The three memories are in canonical form. -/
def Memory.wf (s : State) : Bool :=
  Store.wf Config.hostSpace s.hmem && Store.wf 65536 s.tmem && Store.wf 256 s.qmem

/-! ## Byte order (20_memory R75, R76, 30_encoding R111) -/

/-- The word of up to four bytes, byte `j` in lane `j`, missing high lanes zero (20_memory R76). -/
def wordOfBytes (bs : List Byte) : Word :=
  bs.getD 3 0#8 ++ (bs.getD 2 0#8 ++ (bs.getD 1 0#8 ++ bs.getD 0 0#8))

/-- The four bytes of a word, lane 0 first (20_memory R76). -/
def bytesOfWord (w : Word) : List Byte :=
  [w.extractLsb' 0 8, w.extractLsb' 8 8, w.extractLsb' 16 8, w.extractLsb' 24 8]

/-! ## Host memory (00_scope R9, 20_memory R78) -/

/-- One byte of host memory; a byte that nothing has written is a free value of its address (log 6). -/
def readByte (m : Store Byte) (a : Nat) : Byte := (Store.find m a).getD (Config.hmemFree a)

/-- The `n` bytes at `a .. a+n-1`, lowest address first. -/
def readBytes (m : Store Byte) (a n : Nat) : List Byte := (List.range n).map (fun i => readByte m (a + i))

/-- Write bytes at ascending addresses from `a`. -/
def writeBytes (m : Store Byte) : Nat → List Byte → Store Byte
  | _, [] => m
  | a, b :: bs => writeBytes (Store.put m a b) (a + 1) bs

/-- `MemRead(a, n)` (00_scope R9): a fault outside the host address space. -/
def memRead (a n : Nat) (s : State) : Except Fault (List Byte) :=
  if a + n ≤ Config.hostSpace then .ok (readBytes s.hmem a n) else .error .hostAddress

/-- `MemWrite(a, n, bytes)` (00_scope R9): a fault outside the host address space. -/
def memWrite (a : Nat) (bytes : List Byte) (s : State) : Except Fault State :=
  if a + bytes.length ≤ Config.hostSpace then .ok { s with hmem := writeBytes s.hmem a bytes } else .error .hostAddress

/-! ## Table memories (20_memory R78) -/

/-- `T[a]`; a word that nothing has written is a free value of its address (log 5). -/
def readTmem (s : State) (a : BitVec 16) : Word := (Store.find s.tmem a.toNat).getD (Config.tmemFree a)

/-- The place of word `w` of `QMEM[q]` in the model's list. -/
def qmemIndex (q w : BitVec 4) : Nat := 16 * q.toNat + w.toNat

/-- `Q[q][w]`; a word that nothing has written is a free value of its place (log 5). -/
def readQmem (s : State) (q w : BitVec 4) : Word :=
  (Store.find s.qmem (qmemIndex q w)).getD (Config.qmemFree (qmemIndex q w))

/-- Record a read of `T[a]` in the access history. -/
def State.tReadMark (s : State) (a : BitVec 16) : State := { s with history := s.history ++ [.tread a] }

/-- `T[a] <- v`, recorded in the access history. -/
def State.tWrite (s : State) (a : BitVec 16) (v : Word) : State :=
  { s with tmem := Store.put s.tmem a.toNat v, history := s.history ++ [.twrite a v] }

/-- Word writes in list order. -/
def State.tWriteAll (s : State) : List (BitVec 16 × Word) → State
  | [] => s
  | (a, v) :: l => (s.tWrite a v).tWriteAll l

/-- `Q[q][w] <- v` by an operation, recorded in the access history. -/
def State.qWrite (s : State) (q w : BitVec 4) (v : Word) : State :=
  { s with qmem := Store.put s.qmem (qmemIndex q w) v, history := s.history ++ [.qwrite q.toNat w.toNat v] }

/-- `QMEM[q]` word writes in list order. -/
def State.qWriteAll (s : State) (q : BitVec 4) : List (BitVec 4 × Word) → State
  | [] => s
  | (w, v) :: l => (s.qWrite q w v).qWriteAll q l

/-! ## Effects and responses (10_state R41, 30_encoding R102) -/

/-- `emit` (00_scope R9). -/
def State.emit (s : State) (e : Effect) : State := { s with trace := s.trace ++ [e] }

/-- Return a response on the response port (30_encoding R102). -/
def State.respond (s : State) (status : BitVec 8) (data : Word) : State :=
  { s with response := some { status := status, data := data } }

/-- The outcome of one operation. -/
abbrev Result := Host.Outcome State Fault Refusal

/-- `return STATUS = OK` with a `DATA` (30_encoding R102, R106). -/
def returnOk (data : Word) (s : State) : Result := .next (s.respond 0x00#8 data)

/-- The error codes of 30_encoding R106. -/
inductive ErrCode where
  | tableOverflow
  | codeOverflow
  | symbolOutOfRange
  | invalidTableTarget
  | invalidArgument
  | hardwareTransferError
  | busy
  | illegalCommand
deriving DecidableEq, Repr

/-- The number of an error (30_encoding R106). -/
def ErrCode.code : ErrCode → BitVec 8
  | .tableOverflow => 0x01#8
  | .codeOverflow => 0x02#8
  | .symbolOutOfRange => 0x03#8
  | .invalidTableTarget => 0x04#8
  | .invalidArgument => 0x05#8
  | .hardwareTransferError => 0x06#8
  | .busy => 0x07#8
  | .illegalCommand => 0xFF#8

/-! ## Taking an error (60_exceptions R291, R295, R296)

Taking an exception of this block saves no program counter and no status and switches no mode (R295): a synchronous error is
the `STATUS` of its command and `LAST_ERROR`; the asynchronous error stops the job. There is no return operation (R296). -/

/-- `raise` of a synchronous error: the command ends with that status, `DATA = 0`, and `LAST_ERROR` holds it
(60_exceptions R292, 45_register_access R286). -/
def raiseError (e : ErrCode) (s : State) : Result :=
  .next { s.respond e.code 0#32 with lastError := e.code }

/-- An illegal command (30_encoding R107). -/
def illegalCommand (s : State) : Result := raiseError .illegalCommand s

/-- `X.BUSY, X.ABORT_REQ, X.CPLT, X.ABORTED, X.ERR <- 0` (43_transfer_fsm R211, R226). -/
def Dma.stop (d : Dma) : Dma :=
  { d with busy := false, abortReq := false, cplt := false, aborted := false, err := false }

/-- `CTX` back to its idle defaults, keeping the two config-done flags (10_state R27). -/
def Ctx.idleDefaults (c : Ctx) : Ctx :=
  { c with op := none, method := none, pauseIn := false, pauseOut := false, ending := false }

/-- `StopAndReset()` (43_transfer_fsm R226). -/
def State.stopAndReset (s : State) : State :=
  { s with
    cr := .reset
    din := s.din.stop
    dout := s.dout.stop
    ctx := s.ctx.idleDefaults
    sr := { s.sr with eocf := false, hpdf := false }
    fsm := .idle }

/-- The asynchronous `HardwareTransferError` is taken (43_transfer_fsm R226): the body of `EV_ERR` but for its callback. -/
def State.takeTransferError (s : State) : State :=
  { ({ s with sr := { s.sr with errf := false } } : State).stopAndReset with
    lastError := ErrCode.hardwareTransferError.code }

/-- The end of an event handler (60_exceptions R296): nothing is restored; the harness's answer says which was taken. -/
def returnFromHandler (e : Event) (s : State) : Result := .next { s with lastEvent := .taken e }

/-! ## FIFOs (10_state R36) -/

/-- `push(IFIFO, w)` of the word of `bytes`, missing high lanes zero (20_memory R76). A padded word marks the end of the
input stream; input after it is the fault of 93_implementation_defined U12 (log 22). A mid-stream buffer of ragged length
whose tail never comes here as a padded word is no fault, whether the tail was rounded off and supplied again
(43_transfer_fsm R213, R223) or dropped with the buffer by a `WRD` under a pause, although 43_transfer_fsm R218, U12 and
60_exceptions R304 (g) speak of the length alone: the model's choice (log 39). -/
def pushInput (bytes : List Byte) (s : State) : Except Fault State :=
  if s.tailFed then .error .raggedMidStream
  else .ok { s with ififo := s.ififo ++ [wordOfBytes bytes], tailFed := decide (bytes.length < 4) }

/-! ## Pauses (43_transfer_fsm R231) -/

/-- `CTX.METHOD in {Poll, Interrupt}`. -/
def Ctx.fifoMethod (c : Ctx) : Bool :=
  match c.method with
  | some .poll => true
  | some .interrupt => true
  | some .dma => false
  | none => false

/-- `CTX.METHOD = DMA`. -/
def Ctx.dmaMethod (c : Ctx) : Bool :=
  match c.method with
  | some .poll => false
  | some .interrupt => false
  | some .dma => true
  | none => false

/-- `DoPause(Input)`. -/
def State.pauseInput (s : State) : State :=
  { s with
    ctx := { s.ctx with pauseIn := true }
    cr := if s.ctx.fifoMethod then { s.cr with ieIft := false, ieIfnf := false } else s.cr }

/-- `DoPause(Output)`. -/
def State.pauseOutput (s : State) : State :=
  { s with
    ctx := { s.ctx with pauseOut := true }
    cr := if s.ctx.fifoMethod then { s.cr with ieOft := false, ieOfne := false, ieEoc := false } else s.cr }

/-! ## DMA engines (43_transfer_fsm R213) -/

/-- The granularity in bytes. -/
def Gran.bytes : Gran → Nat
  | .four => 4
  | .thirtyTwo => 32

/-- `RoundDown(n, g) = n - n % g`. -/
def roundDown (n : Nat) (g : Gran) : Nat := n - n % Gran.bytes g

/-- The `DIN.LEN` that `PrimeIn` programs for `r` remaining bytes: rounded down, or the whole of a short remainder. -/
def primeLen (r : Nat) (g : Gran) : Nat := if Gran.bytes g ≤ r then roundDown r g else r

/-- `PrimeIn()`. -/
def State.primeIn (s : State) : State :=
  { s with
    din := { s.din with
      addr := s.desc.inAddr + s.desc.inOff
      len := BitVec.ofNat 32 (primeLen (s.desc.inLen.toNat - s.desc.inOff.toNat) s.cfg.granIn)
      done := 0#32
      busy := true } }

/-- `PrimeOut()`. -/
def State.primeOut (s : State) : State :=
  { s with
    dout := { s.dout with
      addr := s.desc.outAddr
      len := BitVec.ofNat 32 (roundDown s.desc.outLen.toNat s.cfg.granOut)
      done := 0#32
      busy := true } }

/-! ## `STATE` around a programming command (43_transfer_fsm R210) -/

/-- `STATE <- Configuring`: seen by no one, the command is one atomic step (R210). -/
def State.enterConfiguring (s : State) : State := { s with fsm := .configuring }

/-- `STATE <- Idle` at the end of a programming command. -/
def State.leaveConfiguring (s : State) : State := { s with fsm := .idle }

/-! ## Free values (00_scope R9 `draw`) -/

/-- Advance the draw counter past `n` draws. -/
def State.drew (s : State) (n : Nat) : State := { s with draws := s.draws + n }

end Sys2Proof.Machine
end

