-- ==== Sys2Proof/WellFormed.lean ====
section
/-! DEFINITION. Which operand values of an operation are legal (30_encoding R103); an operation with any other value is an
illegal command (30_encoding R107). Values that the operand types already rule out need no test here. -/

namespace Sys2Proof

/-- The legal range of `index` for a file of `LDB`, and of `q` inside `file` (30_encoding R103). -/
def LdbFile.indexOk (nq : Nat) (index : BitVec 8) : LdbFile → Bool
  | .bits _ => decide (index.toNat < 16)
  | .vals s => decide (index.toNat < s.size)
  | .baseline q => decide (index.toNat < 64) && decide (q.toNat < nq)

/-- The operation's operands are all legal, for `NQ = nq` (30_encoding R103). -/
def Instr.wellFormed (nq : Nat) : Instr → Bool
  | .ldb f index _ => f.indexOk nq index
  | .wrd _ _ => true
  | .build _ => true
  | .progc _ _ => true
  | .progr _ => true
  | .qgen q _ => decide (q.toNat < nq)
  | .qest q => decide (q.toNat < nq)
  | .start _ _ => true
  | .pause _ => true
  | .resume _ => true
  | .poll => true
  | .abort => true
  | .getinfo _ => true
  | .getstate => true
  | .geterr => true
  | .sbfill _ => true
  | .sbinit => true
  | .evErr => true
  | .evHpd => true
  | .evIn => true
  | .evOut => true
  | .evEoc => true
  | .evDmaInCplt => true
  | .evDmaOutCplt => true
  | .evDmaAbort => true

end Sys2Proof
end

