-- ==== Sys2Proof/Machine/Operands.lean ====
section
/-! DEFINITION. How operands reach the state: elements of the operand register files (10_state R20 to R23), the slots, the
code-table regions of `TMEM` (41_table_programmer R161), the streaming buffers, and the tests on buffers
(43_transfer_fsm R212, R218). -/

namespace Sys2Proof.Machine

open Sys2Proof

/-! ## Slots -/

/-- The element of a slot. -/
def PerSlot.get {α : Type} (p : PerSlot α) : Slot → α
  | .dc0 => p.dc0
  | .ac0 => p.ac0
  | .dc1 => p.dc1
  | .ac1 => p.ac1

/-- Replace the element of a slot. -/
def PerSlot.set {α : Type} (p : PerSlot α) (s : Slot) (x : α) : PerSlot α :=
  match s with
  | .dc0 => { p with dc0 := x }
  | .ac0 => { p with ac0 := x }
  | .dc1 => { p with dc1 := x }
  | .ac1 => { p with ac1 := x }

/-- All four bits are 1. -/
def PerSlot.all (p : PerSlot Bool) : Bool := p.dc0 && p.ac0 && p.dc1 && p.ac1

/-! ## Register elements -/

/-- The elements of a register file, if every one has been written (10_state R44). -/
def readAll {α : Type} : List (Option α) → Option (List α)
  | [] => some []
  | none :: _ => none
  | some x :: l => (readAll l).map (fun r => x :: r)

/-- `BASELINE[q]`; a `q` outside `0..NQ-1` has no elements. -/
def State.baselineOf (s : State) (q : BitVec 4) : List (Option Byte) := s.baseline.getD q.toNat []

/-! ## The code-table regions (41_table_programmer R161) -/

/-- The base of a code-table region (20_memory R71). -/
def encBase (c : Config) : Slot → BitVec 16
  | .dc0 => c.encDc0Base
  | .ac0 => c.encAc0Base
  | .dc1 => c.encDc1Base
  | .ac1 => c.encAc1Base

/-- `Target(addr)`: the region whose base is `addr`, tested in the order AC0, AC1, DC0, DC1. -/
def target (c : Config) (addr : BitVec 16) : Option Slot :=
  if addr = c.encAc0Base then some .ac0
  else if addr = c.encAc1Base then some .ac1
  else if addr = c.encDc0Base then some .dc0
  else if addr = c.encDc1Base then some .dc1
  else none

/-! ## Streaming buffers (10_state R38) -/

/-- The other buffer: `1 - i`. -/
def BufIdx.flip : BufIdx → BufIdx
  | .b0 => .b1
  | .b1 => .b0

/-- `SB[i]`. -/
def StreamBuffers.buf (b : StreamBuffers) : BufIdx → SbBuf
  | .b0 => b.buf0
  | .b1 => b.buf1

/-- Replace `SB[i]`. -/
def StreamBuffers.setBuf (b : StreamBuffers) (i : BufIdx) (x : SbBuf) : StreamBuffers :=
  match i with
  | .b0 => { b with buf0 := x }
  | .b1 => { b with buf1 := x }

/-- `SB[i].ADDR`. -/
def sbAddr (c : Config) : BufIdx → Word
  | .b0 => c.sb0Addr
  | .b1 => c.sb1Addr

/-! ## Tests on buffers -/

/-- When the task context may write the input descriptor (10_state R42, 45_register_access R281): in `Idle`, or while the
input is paused with no input block in flight. -/
def inputWritable (s : State) : Bool :=
  decide (s.fsm = .idle) || (s.ctx.pauseIn && !s.din.busy && !s.din.cplt)

/-- The buffer of `len` bytes at `addr` lies inside host memory (43_transfer_fsm R212 (d)). -/
def inHostSpace (addr len : Word) : Bool := decide (addr.toNat + len.toNat ≤ Config.hostSpace)

/-- `addr % 4 = 0` (43_transfer_fsm R212 (e)). -/
def wordAligned (addr : Word) : Bool := addr.toNat % 4 == 0

/-- The input buffer and the output buffer share a byte (20_memory R74). -/
def inOverlapsOut (d : Desc) : Bool :=
  !Config.disjoint d.inAddr.toNat d.inLen.toNat d.outAddr.toNat d.outLen.toNat

/-- The output buffer shares a byte with a streaming buffer (44_stream_buffers R270). -/
def outOverlapsSb (c : Config) (d : Desc) : Bool :=
  !(Config.disjoint d.outAddr.toNat d.outLen.toNat c.sb0Addr.toNat c.ibcap &&
    Config.disjoint d.outAddr.toNat d.outLen.toNat c.sb1Addr.toNat c.ibcap)

/-- `CheckArgs(method)` passes (43_transfer_fsm R212): none of (a) to (f) holds. -/
def checkArgs (c : Config) (d : Desc) (m : Method) : Bool :=
  d.inLen != 0#32 && d.outLen != 0#32 && d.outLen.toNat % 4 == 0 &&
  inHostSpace d.inAddr d.inLen && inHostSpace d.outAddr d.outLen &&
  match m with
  | .poll => true
  | .interrupt => true
  | .dma =>
    wordAligned d.inAddr && wordAligned d.outAddr &&
    decide (Gran.bytes c.granIn ≤ d.inLen.toNat) && decide (Gran.bytes c.granOut ≤ d.outLen.toNat)

/-- Overlapping buffers at `START` are a fault (43_transfer_fsm R212, 20_memory R74; log 19): input against output, and
output against each streaming buffer, whoever answers the callbacks. -/
def startOverlap (s : State) : Bool := inOverlapsOut s.desc || outOverlapsSb s.cfg s.desc

/-- The input buffer shares no byte with the streaming buffer at `base`, or is a part of it: what the Streaming Buffer Manager
supplies is one of its buffers or the rest of one (44_stream_buffers R272, R276). -/
def inFitsSb (c : Config) (d : Desc) (base : Word) : Bool :=
  Config.disjoint d.inAddr.toNat d.inLen.toNat base.toNat c.ibcap ||
  decide (base.toNat ≤ d.inAddr.toNat ∧ d.inAddr.toNat + d.inLen.toNat ≤ base.toNat + c.ibcap)

/-- The input buffer overlaps a streaming buffer without being a part of it (20_memory R74, 60_exceptions R304 (e)). -/
def inOverlapsSb (c : Config) (d : Desc) : Bool := !(inFitsSb c d c.sb0Addr && inFitsSb c d c.sb1Addr)

/-- The fault, if any, of the input descriptor of a running job (43_transfer_fsm R218, 60_exceptions R304 (e)): outside
host memory, misaligned in method DMA, or overlapping another buffer of 20_memory R74, which is the output buffer or a
streaming buffer. That a part of one streaming buffer is that buffer and no overlap with it, whoever supplies it, is
the model's reading (log 36). -/
def inputFault (s : State) : Option Fault :=
  if !inHostSpace s.desc.inAddr s.desc.inLen then some .badBuffer
  else if s.ctx.dmaMethod && !wordAligned s.desc.inAddr then some .badBuffer
  else if inOverlapsOut s.desc || inOverlapsSb s.cfg s.desc then some .bufferOverlap
  else none

end Sys2Proof.Machine
end

