-- ==== Sys2Proof/Machine/Flags.lean ====
section
/-! DEFINITION. The flags: the FIFO level flags (10_state R30), the packings of `CTX`, `CR` and `SR` (10_state R26, R28,
R29), the config-done flag (41_table_programmer R171), and which events are eligible, in which order (43_transfer_fsm R214). -/

namespace Sys2Proof.Machine

open Sys2Proof

/-! ## FIFO level flags (10_state R30) -/

/-- `IFTF`. -/
def iftf (s : State) : Bool := decide (Config.thWords ≤ s.cfg.fifoDepth - s.ififo.length)
/-- `IFNFF`. -/
def ifnff (s : State) : Bool := decide (s.ififo.length < s.cfg.fifoDepth)
/-- `OFTF`. -/
def oftf (s : State) : Bool := decide (Config.thWords ≤ s.ofifo.length)
/-- `OFNEF`. -/
def ofnef (s : State) : Bool := decide (1 ≤ s.ofifo.length)

/-! ## Packings -/

/-- Bit `n` of a word, set when `b`. -/
def bitAt (b : Bool) (n : Nat) : Word := if b then 1#32 <<< n else 0#32

/-- `STATE` as its number (10_state R24). -/
def Fsm.code : Fsm → Word
  | .idle => 0#32
  | .configuring => 1#32
  | .polling => 2#32
  | .interrupting => 3#32
  | .dmaActive => 4#32
  | .draining => 5#32

/-- `CTX.OP` as its number (10_state R26). -/
def opCode : Option JobOp → Word
  | none => 0#32
  | some .encode => 1#32
  | some .decode => 2#32

/-- `CTX.METHOD` as its number (10_state R26). -/
def methodCode : Option Method → Word
  | none => 0#32
  | some .poll => 1#32
  | some .interrupt => 2#32
  | some .dma => 3#32

/-- `CTX[15:0]` (10_state R26). -/
def Ctx.pack (c : Ctx) : Word :=
  opCode c.op ||| (methodCode c.method <<< 2) ||| bitAt c.cfgHuff 8 ||| bitAt c.cfgQuant 9 |||
  bitAt c.pauseIn 12 ||| bitAt c.pauseOut 13 ||| bitAt c.ending 15

/-- `CR` (10_state R28). -/
def Cr.pack (c : Cr) : Word :=
  bitAt c.run 0 ||| bitAt c.ieIft 1 ||| bitAt c.ieIfnf 2 ||| bitAt c.ieOft 3 ||| bitAt c.ieOfne 4 |||
  bitAt c.ieEoc 5 ||| bitAt c.ieHpd 6 ||| bitAt c.ieErr 7 ||| bitAt c.dmaInEn 11 ||| bitAt c.dmaOutEn 12

/-- `SR` (10_state R29): the four level flags and the three latched ones. -/
def packSr (s : State) : Word :=
  bitAt (iftf s) 1 ||| bitAt (ifnff s) 2 ||| bitAt (oftf s) 3 ||| bitAt (ofnef s) 4 |||
  bitAt s.sr.eocf 5 ||| bitAt s.sr.hpdf 6 ||| bitAt s.sr.errf 8

/-- `INFO.COLORSPACE` as its number (10_state R32). -/
def ColorSpace.code : ColorSpace → Word
  | .grayscale => 0#32
  | .ycbcr => 1#32
  | .cmyk => 2#32

/-- `INFO.CHROMA` as its number (10_state R32). -/
def Chroma.code : Chroma → Word
  | .c444 => 0#32
  | .c420 => 1#32
  | .c422 => 2#32

/-! ## The config-done flag (41_table_programmer R171) -/

/-- `CTX.CFG_HUFF <- (all eight bits are 1)`. -/
def State.refreshCfgHuff (s : State) : State :=
  { s with ctx := { s.ctx with cfgHuff := s.prgRaw.all && s.prgEnc.all } }

/-! ## Event eligibility (43_transfer_fsm R214) -/

/-- The event's code (30_encoding R105). -/
def Event.code : Event → Nat
  | .err => 1
  | .hpd => 2
  | .inp => 3
  | .out => 4
  | .eoc => 5
  | .dmaInCplt => 6
  | .dmaOutCplt => 7
  | .dmaAbort => 8

/-- The eligibility condition of an event; with `CTX.METHOD = None` none is eligible. -/
def eligible (e : Event) (s : State) : Bool :=
  s.ctx.method.isSome &&
  match e with
  | .err => s.cr.ieErr && (s.sr.errf || s.din.err || s.dout.err)
  | .hpd => s.cr.ieHpd && s.sr.hpdf
  | .dmaInCplt => s.ctx.dmaMethod && s.din.cplt
  | .dmaOutCplt => s.ctx.dmaMethod && s.dout.cplt
  | .inp => s.ctx.fifoMethod && s.cr.run && !s.ctx.pauseIn && ((s.cr.ieIft && iftf s) || (s.cr.ieIfnf && ifnff s))
  | .out => s.ctx.fifoMethod && s.cr.run && !s.ctx.pauseOut && ((s.cr.ieOft && oftf s) || (s.cr.ieOfne && ofnef s))
  | .eoc => s.cr.ieEoc && s.sr.eocf && !s.ctx.ending && !s.ctx.pauseOut
  | .dmaAbort => s.ctx.ending && (s.din.aborted || s.dout.aborted)

/-- The order of the table of 43_transfer_fsm R214. -/
def eventOrder : List Event := [.err, .hpd, .dmaInCplt, .dmaOutCplt, .inp, .out, .eoc, .dmaAbort]

/-- An event record of the replay harness is taken where its event is eligible (30_encoding R105), but in method `Poll`,
where eligible events are handled only inside `POLL` (43_transfer_fsm R214), and but for `EV_EOC` and `EV_DMA_ABORT` before
a pending `EV_DMA_OUT_CPLT`: their handlers stand on `DOUT.CPLT = 0` (43_transfer_fsm R225). Log 11. -/
def recordTaken (e : Event) (s : State) : Bool :=
  decide (s.ctx.method ≠ some .poll) && eligible e s &&
  !((decide (e = .eoc) || decide (e = .dmaAbort)) && eligible .dmaOutCplt s)

/-- The event agent `IRQ` takes: the first eligible one, and none in method `Poll`, where `IRQ` never steps. -/
def irqEvent (s : State) : Option Event :=
  if s.ctx.method = some .poll then none else eventOrder.find? (fun e => eligible e s)

end Sys2Proof.Machine
end

