-- ==== Sys2Proof/Machine/Callbacks.lean ====
section
/-! DEFINITION. The five callbacks (10_state R41): `REFILL` (43_transfer_fsm R218) and `DRAIN` (R219) with their replies,
answered by the Streaming Buffer Manager (44_stream_buffers R270, R272) or by a host outside the block; and `INFO_READY`,
`DONE` and `ERROR`, which have none. -/

namespace Sys2Proof.Machine

open Sys2Proof

/-! ## Replies -/

/-- The manager's reply to `REFILL(consumed)` (44_stream_buffers R272), by its pseudocode in every state: also where the manager
still waits (`SB_WAIT = 1`) and the caller has resumed the input itself (43_transfer_fsm R231), so that the buffer read is one
already emptied. The invariants (c) to (e) of 44_stream_buffers R274 then do not hold, though R274 claims them of every
reachable state; that the pseudocode is followed there is the model's choice (log 40). -/
def managerRefill (consumed : Word) (s : State) : RefillReply × State :=
  let off := s.sb.off + consumed
  let rd := s.sb.rd
  let cur := s.sb.buf rd
  if off.toNat < cur.len.toNat then
    (.supply (sbAddr s.cfg rd + off) (cur.len - off), { s with sb := { s.sb with off := off } })
  else
    let sb := { s.sb.setBuf rd { cur with full := false } with off := 0#32, rd := rd.flip }
    let other := sb.buf rd.flip
    if other.full then (.supply (sbAddr s.cfg rd.flip) other.len, { s with sb := sb })
    else (.pause, { s with sb := { sb with wait := true } })

/-- The reply of a host outside the block: the next listed one, else a free one (log 8). -/
def outsideRefill (s : State) : RefillReply × State :=
  match s.host.refillReplies with
  | r :: rs => (r, { s with host := { s.host with refillReplies := rs } })
  | [] =>
    (if Config.refillPauses s.draws then .pause else .supply (Config.refillAddr s.draws) (Config.refillLen s.draws), s.drew 1)

/-- The host's reply to `REFILL(consumed)`. -/
def refillReply (consumed : Word) (s : State) : RefillReply × State :=
  if s.host.managed then managerRefill consumed s else outsideRefill s

/-- The host's reply to `DRAIN`: the manager's is always `Continue` (44_stream_buffers R270); another host's is the next
listed one, else a free one (log 8). -/
def drainReply (s : State) : DrainReply × State :=
  if s.host.managed then (.proceed, s)
  else
    match s.host.drainReplies with
    | r :: rs => (r, { s with host := { s.host with drainReplies := rs } })
    | [] => (if Config.drainPauses s.draws then .pause else .proceed, s.drew 1)

/-! ## The callbacks -/

/-- What `Refill()` does with the reply (43_transfer_fsm R218): a supplied buffer that breaks R212 (d), (e) or overlaps is a
fault; one of length 0 is a pause. -/
def takeRefill (r : RefillReply) (s : State) : Except Fault State :=
  match r with
  | .supply addr len =>
    let t : State := { s with desc := { s.desc with inAddr := addr, inLen := len, inOff := 0#32 } }
    match inputFault t with
    | some f => .error f
    | none => .ok (if len = 0#32 then t.pauseInput else t)
  | .pause => .ok ({ s with desc := { s.desc with inLen := 0#32, inOff := 0#32 } } : State).pauseInput
  | .command => .error .commandInCallback

/-- `Refill()` (43_transfer_fsm R218). -/
def refill (s : State) : Except Fault State :=
  let p := refillReply s.desc.inOff (s.emit (.refill s.desc.inOff))
  takeRefill p.1 p.2

/-- `emit DRAIN(addr, len)` and the host's reply (43_transfer_fsm R219): whether it asked for a pause. -/
def drain (addr len : Word) (s : State) : Except Fault (Bool × State) :=
  let p := drainReply (s.emit (.drain addr len (readBytes s.hmem addr.toNat len.toNat)))
  match p.1 with
  | .proceed => .ok (false, p.2)
  | .pause => .ok (true, p.2)
  | .command => .error .commandInCallback

/-- `emit` of a callback without a reply, `INFO_READY`, `DONE` or `ERROR` (10_state R41): a command issued from inside it is a
fault (60_exceptions R296, log 30). -/
def notify (e : Effect) (s : State) : Except Fault State :=
  if s.host.notices.head? = some .command then .error .commandInCallback
  else .ok { s.emit e with host := { s.host with notices := s.host.notices.tail } }

end Sys2Proof.Machine
end

