-- ==== Sys2Proof/Machine/Transfer.lean ====
section
/-! DEFINITION. The helper procedures of the Transfer State Machine (43_transfer_fsm): the output drain path `StoreWords`,
the input pump path `FeedWords`, `Complete`, `Finish` and the two halves of `DoResume`. -/

namespace Sys2Proof.Machine

open Sys2Proof

/-! ## The output drain path (43_transfer_fsm R237) -/

/-- The drain of a full output buffer: `DRAIN(OUT_ADDR, OUT_LEN)`, `OUT_OFF <- 0`, and a pause if the reply asks for one. -/
def drainFull (s : State) : Except Fault State := do
  let p ← drain s.desc.outAddr s.desc.outLen s
  let t : State := { p.2 with desc := { p.2.desc with outOff := 0#32 } }
  pure (if p.1 then t.pauseOutput else t)

/-- One word of `StoreWords`: the popped word `w` goes to `OUT_ADDR + OUT_OFF`, and a buffer that is now full is drained. -/
def storeWord (w : Word) (s : State) : Except Fault State := do
  let t ← memWrite (s.desc.outAddr.toNat + s.desc.outOff.toNat) (bytesOfWord w) s
  let u : State := { t with desc := { t.desc with outOff := t.desc.outOff + 4#32 } }
  if u.desc.outOff = u.desc.outLen then drainFull u else pure u

/-- `StoreWords(n)` (43_transfer_fsm R237). -/
def storeWords : Nat → State → Except Fault State
  | 0, s => .ok s
  | n + 1, s =>
    if s.ctx.pauseOut then .ok s
    else
      match s.ofifo with
      | [] => .ok s
      | w :: rest => do
        let t ← storeWord w { s with ofifo := rest }
        storeWords n t

/-! ## The input pump path (43_transfer_fsm R238) -/

/-- Feed one FIFO word from the next `m` bytes of the input buffer. -/
def feedWord (m : Nat) (s : State) : Except Fault State := do
  let b ← memRead (s.desc.inAddr.toNat + s.desc.inOff.toNat) m s
  let t ← pushInput b s
  pure { t with desc := { t.desc with inOff := t.desc.inOff + BitVec.ofNat 32 m } }

/-- Feed `n` whole words. -/
def feedWhole : Nat → State → Except Fault State
  | 0, s => .ok s
  | n + 1, s => do
    let t ← feedWord 4 s
    feedWhole n t

/-- The bytes of the input buffer not fed yet. -/
def inAvail (s : State) : Nat := s.desc.inLen.toNat - s.desc.inOff.toNat

/-- `FeedWords(nreq)` after the refill: up to `nreq` whole words, or the tail of 1 to 3 bytes as one padded word. -/
def feedAvail (nreq : Nat) (s : State) : Except Fault State :=
  if 0 < min nreq (inAvail s / 4) then feedWhole (min nreq (inAvail s / 4)) s else feedWord (inAvail s) s

/-- `FeedWords(nreq)` (43_transfer_fsm R238). -/
def feedWords (nreq : Nat) (s : State) : Except Fault State := do
  let t ← if s.desc.inOff = s.desc.inLen then refill s else pure s
  if t.ctx.pauseIn then pure t else feedAvail nreq t

/-! ## Completion (43_transfer_fsm R221, R222) -/

/-- The "final drain callback" of `Complete()`: its reply is ignored, a command from inside it is still a fault. -/
def finalDrain (s : State) : Except Fault State :=
  if s.desc.outOff = 0#32 then .ok s
  else do
    let p ← drain s.desc.outAddr s.desc.outOff s
    pure { p.2 with desc := { p.2.desc with outOff := 0#32 } }

/-- The engine's event bits after `Complete()`: `X.CPLT, X.ABORTED, X.ABORT_REQ <- 0`. -/
def Dma.complete (d : Dma) : Dma := { d with cplt := false, aborted := false, abortReq := false }

/-- `Complete()` between its final drain and its `DONE`. -/
def State.endJob (s : State) : State :=
  { s with
    ctx := s.ctx.idleDefaults
    sr := { s.sr with eocf := false, hpdf := false }
    din := s.din.complete
    dout := s.dout.complete
    fsm := .idle }

/-- `Complete()` (43_transfer_fsm R222). -/
def complete (s : State) : Except Fault State := do
  let t ← finalDrain s
  notify (.done t.ctx.op) t.endJob

/-- `Finish()` (43_transfer_fsm R221). Its loop of at most `FIFO_DEPTH` times `StoreWords(1)`, left under an output pause
or at an empty FIFO, is `StoreWords(FIFO_DEPTH)`: the source's "via the same path". -/
def finish (s : State) : Except Fault State := do
  let t ← storeWords s.cfg.fifoDepth s
  if t.ofifo.isEmpty then complete t else pure t

/-! ## Resuming (43_transfer_fsm R231) -/

/-- `DoResume(Input)`; `none` where it raises `InvalidArgument`, with nothing changed. -/
def resumeInput (s : State) : Option State :=
  if !s.ctx.pauseIn then some s
  else if s.ctx.dmaMethod && !s.ctx.ending && s.desc.inOff == s.desc.inLen then none
  else
    let t : State := { s with ctx := { s.ctx with pauseIn := false } }
    if s.ctx.ending then some t
    else if s.ctx.fifoMethod then some { t with cr := { t.cr with ieIft := true, ieIfnf := true } }
    else if s.ctx.dmaMethod && !s.din.busy && !s.din.cplt then some t.primeIn
    else some t

/-- `DoResume(Output)`. -/
def resumeOutput (s : State) : Except Fault State :=
  if !s.ctx.pauseOut then .ok s
  else
    let t : State := { s with ctx := { s.ctx with pauseOut := false } }
    if s.ctx.ending then finish t
    else if s.ctx.fifoMethod then .ok { t with cr := { t.cr with ieOft := true, ieOfne := true, ieEoc := true } }
    else if s.ctx.dmaMethod && !s.dout.busy && !s.dout.cplt then .ok t.primeOut
    else .ok t

end Sys2Proof.Machine
end

