-- ==== Sys2Proof/Machine/Handlers.lean ====
section
/-! DEFINITION. The bodies of the eight event handlers (43_transfer_fsm R215 to R226), run by the interrupt context and,
five of them, by `POLL`. -/

namespace Sys2Proof.Machine

open Sys2Proof

/-! ## Header parsed (43_transfer_fsm R215) -/

/-- Component count to colour space; other counts leave it unchanged. -/
def headerColor (h : Hdr) (old : ColorSpace) : ColorSpace :=
  if h.ncomp = 1#3 then .grayscale
  else if h.ncomp = 3#3 then .ycbcr
  else if h.ncomp = 4#3 then .cmyk
  else old

/-- Block counts to chroma subsampling. -/
def headerChroma (h : Hdr) : Chroma :=
  if (h.ncomp = 3#3 ∨ h.ncomp = 4#3) ∧ h.nb0 = 2#4 ∧ h.nb1 = 1#4 ∧ h.nb2 = 1#4 then .c422
  else if (h.ncomp = 3#3 ∨ h.ncomp = 4#3) ∧ h.nb0 = 4#4 ∧ h.nb1 = 1#4 ∧ h.nb2 = 1#4 then .c420
  else .c444

/-- `INFO` as `EV_HPD` populates it. -/
def headerInfo (h : Hdr) (old : Info) : Info where
  width := h.width
  height := h.height
  colorspace := headerColor h old.colorspace
  chroma := headerChroma h
  quality := 0#7

/-- `EV_HPD` (43_transfer_fsm R215). -/
def handleHpd (s : State) : Except Fault State :=
  notify .infoReady { s with
    info := headerInfo s.hdr s.info
    cr := { s.cr with ieHpd := false }
    sr := { s.sr with hpdf := false } }

/-! ## FIFO thresholds (43_transfer_fsm R216, R217) -/

/-- The words `EV_OUT` moves: the threshold arm is preferred. -/
def outCount (s : State) : Nat := if s.cr.ieOft && oftf s then Config.thWords else 1

/-- `EV_OUT` (43_transfer_fsm R216). -/
def handleOut (s : State) : Except Fault State := storeWords (outCount s) s

/-- The words `EV_IN` asks for. -/
def inCount (s : State) : Nat := if s.cr.ieIft && iftf s then Config.thWords else 1

/-- `EV_IN` (43_transfer_fsm R217). -/
def handleIn (s : State) : Except Fault State := feedWords (inCount s) s

/-! ## End of conversion (43_transfer_fsm R220, R225) -/

/-- The control register after `EV_EOC`: the run bit, every interrupt source and both DMA enables clear. -/
def State.stopSources (s : State) : State :=
  { s with
    cr := .reset
    ctx := { s.ctx with ending := true }
    fsm := .draining }

/-- `if X.BUSY = 1: X.ABORT_REQ <- 1`. -/
def Dma.requestAbort (d : Dma) : Dma := if d.busy then { d with abortReq := true } else d

/-- `OUT_OFF <- DOUT.DONE; Finish()`. -/
def finishFromDma (s : State) : Except Fault State :=
  finish { s with desc := { s.desc with outOff := s.dout.done } }

/-- `EV_EOC` (43_transfer_fsm R220). -/
def handleEoc (s : State) : Except Fault State :=
  let t := s.stopSources
  if t.ctx.dmaMethod then
    let u : State := { t with din := t.din.requestAbort, dout := t.dout.requestAbort }
    if u.din.busy || u.dout.busy then .ok u else finishFromDma u
  else finish t

/-- `EV_DMA_ABORT` (43_transfer_fsm R225). -/
def handleDmaAbort (s : State) : Except Fault State :=
  let t : State := { s with din := { s.din with aborted := false }, dout := { s.dout with aborted := false } }
  if t.din.busy || t.dout.busy then .ok t else finishFromDma t

/-! ## DMA completions (43_transfer_fsm R223, R224) -/

/-- `EV_DMA_IN_CPLT` (43_transfer_fsm R223). -/
def handleDmaInCplt (s : State) : Except Fault State := do
  let t ← refill { s with
    din := { s.din with cplt := false }
    desc := { s.desc with inOff := s.desc.inOff + s.din.len } }
  pure (if !t.ctx.pauseIn && !t.ctx.ending && t.cr.run && decide (0 < t.desc.inLen.toNat) then t.primeIn else t)

/-- `EV_DMA_OUT_CPLT` (43_transfer_fsm R224). -/
def handleDmaOutCplt (s : State) : Except Fault State := do
  let p ← drain s.desc.outAddr s.dout.len { s with dout := { s.dout with cplt := false } }
  let t : State := { p.2 with dout := { p.2.dout with done := 0#32 }, desc := { p.2.desc with outOff := 0#32 } }
  let u : State := if p.1 then t.pauseOutput else t
  pure (if !u.ctx.pauseOut && !u.ctx.ending && u.cr.run then u.primeOut else u)

/-! ## Transfer error (43_transfer_fsm R226) -/

/-- `EV_ERR` (43_transfer_fsm R226). -/
def handleErr (s : State) : Except Fault State := notify (.error ErrCode.hardwareTransferError.code) s.takeTransferError

/-! ## Entry (60_exceptions R295) and the interrupt context's step -/

/-- An event (60_exceptions R295): its handler runs to its end where its record is taken; else it is refused, with no
change of the block (30_encoding R105, logs 11 and 12). -/
def takeEvent (e : Event) (handler : State → Except Fault State) (s : State) : Result :=
  if recordTaken e s then
    match handler s with
    | .ok t => returnFromHandler e t
    | .error f => .fault f
  else .next { s with lastEvent := .refused }

end Sys2Proof.Machine
end

