-- ==== Sys2Proof/Machine/Events.lean ====
section
/-! DEFINITION. The meanings of the eight event records (30_encoding R105). -/

namespace Sys2Proof.Machine

open Sys2Proof

/-- `EV_ERR` (43_transfer_fsm R226). -/
def execEvErr (s : State) : Result := takeEvent .err handleErr s

/-- `EV_HPD` (43_transfer_fsm R215). -/
def execEvHpd (s : State) : Result := takeEvent .hpd handleHpd s

/-- `EV_IN` (43_transfer_fsm R217). -/
def execEvIn (s : State) : Result := takeEvent .inp handleIn s

/-- `EV_OUT` (43_transfer_fsm R216). -/
def execEvOut (s : State) : Result := takeEvent .out handleOut s

/-- `EV_EOC` (43_transfer_fsm R220). -/
def execEvEoc (s : State) : Result := takeEvent .eoc handleEoc s

/-- `EV_DMA_IN_CPLT` (43_transfer_fsm R223). -/
def execEvDmaInCplt (s : State) : Result := takeEvent .dmaInCplt handleDmaInCplt s

/-- `EV_DMA_OUT_CPLT` (43_transfer_fsm R224). -/
def execEvDmaOutCplt (s : State) : Result := takeEvent .dmaOutCplt handleDmaOutCplt s

/-- `EV_DMA_ABORT` (43_transfer_fsm R225). -/
def execEvDmaAbort (s : State) : Result := takeEvent .dmaAbort handleDmaAbort s

end Sys2Proof.Machine
end

