-- ==== Sys2Proof/Machine/Quantization.lean ====
section
/-! DEFINITION. The Quantization Table Generator (42_quantization): the meanings of `QGEN` and `QEST`. All arithmetic is on
naturals with truncating division. -/

namespace Sys2Proof.Machine

open Sys2Proof

/-! ## QGEN (42_quantization R190 to R194) -/

/-- `Scale(quality)`; `none` is the error arm (42_quantization R191). -/
def qualityScale (quality : Nat) : Option Nat :=
  if 50 ≤ quality ∧ quality ≤ 100 then some (200 - 2 * quality)
  else if 1 ≤ quality ∧ quality ≤ 49 then some (5000 / quality)
  else none

/-- `Clamp(x)` (42_quantization R193). -/
def clampValue (x : Nat) : Nat := if x < 1 then 1 else if 255 < x then 255 else x

/-- `v[i]` for a baseline element: `Clamp((b * s + 50) / 100)` (42_quantization R193). -/
def quantValue (b scale : Nat) : Byte := BitVec.ofNat 8 (clampValue ((b * scale + 50) / 100))

/-- The baseline element of zig-zag position `i` (42_quantization R192). -/
def zigzagElem (c : Config) (base : List Byte) (i : Nat) : Byte := base.getD (c.zigzag.getD i 0) 0#8

/-- Word `w` of the table: position `4w + j` in lane `j` (42_quantization R194). -/
def quantWord (c : Config) (base : List Byte) (scale w : Nat) : Word :=
  wordOfBytes ((List.range 4).map (fun j => quantValue (zigzagElem c base (4 * w + j)).toNat scale))

/-- The sixteen words in ascending order. -/
def quantWords (c : Config) (base : List Byte) (scale : Nat) : List (BitVec 4 × Word) :=
  (List.range 16).map (fun w => (BitVec.ofNat 4 w, quantWord c base scale w))

/-- `QGEN` once the scale and the baseline are known. -/
def programQuant (q : BitVec 4) (base : List Byte) (scale : Nat) (s : State) : State :=
  let u := s.enterConfiguring.qWriteAll q (quantWords s.cfg base scale)
  ({ u with ctx := { u.ctx with cfgQuant := true } } : State).leaveConfiguring

/-- `QGEN q, quality` (42_quantization R190). The quality is tested before the baseline is read (log 18). A `q` outside
`0..NQ-1` is an illegal command (42_quantization R196 (f)). -/
def execQgen (q : BitVec 4) (quality : BitVec 8) (s : State) : Result :=
  if !Instr.wellFormed s.cfg.nq (.qgen q quality) then illegalCommand s
  else if s.fsm ≠ .idle then .fault .programmingOutsideIdle
  else
    match qualityScale quality.toNat with
    | none => raiseError .invalidArgument s
    | some scale =>
      match readAll (s.baselineOf q) with
      | none => .fault .unwrittenOperand
      | some base => returnOk 0#32 (programQuant q base scale s)

/-! ## QEST (42_quantization R195, R197) -/

/-- The contribution of one element; `none` where a value other than 1 stands over a zero baseline element. -/
def contribution (v b : Nat) : Option Nat :=
  if v = 1 then some 100
  else if b = 0 then none
  else if v * 100 / b ≤ 100 then some ((200 - v * 100 / b) / 2)
  else some (5000 / (v * 100 / b))

/-- The sum of contributions of the listed positions. -/
def contributionSum (value baseline : Nat → Nat) : List Nat → Option Nat
  | [] => some 0
  | i :: is =>
    (contribution (value i) (baseline i)).bind (fun c => (contributionSum value baseline is).map (fun r => c + r))

/-- The value read back at zig-zag position `i`: lane `i % 4` of word `i / 4`. -/
def readBack (s : State) (q : BitVec 4) (i : Nat) : Nat :=
  ((readQmem s q (BitVec.ofNat 4 (i / 4))).extractLsb' (8 * (i % 4)) 8).toNat

/-- The estimate `sum / 64`; `none` where an element divides by zero (42_quantization R195). -/
def estimate (s : State) (q : BitVec 4) (base : List Byte) : Option Nat :=
  (contributionSum (readBack s q) (fun i => (zigzagElem s.cfg base i).toNat) (List.range 64)).map (fun n => n / 64)

/-- `QEST q` (42_quantization R195). A `q` outside `0..NQ-1` is an illegal command (30_encoding R107). -/
def execQest (q : BitVec 4) (s : State) : Result :=
  if !Instr.wellFormed s.cfg.nq (.qest q) then illegalCommand s
  else if s.fsm ≠ .idle then .fault .programmingOutsideIdle
  else
    match readAll (s.baselineOf q) with
    | none => .fault .unwrittenOperand
    | some base =>
      match estimate s q base with
      | none => .fault .divideByZero
      | some r =>
        returnOk ((BitVec.ofNat 7 r).setWidth 32) { s with info := { s.info with quality := BitVec.ofNat 7 r } }

end Sys2Proof.Machine
end

