-- ==== Sys2Proof/Machine/Registers.lean ====
section
/-! DEFINITION. Register load and read-out (45_register_access): the meanings of `LDB`, `WRD`, `GETINFO`, `GETSTATE` and
`GETERR`. -/

namespace Sys2Proof.Machine

open Sys2Proof

/-! ## LDB (45_register_access R280) -/

/-- What every load into an `HSPEC` file clears: the slot's `VALID`, the eight programmed bits, `CTX.CFG_HUFF`. -/
def State.specChanged (s : State) (slot : Slot) : State :=
  { s with
    hct := s.hct.set slot { s.hct.get slot with valid := false }
    prgRaw := .const false
    prgEnc := .const false
    ctx := { s.ctx with cfgHuff := false } }

/-- The load of one element. -/
def loadByte (file : LdbFile) (index : Nat) (data : Byte) (s : State) : State :=
  match file with
  | .bits slot =>
    let h := s.hspec.get slot
    ({ s with hspec := s.hspec.set slot { h with bits := h.bits.set index (some data) } } : State).specChanged slot
  | .vals slot =>
    let h := s.hspec.get slot
    ({ s with hspec := s.hspec.set slot { h with vals := h.vals.set index (some data) } } : State).specChanged slot
  | .baseline q =>
    { s with
      baseline := s.baseline.set q.toNat ((s.baselineOf q).set index (some data))
      ctx := { s.ctx with cfgQuant := false } }

/-- `LDB file, index, data` (45_register_access R280). An out-of-range `file` or `index` is an illegal command
(30_encoding R107). -/
def execLdb (file : LdbFile) (index : BitVec 8) (data : Byte) (s : State) : Result :=
  if !Instr.wellFormed s.cfg.nq (.ldb file index data) then illegalCommand s
  else if s.fsm ≠ .idle then .fault .programmingOutsideIdle
  else returnOk 0#32 (loadByte file index.toNat data s)

/-! ## WRD (45_register_access R281) -/

/-- The end of a `WRD` to the input descriptor: in a job, a descriptor that breaks 43_transfer_fsm R218 is a fault. -/
def finishInputWrite (s : State) : Result :=
  if s.fsm = .idle then returnOk 0#32 s
  else
    match inputFault s with
    | some f => .fault f
    | none => returnOk 0#32 s

/-- `WRD reg, value` (45_register_access R281). -/
def execWrd (reg : DescReg) (value : Word) (s : State) : Result :=
  match reg with
  | .inAddr =>
    if inputWritable s then finishInputWrite { s with desc := { s.desc with inAddr := value, inOff := 0#32 } }
    else raiseError .busy s
  | .inLen =>
    if inputWritable s then finishInputWrite { s with desc := { s.desc with inLen := value, inOff := 0#32 } }
    else raiseError .busy s
  | .outAddr =>
    if s.fsm = .idle then returnOk 0#32 { s with desc := { s.desc with outAddr := value, outOff := 0#32 } }
    else raiseError .busy s
  | .outLen =>
    if s.fsm = .idle then returnOk 0#32 { s with desc := { s.desc with outLen := value, outOff := 0#32 } }
    else raiseError .busy s

/-! ## Read-outs (45_register_access R282 to R285) -/

/-- The two packed words of `INFO` (45_register_access R283). -/
def infoWord (sel : InfoSel) (i : Info) : Word :=
  match sel with
  | .dimensions => i.height ++ i.width
  | .attributes => i.quality.setWidth 32 ||| (i.colorspace.code <<< 8) ||| (i.chroma.code <<< 12)

/-- `GETINFO sel` (45_register_access R283). -/
def execGetinfo (sel : InfoSel) (s : State) : Result := returnOk (infoWord sel s.info) s

/-- `DATA` of `GETSTATE` (45_register_access R284, 30_encoding R112). -/
def stateWord (s : State) : Word := s.fsm.code ||| (s.ctx.pack <<< 16)

/-- `GETSTATE` (45_register_access R284). -/
def execGetstate (s : State) : Result := returnOk (stateWord s) s

/-- `GETERR` (45_register_access R285). -/
def execGeterr (s : State) : Result := returnOk (s.lastError.setWidth 32) s

end Sys2Proof.Machine
end

