-- ==== Sys2Proof/Machine/Streaming.lean ====
section
/-! DEFINITION. The Streaming Buffer Manager's commands (44_stream_buffers): the meanings of `SBINIT` and `SBFILL`, and the
second atomic step of an `SBFILL`. The manager's reply to `REFILL` is in Callbacks. -/

namespace Sys2Proof.Machine

open Sys2Proof

/-- `SBINIT` (44_stream_buffers R271). -/
def execSbinit (s : State) : Result :=
  if s.fsm ≠ .idle then raiseError .busy s
  else returnOk 0#32 { s with sb := { StreamBuffers.reset with filling := s.sb.filling } }

/-! ## SBFILL (44_stream_buffers R273) -/

/-- In a job the manager waits for buffer `i`: the test of step 2. -/
def sbAwaits (i : BufIdx) (s : State) : Bool := s.sb.wait && decide (s.sb.rd = i) && decide (s.fsm ≠ .idle)

/-- The `len` bytes the byte source returns; where fewer are listed, the rest are free values (log 10). -/
def sourceBytes (s : State) (len : Nat) : List Byte :=
  (List.range len).map (fun i => s.host.source.getD i (Config.sourceFree (s.draws + i)))

/-- The byte source after `len` bytes. -/
def State.sourceTaken (s : State) (len : Nat) : State :=
  { s with host := { s.host with source := s.host.source.drop len }, draws := s.draws + len }

/-- Step 1 once accepted: the bytes, `LEN`, `FULL`, the flip of `WR`; the command has returned nothing yet. -/
def sbfillStep1 (len : Word) (s : State) : Except Fault State := do
  let i := s.sb.wr
  let t ← memWrite (sbAddr s.cfg i).toNat (sourceBytes s len.toNat) (s.sourceTaken len.toNat)
  pure { t with
    sb := { s.sb.setBuf i { full := true, len := len } with wr := i.flip, filling := some i }
    response := none }

/-- `SBFILL len` (44_stream_buffers R273): its first atomic step, which fills the buffer at `WR` whenever it is empty. All that can
fail is tested here, before the first write, so a failed command has no effect (60_exceptions R292). -/
def execSbfill (len : Word) (s : State) : Result :=
  if s.cfg.ibcap < len.toNat then raiseError .invalidArgument s
  else if len = 0#32 then returnOk 0#32 s
  else if (s.sb.buf s.sb.wr).full then raiseError .busy s
  else
    match sbfillStep1 len s with
    | .ok t => .next t
    | .error f => .fault f

/-- The hand-over of step 2: `SB_WAIT <- 0`, the input descriptor takes buffer `i`. -/
def sbHandOver (i : BufIdx) (s : State) : State :=
  { s with
    sb := { s.sb with wait := false }
    desc := { s.desc with inAddr := sbAddr s.cfg i, inLen := (s.sb.buf i).len, inOff := 0#32 } }

/-- Step 2 up to its `DoResume`: `SB_WAIT <- 0`, and the descriptor writes "as two WRD commands": a bad buffer is a fault as in a
`WRD`, and where a `WRD` of the input descriptor is `Busy`, "which changes nothing else" (45_register_access R281), they change
nothing (log 38). -/
def sbTakeBuffer (i : BufIdx) (s : State) : Except Fault State :=
  if inputWritable s then
    match inputFault (sbHandOver i s) with
    | some f => .error f
    | none => .ok (sbHandOver i s)
  else .ok { s with sb := { s.sb with wait := false } }

/-- The second atomic step of the `SBFILL` that filled buffer `i` (44_stream_buffers R273), which completes (60_exceptions R292):
the `InvalidArgument` of `DoResume(Input)` needs an input descriptor without data in method DMA, where step 1 has left a buffer
that is not empty (`Streams.filled`) and a block in flight is one of a descriptor with data (`Engines.din_data`). -/
def sbfillStep2 (i : BufIdx) (s : State) : Result :=
  let t : State := { s with sb := { s.sb with filling := none } }
  if !sbAwaits i t then returnOk 0#32 t
  else
    match sbTakeBuffer i t with
    | .error f => .fault f
    | .ok u =>
      match resumeInput u with
      | some v => returnOk 0#32 v
      | none => raiseError .invalidArgument t

end Sys2Proof.Machine
end

