-- ==== Sys2Proof/Machine/Huffman.lean ====
section
/-! DEFINITION. The Huffman Table Builder (40_huffman_builder): the pure function `BuildTable`, its effect on a slot, and
the meaning of `BUILD`. -/

namespace Sys2Proof.Machine

open Sys2Proof

/-! ## The pure function (40_huffman_builder R140 to R144) -/

/-- `BITS[0] + ... + BITS[15]` (40_huffman_builder R141). -/
def symbolCount : List Byte → Nat
  | [] => 0
  | b :: bs => b.toNat + symbolCount bs

/-- Steps 1 and 2 from length class `L` with running code `code`: for each symbol in declaration order its length and its
code; `none` is `CodeOverflow` (40_huffman_builder R142: test, then shift). -/
def assignCodes : List Byte → Nat → Nat → Option (List (Nat × Nat))
  | [], _, _ => some []
  | b :: bs, L, code =>
    if 2 ^ L ≤ code + b.toNat then none
    else (assignCodes bs (L + 1) (2 * (code + b.toNat))).map
      (fun rest => (List.range b.toNat).map (fun i => (L, code + i)) ++ rest)

/-- `Index(kind, v)` (40_huffman_builder R144). -/
def symbolIndex : Kind → Byte → Nat
  | .dc, v => v.toNat
  | .ac, v => if v = 0x00#8 then 160 else if v = 0xF0#8 then 161 else v.toNat / 16 * 10 + v.toNat % 16 - 1

/-- One entry of a built table: its index, its length and its code. -/
structure Assigned where
  index : Nat
  len : BitVec 5
  code : HalfWord
deriving DecidableEq, Repr

/-- Step 3 without the range test: the entries in declaration order (40_huffman_builder R143). -/
def assignEntries (k : Kind) : List Byte → List (Nat × Nat) → List Assigned
  | v :: vs, (l, c) :: rest =>
    { index := symbolIndex k v, len := BitVec.ofNat 5 l, code := BitVec.ofNat 16 c } :: assignEntries k vs rest
  | _, _ => []

/-- `BuildTable(kind, BITS, VALS)` (40_huffman_builder R140): the assigned entries in declaration order, or the error of
the first step that fails (R147). `vals` holds at least the first `count` symbols. -/
def buildTable (k : Kind) (bits vals : List Byte) : Except ErrCode (List Assigned) :=
  if Config.sizeLimit < symbolCount bits ∨ k.size < symbolCount bits then .error .tableOverflow
  else
    match assignCodes bits 1 0 with
    | none => .error .codeOverflow
    | some codes =>
      if (assignEntries k vals codes).all (fun e => decide (e.index < k.size)) then .ok (assignEntries k vals codes)
      else .error .symbolOutOfRange

/-! ## The effect on a slot (40_huffman_builder R145, R146) -/

/-- A table of `n` drawn entries, from draw number `d` (40_huffman_builder R146). Log 7. -/
def drawnTable (valid : Bool) (d n : Nat) : HuffTable where
  valid := valid
  len := (List.range n).map (fun i => some (Config.drawLen (d + i)))
  code := (List.range n).map (fun i => some (Config.drawCode (d + i)))

/-- `LEN[idx] <- size; CODE[idx] <- hcode` in declaration order: a later symbol overwrites an earlier one (R144). -/
def writeEntries (t : HuffTable) : List Assigned → HuffTable
  | [] => t
  | e :: es => writeEntries { t with len := t.len.set e.index (some e.len), code := t.code.set e.index (some e.code) } es

/-- What a build does to the state: the slot's table and the draw counter, and the error if it fails. -/
structure Built where
  state : State
  error : Option ErrCode

/-- Replace `HCT[slot]`, `n` draws taken. -/
def State.withHct (s : State) (slot : Slot) (t : HuffTable) (n : Nat) : State :=
  { s with hct := s.hct.set slot t, draws := s.draws + n }

/-- The body of `BUILD` on bytes already read: `VALID` and the arrays, every entry that is not assigned drawn. -/
def buildWith (slot : Slot) (bits vals : List Byte) (s : State) : Built :=
  match buildTable slot.kind bits vals with
  | .error e => { state := s.withHct slot (drawnTable false s.draws slot.size) slot.size, error := some e }
  | .ok es => { state := s.withHct slot (writeEntries (drawnTable true s.draws slot.size) es) slot.size, error := none }

/-- `BUILD slot` without the response (40_huffman_builder R145); `none` where an element it reads is unwritten. The
Values are read only when there are not too many of them: more than `N` do not exist (log 17). -/
def buildSlot (slot : Slot) (s : State) : Option Built :=
  match readAll (s.hspec.get slot).bits with
  | none => none
  | some bits =>
    if slot.size < symbolCount bits then some (buildWith slot bits [] s)
    else (readAll ((s.hspec.get slot).vals.take (symbolCount bits))).map (fun vals => buildWith slot bits vals s)

/-- `BUILD slot` (40_huffman_builder R145). -/
def execBuild (slot : Slot) (s : State) : Result :=
  if s.fsm ≠ .idle then .fault .programmingOutsideIdle
  else
    match buildSlot slot s with
    | none => .fault .unwrittenOperand
    | some b =>
      match b.error with
      | none => returnOk 0#32 b.state
      | some e => raiseError e b.state

end Sys2Proof.Machine
end

