-- ==== Sys2Proof/Machine/TableProgrammer.lean ====
section
/-! DEFINITION. The Hardware Table Programmer (41_table_programmer): the meanings of `PROGC` and `PROGR`. -/

namespace Sys2Proof.Machine

open Sys2Proof

/-! ## Data formats (30_encoding R108, R109) -/

/-- `HW(L, C)`: the length in the high byte, the low eight bits of the code in the low byte (30_encoding R108). -/
def halfWord (l : BitVec 5) (c : HalfWord) : HalfWord := l.setWidth 8 ++ c.setWidth 8

/-- A table with every entry written, as lists. -/
structure ReadTable where
  len : List (BitVec 5)
  code : List HalfWord
deriving DecidableEq, Repr

/-- The entries of `HCT[s]`; `none` where one is unwritten (10_state R44). -/
def readTable (t : HuffTable) : Option ReadTable :=
  (readAll t.len).bind (fun l => (readAll t.code).map (fun c => { len := l, code := c }))

/-- The half-word of entry `i`. -/
def ReadTable.entry (t : ReadTable) (i : Nat) : HalfWord := halfWord (t.len.getD i 0#5) (t.code.getD i 0#16)

/-- Code-table word `w`: the even entry in the low half (30_encoding R109). -/
def ReadTable.word (t : ReadTable) (w : Nat) : Word := t.entry (2 * w + 1) ++ t.entry (2 * w)

/-! ## Code-table regions (41_table_programmer R162, R163, R165) -/

/-- The writes of words `n-1` down to `0` of a region's data part. -/
def dataWrites (base : BitVec 16) (t : ReadTable) : Nat → List (BitVec 16 × Word)
  | 0 => []
  | n + 1 => (base + BitVec.ofNat 16 n, t.word n) :: dataWrites base t n

/-- The writes of a list of words at ascending addresses. -/
def ascendingWrites (a : BitVec 16) : List Word → List (BitVec 16 × Word)
  | [] => []
  | v :: vs => (a, v) :: ascendingWrites (a + 1#16) vs

/-- `WriteDC(base, t)`: the writes in order (41_table_programmer R162). -/
def writeDc (base : BitVec 16) (t : ReadTable) : List (BitVec 16 × Word) :=
  ascendingWrites (base + 6#16) [Config.dcTerm, Config.dcTerm] ++ dataWrites base t 6

/-- `WriteAC(base, t)`: the writes in order (41_table_programmer R163). -/
def writeAc (c : Config) (base : BitVec 16) (t : ReadTable) : List (BitVec 16 × Word) :=
  ascendingWrites (base + 81#16) (c.acReserved.take 7) ++ dataWrites base t 81

/-- The writes of a region of a kind. -/
def regionWrites (c : Config) (k : Kind) (base : BitVec 16) (t : ReadTable) : List (BitVec 16 × Word) :=
  match k with
  | .dc => writeDc base t
  | .ac => writeAc c base t

/-- Write region `r` from the table of slot `src`, whose build is done: `STATE <- Configuring`, the writes, `PRG_ENC`,
`CTX.CFG_HUFF`, `STATE <- Idle` (41_table_programmer R160, R171). -/
def programRegion (r : Slot) (t : ReadTable) (s : State) : State :=
  let u := s.enterConfiguring.tWriteAll (regionWrites s.cfg r.kind (encBase s.cfg r) t)
  ({ u with prgEnc := u.prgEnc.set r true } : State).refreshCfgHuff.leaveConfiguring

/-- `PROGC` once address and kind are accepted: the implied build when `HCT[src]` is not valid, then the region. -/
def programFrom (r src : Slot) (s : State) : Result :=
  if (s.hct.get src).valid then
    match readTable (s.hct.get src) with
    | none => .fault .unwrittenOperand
    | some t => returnOk 0#32 (programRegion r t s)
  else
    match buildSlot src s with
    | none => .fault .unwrittenOperand
    | some b =>
      match b.error with
      | some e => raiseError e b.state
      | none =>
        match readTable (b.state.hct.get src) with
        | none => .fault .unwrittenOperand
        | some t => returnOk 0#32 (programRegion r t b.state)

/-- `PROGC addr, src` (41_table_programmer R160): the address is tested before the null source (R161). -/
def execProgc (addr : BitVec 16) (src : Option Slot) (s : State) : Result :=
  if s.fsm ≠ .idle then .fault .programmingOutsideIdle
  else
    match target s.cfg addr with
    | none => raiseError .invalidTableTarget s
    | some r =>
      match src with
      | none => returnOk 0#32 s
      | some slot => if slot.kind ≠ r.kind then raiseError .invalidTableTarget s else programFrom r slot s

/-! ## The raw-spec region (41_table_programmer R166 to R168) -/

/-- `off_BITS(s)` (41_table_programmer R167). -/
def offBits : Slot → Nat
  | .dc0 => 0
  | .ac0 => 28
  | .dc1 => 206
  | .ac1 => 234

/-- `off_VALS(s)` (41_table_programmer R167). -/
def offVals (s : Slot) : Nat := offBits s + 16

/-- Replace the lanes of word `v` whose stream byte `4*a + lane` lies in `lo .. lo+n-1` (41_table_programmer R168). -/
def mergeLanes (lo a : Nat) (bytes : List Byte) (v : Word) : Word :=
  let lane (j : Nat) : Byte :=
    if lo ≤ 4 * a + j ∧ 4 * a + j < lo + bytes.length then bytes.getD (4 * a + j - lo) 0#8 else v.extractLsb' (8 * j) 8
  lane 3 ++ (lane 2 ++ (lane 1 ++ lane 0))

/-- One word of `WriteSub`: a whole word is written without being read, a shared one is read, merged and written. -/
def writeSubWord (lo a : Nat) (bytes : List Byte) (s : State) : State :=
  let addr := s.cfg.rawBase + BitVec.ofNat 16 a
  if lo ≤ 4 * a ∧ 4 * a + 4 ≤ lo + bytes.length then s.tWrite addr (mergeLanes lo a bytes 0#32)
  else (s.tReadMark addr).tWrite addr (mergeLanes lo a bytes (readTmem s addr))

/-- `n` words of `WriteSub`, from word `first + n - 1` down to word `first`. -/
def writeSubDown (lo first : Nat) (bytes : List Byte) : Nat → State → State
  | 0, s => s
  | n + 1, s => writeSubDown lo first bytes n (writeSubWord lo (first + n) bytes s)

/-- `WriteSub(lo, bytes)` (41_table_programmer R168). -/
def writeSub (lo : Nat) (bytes : List Byte) (s : State) : State :=
  writeSubDown lo (lo / 4) bytes ((lo + bytes.length - 1) / 4 + 1 - lo / 4) s

/-- The bytes `PROGR` reads of one slot. -/
structure RawSpec where
  bits : List Byte
  vals : List Byte
deriving DecidableEq, Repr

/-- `HSPEC[s]` with every element written; `none` where one is not. -/
def readSpec (h : HuffSpec) : Option RawSpec :=
  (readAll h.bits).bind (fun b => (readAll h.vals).map (fun v => { bits := b, vals := v }))

/-- The sub-regions of one selected slot and its `PRG_RAW` bit (41_table_programmer R166). -/
def programRaw (slot : Slot) (h : RawSpec) (s : State) : State :=
  let u := writeSub (offVals slot) h.vals (writeSub (offBits slot) h.bits s)
  { u with prgRaw := u.prgRaw.set slot true }

/-- The order in which `PROGR` visits the slots (41_table_programmer R166). -/
def rawOrder : List Slot := [.dc0, .ac0, .dc1, .ac1]

/-- `PROGR` over the listed slots; `none` where a selected slot has an unwritten element. -/
def programSlots (mask : SlotSet) : List Slot → State → Option State
  | [], s => some s
  | slot :: rest, s =>
    if mask.has slot then
      match readSpec (s.hspec.get slot) with
      | none => none
      | some h => programSlots mask rest (programRaw slot h s)
    else programSlots mask rest s

/-- `PROGR mask` (41_table_programmer R166). -/
def execProgr (mask : SlotSet) (s : State) : Result :=
  if s.fsm ≠ .idle then .fault .programmingOutsideIdle
  else
    match programSlots mask rawOrder s.enterConfiguring with
    | none => .fault .unwrittenOperand
    | some t => returnOk 0#32 t.refreshCfgHuff.leaveConfiguring

end Sys2Proof.Machine
end

