-- ==== Sys2Proof/Machine/TransferCommands.lean ====
section
/-! DEFINITION. The task-context commands of the Transfer State Machine (43_transfer_fsm): the meanings of `START`,
`PAUSE`, `RESUME`, `POLL` and `ABORT`. -/

namespace Sys2Proof.Machine

open Sys2Proof

/-! ## START (43_transfer_fsm R211) -/

/-- `Running.Polling`, `Running.Interrupting` or `Running.DmaActive`, by method. -/
def runningFsm : Method → Fsm
  | .poll => .polling
  | .interrupt => .interrupting
  | .dma => .dmaActive

/-- `CR` as `START` leaves it: the run bit, end of conversion and error for every job, header parse for `Decode`, the FIFO
sources in the FIFO methods, the DMA enables in method DMA. -/
def startCr (op : JobOp) (m : Method) : Cr :=
  let fifo : Bool := decide (m ≠ .dma)
  { run := true, ieIft := fifo, ieIfnf := fifo, ieOft := fifo, ieOfne := fifo, ieEoc := true,
    ieHpd := decide (op = .decode), ieErr := true, dmaInEn := decide (m = .dma), dmaOutEn := decide (m = .dma) }

/-- What `START` writes before the engines are primed. -/
def startJob (op : JobOp) (m : Method) (s : State) : State :=
  { s with
    ififo := []
    ofifo := []
    sr := .reset
    din := s.din.stop
    dout := s.dout.stop
    ctx := { s.ctx with op := some op, method := some m, pauseIn := false, pauseOut := false, ending := false }
    desc := { s.desc with inOff := 0#32, outOff := 0#32 }
    cr := startCr op m
    tailFed := false
    fsm := runningFsm m }

/-- `START` with its arguments accepted. -/
def startWith (op : JobOp) (m : Method) (s : State) : State :=
  if m = .dma then (startJob op m s).primeIn.primeOut else startJob op m s

/-- `START op, method` (43_transfer_fsm R211). -/
def execStart (op : JobOp) (method : Method) (s : State) : Result :=
  if s.fsm ≠ .idle then raiseError .busy s
  else if !checkArgs s.cfg s.desc method then raiseError .invalidArgument s
  else if startOverlap s then .fault .bufferOverlap
  else returnOk 0#32 (startWith op method s)

/-! ## PAUSE and RESUME (43_transfer_fsm R227, R228, R231) -/

/-- `DoPause(d)` for each `d` in `dir`, `Input` first. -/
def pauseDirs (dir : DirSet) (s : State) : State :=
  let t := if dir.input then s.pauseInput else s
  if dir.output then t.pauseOutput else t

/-- `PAUSE dir` (43_transfer_fsm R227). -/
def execPause (dir : DirSet) (s : State) : Result :=
  if s.fsm = .idle then returnOk 0#32 s else returnOk 0#32 (pauseDirs dir s)

/-- `RESUME dir` (43_transfer_fsm R228): `Input` first; where it raises, `Output` is not processed. -/
def execResume (dir : DirSet) (s : State) : Result :=
  if s.fsm = .idle then returnOk 0#32 s
  else
    match if dir.input then resumeInput s else some s with
    | none => raiseError .invalidArgument s
    | some t =>
      match if dir.output then resumeOutput t else .ok t with
      | .ok u => returnOk 0#32 u
      | .error f => .fault f

/-! ## POLL (43_transfer_fsm R229) -/

/-- One event of the pass: its handler if it is eligible now, and its bit of `DATA`. -/
def pollEvent (e : Event) (handler : State → Except Fault State) (p : Word × State) : Except Fault (Word × State) :=
  if eligible e p.2 then do
    let t ← handler p.2
    pure (p.1 ||| bitAt true e.code, t)
  else .ok p

/-- One pass over `EV_ERR`, `EV_HPD`, `EV_IN`, `EV_OUT`, `EV_EOC`. -/
def pollPass (s : State) : Except Fault (Word × State) := do
  let p1 ← pollEvent .err handleErr (0#32, s)
  let p2 ← pollEvent .hpd handleHpd p1
  let p3 ← pollEvent .inp handleIn p2
  let p4 ← pollEvent .out handleOut p3
  pollEvent .eoc handleEoc p4

/-- `POLL` (43_transfer_fsm R229). Its `DATA` names the events that ran, as R229 says, where 30_encoding R102 has `DATA` 0 for
every command but the read-outs and `QEST`: the model's choice (log 37). -/
def execPoll (s : State) : Result :=
  if s.ctx.method ≠ some .poll then returnOk 0#32 s
  else
    match pollPass s with
    | .ok p => returnOk p.1 p.2
    | .error f => .fault f

/-! ## ABORT (43_transfer_fsm R230) -/

/-- `ABORT` with both pauses held. -/
def abortJob (s : State) : State :=
  let t := s.stopAndReset
  { t with sr := { t.sr with errf := false } }

/-- `ABORT` (43_transfer_fsm R230). -/
def execAbort (s : State) : Result :=
  if s.fsm = .idle then returnOk 0#32 s
  else if !s.ctx.pauseIn || !s.ctx.pauseOut then raiseError .busy s
  else returnOk 0#32 (abortJob s)

end Sys2Proof.Machine
end

