-- ==== Sys2Proof/Machine/Dispatch.lean ====
section
/-! DEFINITION. The meaning of every operation: one arm per row of the opcode table. -/

namespace Sys2Proof.Machine

open Sys2Proof

/-- The outcome of one operation in a state. -/
def exec (i : Instr) (s : State) : Host.Outcome State Fault Refusal :=
  match i with
  | .ldb file index data => Sys2Proof.Machine.execLdb file index data s
  | .wrd reg value => Sys2Proof.Machine.execWrd reg value s
  | .build slot => Sys2Proof.Machine.execBuild slot s
  | .progc addr src => Sys2Proof.Machine.execProgc addr src s
  | .progr mask => Sys2Proof.Machine.execProgr mask s
  | .qgen q quality => Sys2Proof.Machine.execQgen q quality s
  | .qest q => Sys2Proof.Machine.execQest q s
  | .start op method => Sys2Proof.Machine.execStart op method s
  | .pause dir => Sys2Proof.Machine.execPause dir s
  | .resume dir => Sys2Proof.Machine.execResume dir s
  | .poll => Sys2Proof.Machine.execPoll s
  | .abort => Sys2Proof.Machine.execAbort s
  | .getinfo sel => Sys2Proof.Machine.execGetinfo sel s
  | .getstate => Sys2Proof.Machine.execGetstate s
  | .geterr => Sys2Proof.Machine.execGeterr s
  | .sbfill len => Sys2Proof.Machine.execSbfill len s
  | .sbinit => Sys2Proof.Machine.execSbinit s
  | .evErr => Sys2Proof.Machine.execEvErr s
  | .evHpd => Sys2Proof.Machine.execEvHpd s
  | .evIn => Sys2Proof.Machine.execEvIn s
  | .evOut => Sys2Proof.Machine.execEvOut s
  | .evEoc => Sys2Proof.Machine.execEvEoc s
  | .evDmaInCplt => Sys2Proof.Machine.execEvDmaInCplt s
  | .evDmaOutCplt => Sys2Proof.Machine.execEvDmaOutCplt s
  | .evDmaAbort => Sys2Proof.Machine.execEvDmaAbort s

end Sys2Proof.Machine
end

