-- ==== Sys2Proof/Decode.lean ====
section
/-! DEFINITION. The decoder of the command port and of event records (30_encoding R100 to R107), total on any words,
and the encoder written from the same formats. -/

namespace Sys2Proof

/-! ## Operand fields (30_encoding R103) -/

/-- `slot`: 0 `DC0`, 1 `AC0`, 2 `DC1`, 3 `AC1`. -/
def decodeSlot (b : BitVec 2) : Slot :=
  if b = 0#2 then .dc0 else if b = 1#2 then .ac0 else if b = 2#2 then .dc1 else .ac1

/-- The number of a slot. -/
def encodeSlot : Slot → BitVec 2
  | .dc0 => 0#2
  | .ac0 => 1#2
  | .dc1 => 2#2
  | .ac1 => 3#2

/-- `src`: 0 `NULL`, 1 `DC0`, 2 `AC0`, 3 `DC1`, 4 `AC1`; 5 to 7 illegal. -/
def decodeSrc (b : BitVec 3) : Option (Option Slot) :=
  if b = 0#3 then some none else if b = 1#3 then some (some .dc0) else if b = 2#3 then some (some .ac0)
  else if b = 3#3 then some (some .dc1) else if b = 4#3 then some (some .ac1) else none

/-- The number of a source. -/
def encodeSrc : Option Slot → BitVec 3
  | none => 0#3
  | some .dc0 => 1#3
  | some .ac0 => 2#3
  | some .dc1 => 3#3
  | some .ac1 => 4#3

/-- `file`: 0..3 `HSPEC[file].BITS`, 4..7 `HSPEC[file-4].VALS`, `16+q` `BASELINE[q]`; anything else illegal (that
`q < NQ` is `Instr.wellFormed`'s). -/
def decodeFile (b : BitVec 8) : Option LdbFile :=
  if b.extractLsb' 2 6 = 0#6 then some (.bits (decodeSlot (b.extractLsb' 0 2)))
  else if b.extractLsb' 2 6 = 1#6 then some (.vals (decodeSlot (b.extractLsb' 0 2)))
  else if b.extractLsb' 4 4 = 1#4 then some (.baseline (b.extractLsb' 0 4))
  else none

/-- The number of a file. -/
def encodeFile : LdbFile → BitVec 8
  | .bits s => 0#6 ++ encodeSlot s
  | .vals s => 1#6 ++ encodeSlot s
  | .baseline q => 1#4 ++ q

/-- `reg`: 0 `IN_ADDR`, 1 `IN_LEN`, 2 `OUT_ADDR`, 3 `OUT_LEN`; 4 to 15 illegal. -/
def decodeReg (b : BitVec 4) : Option DescReg :=
  if b = 0#4 then some .inAddr else if b = 1#4 then some .inLen else if b = 2#4 then some .outAddr
  else if b = 3#4 then some .outLen else none

/-- The number of a descriptor register. -/
def encodeReg : DescReg → BitVec 4
  | .inAddr => 0#4
  | .inLen => 1#4
  | .outAddr => 2#4
  | .outLen => 3#4

/-- `mask`: bit 0 `DC0`, bit 1 `AC0`, bit 2 `DC1`, bit 3 `AC1`. -/
def decodeMask (b : BitVec 4) : SlotSet :=
  { dc0 := b.getLsbD 0, ac0 := b.getLsbD 1, dc1 := b.getLsbD 2, ac1 := b.getLsbD 3 }

/-- The bits of a mask. -/
def encodeMask (m : SlotSet) : BitVec 4 :=
  BitVec.ofBool m.ac1 ++ (BitVec.ofBool m.dc1 ++ (BitVec.ofBool m.ac0 ++ BitVec.ofBool m.dc0))

/-- `op`: 0 `Decode`, 1 `Encode`. -/
def decodeOp (b : BitVec 1) : JobOp := if b = 0#1 then .decode else .encode

/-- The number of an operation of `START`. -/
def encodeOp : JobOp → BitVec 1
  | .decode => 0#1
  | .encode => 1#1

/-- `method`: 0 `Poll`, 1 `Interrupt`, 2 `DMA`; 3 illegal. -/
def decodeMethod (b : BitVec 2) : Option Method :=
  if b = 0#2 then some .poll else if b = 1#2 then some .interrupt else if b = 2#2 then some .dma else none

/-- The number of a method. -/
def encodeMethod : Method → BitVec 2
  | .poll => 0#2
  | .interrupt => 1#2
  | .dma => 2#2

/-- `dir`: bit 0 `Input`, bit 1 `Output`. -/
def decodeDir (b : BitVec 2) : DirSet := { input := b.getLsbD 0, output := b.getLsbD 1 }

/-- The bits of a direction. -/
def encodeDir (d : DirSet) : BitVec 2 := BitVec.ofBool d.output ++ BitVec.ofBool d.input

/-- `sel`: 0 the dimensions word, 1 the attributes word. -/
def decodeSel (b : BitVec 1) : InfoSel := if b = 0#1 then .dimensions else .attributes

/-- The number of a selector. -/
def encodeSel : InfoSel → BitVec 1
  | .dimensions => 0#1
  | .attributes => 1#1

/-! ## Commands (30_encoding R101, R104) -/

/-- The command of a `CMD`, `ARG` pair before the range tests of `Instr.wellFormed`: opcode, must-be-zero fields and the
operand values that have no decoding (30_encoding R104, R101, R103). `ARG` is used by `WRD` and `SBFILL` only (R100). -/
def parseCommand (cmd arg : Word) : Option Instr :=
  let opc := cmd.extractLsb' 24 8
  if opc = 0x01#8 then
    (decodeFile (cmd.extractLsb' 16 8)).map (fun f => .ldb f (cmd.extractLsb' 8 8) (cmd.extractLsb' 0 8))
  else if opc = 0x02#8 then
    if cmd.extractLsb' 4 20 = 0#20 then (decodeReg (cmd.extractLsb' 0 4)).map (fun r => .wrd r arg) else none
  else if opc = 0x10#8 then
    if cmd.extractLsb' 2 22 = 0#22 then some (.build (decodeSlot (cmd.extractLsb' 0 2))) else none
  else if opc = 0x11#8 then
    if cmd.extractLsb' 19 5 = 0#5 then
      (decodeSrc (cmd.extractLsb' 16 3)).map (fun s => .progc (cmd.extractLsb' 0 16) s)
    else none
  else if opc = 0x12#8 then
    if cmd.extractLsb' 4 20 = 0#20 then some (.progr (decodeMask (cmd.extractLsb' 0 4))) else none
  else if opc = 0x13#8 then
    if cmd.extractLsb' 12 12 = 0#12 then some (.qgen (cmd.extractLsb' 8 4) (cmd.extractLsb' 0 8)) else none
  else if opc = 0x14#8 then
    if cmd.extractLsb' 12 12 = 0#12 ∧ cmd.extractLsb' 0 8 = 0#8 then some (.qest (cmd.extractLsb' 8 4)) else none
  else if opc = 0x20#8 then
    if cmd.extractLsb' 3 21 = 0#21 then
      (decodeMethod (cmd.extractLsb' 1 2)).map (fun m => .start (decodeOp (cmd.extractLsb' 0 1)) m)
    else none
  else if opc = 0x21#8 then
    if cmd.extractLsb' 2 22 = 0#22 then some (.pause (decodeDir (cmd.extractLsb' 0 2))) else none
  else if opc = 0x22#8 then
    if cmd.extractLsb' 2 22 = 0#22 then some (.resume (decodeDir (cmd.extractLsb' 0 2))) else none
  else if opc = 0x23#8 then if cmd.extractLsb' 0 24 = 0#24 then some .poll else none
  else if opc = 0x24#8 then if cmd.extractLsb' 0 24 = 0#24 then some .abort else none
  else if opc = 0x30#8 then
    if cmd.extractLsb' 1 23 = 0#23 then some (.getinfo (decodeSel (cmd.extractLsb' 0 1))) else none
  else if opc = 0x31#8 then if cmd.extractLsb' 0 24 = 0#24 then some .getstate else none
  else if opc = 0x32#8 then if cmd.extractLsb' 0 24 = 0#24 then some .geterr else none
  else if opc = 0x40#8 then if cmd.extractLsb' 0 24 = 0#24 then some (.sbfill arg) else none
  else if opc = 0x41#8 then if cmd.extractLsb' 0 24 = 0#24 then some .sbinit else none
  else none

/-- The decoder of the command port: one command, or illegal (30_encoding R107), for `NQ = nq`. -/
def decodeCommand (nq : Nat) (cmd arg : Word) : Option Instr :=
  (parseCommand cmd arg).filter (Instr.wellFormed nq)

/-- The decoder of event records (30_encoding R105): `EVT[31:24] = 0x80 + code`, `EVT[23:0] = 0`. -/
def decodeEvent (evt : Word) : Option Instr :=
  if evt = 0x81000000#32 then some .evErr
  else if evt = 0x82000000#32 then some .evHpd
  else if evt = 0x83000000#32 then some .evIn
  else if evt = 0x84000000#32 then some .evOut
  else if evt = 0x85000000#32 then some .evEoc
  else if evt = 0x86000000#32 then some .evDmaInCplt
  else if evt = 0x87000000#32 then some .evDmaOutCplt
  else if evt = 0x88000000#32 then some .evDmaAbort
  else none

/-- Opcode values `0x80` to `0xFF` are reserved for event records (30_encoding R107). -/
def isEventWord (w : Word) : Bool := w.getLsbD 31

/-- The operation a pair of words stands for, on the port it belongs to. -/
def decode (nq : Nat) (cmd arg : Word) : Option Instr :=
  if isEventWord cmd then decodeEvent cmd else decodeCommand nq cmd arg

/-- The first word of an instruction given as a number (bit 0 the least significant bit of the first word). -/
def firstWord (nbits w : Nat) : Word := BitVec.ofNat 32 (w % 2 ^ nbits)

/-- The second word of an instruction given as a number: `ARG`. -/
def secondWord (nbits w : Nat) : Word := BitVec.ofNat 32 (w % 2 ^ nbits / 4294967296)

/-- The instruction the decoder reads from the bits of an opcode-table word, with the default `NQ`. -/
def decodeTableWord (nbits w : Nat) : Option Instr :=
  decode Config.default.nq (firstWord nbits w) (secondWord nbits w)

/-! ## The encoder -/

/-- The `CMD` word of a command, or the record of an event, from the formats of 30_encoding R101 and R105. -/
def encodeCmd : Instr → Word
  | .ldb f index data => 0x01#8 ++ (encodeFile f ++ (index ++ data))
  | .wrd r _ => 0x02#8 ++ (0#20 ++ encodeReg r)
  | .build s => 0x10#8 ++ (0#22 ++ encodeSlot s)
  | .progc addr src => 0x11#8 ++ (0#5 ++ (encodeSrc src ++ addr))
  | .progr m => 0x12#8 ++ (0#20 ++ encodeMask m)
  | .qgen q quality => 0x13#8 ++ (0#12 ++ (q ++ quality))
  | .qest q => 0x14#8 ++ (0#12 ++ (q ++ 0#8))
  | .start op m => 0x20#8 ++ (0#21 ++ (encodeMethod m ++ encodeOp op))
  | .pause d => 0x21#8 ++ (0#22 ++ encodeDir d)
  | .resume d => 0x22#8 ++ (0#22 ++ encodeDir d)
  | .poll => 0x23000000#32
  | .abort => 0x24000000#32
  | .getinfo sel => 0x30#8 ++ (0#23 ++ encodeSel sel)
  | .getstate => 0x31000000#32
  | .geterr => 0x32000000#32
  | .sbfill _ => 0x40000000#32
  | .sbinit => 0x41000000#32
  | .evErr => 0x81000000#32
  | .evHpd => 0x82000000#32
  | .evIn => 0x83000000#32
  | .evOut => 0x84000000#32
  | .evEoc => 0x85000000#32
  | .evDmaInCplt => 0x86000000#32
  | .evDmaOutCplt => 0x87000000#32
  | .evDmaAbort => 0x88000000#32

/-- The `ARG` word of a command (30_encoding R101): the value of `WRD`, the length of `SBFILL`, else 0. -/
def encodeArg : Instr → Word
  | .ldb _ _ _ => 0#32
  | .wrd _ value => value
  | .build _ => 0#32
  | .progc _ _ => 0#32
  | .progr _ => 0#32
  | .qgen _ _ => 0#32
  | .qest _ => 0#32
  | .start _ _ => 0#32
  | .pause _ => 0#32
  | .resume _ => 0#32
  | .poll => 0#32
  | .abort => 0#32
  | .getinfo _ => 0#32
  | .getstate => 0#32
  | .geterr => 0#32
  | .sbfill len => len
  | .sbinit => 0#32
  | .evErr => 0#32
  | .evHpd => 0#32
  | .evIn => 0#32
  | .evOut => 0#32
  | .evEoc => 0#32
  | .evDmaInCplt => 0#32
  | .evDmaOutCplt => 0#32
  | .evDmaAbort => 0#32

/-- The words of an instruction: `CMD` and `ARG`. -/
def encode (i : Instr) : Word × Word := (encodeCmd i, encodeArg i)

end Sys2Proof
end

