-- ==== Sys2Proof/Machine/Agents.lean ====
section
/-! DEFINITION. The steps of the agents that run no instruction: the DMA engines `DIN` and `DOUT` (43_transfer_fsm R232,
R233), the coprocessor `CORE` (R236) and the host (00_scope R6). A step that its agent may not take changes nothing
(log 15). -/

namespace Sys2Proof.Machine

open Sys2Proof

/-! ## DIN (43_transfer_fsm R232) -/

/-- The trigger of `DIN`: `IFTF` with 32-byte granularity, `IFNFF` with 4. -/
def dinTrigger (s : State) : Bool :=
  match s.cfg.granIn with
  | .thirtyTwo => iftf s
  | .four => ifnff s

/-- `DIN` may move data: busy, no abort asked, enabled and triggered. -/
def dinMoves (s : State) : Bool := s.din.busy && !s.din.abortReq && s.cr.dmaInEn && dinTrigger s

/-- The answer to an abort: `BUSY <- 0; ABORT_REQ <- 0; ABORTED <- 1`. -/
def Dma.abortDone (d : Dma) : Dma := { d with busy := false, abortReq := false, aborted := true }

/-- A transfer error: `ERR <- 1; BUSY <- 0`. -/
def Dma.fail (d : Dma) : Dma := { d with err := true, busy := false }

/-- The end of a burst: a finished block is no longer busy and raises `CPLT`. -/
def Dma.burstEnd (d : Dma) : Dma := if d.done = d.len then { d with busy := false, cplt := true } else d

/-- `n` words of a `DIN` burst, each of up to four bytes. -/
def dinWords : Nat → State → Except Fault State
  | 0, s => .ok s
  | n + 1, s => do
    let m := min 4 (s.din.len.toNat - s.din.done.toNat)
    let b ← memRead (s.din.addr.toNat + s.din.done.toNat) m s
    let t ← pushInput b s
    dinWords n { t with din := { t.din with done := t.din.done + BitVec.ofNat 32 m } }

/-- The words of one `DIN` burst. -/
def dinBurst (s : State) : Nat :=
  min (Gran.bytes s.cfg.granIn / 4) ((s.din.len.toNat - s.din.done.toNat + 3) / 4)

/-- A step of `DIN`. -/
def dinStep (s : State) : Except Fault State :=
  if s.din.busy && s.din.abortReq then .ok { s with din := s.din.abortDone }
  else if dinMoves s then do
    let t ← dinWords (dinBurst s) s
    pure { t with din := t.din.burstEnd }
  else .ok s

/-- A step of `DIN` that ends in a transfer error instead of moving data: `DIN.ERR`, and `SR.ERRF`, which 10_state R29 has
"set by `CORE`, `DIN` or `DOUT`" (log 35). -/
def dinErrorStep (s : State) : State :=
  if dinMoves s then { s with din := s.din.fail, sr := { s.sr with errf := true } } else s

/-! ## DOUT (43_transfer_fsm R233) -/

/-- The trigger of `DOUT`: `OFTF` with 32-byte granularity, `OFNEF` with 4. -/
def doutTrigger (s : State) : Bool :=
  match s.cfg.granOut with
  | .thirtyTwo => oftf s
  | .four => ofnef s

/-- `DOUT` may move data: busy, no abort asked, enabled and triggered. -/
def doutMoves (s : State) : Bool := s.dout.busy && !s.dout.abortReq && s.cr.dmaOutEn && doutTrigger s

/-- `n` words of a `DOUT` burst; the trigger sees to it that the words are there. -/
def doutWords : Nat → State → Except Fault State
  | 0, s => .ok s
  | n + 1, s =>
    match s.ofifo with
    | [] => .ok s
    | w :: rest => do
      let t ← memWrite (s.dout.addr.toNat + s.dout.done.toNat) (bytesOfWord w) { s with ofifo := rest }
      doutWords n { t with dout := { t.dout with done := t.dout.done + 4#32 } }

/-- A step of `DOUT`. -/
def doutStep (s : State) : Except Fault State :=
  if s.dout.busy && s.dout.abortReq then .ok { s with dout := s.dout.abortDone }
  else if doutMoves s then do
    let t ← doutWords (Gran.bytes s.cfg.granOut / 4) s
    pure { t with dout := t.dout.burstEnd }
  else .ok s

/-- A step of `DOUT` that ends in a transfer error instead of moving data: `DOUT.ERR`, and `SR.ERRF` as for `DIN` (10_state
R29, log 35). -/
def doutErrorStep (s : State) : State :=
  if doutMoves s then { s with dout := s.dout.fail, sr := { s.sr with errf := true } } else s

/-! ## CORE (43_transfer_fsm R236) -/

/-- Whether `CORE` may do this now: R236 (a) to (c). That the header comes "at most once per job" is `IE_HPD` still
set and `HPDF` clear, since `EV_HPD` clears the one as it clears the other (log 16). -/
def coreAllowed (a : CoreAct) (s : State) : Bool :=
  s.cr.run &&
  match a with
  | .pop => !s.ififo.isEmpty
  | .push _ => decide (s.ofifo.length < s.cfg.fifoDepth) && !s.sr.eocf
  | .header _ => decide (s.ctx.op = some .decode) && !s.sr.hpdf && s.cr.ieHpd
  | .endOfConversion => !s.sr.eocf
  | .error => true
  | .writeQmem q _ _ => decide (s.ctx.op = some .decode) && decide (q.toNat < s.cfg.nq)

/-- What `CORE` does. -/
def coreDo (a : CoreAct) (s : State) : State :=
  match a with
  | .pop => { s with ififo := s.ififo.tail }
  | .push w => { s with ofifo := s.ofifo ++ [w] }
  | .header h => { s with hdr := h, sr := { s.sr with hpdf := true } }
  | .endOfConversion => { s with sr := { s.sr with eocf := true } }
  | .error => { s with sr := { s.sr with errf := true } }
  | .writeQmem q w v => { s with qmem := Store.put s.qmem (qmemIndex q w) v }

/-- A step of `CORE`. -/
def coreStep (a : CoreAct) (s : State) : State := if coreAllowed a s then coreDo a s else s

/-! ## The host -/

/-- A step of the host: a byte of host memory, or the fault of 60_exceptions R303. -/
def hostStep (a : HostAct) (s : State) : Except Fault State :=
  match a with
  | .write addr b => .ok { s with hmem := Store.put s.hmem addr.toNat b }
  | .writeBlockState => .error .singleWriter

end Sys2Proof.Machine
end

