-- ==== Sys2Proof/Machine/Fetch.lean ====
section
/-! DEFINITION. Which atomic step comes next (20_memory R80): the block has no program counter (10_state R24), so what runs is
what an agent does next. The result is an instruction for the dispatcher, or the whole outcome of a step that runs none. -/

namespace Sys2Proof.Machine

open Sys2Proof

/-- What a step finds to do. -/
inductive Fetched where
  /-- An instruction to run, and the state it runs in. -/
  | run (i : Instr) (s : State)
  /-- The outcome of a step that runs no instruction. -/
  | outcome (r : Result)
deriving Repr

/-- The outcome of an agent's step. -/
def agentOutcome (r : Except Fault State) : Result :=
  match r with
  | .ok s => .next s
  | .error f => .fault f

/-- The instruction of an event, for the interrupt context's own step. -/
def Event.instr : Event → Instr
  | .err => .evErr
  | .hpd => .evHpd
  | .inp => .evIn
  | .out => .evOut
  | .eoc => .evEoc
  | .dmaInCplt => .evDmaInCplt
  | .dmaOutCplt => .evDmaOutCplt
  | .dmaAbort => .evDmaAbort

/-- A command on the command port: the decoded one, or an illegal command (30_encoding R107). -/
def fetchCommand (cmd arg : Word) (s : State) : Fetched :=
  match decodeCommand s.cfg.nq cmd arg with
  | some i => .run i s
  | none => .outcome (illegalCommand s)

/-- A record of the replay harness; a word that is no event record is refused (30_encoding R105). -/
def fetchEvent (evt : Word) (s : State) : Fetched :=
  match decodeEvent evt with
  | some i => .run i s
  | none => .outcome (.next { s with lastEvent := .refused })

/-- The interrupt context's step: the event it takes, or nothing to do (43_transfer_fsm R214). -/
def fetchIrq (s : State) : Fetched :=
  match irqEvent s with
  | some e => .run e.instr s
  | none => .outcome (.next s)

/-- The task context with nothing new before it: it finishes an `SBFILL` in progress, or the block is idle and the step
changes nothing (60_exceptions R305, log 14). -/
def taskIdle (s : State) : Fetched :=
  match s.sb.filling with
  | some i => .outcome (sbfillStep2 i s)
  | none => .outcome (.next s)

/-- The next atomic step. A command waits while the task context is between the two steps of an `SBFILL`; every other agent
may step there (44_stream_buffers R273). -/
def fetch (s : State) : Fetched :=
  match s.inputs with
  | [] => taskIdle s
  | .command cmd arg :: rest =>
    match s.sb.filling with
    | some i => .outcome (sbfillStep2 i s)
    | none => fetchCommand cmd arg { s with inputs := rest }
  | .task :: rest => taskIdle { s with inputs := rest }
  | .event evt :: rest => fetchEvent evt { s with inputs := rest }
  | .irq :: rest => fetchIrq { s with inputs := rest }
  | .din :: rest => .outcome (agentOutcome (dinStep { s with inputs := rest }))
  | .dinError :: rest => .outcome (.next (dinErrorStep { s with inputs := rest }))
  | .dout :: rest => .outcome (agentOutcome (doutStep { s with inputs := rest }))
  | .doutError :: rest => .outcome (.next (doutErrorStep { s with inputs := rest }))
  | .core a :: rest => .outcome (.next (coreStep a { s with inputs := rest }))
  | .host a :: rest => .outcome (agentOutcome (hostStep a { s with inputs := rest }))

/-- Put a pair of words where the next step takes its instruction: on the command port, or as an event record, with no
`SBFILL` in progress. -/
def State.present (s : State) (cmd arg : Word) : State :=
  { s with
    inputs := (if isEventWord cmd then .event cmd else .command cmd arg) :: s.inputs
    sb := { s.sb with filling := none } }

end Sys2Proof.Machine
end

