-- ==== Sys2Proof/Machine/Step.lean ====
section
/-! DEFINITION. One atomic step of the machine (20_memory R80). -/

namespace Sys2Proof.Machine

open Sys2Proof

/-- One atomic step of the agent that acts next. -/
def step (s : State) : Host.Outcome State Fault Refusal :=
  match fetch s with
  | .run i t => exec i t
  | .outcome r => r

/-- The instruction whose bits are `w` (bit 0 the least significant bit of `CMD`, `ARG` from bit 32 on) put where the next
step takes it. -/
def State.withFetchWord (s : State) (nbits w : Nat) : State :=
  s.present (firstWord nbits w) (secondWord nbits w)

end Sys2Proof.Machine
end

