-- ==== Sys2Proof/Safety.lean ====
section
/-! DEFINITION. What a safe run is, in the terms the claims use: the invariant that every step keeps (10_state R25 and the
ranges of its fields), and the addresses of host memory that an agent may write (20_memory R88). -/

namespace Sys2Proof.Machine

open Sys2Proof

/-! ## The invariant -/

/-- "`CodecContext` fields are the discriminants" (10_state R25): `STATE` against `CTX` and `CR.RUN`. -/
structure Modes (s : State) : Prop where
  idle_iff : s.fsm = .idle ↔
    s.ctx.op = none ∧ s.ctx.method = none ∧ s.ctx.pauseIn = false ∧ s.ctx.pauseOut = false ∧
      s.ctx.ending = false ∧ s.cr.run = false
  polling_iff : s.fsm = .polling ↔ s.cr.run = true ∧ s.ctx.ending = false ∧ s.ctx.method = some .poll
  interrupting_iff : s.fsm = .interrupting ↔ s.cr.run = true ∧ s.ctx.ending = false ∧ s.ctx.method = some .interrupt
  dmaActive_iff : s.fsm = .dmaActive ↔ s.cr.run = true ∧ s.ctx.ending = false ∧ s.ctx.method = some .dma
  draining_iff : s.fsm = .draining ↔ s.ctx.ending = true
  draining_stopped : s.ctx.ending = true → s.cr.run = false
  in_job : s.fsm ≠ .idle → s.ctx.op ≠ none ∧ s.ctx.method ≠ none
  not_configuring : s.fsm ≠ .configuring

/-- The enables of `CR` and the latched flags against the job and its pauses (10_state R45, 43_transfer_fsm R211, R220,
R231). -/
structure Enables (s : State) : Prop where
  stopped : s.fsm = .idle ∨ s.fsm = .draining → s.cr = .reset
  err : s.cr.run = true → s.cr.ieErr = true
  fifo : s.cr.run = true → s.ctx.fifoMethod = true →
    s.cr.ieIft = !s.ctx.pauseIn ∧ s.cr.ieIfnf = !s.ctx.pauseIn ∧ s.cr.ieOft = !s.ctx.pauseOut ∧
      s.cr.ieOfne = !s.ctx.pauseOut ∧ s.cr.ieEoc = !s.ctx.pauseOut ∧ s.cr.dmaInEn = false ∧ s.cr.dmaOutEn = false
  dma : s.cr.run = true → s.ctx.dmaMethod = true →
    s.cr.ieIft = false ∧ s.cr.ieIfnf = false ∧ s.cr.ieOft = false ∧ s.cr.ieOfne = false ∧ s.cr.ieEoc = true ∧
      s.cr.dmaInEn = true ∧ s.cr.dmaOutEn = true
  decode_only : s.cr.ieHpd = true ∨ s.sr.hpdf = true → s.ctx.op = some .decode
  idle_flags : s.fsm = .idle → s.sr.eocf = false ∧ s.sr.hpdf = false

/-- No FIFO holds more than its capacity (10_state R36). -/
structure Fifos (s : State) : Prop where
  input : s.ififo.length ≤ s.cfg.fifoDepth
  output : s.ofifo.length ≤ s.cfg.fifoDepth

/-- The register files of a slot have their lengths (10_state R21, R22), and a valid table has every entry written. -/
def slotShape (s : State) (slot : Slot) : Bool :=
  decide ((s.hspec.get slot).bits.length = 16) && decide ((s.hspec.get slot).vals.length = slot.size) &&
  decide ((s.hct.get slot).len.length = slot.size) && decide ((s.hct.get slot).code.length = slot.size) &&
  (!(s.hct.get slot).valid || (readTable (s.hct.get slot)).isSome)

/-- The operand registers, the config-done flag (41_table_programmer R171) and `INFO.QUALITY` (10_state R32). -/
structure Tables (s : State) : Prop where
  dc0 : slotShape s .dc0 = true
  ac0 : slotShape s .ac0 = true
  dc1 : slotShape s .dc1 = true
  ac1 : slotShape s .ac1 = true
  baselines : s.baseline.length = s.cfg.nq
  baseline : ∀ b ∈ s.baseline, b.length = 64
  cfg_huff : s.ctx.cfgHuff = (s.prgRaw.all && s.prgEnc.all)
  quality : s.info.quality.toNat ≤ 100

/-- The descriptors (10_state R31) and what `START` and R218 have checked of them (43_transfer_fsm R212, R218). -/
structure Buffers (s : State) : Prop where
  in_off : s.desc.inOff.toNat ≤ s.desc.inLen.toNat
  in_space : s.fsm ≠ .idle → inHostSpace s.desc.inAddr s.desc.inLen = true
  out_space : s.fsm ≠ .idle → inHostSpace s.desc.outAddr s.desc.outLen = true
  out_off : s.fsm ≠ .idle → s.desc.outOff.toNat < s.desc.outLen.toNat
  out_words : s.fsm ≠ .idle → s.desc.outLen.toNat % 4 = 0 ∧ s.desc.outOff.toNat % 4 = 0
  apart : s.fsm ≠ .idle → inOverlapsOut s.desc = false
  apart_sb : s.fsm ≠ .idle → outOverlapsSb s.cfg s.desc = false
  aligned : s.ctx.dmaMethod = true → wordAligned s.desc.inAddr = true ∧ wordAligned s.desc.outAddr = true

/-- The blocks the two engines move (10_state R37, 43_transfer_fsm R213, R232, R233): the one that `DIN` may read lies inside
the input descriptor, which has data as long as the block is not reported, and the one that `DOUT` may write is the output
buffer's (20_memory R88). -/
structure Engines (s : State) : Prop where
  din_left : s.din.busy = true → s.din.done.toNat < s.din.len.toNat
  din_space : s.din.busy = true → inHostSpace s.din.addr s.din.len = true
  din_one : s.din.busy = true → s.din.cplt = false
  dout_block : s.ctx.dmaMethod = true →
    s.dout.addr = s.desc.outAddr ∧ s.dout.len.toNat = roundDown s.desc.outLen.toNat s.cfg.granOut ∧
      Gran.bytes s.cfg.granOut ≤ s.desc.outLen.toNat
  dout_done : s.ctx.dmaMethod = true → s.dout.done.toNat ≤ s.dout.len.toNat ∧
    s.dout.done.toNat % Gran.bytes s.cfg.granOut = 0
  dout_left : s.ctx.dmaMethod = true → s.dout.cplt = false → s.dout.done.toNat < s.dout.len.toNat
  dout_one : s.ctx.dmaMethod = true → s.dout.busy = true → s.dout.cplt = false
  din_inside : s.cr.dmaInEn = true → s.din.busy = true →
    s.desc.inAddr.toNat ≤ s.din.addr.toNat ∧
      s.din.addr.toNat + s.din.len.toNat ≤ s.desc.inAddr.toNat + s.desc.inLen.toNat
  din_data : s.ctx.dmaMethod = true → s.din.busy = true ∨ s.din.cplt = true → s.desc.inOff ≠ s.desc.inLen
  abort_dma : s.din.abortReq = true ∨ s.dout.abortReq = true ∨ s.din.aborted = true ∨ s.dout.aborted = true →
    s.ctx.dmaMethod = true

/-- No streaming buffer holds more than its capacity (10_state R38), and one that an `SBFILL` has filled is not empty
(44_stream_buffers R273). -/
structure Streams (s : State) : Prop where
  buf0 : s.sb.buf0.len.toNat ≤ s.cfg.ibcap
  buf1 : s.sb.buf1.len.toNat ≤ s.cfg.ibcap
  filled : ∀ i, s.sb.filling = some i → (s.sb.buf i).len ≠ 0#32

/-- The invariant that every step keeps: nothing of it rests on how the state was reached. -/
structure Inv (s : State) : Prop where
  params : s.cfg.wf = true
  memory : Memory.wf s = true
  modes : Modes s
  enables : Enables s
  fifos : Fifos s
  tables : Tables s
  buffers : Buffers s
  engines : Engines s
  streams : Streams s

/-! ## Who may write host memory (20_memory R70, R88) -/

/-- `a` lies in the output buffer of a job. -/
def inOutputBuffer (s : State) (a : Nat) : Prop :=
  s.fsm ≠ .idle ∧ s.desc.outAddr.toNat ≤ a ∧ a < s.desc.outAddr.toNat + s.desc.outLen.toNat

/-- `a` lies in the streaming buffer that `SBFILL` fills next, and the step is that of an `SBFILL`. -/
def inFillBuffer (s : State) (a : Nat) : Prop :=
  (∃ cmd arg rest, s.inputs = .command cmd arg :: rest ∧ ∃ len, decodeCommand s.cfg.nq cmd arg = some (.sbfill len)) ∧
  (s.sb.buf s.sb.wr).full = false ∧
  (sbAddr s.cfg s.sb.wr).toNat ≤ a ∧ a < (sbAddr s.cfg s.sb.wr).toNat + s.cfg.ibcap

/-- The step is the host's own write of the byte at `a`. -/
def isHostWrite (s : State) (a : Nat) : Prop :=
  ∃ addr b rest, s.inputs = .host (.write addr b) :: rest ∧ a = addr.toNat

/-- The addresses a step may write. -/
def mayWrite (s : State) (a : Nat) : Prop := inOutputBuffer s a ∨ inFillBuffer s a ∨ isHostWrite s a

/-! ## The output stream (43_transfer_fsm R234 (b)) -/

/-- The concatenation of the payloads of the `DRAIN` effects. -/
def drainBytes : List Effect → List Byte
  | [] => []
  | .drain _ _ bytes :: es => bytes ++ drainBytes es
  | .refill _ :: es => drainBytes es
  | .infoReady :: es => drainBytes es
  | .done _ :: es => drainBytes es
  | .error _ :: es => drainBytes es

/-- The bytes handed to the host so far, then those in the output buffer, then those still in `OFIFO`. -/
def outputStream (s : State) : List Byte :=
  drainBytes s.trace ++ readBytes s.hmem s.desc.outAddr.toNat s.desc.outOff.toNat ++ s.ofifo.flatMap bytesOfWord

/-- The `DRAIN` effects of an output buffer of `len` bytes at `addr` that `bytes` run through: one each time it is full
(43_transfer_fsm R237). -/
def fullDrains (addr len : Word) (bytes : List Byte) : List Effect :=
  (List.range (bytes.length / len.toNat)).map (fun j =>
    .drain addr len ((bytes.drop (len.toNat * j)).take len.toNat))

/-- Those of `bytes` that the buffer still holds then. -/
def undrained (len : Word) (bytes : List Byte) : List Byte := bytes.drop (len.toNat * (bytes.length / len.toNat))

/-- The effects of a job's end (43_transfer_fsm R221, R222): the full buffers, the rest if there is one, then `DONE`. -/
def finalEffects (addr len : Word) (op : Option JobOp) (bytes : List Byte) : List Effect :=
  let rest := undrained len bytes
  fullDrains addr len bytes ++ (if rest = [] then [] else [.drain addr (BitVec.ofNat 32 rest.length) rest]) ++ [.done op]

/-! ## The replies to the `DRAIN`s of one step (43_transfer_fsm R219) -/

/-- The host `h` answers the next `n` `DRAIN`s with `Continue` and is `h'` after them: the manager always does (44_stream_buffers
R270), a host outside the block where it lists these replies (log 8). -/
def HostSide.continues (h : HostSide) (n : Nat) (h' : HostSide) : Prop :=
  if h.managed = true then h' = h
  else ∃ replies, h.drainReplies = List.replicate n .proceed ++ replies ∧ h' = { h with drainReplies := replies }

/-- The host `h`, one outside the block, answers `n` `DRAIN`s with `Continue` and the next with `Pause`, and is `h'` after it. -/
def HostSide.pausesAfter (h : HostSide) (n : Nat) (h' : HostSide) : Prop :=
  h.managed = false ∧
    ∃ replies, h.drainReplies = List.replicate n .proceed ++ .pause :: replies ∧ h' = { h with drainReplies := replies }

/-- The host `h` lets the `n` `DRAIN`s of a job's end pass and is `h'` after them: it answers with `Continue`, the last one, after
which no word is left, with `Continue` or `Pause` (43_transfer_fsm R221; R222: "reply ignored"). -/
def HostSide.passes (h : HostSide) (n : Nat) (h' : HostSide) : Prop :=
  h.continues n h' ∨ ∃ k, n = k + 1 ∧ h.pausesAfter k h'

/-- The bytes `CORE` adds to `OFIFO` in this step. -/
def pushedBytes (s : State) : List Byte :=
  match s.inputs with
  | .core (.push w) :: _ => if coreAllowed (.push w) s then bytesOfWord w else []
  | _ => []

/-! ## Terms of single claims -/

/-- Byte `k` of the raw-spec region's stream: lane `k % 4` of word `RAW_BASE + k / 4` (30_encoding R110). -/
def rawByte (s : State) (k : Nat) : Byte :=
  (readTmem s (s.cfg.rawBase + BitVec.ofNat 16 (k / 4))).extractLsb' (8 * (k % 4)) 8

/-- The first code of length class `L + 1`: `c_1 = 0`, `c_(L+1) = 2 * (c_L + BITS[L-1])` (40_huffman_builder R148). -/
def firstCode (bits : List Byte) : Nat → Nat
  | 0 => 0
  | l + 1 => 2 * (firstCode bits l + (bits.getD l 0#8).toNat)

end Sys2Proof.Machine
end

