-- ==== Sys2Proof/Certificates/Slice0/Obligations.lean ====
section
/-! DEFINITION. The statements put to the provers: what each operation does and leaves alone, when it is turned away, and what
every step of the machine keeps. -/

open Sys2Proof
open Sys2Proof.Machine

/-! ## Encoding and the step -/

/-- Decoding the encoded words of a well-formed operation gives the operation (30_encoding R101, R103, R104, R105). -/
def Obligations.DecodeEncode : Prop :=
  ∀ (nq : Nat) (i : Instr), i.wellFormed nq = true → decode nq (encodeCmd i) (encodeArg i) = some i

/-- Every bit of `CMD` counts, and `ARG` counts in `WRD` and `SBFILL` only (30_encoding R100, R101, R107). -/
def Obligations.DecodeExact : Prop :=
  ∀ (nq : Nat) (cmd arg : Word) (i : Instr), decode nq cmd arg = some i →
    encodeCmd i = cmd ∧ i.wellFormed nq = true ∧
    ((∃ r, i = .wrd r arg) ∨ i = .sbfill arg ∨ ∀ arg', decode nq cmd arg' = some i)

/-- Words the spec writes out (95_test_vectors V-E1, 30_encoding R105) decode to the operations it names, and words it
calls illegal decode to none. -/
def Obligations.DecodeSpecWords : Prop :=
  decode 4 0x10000003#32 0#32 = some (.build .ac1) ∧
  decode 4 0x110101F0#32 0#32 = some (.progc 0x01F0#16 (some .dc0)) ∧
  decode 4 0x1200000F#32 0#32 = some (.progr { dc0 := true, ac0 := true, dc1 := true, ac1 := true }) ∧
  decode 4 0x130000FF#32 0#32 = some (.qgen 0#4 255#8) ∧
  decode 4 0x0105A1FA#32 0#32 = some (.ldb (.vals .ac0) 161#8 0xFA#8) ∧
  decode 4 0x01113F63#32 0#32 = some (.ldb (.baseline 1#4) 63#8 99#8) ∧
  decode 4 0x20000005#32 0#32 = some (.start .encode .dma) ∧
  decode 4 0x02000001#32 16#32 = some (.wrd .inLen 16#32) ∧
  decode 4 0x84000000#32 0#32 = some .evOut ∧
  decodeCommand 4 0x110501F0#32 0#32 = none ∧ decodeCommand 4 0x20000006#32 0#32 = none ∧
  decodeCommand 4 0x0105A200#32 0#32 = none ∧ decodeCommand 4 0x81000000#32 0#32 = none

/-- A command that does not decode changes only `LAST_ERROR` and the response (30_encoding R107). -/
def Obligations.IllegalCommandStep : Prop :=
  ∀ (s : State) (cmd arg : Word) (rest : List Stimulus),
    s.inputs = .command cmd arg :: rest → s.sb.filling = none → decodeCommand s.cfg.nq cmd arg = none →
    step s = .next { s with
      inputs := rest
      response := some { status := 0xFF#8, data := 0#32 }
      lastError := 0xFF#8 }

/-- A step runs the decoded instruction (20_memory R80): the command on the port, with no `SBFILL` between its two
steps; the event record of the harness; the first eligible event of the interrupt context. While an `SBFILL` is
between its steps the task context finishes it first and the command waits (44_stream_buffers R273). What an agent
does next is the model's `inputs` (log 1). That a command waits there is the model's reading, not a sentence of R273
(log 21). -/
def Obligations.StepRunsInstruction : Prop :=
  ∀ (s : State) (rest : List Stimulus),
    (∀ cmd arg i, s.inputs = .command cmd arg :: rest → s.sb.filling = none → decodeCommand s.cfg.nq cmd arg = some i →
      step s = exec i { s with inputs := rest }) ∧
    (∀ evt i, s.inputs = .event evt :: rest → decodeEvent evt = some i → step s = exec i { s with inputs := rest }) ∧
    (∀ e, s.inputs = .irq :: rest → irqEvent s = some e → step s = exec e.instr { s with inputs := rest }) ∧
    (∀ cmd arg k, s.inputs = .command cmd arg :: rest → s.sb.filling = some k → step s = sbfillStep2 k s)

/-! ## Reset -/

/-- The values 10_state R44 gives at reset: control inactive, queues and trace empty, registers 0, operand registers
unwritten and a read of them a fault, no table valid, the table memories unspecified (a free value of each place), and
the four level flags of empty FIFOs. That `State.reset` has the parameters of the set TP (log 2), that unwritten
elements are held as absent ones (log 4) and that an unwritten word reads as an opaque value of its place (log 5) are
the model's. -/
def Obligations.ResetState : Prop :=
  let s := State.reset
  s.fsm = .idle ∧
  s.ctx = { op := none, method := none, cfgHuff := false, cfgQuant := false, pauseIn := false, pauseOut := false,
            ending := false } ∧
  s.cr.pack = 0#32 ∧ s.sr = { eocf := false, hpdf := false, errf := false } ∧ packSr s = 0x00000006#32 ∧
  s.ififo = [] ∧ s.ofifo = [] ∧ s.trace = [] ∧ s.lastError = 0#8 ∧
  s.desc = { inAddr := 0#32, inLen := 0#32, inOff := 0#32, outAddr := 0#32, outLen := 0#32, outOff := 0#32 } ∧
  infoWord .dimensions s.info = 0#32 ∧ infoWord .attributes s.info = 0#32 ∧
  (∀ k : Slot, (s.hspec.get k).bits = List.replicate 16 none ∧ (s.hspec.get k).vals = List.replicate k.size none ∧
    (s.hct.get k).valid = false ∧ (s.hct.get k).len = List.replicate k.size none ∧
    (s.hct.get k).code = List.replicate k.size none ∧ s.prgRaw.get k = false ∧ s.prgEnc.get k = false) ∧
  (∀ q : BitVec 4, q.toNat < s.cfg.nq → s.baselineOf q = List.replicate 64 none) ∧
  (∀ d ∈ [s.din, s.dout], d.busy = false ∧ d.addr = 0#32 ∧ d.len = 0#32 ∧ d.done = 0#32 ∧ d.abortReq = false ∧
    d.cplt = false ∧ d.aborted = false ∧ d.err = false) ∧
  (∀ i : BufIdx, (s.sb.buf i).full = false ∧ (s.sb.buf i).len = 0#32) ∧
  s.sb.rd = .b0 ∧ s.sb.wr = .b0 ∧ s.sb.off = 0#32 ∧ s.sb.wait = false ∧
  (∀ a : BitVec 16, readTmem s a = Config.tmemFree a) ∧
  (∀ q w : BitVec 4, readQmem s q w = Config.qmemFree (16 * q.toNat + w.toNat)) ∧
  (∀ slot : Slot, exec (.build slot) s = .fault .unwrittenOperand) ∧
  (∀ (mask : SlotSet) (slot : Slot), mask.has slot = true → exec (.progr mask) s = .fault .unwrittenOperand) ∧
  (∀ q : BitVec 4, q.toNat < s.cfg.nq → exec (.qest q) s = .fault .unwrittenOperand ∧
    ∀ quality : BitVec 8, 1 ≤ quality.toNat → quality.toNat ≤ 100 →
      exec (.qgen q quality) s = .fault .unwrittenOperand)

/-- The invariant holds at reset. -/
def Obligations.ResetInv : Prop := Inv State.reset

/-! ## What every step keeps -/

/-- Every step keeps the invariant: `STATE` against `CTX` and `CR` (10_state R25), the enables against the pauses, the
FIFO capacities, the operand registers' shapes, the descriptors' ranges, the engines' blocks, of which the one that
`DIN` may read lies inside the input descriptor, which has data as long as the block is not reported, and the one that
`DOUT` may write is the output buffer's (20_memory R88). That an `SBFILL` never moves the descriptor away from under
`DIN`, as a `WRD` never does, is the model's reading (log 38). -/
def Obligations.StepKeepsInv : Prop :=
  ∀ s t : State, Inv s → step s = .next t → Inv t

/-- Every step keeps the canonical form of the memories, the parameters, and who answers the callbacks. The canonical
form, the parameters in the state and the flag that says who answers are the model's (logs 2, 5, 6, 9). -/
def Obligations.StepKeepsMemory : Prop :=
  ∀ s t : State, step s = .next t →
    (Memory.wf s = true → Memory.wf t = true) ∧ t.cfg = s.cfg ∧ t.host.managed = s.host.managed

/-- Host memory is written only inside the output buffer of a job, inside the streaming buffer an `SBFILL` fills, and
by the host itself (20_memory R88, R70). -/
def Obligations.StepWritesOwnBuffers : Prop :=
  ∀ s t : State, Inv s → step s = .next t → ∀ a : Nat, ¬ mayWrite s a → readByte t.hmem a = readByte s.hmem a

/-- "They are read-only during an active job" (10_state R40, R42): while `STATE` is not `Idle` no step changes an
operand register or a word of `TMEM`, and a word of `QMEM` is changed by `CORE` alone, in a decode. -/
def Obligations.TablesReadOnlyInJob : Prop :=
  ∀ s t : State, s.fsm ≠ .idle → step s = .next t →
    t.hspec = s.hspec ∧ t.hct = s.hct ∧ t.baseline = s.baseline ∧ t.tmem = s.tmem ∧
    t.prgRaw = s.prgRaw ∧ t.prgEnc = s.prgEnc ∧ t.ctx.cfgHuff = s.ctx.cfgHuff ∧ t.ctx.cfgQuant = s.ctx.cfgQuant ∧
    (t.qmem = s.qmem ∨
      s.ctx.op = some .decode ∧ s.cr.run = true ∧ ∃ q w v rest, s.inputs = .core (.writeQmem q w v) :: rest)

/-- Why a step stops: no step refuses, under the invariant no step reaches an address outside host memory, and each
fault of 60_exceptions R304 has the cause that rule names: (a) a programming or load command outside `Idle`, (b) the
host's own write of the block's state, (c) an operand element that nothing has written and that the command reads: for
a build any of the Bits or, where there are not too many symbols, one of the first `count` Values, (d) a zero baseline
element under a value other than 1, (e) a buffer that breaks 43_transfer_fsm R218 or overlaps, given by a `WRD` of a
paused job, by the hand-over of an `SBFILL`, or by the reply to a `REFILL` of an event that makes one, and at `START`
an output buffer that overlaps, (f) a command as the answer to a callback, which the step makes: `INFO_READY` of
`EV_HPD`, `ERROR` of `EV_ERR`, `DONE` at the end of a job, `REFILL`, or a `DRAIN` after drains answered `Continue`,
(g) input after a padded tail word. The fault for an address outside host memory is the model's (log 32), and so are
how a host's command in a callback stands in the state (log 30) and its listed replies (log 8), `tailFed` (logs 22,
39), which Values a build reads (log 17), what counts as an overlap (logs 19, 36), which records are taken (log 11),
and the checks of the descriptor after each `WRD` and in the second step of an `SBFILL` (logs 20, 21, 38). -/
def Obligations.FaultsHaveCauses : Prop :=
  ∀ s : State,
    let runs (i : Instr) : Prop := fetch s = .run i { s with inputs := s.inputs.tail }
    let took (e : Event) : Prop := runs e.instr ∧ recordTaken e s = true
    let polled (e : Event) : Prop := runs .poll ∧ s.ctx.method = some .poll ∧ eligible e s = true
    let resumed : Prop := ∃ dir, runs (.resume dir) ∧ dir.output = true ∧ s.ctx.ending = true ∧ s.ctx.pauseOut = true
    let spec (k : Slot) : Prop := none ∈ (s.hspec.get k).bits ∨ none ∈ (s.hspec.get k).vals
    let buildReads (k : Slot) : Prop := none ∈ (s.hspec.get k).bits ∨
      ∃ bits, (s.hspec.get k).bits = bits.map some ∧ symbolCount bits ≤ k.size ∧
        none ∈ (s.hspec.get k).vals.take (symbolCount bits)
    let table (k : Slot) : Prop := none ∈ (s.hct.get k).len ∨ none ∈ (s.hct.get k).code
    let badInput (f : Fault) (addr len : Word) : Prop :=
      inputFault { s with desc := { s.desc with inAddr := addr, inLen := len, inOff := 0#32 } } = some f
    let badReply (f : Fault) (consumed : Word) : Prop :=
      ∃ addr len, (refillReply consumed s).1 = .supply addr len ∧ badInput f addr len
    let inputCause (f : Fault) : Prop :=
      (∃ v, s.fsm ≠ .idle ∧ inputWritable s = true ∧ runs (.wrd .inAddr v) ∧ badInput f v s.desc.inLen) ∨
      (∃ v, s.fsm ≠ .idle ∧ inputWritable s = true ∧ runs (.wrd .inLen v) ∧ badInput f s.desc.inAddr v) ∨
      (∃ k, s.fsm ≠ .idle ∧ inputWritable s = true ∧ s.sb.filling = some k ∧ s.sb.wait = true ∧ s.sb.rd = k ∧
        (∃ t, fetch s = .outcome (sbfillStep2 k t)) ∧ badInput f (sbAddr s.cfg k) (s.sb.buf k).len) ∨
      ((took .inp ∨ polled .inp) ∧ s.desc.inOff = s.desc.inLen ∧ badReply f s.desc.inOff) ∨
      (took .dmaInCplt ∧ badReply f (s.desc.inOff + s.din.len))
    (∀ r, step s ≠ .refused r) ∧
    (Inv s → step s ≠ .fault .hostAddress) ∧
    (step s = .fault .programmingOutsideIdle → s.fsm ≠ .idle ∧ ∃ i, runs i ∧
      ((∃ file index data, i = .ldb file index data) ∨ (∃ k, i = .build k) ∨ (∃ addr src, i = .progc addr src) ∨
        (∃ mask, i = .progr mask) ∨ (∃ q quality, i = .qgen q quality) ∨ ∃ q, i = .qest q)) ∧
    (step s = .fault .singleWriter → ∃ rest, s.inputs = .host .writeBlockState :: rest) ∧
    (step s = .fault .unwrittenOperand → s.fsm = .idle ∧
      ((∃ k, runs (.build k) ∧ buildReads k) ∨
        (∃ addr k, runs (.progc addr (some k)) ∧ if (s.hct.get k).valid = true then table k else buildReads k) ∨
        (∃ mask k, runs (.progr mask) ∧ mask.has k = true ∧ spec k) ∨
        (∃ q, (runs (.qest q) ∨ ∃ quality, runs (.qgen q quality)) ∧ none ∈ s.baselineOf q))) ∧
    (step s = .fault .divideByZero → s.fsm = .idle ∧ ∃ q base i, runs (.qest q) ∧ s.baselineOf q = base.map some ∧
      i < 64 ∧ readBack s q i ≠ 1 ∧ zigzagElem s.cfg base i = 0#8) ∧
    (step s = .fault .badBuffer → inputCause .badBuffer) ∧
    (step s = .fault .bufferOverlap →
      inputCause .bufferOverlap ∨ s.fsm = .idle ∧ startOverlap s = true ∧ ∃ op m, runs (.start op m)) ∧
    (step s = .fault .commandInCallback →
      (s.host.notices[0]? = some .command ∧ (took .hpd ∨ polled .hpd ∨ took .err ∨ polled .err ∨
        took .eoc ∨ polled .eoc ∨ took .dmaAbort ∨ resumed)) ∨
      (s.host.notices[1]? = some .command ∧ polled .hpd ∧ polled .eoc) ∨
      (s.host.managed = false ∧ s.host.refillReplies.head? = some .command ∧
        ((took .inp ∨ polled .inp) ∧ s.desc.inOff = s.desc.inLen ∨ took .dmaInCplt)) ∨
      (s.host.managed = false ∧ s.host.drainReplies.head? = some .command ∧ took .dmaOutCplt) ∨
      (s.host.managed = false ∧ (∃ k replies, s.host.drainReplies = List.replicate k .proceed ++ .command :: replies) ∧
        (took .out ∨ polled .out ∨ took .eoc ∨ polled .eoc ∨ took .dmaAbort ∨ resumed))) ∧
    (step s = .fault .raggedMidStream → s.tailFed = true ∧
      (took .inp ∨ polled .inp ∨ (∃ rest, s.inputs = .din :: rest) ∧ dinMoves s = true))

/-- In the FIFO methods no output byte is lost or doubled (43_transfer_fsm R234 (b)): whoever answers the callbacks,
and however, every step of a job leaves the bytes drained, then those in the output buffer, then those in `OFIFO`, as
they were, and adds at the end the word that `CORE` pushes. That a `DRAIN` carries its bytes is the model's (log 25),
and so is how the host's replies stand in the state (log 8). That a `DRAIN` carries its bytes is the model's (log 25).
-/
def Obligations.OutputStreamConserved : Prop :=
  ∀ s t : State, Inv s → s.fsm ≠ .idle → s.ctx.fifoMethod = true →
    (∀ a b rest, s.inputs ≠ .host (.write a b) :: rest) → step s = .next t →
    outputStream t = outputStream s ++ pushedBytes s

/-! ## Faults of single commands -/

/-- The programming and load commands outside `Idle` are a fault (60_exceptions R302). -/
def Obligations.ProgrammingOutsideIdle : Prop :=
  ∀ s : State, s.fsm ≠ .idle →
    (∀ f index data, Instr.wellFormed s.cfg.nq (.ldb f index data) = true →
      exec (.ldb f index data) s = .fault .programmingOutsideIdle) ∧
    (∀ slot, exec (.build slot) s = .fault .programmingOutsideIdle) ∧
    (∀ addr src, exec (.progc addr src) s = .fault .programmingOutsideIdle) ∧
    (∀ mask, exec (.progr mask) s = .fault .programmingOutsideIdle) ∧
    (∀ q quality, q.toNat < s.cfg.nq → exec (.qgen q quality) s = .fault .programmingOutsideIdle) ∧
    (∀ q, q.toNat < s.cfg.nq → exec (.qest q) s = .fault .programmingOutsideIdle)

/-- Reading an operand register element that nothing has written is a fault (10_state R44): in `BUILD` any of the Bits
and, where there are not too many symbols, any of the first `count` Values; in `PROGC` of a table that is not valid
the same, read by the implied build; in `PROGR` any element of a selected slot; in `QGEN` and `QEST` any baseline
element. So is a division by a zero baseline element in `QEST` (42_quantization R197 (b)). That the Values are read
only where there are not too many symbols, and before a code overflow is found, is the model's reading (log 17). -/
def Obligations.OperandFaults : Prop :=
  ∀ s : State, s.fsm = .idle →
    let buildReads (slot : Slot) : Prop := none ∈ (s.hspec.get slot).bits ∨
      ∃ bits, (s.hspec.get slot).bits = bits.map some ∧ symbolCount bits ≤ slot.size ∧
        none ∈ (s.hspec.get slot).vals.take (symbolCount bits)
    (∀ slot, buildReads slot → exec (.build slot) s = .fault .unwrittenOperand) ∧
    (∀ addr r slot, target s.cfg addr = some r → slot.kind = r.kind → (s.hct.get slot).valid = false → buildReads slot →
      exec (.progc addr (some slot)) s = .fault .unwrittenOperand) ∧
    (∀ mask slot, mask.has slot = true → (none ∈ (s.hspec.get slot).bits ∨ none ∈ (s.hspec.get slot).vals) →
      exec (.progr mask) s = .fault .unwrittenOperand) ∧
    (∀ q quality, q.toNat < s.cfg.nq → 1 ≤ quality.toNat → quality.toNat ≤ 100 → none ∈ s.baselineOf q →
      exec (.qgen q quality) s = .fault .unwrittenOperand) ∧
    (∀ q, q.toNat < s.cfg.nq → none ∈ s.baselineOf q → exec (.qest q) s = .fault .unwrittenOperand) ∧
    (∀ q base i, q.toNat < s.cfg.nq → s.baselineOf q = base.map some → i < 64 → readBack s q i ≠ 1 →
      zigzagElem s.cfg base i = 0#8 → exec (.qest q) s = .fault .divideByZero)

/-! ## Register load and read-out -/

/-- `LDB` in `Idle` (45_register_access R280): the element, what a load into an `HSPEC` or a `BASELINE` clears, and
nothing else. -/
def Obligations.LdbResult : Prop :=
  ∀ (s : State) (index : BitVec 8) (data : Byte), s.fsm = .idle →
    (∀ slot, index.toNat < 16 → exec (.ldb (.bits slot) index data) s = .next { s with
      hspec := s.hspec.set slot { s.hspec.get slot with
        bits := (s.hspec.get slot).bits.set index.toNat (some data) }
      hct := s.hct.set slot { s.hct.get slot with valid := false }
      prgRaw := .const false
      prgEnc := .const false
      ctx := { s.ctx with cfgHuff := false }
      response := some { status := 0#8, data := 0#32 } }) ∧
    (∀ slot, index.toNat < slot.size → exec (.ldb (.vals slot) index data) s = .next { s with
      hspec := s.hspec.set slot { s.hspec.get slot with
        vals := (s.hspec.get slot).vals.set index.toNat (some data) }
      hct := s.hct.set slot { s.hct.get slot with valid := false }
      prgRaw := .const false
      prgEnc := .const false
      ctx := { s.ctx with cfgHuff := false }
      response := some { status := 0#8, data := 0#32 } }) ∧
    (∀ q, index.toNat < 64 → q.toNat < s.cfg.nq → exec (.ldb (.baseline q) index data) s = .next { s with
      baseline := s.baseline.set q.toNat ((s.baselineOf q).set index.toNat (some data))
      ctx := { s.ctx with cfgQuant := false }
      response := some { status := 0#8, data := 0#32 } })

/-- `WRD` (45_register_access R281): the register and its offset in `Idle`; the input descriptor in a job only while
the input is paused with no block in flight, and there a buffer outside host memory, or misaligned in method DMA, or
over the output buffer, or over a streaming buffer without being a part of it (43_transfer_fsm R218, 20_memory R74,
60_exceptions R304 (e)) is a fault, and no other buffer is; else `Busy`. That the pair is checked after each `WRD` is
the model's reading (log 20), and so is that a part of one streaming buffer is that buffer and no overlap with it (log
36), and that the length is not tested here, so that a `WRD` completes whatever the length, also after a padded tail
word, and the multiple of 4 that R218 and R304 (g) ask of a mid-stream buffer is enforced only by the fault of a word
that follows a padded one (logs 22, 39). -/
def Obligations.WrdResult : Prop :=
  ∀ (s : State) (v : Word),
    let ok : Option Response := some { status := 0#8, data := 0#32 }
    let busy : State := { s with response := some { status := 7#8, data := 0#32 }, lastError := 7#8 }
    let quiet : Prop := s.ctx.pauseIn = true ∧ s.din.busy = false ∧ s.din.cplt = false
    let addrSet : State := { s with desc := { s.desc with inAddr := v, inOff := 0#32 } }
    let lenSet : State := { s with desc := { s.desc with inLen := v, inOff := 0#32 } }
    (s.fsm = .idle →
      exec (.wrd .inAddr v) s = .next { addrSet with response := ok } ∧
      exec (.wrd .inLen v) s = .next { lenSet with response := ok } ∧
      exec (.wrd .outAddr v) s = .next { s with desc := { s.desc with outAddr := v, outOff := 0#32 }, response := ok } ∧
      exec (.wrd .outLen v) s = .next { s with desc := { s.desc with outLen := v, outOff := 0#32 }, response := ok }) ∧
    (s.fsm ≠ .idle → exec (.wrd .outAddr v) s = .next busy ∧ exec (.wrd .outLen v) s = .next busy) ∧
    (s.fsm ≠ .idle → ¬ quiet → exec (.wrd .inAddr v) s = .next busy ∧ exec (.wrd .inLen v) s = .next busy) ∧
    (s.fsm ≠ .idle → quiet → inputFault addrSet = none →
      exec (.wrd .inAddr v) s = .next { addrSet with response := ok }) ∧
    (s.fsm ≠ .idle → quiet → inputFault lenSet = none →
      exec (.wrd .inLen v) s = .next { lenSet with response := ok }) ∧
    (∀ f, s.fsm ≠ .idle → quiet → inputFault addrSet = some f → exec (.wrd .inAddr v) s = .fault f) ∧
    (∀ f, s.fsm ≠ .idle → quiet → inputFault lenSet = some f → exec (.wrd .inLen v) s = .fault f) ∧
    (let d := s.desc
      let within (a : Nat) (addr len : Word) : Prop := addr.toNat ≤ a ∧ a < addr.toNat + len.toNat
      inputFault s = none ↔
        d.inAddr.toNat + d.inLen.toNat ≤ 2 ^ 32 ∧ (s.ctx.dmaMethod = true → d.inAddr.toNat % 4 = 0) ∧
        (∀ a, within a d.inAddr d.inLen → ¬ within a d.outAddr d.outLen) ∧
        ∀ i : BufIdx,
          (∀ a, within a d.inAddr d.inLen →
            a < (sbAddr s.cfg i).toNat ∨ (sbAddr s.cfg i).toNat + s.cfg.ibcap ≤ a) ∨
          (sbAddr s.cfg i).toNat ≤ d.inAddr.toNat ∧
            d.inAddr.toNat + d.inLen.toNat ≤ (sbAddr s.cfg i).toNat + s.cfg.ibcap)

/-- The read-out commands (45_register_access R282 to R285) complete in every state, change nothing but the response,
and return the packed registers: each field of `DATA` in its place, the other bits 0. -/
def Obligations.ReadoutsResult : Prop :=
  ∀ s : State,
    (∃ d : Word, exec (.getinfo .dimensions) s = .next { s with response := some { status := 0#8, data := d } } ∧
      d.toNat = s.info.width.toNat + 65536 * s.info.height.toNat) ∧
    (∃ d : Word, exec (.getinfo .attributes) s = .next { s with response := some { status := 0#8, data := d } } ∧
      d.toNat = s.info.quality.toNat + 256 * s.info.colorspace.code.toNat + 4096 * s.info.chroma.code.toNat) ∧
    (∃ d : Word, exec .getstate s = .next { s with response := some { status := 0#8, data := d } } ∧
      d.toNat = s.fsm.code.toNat + 65536 * ((opCode s.ctx.op).toNat + 4 * (methodCode s.ctx.method).toNat +
        256 * s.ctx.cfgHuff.toNat + 512 * s.ctx.cfgQuant.toNat + 4096 * s.ctx.pauseIn.toNat +
        8192 * s.ctx.pauseOut.toNat + 32768 * s.ctx.ending.toNat)) ∧
    (∃ d : Word, exec .geterr s = .next { s with response := some { status := 0#8, data := d } } ∧
      d.toNat = s.lastError.toNat)

/-- `LAST_ERROR` (45_register_access R286): a command that returns a status other than `OK` writes it, one that
returns `OK` leaves it, unless it is a `POLL` whose pass ran `EV_ERR`; `EV_ERR` writes `0x06` and no other event
writes it. -/
def Obligations.LastErrorRule : Prop :=
  (∀ (i : Instr) (s t : State) (r : Response), i.isEvent = false → exec i s = .next t → t.response = some r →
    (r.status ≠ 0#8 → t.lastError = r.status) ∧
    (r.status = 0#8 → t.lastError = s.lastError ∨ (i = .poll ∧ eligible .err s = true ∧ t.lastError = 0x06#8))) ∧
  (∀ (k : BufIdx) (s t : State) (r : Response), sbfillStep2 k s = .next t → t.response = some r →
    (r.status ≠ 0#8 → t.lastError = r.status) ∧ (r.status = 0#8 → t.lastError = s.lastError)) ∧
  (∀ (e : Event) (s t : State), exec e.instr s = .next t →
    t.lastError = if e = .err ∧ recordTaken .err s = true then 0x06#8 else s.lastError)

/-! ## The Huffman Table Builder -/

/-- A successful `BUILD` (40_huffman_builder R145, R143, R144, R146): the slot's table is valid, the entry of each
symbol holds the length and code of the last symbol that maps to it, an entry no symbol maps to is drawn, and nothing
else changes. A drawn entry is a free value (log 7). -/
def Obligations.BuildResult : Prop :=
  ∀ (s : State) (slot : Slot) (bits vs : List Byte) (cs : List (Nat × Nat)),
    s.fsm = .idle → (s.hspec.get slot).bits = bits.map some →
    (s.hspec.get slot).vals.take (symbolCount bits) = vs.map some → vs.length = symbolCount bits →
    symbolCount bits ≤ slot.size → assignCodes bits 1 0 = some cs →
    (∀ v ∈ vs, symbolIndex slot.kind v < slot.size) →
    ∃ t : HuffTable, exec (.build slot) s = .next { s with
        hct := s.hct.set slot t
        draws := s.draws + slot.size
        response := some { status := 0#8, data := 0#32 } } ∧
      t.valid = true ∧ t.len.length = slot.size ∧ t.code.length = slot.size ∧
      (∀ (k : Nat) (v : Byte) (p : Nat × Nat), vs[k]? = some v → cs[k]? = some p →
        (∀ j v', k < j → vs[j]? = some v' → symbolIndex slot.kind v' ≠ symbolIndex slot.kind v) →
        t.len[symbolIndex slot.kind v]? = some (some (BitVec.ofNat 5 p.1)) ∧
        t.code[symbolIndex slot.kind v]? = some (some (BitVec.ofNat 16 p.2))) ∧
      (∀ i, i < slot.size → (∀ v ∈ vs, symbolIndex slot.kind v ≠ i) →
        t.len[i]? = some (some (Config.drawLen (s.draws + i))) ∧
        t.code[i]? = some (some (Config.drawCode (s.draws + i))))

/-- A failing `BUILD` (40_huffman_builder R141 to R147, 60_exceptions R292): too many symbols before a code overflow
before a symbol out of range (that the Values are read only when they all exist is the model's reading, log 17); the
table is not valid, its entries are drawn, and nothing else changes. That each entry of a table whose build failed
reads as a draw, and the draw counter, are the model's (log 7). -/
def Obligations.BuildErrors : Prop :=
  ∀ (s : State) (slot : Slot) (bits vs : List Byte),
    s.fsm = .idle → (s.hspec.get slot).bits = bits.map some →
    let failed (code : BitVec 8) : State := { s with
      hct := s.hct.set slot (drawnTable false s.draws slot.size)
      draws := s.draws + slot.size
      response := some { status := code, data := 0#32 }
      lastError := code }
    (slot.size < symbolCount bits → exec (.build slot) s = .next (failed 0x01#8)) ∧
    (symbolCount bits ≤ slot.size → (s.hspec.get slot).vals.take (symbolCount bits) = vs.map some →
      assignCodes bits 1 0 = none → exec (.build slot) s = .next (failed 0x02#8)) ∧
    (symbolCount bits ≤ slot.size → (s.hspec.get slot).vals.take (symbolCount bits) = vs.map some →
      vs.length = symbolCount bits → assignCodes bits 1 0 ≠ none →
      (∃ v ∈ vs, slot.size ≤ symbolIndex slot.kind v) → exec (.build slot) s = .next (failed 0x03#8))

/-- Canonical Huffman validity (40_huffman_builder R148): the codes of a successful assignment come class by class, in
each class of length `L` consecutive from `c_L`, with `c_1 = 0` and `c_(L+1) = 2 * (c_L + BITS[L-1])`; no two symbols
share length and code, and no code is all ones in its length. -/
def Obligations.CanonicalCodes : Prop :=
  ∀ (bits : List Byte) (cs : List (Nat × Nat)), bits.length = 16 → assignCodes bits 1 0 = some cs →
    cs.length = symbolCount bits ∧ cs.Nodup ∧
    (∀ p ∈ cs, 1 ≤ p.1 ∧ p.1 ≤ 16 ∧ p.2 + 1 < 2 ^ p.1) ∧
    (∀ l j, l < 16 → j < (bits.getD l 0#8).toNat →
      cs[symbolCount (bits.take l) + j]? = some (l + 1, firstCode bits l + j))

/-- `CodeOverflow` (40_huffman_builder R142): the assignment fails exactly when some length class is not empty and its
last code would be all ones or larger. -/
def Obligations.CodeOverflowRule : Prop :=
  ∀ bits : List Byte, bits.length = 16 →
    (assignCodes bits 1 0 = none ↔
      ∃ l, l < 16 ∧ 0 < (bits.getD l 0#8).toNat ∧
        2 ^ (l + 1) - 1 ≤ firstCode bits l + (bits.getD l 0#8).toNat - 1)

/-- The remapping of symbols (40_huffman_builder R144), on every byte: the identity for `DC`; for `AC`, 160 for
`0x00`, 161 for `0xF0`, else `10*run + size - 1` with `run` the high and `size` the low four bits; out of range on
`0xFD`, `0xFE` and `0xFF` alone; one-to-one from the well-formed symbols onto 0..161. -/
def Obligations.SymbolIndexRule : Prop :=
  (∀ v : Byte, symbolIndex .dc v = v.toNat) ∧
  symbolIndex .ac 0x00#8 = 160 ∧ symbolIndex .ac 0xF0#8 = 161 ∧
  (∀ run size : BitVec 4, run ++ size ≠ 0x00#8 → run ++ size ≠ 0xF0#8 →
    symbolIndex .ac (run ++ size) + 1 = 10 * run.toNat + size.toNat) ∧
  (∀ v : Byte, 162 ≤ symbolIndex .ac v ↔ v = 0xFD#8 ∨ v = 0xFE#8 ∨ v = 0xFF#8) ∧
  (∀ i : Nat, i < 160 → ∃ run size : Nat, run < 16 ∧ 1 ≤ size ∧ size ≤ 10 ∧
    symbolIndex .ac (BitVec.ofNat 8 (16 * run + size)) = i)

/-! ## The Hardware Table Programmer -/

/-- `PROGC` turned away or with nothing to write (41_table_programmer R160, R161): an unknown address before the null
source, a null source is a success, a table of the other kind is `InvalidTableTarget`; no word is written. -/
def Obligations.ProgcRejects : Prop :=
  ∀ (s : State) (addr : BitVec 16), s.fsm = .idle →
    let invalid : State := { s with response := some { status := 4#8, data := 0#32 }, lastError := 4#8 }
    (addr ≠ s.cfg.encAc0Base → addr ≠ s.cfg.encAc1Base → addr ≠ s.cfg.encDc0Base → addr ≠ s.cfg.encDc1Base →
      ∀ src, exec (.progc addr src) s = .next invalid) ∧
    (∀ r, target s.cfg addr = some r →
      exec (.progc addr none) s = .next { s with response := some { status := 0#8, data := 0#32 } } ∧
      ∀ slot, slot.kind ≠ r.kind → exec (.progc addr (some slot)) s = .next invalid)

/-- `PROGC` of a valid table (41_table_programmer R160 to R165, R171, 30_encoding R108, R109): the words of the
region, sentinels above the data, each written once in the order of R165 and none read; every other word of `TMEM` and
everything else but `PRG_ENC` and `CFG_HUFF` as before. The recorded history is the model's (log 24). -/
def Obligations.ProgcWritesRegion : Prop :=
  ∀ (s : State) (addr : BitVec 16) (r slot : Slot) (tab : ReadTable),
    s.fsm = .idle → s.cfg.acReserved.length = 7 → target s.cfg addr = some r → slot.kind = r.kind →
    (s.hct.get slot).valid = true → readTable (s.hct.get slot) = some tab →
    let at' (w : Nat) : BitVec 16 := addr + BitVec.ofNat 16 w
    let words : Nat := if r.kind = .dc then 8 else 88
    let data : Nat := if r.kind = .dc then 6 else 81
    ∃ t : State, exec (.progc addr (some slot)) s = .next t ∧
      (∀ w, w < data → readTmem t (at' w) =
        halfWord (tab.len.getD (2 * w + 1) 0#5) (tab.code.getD (2 * w + 1) 0#16) ++
          halfWord (tab.len.getD (2 * w) 0#5) (tab.code.getD (2 * w) 0#16)) ∧
      (r.kind = .dc → readTmem t (at' 6) = 0xFFFFFFFF#32 ∧ readTmem t (at' 7) = 0xFFFFFFFF#32) ∧
      (r.kind = .ac → ∀ j, j < 7 → readTmem t (at' (81 + j)) = s.cfg.acReserved.getD j 0#32) ∧
      (∀ a, (∀ w, w < words → a ≠ at' w) → readTmem t a = readTmem s a) ∧
      t = { s with
        tmem := t.tmem
        history := s.history ++
          ((List.range (words - data)).map (fun j => .twrite (at' (data + j)) (readTmem t (at' (data + j)))) ++
            (List.range data).reverse.map (fun w => .twrite (at' w) (readTmem t (at' w))))
        prgEnc := s.prgEnc.set r true
        ctx := { s.ctx with cfgHuff := s.prgRaw.all && (s.prgEnc.set r true).all }
        response := some { status := 0#8, data := 0#32 } }

/-- `PROGC` of a table that is not valid (41_table_programmer R160): it is a `BUILD` of the slot, whose failure is its
result with no `TMEM` word written, and otherwise the `PROGC` of the table just built. -/
def Obligations.ProgcBuildsFirst : Prop :=
  ∀ (s u : State) (addr : BitVec 16) (r slot : Slot),
    s.fsm = .idle → target s.cfg addr = some r → slot.kind = r.kind → (s.hct.get slot).valid = false →
    exec (.build slot) s = .next u →
    (u.response = some { status := 0#8, data := 0#32 } →
      exec (.progc addr (some slot)) s = exec (.progc addr (some slot)) u) ∧
    (u.response ≠ some { status := 0#8, data := 0#32 } → exec (.progc addr (some slot)) s = .next u ∧ u.tmem = s.tmem)

/-- `PROGR` (41_table_programmer R166 to R168, 30_encoding R110): every Bits and Values byte of the selected slots
stands in its lane of the raw-spec region, every other lane and every other word of `TMEM` is as before, and so is
everything else but `PRG_RAW` and `CFG_HUFF`. The words are accessed in the order of those rules: slot by slot, the
Bits then the Values, in each from the high end downward, a word that lies whole in its sub-region written without
being read, any other read and then written; the memory is what these writes leave. The recorded history is the
model's (log 24). -/
def Obligations.ProgrWritesRaw : Prop :=
  ∀ (s : State) (mask : SlotSet) (spec : Slot → RawSpec), s.fsm = .idle →
    (∀ k, mask.has k = true → (s.hspec.get k).bits = (spec k).bits.map some ∧
      (s.hspec.get k).vals = (spec k).vals.map some ∧ (spec k).bits.length = 16 ∧ (spec k).vals.length = k.size) →
    let accesses (lo n : Nat) : List (Bool × BitVec 16) :=
      (List.range ((lo + n - 1) / 4 + 1 - lo / 4)).reverse.flatMap fun j =>
        let a := lo / 4 + j
        let word := s.cfg.rawBase + BitVec.ofNat 16 a
        if lo ≤ 4 * a ∧ 4 * a + 3 < lo + n then [(true, word)] else [(false, word), (true, word)]
    let shape : TableAccess → Bool × BitVec 16 := fun x =>
      match x with
      | .tread a => (false, a)
      | .twrite a _ => (true, a)
      | .qwrite _ w _ => (true, BitVec.ofNat 16 w)
    let effect : Store Word → TableAccess → Store Word := fun m x =>
      match x with
      | .tread _ => m
      | .twrite a v => Store.put m a.toNat v
      | .qwrite _ _ _ => m
    ∃ (t : State) (h : List TableAccess), exec (.progr mask) s = .next t ∧
      (∀ k j, mask.has k = true → j < 16 → rawByte t (offBits k + j) = (spec k).bits.getD j 0#8) ∧
      (∀ k j, mask.has k = true → j < k.size → rawByte t (offVals k + j) = (spec k).vals.getD j 0#8) ∧
      (∀ b, b < 412 → (∀ k, mask.has k = true → b < offBits k ∨ offVals k + k.size ≤ b) → rawByte t b = rawByte s b) ∧
      (∀ a, (∀ w, w < 103 → a ≠ s.cfg.rawBase + BitVec.ofNat 16 w) → readTmem t a = readTmem s a) ∧
      h.map shape = [Slot.dc0, Slot.ac0, Slot.dc1, Slot.ac1].flatMap (fun k =>
        if mask.has k then accesses (offBits k) 16 ++ accesses (offVals k) k.size else []) ∧
      t.tmem = h.foldl effect s.tmem ∧
      (∀ k, t.prgRaw.get k = (mask.has k || s.prgRaw.get k)) ∧
      t = { s with
        tmem := t.tmem
        history := s.history ++ h
        prgRaw := t.prgRaw
        ctx := { s.ctx with cfgHuff := t.prgRaw.all && s.prgEnc.all }
        response := some { status := 0#8, data := 0#32 } }

/-! ## The Quantization Table Generator -/

/-- `QGEN` (42_quantization R190 to R194, 30_encoding R111): word `w` of `QMEM[q]` is `v[4w+3] ++ v[4w+2] ++ v[4w+1]
++ v[4w]`, with `v[i]` the scaled baseline element of zig-zag position `i`, clamped to 1..255; the sixteen words are
written once each, ascending; every other word of `QMEM` and everything else but `CFG_QUANT` is as before. The
recorded history is the model's (log 24). -/
def Obligations.QgenResult : Prop :=
  ∀ (s : State) (q : BitVec 4) (quality : BitVec 8) (base : List Byte),
    s.fsm = .idle → q.toNat < s.cfg.nq → 1 ≤ quality.toNat → quality.toNat ≤ 100 → s.baselineOf q = base.map some →
    let scale : Nat := if 50 ≤ quality.toNat then 200 - 2 * quality.toNat else 5000 / quality.toNat
    let v (i : Nat) : Byte :=
      BitVec.ofNat 8 (max 1 (min 255 (((base.getD (s.cfg.zigzag.getD i 0) 0#8).toNat * scale + 50) / 100)))
    ∃ t : State, exec (.qgen q quality) s = .next t ∧
      (∀ w, w < 16 → readQmem t q (BitVec.ofNat 4 w) = v (4 * w + 3) ++ (v (4 * w + 2) ++ (v (4 * w + 1) ++ v (4 * w)))) ∧
      (∀ q' w, q' ≠ q → readQmem t q' w = readQmem s q' w) ∧
      t = { s with
        qmem := t.qmem
        history := s.history ++
          (List.range 16).map (fun w => .qwrite q.toNat w (readQmem t q (BitVec.ofNat 4 w)))
        ctx := { s.ctx with cfgQuant := true }
        response := some { status := 0#8, data := 0#32 } }

/-- `QGEN` turned away (42_quantization R191, R196 (b), (f)): a quality outside 1..100 is `InvalidArgument`, a `q`
outside `0..NQ-1` an illegal command; nothing is written. That the quality is tested before the baseline is read is
the model's reading (log 18). -/
def Obligations.QgenRejects : Prop :=
  ∀ (s : State) (q : BitVec 4) (quality : BitVec 8), s.fsm = .idle →
    (q.toNat < s.cfg.nq → quality.toNat = 0 ∨ 100 < quality.toNat →
      exec (.qgen q quality) s = .next { s with
        response := some { status := 5#8, data := 0#32 }, lastError := 5#8 }) ∧
    (s.cfg.nq ≤ q.toNat → exec (.qgen q quality) s = .next { s with
        response := some { status := 0xFF#8, data := 0#32 }, lastError := 0xFF#8 })

/-- `QEST` (42_quantization R195): the 64 contributions, each truncated, summed and divided by 64; the estimate is at
most 100, goes to `INFO.QUALITY` and `DATA`, and nothing else changes. -/
def Obligations.QestResult : Prop :=
  ∀ (s : State) (q : BitVec 4) (base : List Byte),
    s.fsm = .idle → q.toNat < s.cfg.nq → s.baselineOf q = base.map some →
    (∀ i, i < 64 → readBack s q i = 1 ∨ zigzagElem s.cfg base i ≠ 0#8) →
    let part (i : Nat) : Nat :=
      let v := readBack s q i
      let b := (base.getD (s.cfg.zigzag.getD i 0) 0#8).toNat
      if v = 1 then 100 else if v * 100 / b ≤ 100 then (200 - v * 100 / b) / 2 else 5000 / (v * 100 / b)
    let r : Nat := ((List.range 64).map part).sum / 64
    r ≤ 100 ∧
    exec (.qest q) s = .next { s with
      info := { s.info with quality := BitVec.ofNat 7 r }
      response := some { status := 0#8, data := BitVec.ofNat 32 r } }

/-- `QGEN q, 100` then `QEST q` gives 100 over every baseline without a zero element (42_quantization R199). -/
def Obligations.QgenMaxThenQest : Prop :=
  ∀ (s : State) (q : BitVec 4) (base : List Byte), s.fsm = .idle → q.toNat < s.cfg.nq →
    s.baselineOf q = base.map some →
    ∃ t u : State, exec (.qgen q 100#8) s = .next t ∧ exec (.qest q) t = .next u ∧
      u.response = some { status := 0#8, data := 100#32 } ∧ u.info.quality = 100#7

/-! ## Transfer commands -/

/-- `START` (43_transfer_fsm R211, R213): in `Idle`, with arguments that pass R212 and buffers that do not overlap,
the FIFOs and flags are cleared, the sources of the method enabled, the engines primed in method DMA, the run bit set;
everything else is as before. Which overlaps count is the model's reading: an input buffer that lies on a streaming
buffer, wholly or in part, runs (log 19). `tailFed` is the model's (log 22). -/
def Obligations.StartResult : Prop :=
  ∀ (s : State) (op : JobOp) (m : Method),
    s.fsm = .idle → checkArgs s.cfg s.desc m = true → startOverlap s = false →
    let fifo : Bool := decide (m ≠ .dma)
    exec (.start op m) s = .next { s with
      ififo := []
      ofifo := []
      sr := { eocf := false, hpdf := false, errf := false }
      din := if m = .dma then
          { addr := s.desc.inAddr
            len := BitVec.ofNat 32 (s.desc.inLen.toNat - s.desc.inLen.toNat % Gran.bytes s.cfg.granIn)
            done := 0#32, busy := true, abortReq := false, cplt := false, aborted := false, err := false }
        else { s.din with busy := false, abortReq := false, cplt := false, aborted := false, err := false }
      dout := if m = .dma then
          { addr := s.desc.outAddr
            len := BitVec.ofNat 32 (s.desc.outLen.toNat - s.desc.outLen.toNat % Gran.bytes s.cfg.granOut)
            done := 0#32, busy := true, abortReq := false, cplt := false, aborted := false, err := false }
        else { s.dout with busy := false, abortReq := false, cplt := false, aborted := false, err := false }
      ctx := { s.ctx with op := some op, method := some m, pauseIn := false, pauseOut := false, ending := false }
      desc := { s.desc with inOff := 0#32, outOff := 0#32 }
      cr := { run := true, ieIft := fifo, ieIfnf := fifo, ieOft := fifo, ieOfne := fifo, ieEoc := true,
              ieHpd := decide (op = .decode), ieErr := true, dmaInEn := !fifo, dmaOutEn := !fifo }
      tailFed := false
      fsm := match m with
        | .poll => .polling
        | .interrupt => .interrupting
        | .dma => .dmaActive
      response := some { status := 0#8, data := 0#32 } }

/-- `START` turned away (43_transfer_fsm R211, R212): `Busy` outside `Idle`; `InvalidArgument` on each of the
conditions (a) to (f), "hardware never armed"; an output buffer that shares a byte with the input buffer or with a
streaming buffer is a fault (20_memory R74). Which overlaps count is the model's reading (log 19). -/
def Obligations.StartRejects : Prop :=
  ∀ (s : State) (op : JobOp) (m : Method),
    let d := s.desc
    let bad : Prop :=
      d.inLen.toNat = 0 ∨ d.outLen.toNat = 0 ∨ d.outLen.toNat % 4 ≠ 0 ∨
      2 ^ 32 < d.inAddr.toNat + d.inLen.toNat ∨ 2 ^ 32 < d.outAddr.toNat + d.outLen.toNat ∨
      (m = .dma ∧ (d.inAddr.toNat % 4 ≠ 0 ∨ d.outAddr.toNat % 4 ≠ 0 ∨
        d.inLen.toNat < Gran.bytes s.cfg.granIn ∨ d.outLen.toNat < Gran.bytes s.cfg.granOut))
    (s.fsm ≠ .idle → exec (.start op m) s = .next { s with
      response := some { status := 7#8, data := 0#32 }, lastError := 7#8 }) ∧
    (s.fsm = .idle → bad → exec (.start op m) s = .next { s with
      response := some { status := 5#8, data := 0#32 }, lastError := 5#8 }) ∧
    (s.fsm = .idle → ¬ bad → checkArgs s.cfg d m = true ∧
      ((∃ a, d.outAddr.toNat ≤ a ∧ a < d.outAddr.toNat + d.outLen.toNat ∧
          ((d.inAddr.toNat ≤ a ∧ a < d.inAddr.toNat + d.inLen.toNat) ∨
            ∃ i : BufIdx, (sbAddr s.cfg i).toNat ≤ a ∧ a < (sbAddr s.cfg i).toNat + s.cfg.ibcap)) →
        exec (.start op m) s = .fault .bufferOverlap))

/-- `PAUSE` (43_transfer_fsm R227, R231): its word has opcode `0x21` and the direction in bits 1..0; it returns `OK`
always; nothing in `Idle`; else the flag of each direction named, and in the FIFO methods its interrupt sources
masked; no engine is stopped and nothing else changes; of directions already paused it is a no-op. -/
def Obligations.PauseResult : Prop :=
  ∀ (s : State) (dir : DirSet),
    (s.fsm = .idle → exec (.pause dir) s = .next { s with response := some { status := 0#8, data := 0#32 } }) ∧
    (s.fsm ≠ .idle →
      let maskIn := s.ctx.fifoMethod && dir.input
      let maskOut := s.ctx.fifoMethod && dir.output
      exec (.pause dir) s = .next { s with
        ctx := { s.ctx with pauseIn := s.ctx.pauseIn || dir.input, pauseOut := s.ctx.pauseOut || dir.output }
        cr := { s.cr with
          ieIft := s.cr.ieIft && !maskIn, ieIfnf := s.cr.ieIfnf && !maskIn,
          ieOft := s.cr.ieOft && !maskOut, ieOfne := s.cr.ieOfne && !maskOut, ieEoc := s.cr.ieEoc && !maskOut }
        response := some { status := 0#8, data := 0#32 } }) ∧
    (Inv s → (dir.input = true → s.ctx.pauseIn = true) → (dir.output = true → s.ctx.pauseOut = true) →
      exec (.pause dir) s = .next { s with response := some { status := 0#8, data := 0#32 } }) ∧
    (∀ arg, decodeCommand s.cfg.nq (0x21#8 ++ (0#22 ++ (BitVec.ofBool dir.output ++ BitVec.ofBool dir.input))) arg =
      some (.pause dir))

/-- Idempotence (43_transfer_fsm R235): `PAUSE` of directions that are paused and `RESUME` of directions that run
change no state. -/
def Obligations.PauseResumeIdempotent : Prop :=
  ∀ (s : State) (dir : DirSet), Inv s →
    let ok : State := { s with response := some { status := 0#8, data := 0#32 } }
    ((dir.input = true → s.ctx.pauseIn = true) → (dir.output = true → s.ctx.pauseOut = true) →
      exec (.pause dir) s = .next ok) ∧
    ((dir.input = true → s.ctx.pauseIn = false) → (dir.output = true → s.ctx.pauseOut = false) →
      exec (.resume dir) s = .next ok)

/-- `RESUME` in a job (43_transfer_fsm R228, R231), of any set of directions: in the FIFO methods the flag and the
sources of each direction that was paused; in method DMA the flags and, where the engine is idle, the next block of
each; `InvalidArgument` where a paused input has no data, the output then left alone. In `Draining` `RESUME {Input}`
clears the flag and does nothing else, and the output's part is that of `RESUME {Output}`. A resumed `DIN` is primed
also after a padded tail word or a dropped tail (logs 22, 39). -/
def Obligations.ResumeResult : Prop :=
  ∀ (s : State) (dir : DirSet), s.fsm ≠ .idle →
    let ok : Option Response := some { status := 0#8, data := 0#32 }
    let inp : Bool := s.ctx.pauseIn && dir.input
    let out : Bool := s.ctx.pauseOut && dir.output
    let flags : Ctx := { s.ctx with
      pauseIn := s.ctx.pauseIn && !dir.input, pauseOut := s.ctx.pauseOut && !dir.output }
    (s.ctx.ending = false → s.ctx.fifoMethod = true → exec (.resume dir) s = .next { s with
      ctx := flags
      cr := { s.cr with
        ieIft := s.cr.ieIft || inp, ieIfnf := s.cr.ieIfnf || inp
        ieOft := s.cr.ieOft || out, ieOfne := s.cr.ieOfne || out, ieEoc := s.cr.ieEoc || out }
      response := ok }) ∧
    (s.ctx.ending = false → s.ctx.dmaMethod = true → (inp = true → s.desc.inOff ≠ s.desc.inLen) →
      exec (.resume dir) s = .next { s with
        ctx := flags
        din := if inp = true ∧ s.din.busy = false ∧ s.din.cplt = false then
            { s.din with
              addr := s.desc.inAddr + s.desc.inOff
              len := BitVec.ofNat 32 (primeLen (s.desc.inLen.toNat - s.desc.inOff.toNat) s.cfg.granIn)
              done := 0#32, busy := true }
          else s.din
        dout := if out = true ∧ s.dout.busy = false ∧ s.dout.cplt = false then
            { s.dout with
              addr := s.desc.outAddr
              len := BitVec.ofNat 32 (s.desc.outLen.toNat - s.desc.outLen.toNat % Gran.bytes s.cfg.granOut)
              done := 0#32, busy := true }
          else s.dout
        response := ok }) ∧
    (s.ctx.ending = false → s.ctx.dmaMethod = true → inp = true → s.desc.inOff = s.desc.inLen →
      exec (.resume dir) s = .next { s with response := some { status := 5#8, data := 0#32 }, lastError := 5#8 }) ∧
    (s.ctx.ending = true → out = false → exec (.resume dir) s = .next { s with ctx := flags, response := ok }) ∧
    (s.ctx.ending = true → dir.input = true → dir.output = true →
      exec (.resume dir) s = exec (.resume { input := false, output := true })
        { s with ctx := { s.ctx with pauseIn := false } })

/-- `RESUME {Output}` of a residual drain that an output pause stopped (43_transfer_fsm R221, R222, R228), whoever the
host is: where it lets every `DRAIN` pass, the bytes in the output buffer, then the words left in `OFIFO`, reach it,
one `DRAIN` for each full buffer and one for the rest, then `DONE`, and the block is `Idle`; where it answers one with
`Pause` and words are left, the drain stops again: the block stays in `Draining`, the output paused, those words in
`OFIFO`. No other effect is emitted and the earlier ones are kept. That a `DRAIN` carries its bytes is the model's
(log 25), and so are the listed replies, one to the final `DRAIN` among them (logs 8, 26) and how a command inside a
callback stands in the state (log 30). Where an abort of the engines is still pending, that the job completes at this
`RESUME` is the model's reading (log 33), and the bytes that `DOUT` left in the output buffer are then not among those
that reach the host. -/
def Obligations.ResumeFinishes : Prop :=
  ∀ s : State, Inv s → s.fsm = .draining → s.ctx.pauseOut = true →
    let bytes (words : List Word) : List Byte :=
      readBytes s.hmem s.desc.outAddr.toNat s.desc.outOff.toNat ++ words.flatMap bytesOfWord
    let effects : List Effect := finalEffects s.desc.outAddr s.desc.outLen s.ctx.op (bytes s.ofifo)
    (∀ host, s.host.passes (effects.length - 1) host → s.host.notices.head? ≠ some .command →
      ∃ t : State, exec (.resume { input := false, output := true }) s = .next t ∧
        t.fsm = .idle ∧ t.ctx = s.ctx.idleDefaults ∧ t.ofifo = [] ∧ t.desc = { s.desc with outOff := 0#32 } ∧
        drainBytes t.trace = outputStream s ∧
        t.trace = s.trace ++ effects ∧
        (∀ a, ¬ inOutputBuffer s a → readByte t.hmem a = readByte s.hmem a) ∧
        t = { s with
          hmem := t.hmem, ofifo := t.ofifo, desc := t.desc, ctx := t.ctx, fsm := t.fsm, trace := t.trace
          sr := { s.sr with eocf := false, hpdf := false }
          din := { s.din with cplt := false, aborted := false, abortReq := false }
          dout := { s.dout with cplt := false, aborted := false, abortReq := false }
          host := { host with notices := s.host.notices.tail }
          response := some { status := 0#8, data := 0#32 } }) ∧
    (∀ host k n, s.host.pausesAfter k host → n < s.ofifo.length →
      s.desc.outOff.toNat + 4 * n = s.desc.outLen.toNat * (k + 1) →
      ∃ t : State, exec (.resume { input := false, output := true }) s = .next t ∧
        (∀ a, ¬ inOutputBuffer s a → readByte t.hmem a = readByte s.hmem a) ∧
        t = { s with
          hmem := t.hmem
          ofifo := s.ofifo.drop n
          desc := { s.desc with outOff := 0#32 }
          trace := s.trace ++ fullDrains s.desc.outAddr s.desc.outLen (bytes (s.ofifo.take n))
          host := host
          response := some { status := 0#8, data := 0#32 } })

/-- `POLL` (43_transfer_fsm R229): nothing unless the method is `Poll`; else one pass over the five events in order, a
handler run where its event is eligible at that point, `DATA` naming those that ran (that `DATA` is not 0, log 37). A
transfer error ends the job, so nothing runs after it. With the Streaming Buffer Manager as the host the pass
completes unless input follows a padded tail word, and what it does is: the header (`a`, R215), a refill of a used-up
buffer (`u`, R218), the words fed (`b`, R238), the words stored, with a `DRAIN` of each full buffer (`c`, R237), the
end of the job with its last drains and `DONE` (`d`, R220 to R222); no other effect is emitted. `tailFed` and a tail
that is never fed (logs 22, 39), the manager's reply where it still waits (log 40), the bytes of a `DRAIN` (log 25)
and the answers to the callbacks (log 30) are the model's. -/
def Obligations.PollResult : Prop :=
  ∀ s : State,
    let starved : Prop := s.desc.inOff = s.desc.inLen ∧
      ∀ addr len, (managerRefill s.desc.inOff s).1 = .supply addr len → len = 0#32
    let ran (hpd inp out eoc : Bool) : Option Response :=
      some { status := 0#8, data := bitAt hpd 2 ||| bitAt inp 3 ||| bitAt out 4 ||| bitAt eoc 5 }
    (s.ctx.method ≠ some .poll → exec .poll s = .next { s with response := some { status := 0#8, data := 0#32 } }) ∧
    (s.ctx.method = some .poll → (∀ e, eligible e s = false) →
      exec .poll s = .next { s with response := some { status := 0#8, data := 0#32 } }) ∧
    (s.ctx.method = some .poll → eligible .err s = true → s.host.notices.head? ≠ some .command →
      exec .poll s = .next { s with
        cr := .reset
        din := { s.din with busy := false, abortReq := false, cplt := false, aborted := false, err := false }
        dout := { s.dout with busy := false, abortReq := false, cplt := false, aborted := false, err := false }
        ctx := { s.ctx with op := none, method := none, pauseIn := false, pauseOut := false, ending := false }
        sr := { eocf := false, hpdf := false, errf := false }
        fsm := .idle
        lastError := 0x06#8
        trace := s.trace ++ [.error 0x06#8]
        host := { s.host with notices := s.host.notices.tail }
        response := some { status := 0#8, data := 2#32 } }) ∧
    (s.ctx.method = some .poll → eligible .err s = false → ∀ a b c d : State,
      (if eligible .hpd s = true then handleHpd s = .ok a else a = s) →
      (if eligible .inp a = true then handleIn a = .ok b else b = a) →
      (if eligible .out b = true then handleOut b = .ok c else c = b) →
      (if eligible .eoc c = true then handleEoc c = .ok d else d = c) →
      exec .poll s = .next { d with
        response := ran (eligible .hpd s) (eligible .inp a) (eligible .out b) (eligible .eoc c) }) ∧
    (Inv s → s.host.managed = true → s.ctx.method = some .poll → eligible .err s = false → .command ∉ s.host.notices →
      eligible .inp s = true → s.tailFed = true → ¬ starved → exec .poll s = .fault .raggedMidStream) ∧
    (Inv s → s.host.managed = true → s.ctx.method = some .poll → eligible .err s = false → .command ∉ s.host.notices →
      (eligible .inp s = true → s.tailFed = true → starved) →
      ∃ a u b c d : State,
        exec .poll s = .next { d with
          response := ran (eligible .hpd s) (eligible .inp s) (eligible .out s) (eligible .eoc s) } ∧
        (a = if eligible .hpd s = true then { s with
            info := headerInfo s.hdr s.info
            cr := { s.cr with ieHpd := false }
            sr := { s.sr with hpdf := false }
            trace := s.trace ++ [.infoReady]
            host := { s.host with notices := s.host.notices.tail } }
          else s) ∧
        (if eligible .inp s = true ∧ s.desc.inOff = s.desc.inLen then
          let r := managerRefill s.desc.inOff { a with trace := a.trace ++ [.refill s.desc.inOff] }
          let hold : Ctx := { s.ctx with pauseIn := true }
          let mask : Cr := { a.cr with ieIft := false, ieIfnf := false }
          (r.1 = .pause ∧
            u = { r.2 with desc := { s.desc with inLen := 0#32, inOff := 0#32 }, ctx := hold, cr := mask }) ∨
          (∃ addr len, r.1 = .supply addr len ∧
            let supplied : State := { r.2 with desc := { s.desc with inAddr := addr, inLen := len, inOff := 0#32 } }
            u = if len = 0#32 then { supplied with ctx := hold, cr := mask } else supplied)
        else u = a) ∧
        (let src : Nat := u.desc.inAddr.toNat + u.desc.inOff.toNat
          let left : Nat := u.desc.inLen.toNat - u.desc.inOff.toNat
          let n : Nat := min (if s.cr.ieIft = true ∧ 8 ≤ s.cfg.fifoDepth - s.ififo.length then 8 else 1) (left / 4)
          if eligible .inp s = true ∧ u.ctx.pauseIn = false then
            b = if 4 ≤ left then { u with
                ififo := s.ififo ++ (List.range n).map (fun j => wordOfBytes (readBytes s.hmem (src + 4 * j) 4))
                desc := { u.desc with inOff := u.desc.inOff + BitVec.ofNat 32 (4 * n) } }
              else { u with
                ififo := s.ififo ++ [wordOfBytes (readBytes s.hmem src left)]
                desc := { u.desc with inOff := u.desc.inLen }
                tailFed := true }
          else b = u) ∧
        (let m : Nat := if s.cr.ieOft = true ∧ 8 ≤ s.ofifo.length then 8 else 1
          let bytes : List Byte :=
            readBytes s.hmem s.desc.outAddr.toNat s.desc.outOff.toNat ++ (s.ofifo.take m).flatMap bytesOfWord
          if eligible .out s = true then
            c.ofifo = s.ofifo.drop m ∧
            c.trace = b.trace ++ fullDrains s.desc.outAddr s.desc.outLen bytes ∧
            readBytes c.hmem s.desc.outAddr.toNat c.desc.outOff.toNat = undrained s.desc.outLen bytes ∧
            c.desc.outOff.toNat = (s.desc.outOff.toNat + 4 * m) % s.desc.outLen.toNat ∧
            (∀ x, ¬ inOutputBuffer s x → readByte c.hmem x = readByte s.hmem x) ∧
            c = { b with
              hmem := c.hmem, ofifo := c.ofifo, desc := { b.desc with outOff := c.desc.outOff }, trace := c.trace }
          else c = b) ∧
        (if eligible .eoc s = true then
          d.ofifo = [] ∧ drainBytes d.trace = outputStream c ∧
          d.trace = c.trace ++ finalEffects s.desc.outAddr s.desc.outLen s.ctx.op
            (readBytes c.hmem s.desc.outAddr.toNat c.desc.outOff.toNat ++ c.ofifo.flatMap bytesOfWord) ∧
          (∀ x, ¬ inOutputBuffer s x → readByte d.hmem x = readByte s.hmem x) ∧
          d = { c with
            hmem := d.hmem, ofifo := d.ofifo, trace := d.trace
            fsm := .idle, cr := .reset, ctx := c.ctx.idleDefaults
            desc := { c.desc with outOff := 0#32 }
            sr := { c.sr with eocf := false, hpdf := false }
            din := { s.din with cplt := false, aborted := false, abortReq := false }
            dout := { s.dout with cplt := false, aborted := false, abortReq := false }
            host := { c.host with notices := c.host.notices.tail } }
        else d = c))

/-- `ABORT` (43_transfer_fsm R230), the word `0x24000000`: nothing in `Idle`; `Busy` without both pauses; else the
block is stopped and `Idle`, with no effect emitted, `LAST_ERROR`, the FIFOs, the descriptors and the config-done
flags as they were. -/
def Obligations.AbortResult : Prop :=
  ∀ s : State,
    (s.fsm = .idle → exec .abort s = .next { s with response := some { status := 0#8, data := 0#32 } }) ∧
    (s.fsm ≠ .idle → s.ctx.pauseIn = false ∨ s.ctx.pauseOut = false → exec .abort s = .next { s with
      response := some { status := 7#8, data := 0#32 }, lastError := 7#8 }) ∧
    (s.fsm ≠ .idle → s.ctx.pauseIn = true → s.ctx.pauseOut = true → exec .abort s = .next { s with
      cr := .reset
      din := { s.din with busy := false, abortReq := false, cplt := false, aborted := false, err := false }
      dout := { s.dout with busy := false, abortReq := false, cplt := false, aborted := false, err := false }
      ctx := { s.ctx with op := none, method := none, pauseIn := false, pauseOut := false, ending := false }
      sr := { eocf := false, hpdf := false, errf := false }
      fsm := .idle
      response := some { status := 0#8, data := 0#32 } }) ∧
    (∀ arg, decodeCommand s.cfg.nq 0x24000000#32 arg = some .abort)

/-! ## Events -/

/-- Which event runs (43_transfer_fsm R214): each event is eligible exactly under its condition of the table on `CR`,
`SR`, `CTX`, the engines and the occupancies of the FIFOs, and never without a method; a paused direction moves no
data; the interrupt context takes the first eligible event in the order of the table, and none in method `Poll`; an
event it takes is taken as a record too; a record that is not eligible is refused with no change of the block
(30_encoding R105; `lastEvent` is the model's own answer to the harness, log 12; which eligible records are refused is
log 11). -/
def Obligations.EventRules : Prop :=
  ∀ s : State,
    let fifo : Prop := s.ctx.method = some .poll ∨ s.ctx.method = some .interrupt
    let order : List Event := [.err, .hpd, .dmaInCplt, .dmaOutCplt, .inp, .out, .eoc, .dmaAbort]
    (eligible .err s = true ↔ s.ctx.method ≠ none ∧ s.cr.ieErr = true ∧
      (s.sr.errf = true ∨ s.din.err = true ∨ s.dout.err = true)) ∧
    (eligible .hpd s = true ↔ s.ctx.method ≠ none ∧ s.cr.ieHpd = true ∧ s.sr.hpdf = true) ∧
    (eligible .dmaInCplt s = true ↔ s.ctx.method = some .dma ∧ s.din.cplt = true) ∧
    (eligible .dmaOutCplt s = true ↔ s.ctx.method = some .dma ∧ s.dout.cplt = true) ∧
    (eligible .inp s = true ↔ fifo ∧ s.cr.run = true ∧ s.ctx.pauseIn = false ∧
      ((s.cr.ieIft = true ∧ 8 ≤ s.cfg.fifoDepth - s.ififo.length) ∨
        (s.cr.ieIfnf = true ∧ s.ififo.length < s.cfg.fifoDepth))) ∧
    (eligible .out s = true ↔ fifo ∧ s.cr.run = true ∧ s.ctx.pauseOut = false ∧
      ((s.cr.ieOft = true ∧ 8 ≤ s.ofifo.length) ∨ (s.cr.ieOfne = true ∧ 1 ≤ s.ofifo.length))) ∧
    (eligible .eoc s = true ↔ s.ctx.method ≠ none ∧ s.cr.ieEoc = true ∧ s.sr.eocf = true ∧ s.ctx.ending = false ∧
      s.ctx.pauseOut = false) ∧
    (eligible .dmaAbort s = true ↔ s.ctx.method ≠ none ∧ s.ctx.ending = true ∧
      (s.din.aborted = true ∨ s.dout.aborted = true)) ∧
    (s.ctx.method = none → ∀ e, eligible e s = false) ∧
    (s.ctx.pauseIn = true → eligible .inp s = false) ∧
    (s.ctx.pauseOut = true → eligible .out s = false ∧ eligible .eoc s = false) ∧
    (∀ e, irqEvent s = some e ↔ s.ctx.method ≠ some .poll ∧
      ∃ before after, order = before ++ e :: after ∧ eligible e s = true ∧ ∀ e' ∈ before, eligible e' s = false) ∧
    (irqEvent s = none ↔ s.ctx.method = some .poll ∨ ∀ e, eligible e s = false) ∧
    (∀ e, irqEvent s = some e → recordTaken e s = true) ∧
    (∀ e, recordTaken e s = true ↔ s.ctx.method ≠ some .poll ∧ eligible e s = true ∧
      (e = .eoc ∨ e = .dmaAbort → ¬ (s.ctx.method = some .dma ∧ s.dout.cplt = true))) ∧
    (∀ e, recordTaken e s = false → exec e.instr s = .next { s with lastEvent := .refused })

/-- `EV_ERR` (43_transfer_fsm R226): the job is stopped, `LAST_ERROR` is `0x06` and `ERROR(0x06)` emitted; `INFO`, the
descriptors, both FIFOs, memory and the config-done flags are kept. How a command inside the callback stands in the
state is the model's (log 30). -/
def Obligations.EvErrResult : Prop :=
  ∀ s : State, recordTaken .err s = true → s.host.notices.head? ≠ some .command → exec .evErr s = .next { s with
    cr := .reset
    din := { s.din with busy := false, abortReq := false, cplt := false, aborted := false, err := false }
    dout := { s.dout with busy := false, abortReq := false, cplt := false, aborted := false, err := false }
    ctx := { s.ctx with op := none, method := none, pauseIn := false, pauseOut := false, ending := false }
    sr := { eocf := false, hpdf := false, errf := false }
    fsm := .idle
    lastError := 0x06#8
    trace := s.trace ++ [.error 0x06#8]
    host := { s.host with notices := s.host.notices.tail }
    lastEvent := .taken .err }

/-- `EV_HPD` (43_transfer_fsm R215): `INFO` from the header inputs, quality 0, the source disabled, the flag cleared,
`INFO_READY` emitted. How a command inside the callback stands in the state is the model's (log 30). -/
def Obligations.EvHpdResult : Prop :=
  ∀ s : State, recordTaken .hpd s = true → s.host.notices.head? ≠ some .command →
    ∃ info : Info, exec .evHpd s = .next { s with
        info := info
        cr := { s.cr with ieHpd := false }
        sr := { s.sr with hpdf := false }
        trace := s.trace ++ [.infoReady]
        host := { s.host with notices := s.host.notices.tail }
        lastEvent := .taken .hpd } ∧
      info.width = s.hdr.width ∧ info.height = s.hdr.height ∧ info.quality = 0#7 ∧
      (s.hdr.ncomp = 1#3 → info.colorspace = .grayscale ∧ info.chroma = .c444) ∧
      (s.hdr.ncomp = 3#3 → info.colorspace = .ycbcr) ∧ (s.hdr.ncomp = 4#3 → info.colorspace = .cmyk) ∧
      (s.hdr.ncomp ≠ 1#3 → s.hdr.ncomp ≠ 3#3 → s.hdr.ncomp ≠ 4#3 →
        info.colorspace = s.info.colorspace ∧ info.chroma = .c444) ∧
      (s.hdr.ncomp = 3#3 ∨ s.hdr.ncomp = 4#3 → info.chroma =
        if (s.hdr.nb0, s.hdr.nb1, s.hdr.nb2) = (2#4, 1#4, 1#4) then .c422
        else if (s.hdr.nb0, s.hdr.nb1, s.hdr.nb2) = (4#4, 1#4, 1#4) then .c420 else .c444)

/-- `EV_IN` with bytes left in the input buffer (43_transfer_fsm R217, R238, 20_memory R76): up to 8 whole words, or
1, or the tail of the stream as one padded word, in order, into `IFIFO`; the read offset advances; nothing else
changes. Input after a padded tail word is a fault (60_exceptions R304 (g)). `tailFed`, and that a ragged tail which
was never fed does not stop the input, are the model's (logs 22, 39). -/
def Obligations.EvInFeeds : Prop :=
  ∀ s : State, Inv s → recordTaken .inp s = true → s.desc.inOff ≠ s.desc.inLen →
    let from' : Nat := s.desc.inAddr.toNat + s.desc.inOff.toNat
    let left : Nat := s.desc.inLen.toNat - s.desc.inOff.toNat
    let n : Nat := min (if s.cr.ieIft = true ∧ 8 ≤ s.cfg.fifoDepth - s.ififo.length then 8 else 1) (left / 4)
    (s.tailFed = true → exec .evIn s = .fault .raggedMidStream) ∧
    (s.tailFed = false → 4 ≤ left → exec .evIn s = .next { s with
      ififo := s.ififo ++ (List.range n).map (fun j => wordOfBytes (readBytes s.hmem (from' + 4 * j) 4))
      desc := { s.desc with inOff := s.desc.inOff + BitVec.ofNat 32 (4 * n) }
      lastEvent := .taken .inp }) ∧
    (s.tailFed = false → left < 4 → exec .evIn s = .next { s with
      ififo := s.ififo ++ [wordOfBytes (readBytes s.hmem from' left)]
      desc := { s.desc with inOff := s.desc.inLen }
      tailFed := true
      lastEvent := .taken .inp })

/-- `EV_IN` with the input buffer exhausted (43_transfer_fsm R217, R218, R238): `REFILL` with the bytes taken; a
`Pause` or an empty `Supply` empties the descriptor and pauses the input; a supplied buffer becomes the active one and
its first words are fed in the same event: 8 whole words, or 1, but no more than it holds; or, of 1 to 3 bytes, one
padded word; after a padded tail word it is a fault (60_exceptions R304 (g)), and so is a buffer that breaks R218 or
overlaps (R304 (e)). With the Streaming Buffer Manager as the host (44_stream_buffers R272, R276) the rest of a partly
taken buffer is supplied, else the other buffer if it is full, else the manager waits. The listed replies are the
model's (log 8). What counts as an overlap (log 36), and that an empty `Supply` passes the same tests (log 23), are
the model's readings. `tailFed`, and that a ragged tail which was never fed does not stop the input, are the model's
(logs 22, 39), and so is that the reply is the same where the manager still waits (log 40). -/
def Obligations.EvInRefills : Prop :=
  ∀ s : State, Inv s → recordTaken .inp s = true → s.desc.inOff = s.desc.inLen →
    let asked : List Effect := s.trace ++ [.refill s.desc.inOff]
    let paused (addr : Word) (sb : StreamBuffers) (replies : List RefillReply) : Host.Outcome State Fault Refusal :=
      .next { s with
        trace := asked
        desc := { s.desc with inAddr := addr, inLen := 0#32, inOff := 0#32 }
        ctx := { s.ctx with pauseIn := true }
        cr := { s.cr with ieIft := false, ieIfnf := false }
        sb := sb
        host := { s.host with refillReplies := replies }
        lastEvent := .taken .inp }
    let fed (addr len : Word) (sb : StreamBuffers) (replies : List RefillReply) : Host.Outcome State Fault Refusal :=
      let n : Nat := min (if s.cr.ieIft = true ∧ 8 ≤ s.cfg.fifoDepth - s.ififo.length then 8 else 1) (len.toNat / 4)
      let after (words : List Word) (off : Nat) (tail : Bool) : State := { s with
        trace := asked
        desc := { s.desc with inAddr := addr, inLen := len, inOff := BitVec.ofNat 32 off }
        sb := sb
        ififo := s.ififo ++ words
        tailFed := tail
        host := { s.host with refillReplies := replies }
        lastEvent := .taken .inp }
      if s.tailFed = true then .fault .raggedMidStream
      else if 4 ≤ len.toNat then
        .next (after ((List.range n).map (fun j => wordOfBytes (readBytes s.hmem (addr.toNat + 4 * j) 4))) (4 * n) false)
      else .next (after [wordOfBytes (readBytes s.hmem addr.toNat len.toNat)] len.toNat true)
    (∀ replies, s.host.managed = false → s.host.refillReplies = .pause :: replies →
      exec .evIn s = paused s.desc.inAddr s.sb replies) ∧
    (∀ replies addr len, s.host.managed = false → s.host.refillReplies = .supply addr len :: replies →
      exec .evIn s =
        match inputFault { s with desc := { s.desc with inAddr := addr, inLen := len, inOff := 0#32 } } with
        | some f => .fault f
        | none => if len = 0#32 then paused addr s.sb replies else fed addr len s.sb replies) ∧
    (s.host.managed = true →
      let taken := s.sb.off + s.desc.inOff
      let rd := s.sb.rd
      let cur := s.sb.buf rd
      let other := s.sb.buf rd.flip
      let flipped : StreamBuffers := { s.sb.setBuf rd { cur with full := false } with off := 0#32, rd := rd.flip }
      exec .evIn s =
        if taken.toNat < cur.len.toNat then
          fed (sbAddr s.cfg rd + taken) (cur.len - taken) { s.sb with off := taken } s.host.refillReplies
        else if other.full = false then paused s.desc.inAddr { flipped with wait := true } s.host.refillReplies
        else if other.len = 0#32 then paused (sbAddr s.cfg rd.flip) flipped s.host.refillReplies
        else fed (sbAddr s.cfg rd.flip) other.len flipped s.host.refillReplies)

/-- The manager's reply to `REFILL(consumed)` (44_stream_buffers R272, R276): the rest of a partly consumed buffer;
else the buffer is marked empty and the read index flips, to the other buffer if it is full, to a pause if it is not.
That these are its replies also where it still waits and the caller has resumed the input itself, against
44_stream_buffers R274, is the model's choice (log 40). -/
def Obligations.ManagerReply : Prop :=
  ∀ (s : State) (consumed : Word),
    let off := s.sb.off + consumed
    let cur := s.sb.buf s.sb.rd
    let other := s.sb.buf s.sb.rd.flip
    (off.toNat < cur.len.toNat → managerRefill consumed s =
      (.supply (sbAddr s.cfg s.sb.rd + off) (cur.len - off), { s with sb := { s.sb with off := off } })) ∧
    (cur.len.toNat ≤ off.toNat → other.full = true → ∃ sb, managerRefill consumed s =
      (.supply (sbAddr s.cfg s.sb.rd.flip) other.len, { s with sb := sb }) ∧
      sb.rd = s.sb.rd.flip ∧ sb.off = 0#32 ∧ sb.wait = s.sb.wait ∧ sb.wr = s.sb.wr ∧ sb.filling = s.sb.filling ∧
      sb.buf s.sb.rd = { cur with full := false } ∧ sb.buf s.sb.rd.flip = other) ∧
    (cur.len.toNat ≤ off.toNat → other.full = false → ∃ sb, managerRefill consumed s =
      (.pause, { s with sb := sb }) ∧
      sb.rd = s.sb.rd.flip ∧ sb.off = 0#32 ∧ sb.wait = true ∧ sb.wr = s.sb.wr ∧ sb.filling = s.sb.filling ∧
      sb.buf s.sb.rd = { cur with full := false } ∧ sb.buf s.sb.rd.flip = other)

/-- `EV_OUT` (43_transfer_fsm R216, R219, R237, 20_memory R76), whoever the host is, where every `DRAIN` is answered
with `Continue`: the oldest 8 words of `OFIFO`, or 1, leave it and reach the output buffer as bytes in order, a buffer
that fills is drained at once, by a `DRAIN` of its address and length, and filled again from offset 0; no other effect
is emitted, the earlier ones are kept, and no byte outside the output buffer and nothing else changes. That a `DRAIN`
carries its bytes is the model's (log 25), and so are the listed replies (log 8). That a `DRAIN` carries its bytes is
the model's (log 25). -/
def Obligations.EvOutResult : Prop :=
  ∀ s : State, Inv s → recordTaken .out s = true →
    let n : Nat := if s.cr.ieOft = true ∧ 8 ≤ s.ofifo.length then 8 else 1
    let bytes : List Byte :=
      readBytes s.hmem s.desc.outAddr.toNat s.desc.outOff.toNat ++ (s.ofifo.take n).flatMap bytesOfWord
    ∀ host, s.host.continues (fullDrains s.desc.outAddr s.desc.outLen bytes).length host →
      ∃ t : State, exec .evOut s = .next t ∧
        t.ofifo = s.ofifo.drop n ∧
        t.trace = s.trace ++ fullDrains s.desc.outAddr s.desc.outLen bytes ∧
        readBytes t.hmem s.desc.outAddr.toNat t.desc.outOff.toNat = undrained s.desc.outLen bytes ∧
        t.desc.outOff.toNat = (s.desc.outOff.toNat + 4 * n) % s.desc.outLen.toNat ∧
        (∀ a, ¬ inOutputBuffer s a → readByte t.hmem a = readByte s.hmem a) ∧
        t = { s with
          hmem := t.hmem
          ofifo := t.ofifo
          desc := { s.desc with outOff := t.desc.outOff }
          trace := t.trace
          host := host
          lastEvent := .taken .out }

/-- A `DRAIN` that the host answers with `Pause` (43_transfer_fsm R219, R237, R231), after the first word of the burst
or after `n` of them and `k` other `DRAIN`s: the burst stops with the words not moved left in `OFIFO`, the output is
paused and its sources masked. That a `DRAIN` carries its bytes is the model's (log 25), and so are the listed replies
(log 8). -/
def Obligations.EvOutPauses : Prop :=
  ∀ s : State, Inv s → recordTaken .out s = true →
    let masked : Cr := { s.cr with ieOft := false, ieOfne := false, ieEoc := false }
    (∀ (w : Word) (words : List Word) (replies : List DrainReply),
      s.host.managed = false → s.host.drainReplies = .pause :: replies →
      s.ofifo = w :: words → s.desc.outOff + 4#32 = s.desc.outLen →
      let addr := s.desc.outAddr.toNat + s.desc.outOff.toNat
      let hmem := writeBytes s.hmem addr (bytesOfWord w)
      exec .evOut s = .next { s with
        hmem := hmem
        ofifo := words
        desc := { s.desc with outOff := 0#32 }
        trace := s.trace ++
          [.drain s.desc.outAddr s.desc.outLen (readBytes hmem s.desc.outAddr.toNat s.desc.outLen.toNat)]
        ctx := { s.ctx with pauseOut := true }
        cr := masked
        host := { s.host with drainReplies := replies }
        lastEvent := .taken .out }) ∧
    (∀ host k n, s.host.pausesAfter k host → n ≤ s.ofifo.length →
      (n ≤ if s.cr.ieOft = true ∧ 8 ≤ s.ofifo.length then 8 else 1) →
      s.desc.outOff.toNat + 4 * n = s.desc.outLen.toNat * (k + 1) →
      ∃ t : State, exec .evOut s = .next t ∧
        (∀ a, ¬ inOutputBuffer s a → readByte t.hmem a = readByte s.hmem a) ∧
        t = { s with
          hmem := t.hmem
          ofifo := s.ofifo.drop n
          desc := { s.desc with outOff := 0#32 }
          trace := s.trace ++ fullDrains s.desc.outAddr s.desc.outLen
            (readBytes s.hmem s.desc.outAddr.toNat s.desc.outOff.toNat ++ (s.ofifo.take n).flatMap bytesOfWord)
          ctx := { s.ctx with pauseOut := true }
          cr := masked
          host := host
          lastEvent := .taken .out })

/-- `EV_EOC` in the FIFO methods (43_transfer_fsm R219 to R222), whoever the host is: run bit and sources off; where
it lets every `DRAIN` pass, the bytes of the output buffer, then the words left in `OFIFO`, reach it, one `DRAIN` for
each full buffer and one for the rest, then `DONE`, with no other effect, and the block is `Idle` with its config-done
flags kept; where it answers one with `Pause` and words are left, the drain stops there: the block stays in `Draining`
with `ENDING` and `PAUSE_OUT` set, the words not moved in `OFIFO`, and no `DONE`. That a `DRAIN` carries its bytes is
the model's (log 25), and so are the listed replies, one to the final `DRAIN` among them (logs 8, 26). How a command
inside a callback stands in the state is the model's (log 30). That a `DRAIN` carries its bytes is the model's (log
25). -/
def Obligations.EvEocFifo : Prop :=
  ∀ s : State, Inv s → s.ctx.fifoMethod = true → recordTaken .eoc s = true →
    let bytes (words : List Word) : List Byte :=
      readBytes s.hmem s.desc.outAddr.toNat s.desc.outOff.toNat ++ words.flatMap bytesOfWord
    let effects : List Effect := finalEffects s.desc.outAddr s.desc.outLen s.ctx.op (bytes s.ofifo)
    (∀ host, s.host.passes (effects.length - 1) host → s.host.notices.head? ≠ some .command →
      ∃ t : State, exec .evEoc s = .next t ∧
        t.fsm = .idle ∧ t.cr = .reset ∧ t.ctx = s.ctx.idleDefaults ∧ t.ofifo = [] ∧
        t.desc = { s.desc with outOff := 0#32 } ∧
        drainBytes t.trace = outputStream s ∧
        t.trace = s.trace ++ effects ∧
        (∀ a, ¬ inOutputBuffer s a → readByte t.hmem a = readByte s.hmem a) ∧
        t = { s with
          hmem := t.hmem, ofifo := t.ofifo, desc := t.desc, ctx := t.ctx, cr := t.cr, fsm := t.fsm, trace := t.trace
          sr := { s.sr with eocf := false, hpdf := false }
          din := { s.din with cplt := false, aborted := false, abortReq := false }
          dout := { s.dout with cplt := false, aborted := false, abortReq := false }
          host := { host with notices := s.host.notices.tail }
          lastEvent := .taken .eoc }) ∧
    (∀ host k n, s.host.pausesAfter k host → n < s.ofifo.length →
      s.desc.outOff.toNat + 4 * n = s.desc.outLen.toNat * (k + 1) →
      ∃ t : State, exec .evEoc s = .next t ∧
        (∀ a, ¬ inOutputBuffer s a → readByte t.hmem a = readByte s.hmem a) ∧
        t = { s with
          hmem := t.hmem
          ofifo := s.ofifo.drop n
          desc := { s.desc with outOff := 0#32 }
          cr := .reset
          ctx := { s.ctx with ending := true, pauseOut := true }
          fsm := .draining
          trace := s.trace ++ fullDrains s.desc.outAddr s.desc.outLen (bytes (s.ofifo.take n))
          host := host
          lastEvent := .taken .eoc })

/-- `EV_EOC` in method DMA (43_transfer_fsm R219 to R222): with an engine busy the sources are off, the busy engines
are asked to abort, and the block waits in `Draining`; with both engines idle the residual drain runs at once, the
fill offset being the count of `DOUT`: where the host, whoever it is, lets every `DRAIN` pass, the bytes `DOUT` has
written, then the words in `OFIFO`, reach it, one `DRAIN` for each full buffer and one for the rest, then `DONE`, with
no other effect, and the block is `Idle`; where it answers one with `Pause` and words are left, the block stays in
`Draining` with `ENDING` and `PAUSE_OUT` set, those words in `OFIFO`. Which records are taken is the model's reading
of the eligibility (log 11). That a `DRAIN` carries its bytes is the model's (log 25), and so are the listed replies,
one to the final `DRAIN` among them (logs 8, 26) and how a command inside a callback stands in the state (log 30). -/
def Obligations.EvEocDma : Prop :=
  ∀ s : State, s.ctx.dmaMethod = true → recordTaken .eoc s = true →
    let bytes (words : List Word) : List Byte :=
      readBytes s.hmem s.desc.outAddr.toNat s.dout.done.toNat ++ words.flatMap bytesOfWord
    let effects : List Effect := finalEffects s.desc.outAddr s.desc.outLen s.ctx.op (bytes s.ofifo)
    (s.din.busy = true ∨ s.dout.busy = true → exec .evEoc s = .next { s with
      cr := .reset
      ctx := { s.ctx with ending := true }
      fsm := .draining
      din := { s.din with abortReq := s.din.abortReq || s.din.busy }
      dout := { s.dout with abortReq := s.dout.abortReq || s.dout.busy }
      lastEvent := .taken .eoc }) ∧
    (Inv s → s.din.busy = false → s.dout.busy = false →
      (∀ host, s.host.passes (effects.length - 1) host → s.host.notices.head? ≠ some .command →
        ∃ t : State, exec .evEoc s = .next t ∧
          (∀ a, ¬ inOutputBuffer s a → readByte t.hmem a = readByte s.hmem a) ∧
          t = { s with
            hmem := t.hmem
            ofifo := []
            desc := { s.desc with outOff := 0#32 }
            cr := .reset
            ctx := s.ctx.idleDefaults
            fsm := .idle
            trace := s.trace ++ effects
            sr := { s.sr with eocf := false, hpdf := false }
            din := { s.din with cplt := false, aborted := false, abortReq := false }
            dout := { s.dout with cplt := false, aborted := false, abortReq := false }
            host := { host with notices := s.host.notices.tail }
            lastEvent := .taken .eoc }) ∧
      (∀ host k n, s.host.pausesAfter k host → n < s.ofifo.length →
        s.dout.done.toNat + 4 * n = s.desc.outLen.toNat * (k + 1) →
        ∃ t : State, exec .evEoc s = .next t ∧
          (∀ a, ¬ inOutputBuffer s a → readByte t.hmem a = readByte s.hmem a) ∧
          t = { s with
            hmem := t.hmem
            ofifo := s.ofifo.drop n
            desc := { s.desc with outOff := 0#32 }
            cr := .reset
            ctx := { s.ctx with ending := true, pauseOut := true }
            fsm := .draining
            trace := s.trace ++ fullDrains s.desc.outAddr s.desc.outLen (bytes (s.ofifo.take n))
            host := host
            lastEvent := .taken .eoc }))

/-- `EV_DMA_IN_CPLT` (43_transfer_fsm R223, R218): `REFILL` with the bytes taken; a `Pause` or an empty `Supply`
empties the descriptor and pauses the input; a supplied buffer becomes the active one and is primed at once, unless
the input is paused; one that breaks R218 or overlaps is a fault, whoever supplies it (60_exceptions R304 (e)). With
the Streaming Buffer Manager as the host (44_stream_buffers R272, R276) the rest of a partly taken buffer is supplied,
else the other buffer if it is full, else the manager waits. The listed replies are the model's (log 8). Which
overlaps of a supplied buffer are faults (log 36), and that an empty `Supply` passes the same tests (log 23), are the
model's readings. That a further buffer is taken and primed also after a padded tail word, or after a ragged tail was
dropped, and the fault comes only with a word pushed after a padded one, is the model's choice (logs 22, 39), and so
is the manager's reply where it still waits (log 40). -/
def Obligations.EvDmaInCpltResult : Prop :=
  ∀ s : State, recordTaken .dmaInCplt s = true →
    let off := s.desc.inOff + s.din.len
    let paused (addr : Word) (sb : StreamBuffers) (replies : List RefillReply) : State := { s with
      trace := s.trace ++ [.refill off]
      desc := { s.desc with inAddr := addr, inLen := 0#32, inOff := 0#32 }
      ctx := { s.ctx with pauseIn := true }
      din := { s.din with cplt := false }
      sb := sb
      host := { s.host with refillReplies := replies }
      lastEvent := .taken .dmaInCplt }
    let supplied (addr len : Word) (sb : StreamBuffers) (replies : List RefillReply) : State := { s with
      trace := s.trace ++ [.refill off]
      desc := { s.desc with inAddr := addr, inLen := len, inOff := 0#32 }
      din := if s.ctx.pauseIn = false ∧ s.ctx.ending = false ∧ s.cr.run = true then
          { s.din with cplt := false, addr := addr, len := BitVec.ofNat 32 (primeLen len.toNat s.cfg.granIn),
                       done := 0#32, busy := true }
        else { s.din with cplt := false }
      sb := sb
      host := { s.host with refillReplies := replies }
      lastEvent := .taken .dmaInCplt }
    let passes (addr len : Word) : Prop :=
      inputFault { s with desc := { s.desc with inAddr := addr, inLen := len, inOff := 0#32 } } = none
    (∀ replies, s.host.managed = false → s.host.refillReplies = .pause :: replies →
      exec .evDmaInCplt s = .next (paused s.desc.inAddr s.sb replies)) ∧
    (∀ replies addr len, s.host.managed = false → s.host.refillReplies = .supply addr len :: replies →
      passes addr len →
      exec .evDmaInCplt s = .next (if len = 0#32 then paused addr s.sb replies else supplied addr len s.sb replies)) ∧
    (∀ addr len f, (refillReply off s).1 = .supply addr len →
      inputFault { s with desc := { s.desc with inAddr := addr, inLen := len, inOff := 0#32 } } = some f →
      exec .evDmaInCplt s = .fault f) ∧
    (Inv s → s.host.managed = true →
      let taken := s.sb.off + off
      let rd := s.sb.rd
      let cur := s.sb.buf rd
      let other := s.sb.buf rd.flip
      let flipped : StreamBuffers := { s.sb.setBuf rd { cur with full := false } with off := 0#32, rd := rd.flip }
      (taken.toNat < cur.len.toNat → taken.toNat % 4 = 0 → exec .evDmaInCplt s =
        .next (supplied (sbAddr s.cfg rd + taken) (cur.len - taken) { s.sb with off := taken } s.host.refillReplies)) ∧
      (cur.len.toNat ≤ taken.toNat → other.full = true → other.len ≠ 0#32 → exec .evDmaInCplt s =
        .next (supplied (sbAddr s.cfg rd.flip) other.len flipped s.host.refillReplies)) ∧
      (cur.len.toNat ≤ taken.toNat → other.full = false → exec .evDmaInCplt s =
        .next (paused s.desc.inAddr { flipped with wait := true } s.host.refillReplies)))

/-- `EV_DMA_OUT_CPLT` (43_transfer_fsm R224): `DRAIN` of the block, the fill offset back to 0, and the next block
primed unless the output is paused or the job is ending, whichever host answers `Continue`; a `Pause` reply pauses the
output. That a `DRAIN` carries its bytes is the model's (log 25), and so are the listed replies (log 8). -/
def Obligations.EvDmaOutCpltResult : Prop :=
  ∀ s : State, recordTaken .dmaOutCplt s = true →
    let drained := s.trace ++
      [.drain s.desc.outAddr s.dout.len (readBytes s.hmem s.desc.outAddr.toNat s.dout.len.toNat)]
    let next : Dma := if s.ctx.pauseOut = false ∧ s.ctx.ending = false ∧ s.cr.run = true then
        { s.dout with
          cplt := false, addr := s.desc.outAddr
          len := BitVec.ofNat 32 (s.desc.outLen.toNat - s.desc.outLen.toNat % Gran.bytes s.cfg.granOut)
          done := 0#32, busy := true }
      else { s.dout with cplt := false, done := 0#32 }
    (s.host.managed = true → exec .evDmaOutCplt s = .next { s with
      trace := drained
      desc := { s.desc with outOff := 0#32 }
      dout := next
      lastEvent := .taken .dmaOutCplt }) ∧
    (∀ replies, s.host.managed = false → s.host.drainReplies = .proceed :: replies →
      exec .evDmaOutCplt s = .next { s with
        trace := drained
        desc := { s.desc with outOff := 0#32 }
        dout := next
        host := { s.host with drainReplies := replies }
        lastEvent := .taken .dmaOutCplt }) ∧
    (∀ replies, s.host.managed = false → s.host.drainReplies = .pause :: replies →
      exec .evDmaOutCplt s = .next { s with
        trace := drained
        desc := { s.desc with outOff := 0#32 }
        dout := { s.dout with cplt := false, done := 0#32 }
        ctx := { s.ctx with pauseOut := true }
        host := { s.host with drainReplies := replies }
        lastEvent := .taken .dmaOutCplt })

/-- `EV_DMA_ABORT` (43_transfer_fsm R225, R219, R221, R222): with the other engine still busy only the abort flags
clear; else the fill offset is the count of `DOUT` and the residual drain runs. Under an output pause with words in
`OFIFO` it moves nothing and the block stays in `Draining`. With the output running, or `OFIFO` empty, and a host,
whoever it is, that lets every `DRAIN` pass, the bytes the engine left in the output buffer, then the words in
`OFIFO`, reach it, one `DRAIN` for each full buffer and one for the rest, then `DONE`, with no other effect, and the
block is `Idle`; where the host answers one with `Pause` and words are left, the block stays in `Draining`, the output
paused, those words in `OFIFO`. Which records are taken is the model's reading of the eligibility (log 11). That a
`DRAIN` carries its bytes is the model's (log 25), and so are the listed replies, one to the final `DRAIN` among them
(logs 8, 26) and how a command inside a callback stands in the state (log 30). That a `DRAIN` carries its bytes is the
model's (log 25), and so is how a command inside a callback stands in the state (log 30). -/
def Obligations.EvDmaAbortResult : Prop :=
  ∀ s : State, recordTaken .dmaAbort s = true →
    let bytes (words : List Word) : List Byte :=
      readBytes s.hmem s.desc.outAddr.toNat s.dout.done.toNat ++ words.flatMap bytesOfWord
    let effects : List Effect := finalEffects s.desc.outAddr s.desc.outLen s.ctx.op (bytes s.ofifo)
    (s.din.busy = true ∨ s.dout.busy = true → exec .evDmaAbort s = .next { s with
      din := { s.din with aborted := false }
      dout := { s.dout with aborted := false }
      lastEvent := .taken .dmaAbort }) ∧
    (s.din.busy = false → s.dout.busy = false → s.ctx.pauseOut = true → s.ofifo ≠ [] →
      exec .evDmaAbort s = .next { s with
        desc := { s.desc with outOff := s.dout.done }
        din := { s.din with aborted := false }
        dout := { s.dout with aborted := false }
        lastEvent := .taken .dmaAbort }) ∧
    (Inv s → s.din.busy = false → s.dout.busy = false →
      (s.ctx.pauseOut = false ∨ s.ofifo = [] → ∀ host, s.host.passes (effects.length - 1) host →
        s.host.notices.head? ≠ some .command →
        ∃ t : State, exec .evDmaAbort s = .next t ∧
          t.fsm = .idle ∧ t.ctx = s.ctx.idleDefaults ∧ t.ofifo = [] ∧ t.desc = { s.desc with outOff := 0#32 } ∧
          drainBytes t.trace = drainBytes s.trace ++ bytes s.ofifo ∧
          t.trace = s.trace ++ effects ∧
          (∀ a, ¬ inOutputBuffer s a → readByte t.hmem a = readByte s.hmem a) ∧
          t = { s with
            hmem := t.hmem, ofifo := t.ofifo, desc := t.desc, ctx := t.ctx, fsm := t.fsm, trace := t.trace
            sr := { s.sr with eocf := false, hpdf := false }
            din := { s.din with cplt := false, aborted := false, abortReq := false }
            dout := { s.dout with cplt := false, aborted := false, abortReq := false }
            host := { host with notices := s.host.notices.tail }
            lastEvent := .taken .dmaAbort }) ∧
      (s.ctx.pauseOut = false → ∀ host k n, s.host.pausesAfter k host → n < s.ofifo.length →
        s.dout.done.toNat + 4 * n = s.desc.outLen.toNat * (k + 1) →
        ∃ t : State, exec .evDmaAbort s = .next t ∧
          (∀ a, ¬ inOutputBuffer s a → readByte t.hmem a = readByte s.hmem a) ∧
          t = { s with
            hmem := t.hmem
            ofifo := s.ofifo.drop n
            desc := { s.desc with outOff := 0#32 }
            ctx := { s.ctx with pauseOut := true }
            din := { s.din with aborted := false }
            dout := { s.dout with aborted := false }
            trace := s.trace ++ fullDrains s.desc.outAddr s.desc.outLen (bytes (s.ofifo.take n))
            host := host
            lastEvent := .taken .dmaAbort }))

/-! ## The Streaming Buffer Manager -/

/-- `SBINIT` (44_stream_buffers R271): both buffers empty and the indices 0 in `Idle`; `Busy` in a job. -/
def Obligations.SbinitResult : Prop :=
  ∀ s : State,
    (s.fsm = .idle → exec .sbinit s = .next { s with
      sb := { s.sb with
        buf0 := { full := false, len := 0#32 }, buf1 := { full := false, len := 0#32 }
        rd := .b0, wr := .b0, off := 0#32, wait := false }
      response := some { status := 0#8, data := 0#32 } }) ∧
    (s.fsm ≠ .idle → exec .sbinit s = .next { s with
      response := some { status := 7#8, data := 0#32 }, lastError := 7#8 })

/-- The first atomic step of `SBFILL` (44_stream_buffers R273, R277): `InvalidArgument` above the capacity, nothing
for a length of 0, `Busy` where the write buffer is full; a failed command changes `LAST_ERROR` and nothing else
(60_exceptions R292). Else, whatever the job does, the bytes are in the buffer, it is tagged full and the write index
flips; every other byte of host memory is as before. `filling` and the byte list are the model's (logs 10, 21). -/
def Obligations.SbfillResult : Prop :=
  ∀ (s : State) (len : Word), s.cfg.wf = true →
    let i := s.sb.wr
    let addr := (sbAddr s.cfg i).toNat
    (s.cfg.ibcap < len.toNat → exec (.sbfill len) s = .next { s with
      response := some { status := 5#8, data := 0#32 }, lastError := 5#8 }) ∧
    (len = 0#32 → exec (.sbfill len) s = .next { s with response := some { status := 0#8, data := 0#32 } }) ∧
    (len ≠ 0#32 → len.toNat ≤ s.cfg.ibcap → (s.sb.buf i).full = true → exec (.sbfill len) s = .next { s with
      response := some { status := 7#8, data := 0#32 }, lastError := 7#8 }) ∧
    (len ≠ 0#32 → len.toNat ≤ s.cfg.ibcap → (s.sb.buf i).full = false →
      ∃ t : State, exec (.sbfill len) s = .next t ∧
        (∀ j b, j < len.toNat → s.host.source[j]? = some b → readByte t.hmem (addr + j) = b) ∧
        (∀ a, a < addr ∨ addr + len.toNat ≤ a → readByte t.hmem a = readByte s.hmem a) ∧
        t = { s with
          hmem := t.hmem
          sb := { s.sb.setBuf i { full := true, len := len } with wr := i.flip, filling := some i }
          host := { s.host with source := s.host.source.drop len.toNat }
          draws := s.draws + len.toNat
          response := none })

/-- The second atomic step of `SBFILL` (44_stream_buffers R273): in a job that waits for this very buffer the wait
ends, the descriptor is written "as two WRD commands", and the input resumes by `DoResume(Input)` (43_transfer_fsm
R231); otherwise the command just completes. With the input paused and no block of `DIN` in flight the buffer becomes
the active one, in the FIFO methods with the input's sources, in method DMA with the next block. Where a `WRD` of the
descriptor would be `Busy` (45_register_access R281) the two writes change nothing, and the rest is done: a pause of
the input ends, and a block in flight goes on. Under the invariant the command always completes with `OK`
(60_exceptions R292: a command "either completes or has no architectural effect"); only a descriptor without data in
method DMA is `InvalidArgument`. That the writes change nothing where a `WRD` is `Busy` is the model's reading (log
38). That the descriptor is checked as for a `WRD` (log 21) and what counts as an overlap (log 36) are the model's
reading too, and so are what the step does to a job in `Draining` (log 33) and that a further buffer is handed over
also after a padded tail word or a dropped tail (logs 22, 39). -/
def Obligations.SbfillSecondStep : Prop :=
  ∀ (s : State) (i : BufIdx), s.sb.filling = some i → s.inputs = [] →
    let ok : Option Response := some { status := 0#8, data := 0#32 }
    let quiet : Prop := s.ctx.pauseIn = true ∧ s.din.busy = false ∧ s.din.cplt = false
    let handed : State := { s with
      sb := { s.sb with filling := none, wait := false }
      desc := { s.desc with inAddr := sbAddr s.cfg i, inLen := (s.sb.buf i).len, inOff := 0#32 }
      ctx := { s.ctx with pauseIn := false }
      response := ok }
    let kept : State := { s with
      sb := { s.sb with filling := none, wait := false }
      ctx := { s.ctx with pauseIn := false }
      response := ok }
    let noData : State := { s with
      sb := { s.sb with filling := none }
      response := some { status := 5#8, data := 0#32 }
      lastError := 5#8 }
    (s.sb.wait = false ∨ s.sb.rd ≠ i ∨ s.fsm = .idle →
      step s = .next { s with sb := { s.sb with filling := none }, response := ok }) ∧
    (Inv s → ∃ t : State, step s = .next t ∧ t.response = ok ∧ t.lastError = s.lastError) ∧
    (s.sb.wait = true → s.sb.rd = i → s.fsm ≠ .idle →
      (s.ctx.pauseIn = false → step s = .next kept) ∧
      (s.ctx.pauseIn = true → s.din.busy = true ∨ s.din.cplt = true →
        (s.ctx.ending = false → s.ctx.fifoMethod = true →
          step s = .next { kept with cr := { s.cr with ieIft := true, ieIfnf := true } }) ∧
        (s.ctx.ending = false → s.ctx.dmaMethod = true → s.desc.inOff ≠ s.desc.inLen → step s = .next kept) ∧
        (s.ctx.ending = false → s.ctx.dmaMethod = true → s.desc.inOff = s.desc.inLen → step s = .next noData) ∧
        (s.ctx.ending = true → step s = .next kept)) ∧
      (∀ f, quiet → inputFault (sbHandOver i s) = some f → step s = .fault f) ∧
      (quiet → inputFault (sbHandOver i s) = none →
        (s.ctx.ending = false → s.ctx.fifoMethod = true →
          step s = .next { handed with cr := { s.cr with ieIft := true, ieIfnf := true } }) ∧
        (s.ctx.ending = false → s.ctx.dmaMethod = true → (s.sb.buf i).len ≠ 0#32 →
          step s = .next { handed with
            din := { s.din with
              addr := sbAddr s.cfg i
              len := BitVec.ofNat 32 (primeLen (s.sb.buf i).len.toNat s.cfg.granIn)
              done := 0#32, busy := true } }) ∧
        (s.ctx.ending = false → s.ctx.dmaMethod = true → (s.sb.buf i).len = 0#32 →
          step s = .next noData) ∧
        (s.ctx.ending = true → step s = .next handed)))

/-! ## The engines and the coprocessor -/

/-- A step of `DIN` (43_transfer_fsm R232): an abort is answered; else, where it is enabled and triggered (8 free
words of `IFIFO` with the granularity of 32 bytes, 1 with 4), one burst of words into `IFIFO`, the last one padded,
`DONE` advanced, a finished block raising `CPLT`, or, in its place, a transfer error: `ERR` set, `BUSY` cleared,
`SR.ERRF` set (10_state R29), no word moved; where not triggered, nothing. A burst after a padded tail word is a fault
(60_exceptions R304 (g)). That an engine not triggered changes nothing, `tailFed`, and that a ragged tail which was
never fed does not stop the input, are the model's (logs 15, 22, 39), and so are when a transfer error may come and
that it sets `SR.ERRF` (logs 29, 35). -/
def Obligations.DinStep : Prop :=
  ∀ (s : State) (rest : List Stimulus),
    let g := Gran.bytes s.cfg.granIn
    let left := s.din.len.toNat - s.din.done.toNat
    let done := BitVec.ofNat 32 (s.din.done.toNat + min g left)
    let triggered : Prop := match s.cfg.granIn with
      | .thirtyTwo => 8 ≤ s.cfg.fifoDepth - s.ififo.length
      | .four => s.ififo.length < s.cfg.fifoDepth
    (s.inputs = .din :: rest →
      (s.din.busy = true → s.din.abortReq = true → step s = .next { s with
        inputs := rest, din := { s.din with busy := false, abortReq := false, aborted := true } }) ∧
      (Inv s → s.din.busy = true → s.din.abortReq = false → s.cr.dmaInEn = true → triggered → s.tailFed = false →
        step s = .next { s with
        inputs := rest
        ififo := s.ififo ++ (List.range ((min g left + 3) / 4)).map (fun j => wordOfBytes
          (readBytes s.hmem (s.din.addr.toNat + s.din.done.toNat + 4 * j) (min 4 (left - 4 * j))))
        tailFed := decide (left ≤ g ∧ left % 4 ≠ 0)
        din := if done = s.din.len then { s.din with done := done, busy := false, cplt := true }
          else { s.din with done := done } }) ∧
      (Inv s → s.din.busy = true → s.din.abortReq = false → s.cr.dmaInEn = true → triggered → s.tailFed = true →
        step s = .fault .raggedMidStream) ∧
      (s.din.busy = false ∨ (s.din.abortReq = false ∧ (s.cr.dmaInEn = false ∨ ¬ triggered)) →
        step s = .next { s with inputs := rest })) ∧
    (s.inputs = .dinError :: rest →
      (s.din.busy = true → s.din.abortReq = false → s.cr.dmaInEn = true → triggered → step s = .next { s with
        inputs := rest, din := { s.din with err := true, busy := false }, sr := { s.sr with errf := true } }) ∧
      (s.din.busy = false ∨ s.din.abortReq = true ∨ s.cr.dmaInEn = false ∨ ¬ triggered →
        step s = .next { s with inputs := rest }))

/-- A step of `DOUT` (43_transfer_fsm R233): an abort is answered; else, where it is enabled and triggered (8 words in
`OFIFO` with the granularity of 32 bytes, 1 with 4), one burst of words from `OFIFO` to the output buffer, `DONE`
advanced, a finished block raising `CPLT`, or, in its place, a transfer error: `ERR` set, `BUSY` cleared, `SR.ERRF`
set (10_state R29), no word moved; where not triggered, nothing. That an engine not triggered changes nothing is the
model's (log 15), and so are when a transfer error may come and that it sets `SR.ERRF` (logs 29, 35). -/
def Obligations.DoutStep : Prop :=
  ∀ (s : State) (rest : List Stimulus),
    let g := Gran.bytes s.cfg.granOut
    let done := s.dout.done + BitVec.ofNat 32 g
    let triggered : Prop := match s.cfg.granOut with
      | .thirtyTwo => 8 ≤ s.ofifo.length
      | .four => 1 ≤ s.ofifo.length
    (s.inputs = .dout :: rest →
      (s.dout.busy = true → s.dout.abortReq = true → step s = .next { s with
        inputs := rest, dout := { s.dout with busy := false, abortReq := false, aborted := true } }) ∧
      (Inv s → s.dout.busy = true → s.dout.abortReq = false → s.cr.dmaOutEn = true → triggered → step s = .next { s with
        inputs := rest
        hmem := writeBytes s.hmem (s.dout.addr.toNat + s.dout.done.toNat) ((s.ofifo.take (g / 4)).flatMap bytesOfWord)
        ofifo := s.ofifo.drop (g / 4)
        dout := if done = s.dout.len then { s.dout with done := done, busy := false, cplt := true }
          else { s.dout with done := done } }) ∧
      (s.dout.busy = false ∨ (s.dout.abortReq = false ∧ (s.cr.dmaOutEn = false ∨ ¬ triggered)) →
        step s = .next { s with inputs := rest })) ∧
    (s.inputs = .doutError :: rest →
      (s.dout.busy = true → s.dout.abortReq = false → s.cr.dmaOutEn = true → triggered → step s = .next { s with
        inputs := rest, dout := { s.dout with err := true, busy := false }, sr := { s.sr with errf := true } }) ∧
      (s.dout.busy = false ∨ s.dout.abortReq = true ∨ s.cr.dmaOutEn = false ∨ ¬ triggered →
        step s = .next { s with inputs := rest }))

/-- A step of `CORE` (43_transfer_fsm R236): nothing with the run bit off; else it pops the oldest word of `IFIFO`,
pushes its word into an `OFIFO` that has room before the end of conversion, raises `HPDF` with the header in a decode,
raises `EOCF` or `ERRF`, or writes a word of `QMEM` in a decode; no latched flag is cleared, and `TMEM` and everything
else are as before. That an act not allowed changes nothing is the model's (log 15), and so is how "at most once per
job" is recognised (log 16). -/
def Obligations.CoreStep : Prop :=
  ∀ (s : State) (a : CoreAct) (rest : List Stimulus), s.inputs = .core a :: rest →
    let idle : State := { s with inputs := rest }
    (∃ t : State, step s = .next t ∧
      t = { idle with ififo := t.ififo, ofifo := t.ofifo, sr := t.sr, hdr := t.hdr, qmem := t.qmem } ∧
      (s.cr.run = false → t = idle) ∧
      (s.ctx.op ≠ some .decode → t.qmem = s.qmem ∧ t.hdr = s.hdr ∧ t.sr.hpdf = s.sr.hpdf) ∧
      (t.ififo = s.ififo ∨ ∃ w, s.ififo = w :: t.ififo) ∧
      (t.ofifo = s.ofifo ∨ s.sr.eocf = false ∧ s.ofifo.length < s.cfg.fifoDepth ∧ ∃ w, t.ofifo = s.ofifo ++ [w]) ∧
      (s.sr.eocf = true → t.sr.eocf = true) ∧ (s.sr.hpdf = true → t.sr.hpdf = true) ∧
      (s.sr.errf = true → t.sr.errf = true)) ∧
    (s.cr.run = true → match a with
      | .pop => step s = .next { idle with ififo := s.ififo.tail }
      | .push w => step s = .next (if s.ofifo.length < s.cfg.fifoDepth ∧ s.sr.eocf = false then
          { idle with ofifo := s.ofifo ++ [w] } else idle)
      | .header h => step s = .next (if s.ctx.op = some .decode ∧ s.sr.hpdf = false ∧ s.cr.ieHpd = true then
          { idle with hdr := h, sr := { s.sr with hpdf := true } } else idle)
      | .endOfConversion => step s = .next { idle with sr := { s.sr with eocf := true } }
      | .error => step s = .next { idle with sr := { s.sr with errf := true } }
      | .writeQmem q w v =>
        if s.ctx.op = some .decode ∧ q.toNat < s.cfg.nq then
          ∃ t : State, step s = .next t ∧ t = { idle with qmem := t.qmem } ∧ readQmem t q w = v ∧
            ∀ q' w', q' ≠ q ∨ w' ≠ w → readQmem t q' w' = readQmem s q' w'
        else step s = .next idle)

/-! ## Callbacks -/

/-- A command from inside a callback is a fault (60_exceptions R296), in each of the five: `INFO_READY`, `ERROR`,
`DONE`, `REFILL`, `DRAIN`. That the host's command stands in the state as its answer to the callback is the model's
(log 30). -/
def Obligations.CallbackCommandFaults : Prop :=
  ∀ s : State,
    (s.host.notices.head? = some .command →
      (recordTaken .hpd s = true → exec .evHpd s = .fault .commandInCallback) ∧
      (recordTaken .err s = true → exec .evErr s = .fault .commandInCallback) ∧
      (Inv s → s.host.managed = true → s.ctx.fifoMethod = true → recordTaken .eoc s = true →
        exec .evEoc s = .fault .commandInCallback)) ∧
    (s.host.managed = false → s.host.refillReplies.head? = some .command →
      (recordTaken .inp s = true → s.desc.inOff = s.desc.inLen → exec .evIn s = .fault .commandInCallback) ∧
      (recordTaken .dmaInCplt s = true → exec .evDmaInCplt s = .fault .commandInCallback)) ∧
    (s.host.managed = false → s.host.drainReplies.head? = some .command →
      (Inv s → recordTaken .out s = true → s.desc.outOff + 4#32 = s.desc.outLen →
        exec .evOut s = .fault .commandInCallback) ∧
      (recordTaken .dmaOutCplt s = true → exec .evDmaOutCplt s = .fault .commandInCallback))
end

