-- ==== Sys2Proof/Laws/State.lean ====
section
/-! SUPPORT. What each named update of the state does to each field: one lemma per field per update, true by definition. -/

namespace Sys2Proof.Machine

open Sys2Proof

/-! ## `State.tReadMark` -/

@[simp] theorem State.tReadMark_cfg (s : State) (a : BitVec 16) : (s.tReadMark a).cfg = s.cfg := rfl
@[simp] theorem State.tReadMark_hspec (s : State) (a : BitVec 16) : (s.tReadMark a).hspec = s.hspec := rfl
@[simp] theorem State.tReadMark_hct (s : State) (a : BitVec 16) : (s.tReadMark a).hct = s.hct := rfl
@[simp] theorem State.tReadMark_baseline (s : State) (a : BitVec 16) : (s.tReadMark a).baseline = s.baseline := rfl
@[simp] theorem State.tReadMark_fsm (s : State) (a : BitVec 16) : (s.tReadMark a).fsm = s.fsm := rfl
@[simp] theorem State.tReadMark_ctx (s : State) (a : BitVec 16) : (s.tReadMark a).ctx = s.ctx := rfl
@[simp] theorem State.tReadMark_cr (s : State) (a : BitVec 16) : (s.tReadMark a).cr = s.cr := rfl
@[simp] theorem State.tReadMark_sr (s : State) (a : BitVec 16) : (s.tReadMark a).sr = s.sr := rfl
@[simp] theorem State.tReadMark_desc (s : State) (a : BitVec 16) : (s.tReadMark a).desc = s.desc := rfl
@[simp] theorem State.tReadMark_info (s : State) (a : BitVec 16) : (s.tReadMark a).info = s.info := rfl
@[simp] theorem State.tReadMark_lastError (s : State) (a : BitVec 16) : (s.tReadMark a).lastError = s.lastError := rfl
@[simp] theorem State.tReadMark_hdr (s : State) (a : BitVec 16) : (s.tReadMark a).hdr = s.hdr := rfl
@[simp] theorem State.tReadMark_prgRaw (s : State) (a : BitVec 16) : (s.tReadMark a).prgRaw = s.prgRaw := rfl
@[simp] theorem State.tReadMark_prgEnc (s : State) (a : BitVec 16) : (s.tReadMark a).prgEnc = s.prgEnc := rfl
@[simp] theorem State.tReadMark_tmem (s : State) (a : BitVec 16) : (s.tReadMark a).tmem = s.tmem := rfl
@[simp] theorem State.tReadMark_qmem (s : State) (a : BitVec 16) : (s.tReadMark a).qmem = s.qmem := rfl
@[simp] theorem State.tReadMark_hmem (s : State) (a : BitVec 16) : (s.tReadMark a).hmem = s.hmem := rfl
@[simp] theorem State.tReadMark_ififo (s : State) (a : BitVec 16) : (s.tReadMark a).ififo = s.ififo := rfl
@[simp] theorem State.tReadMark_ofifo (s : State) (a : BitVec 16) : (s.tReadMark a).ofifo = s.ofifo := rfl
@[simp] theorem State.tReadMark_din (s : State) (a : BitVec 16) : (s.tReadMark a).din = s.din := rfl
@[simp] theorem State.tReadMark_dout (s : State) (a : BitVec 16) : (s.tReadMark a).dout = s.dout := rfl
@[simp] theorem State.tReadMark_sb (s : State) (a : BitVec 16) : (s.tReadMark a).sb = s.sb := rfl
@[simp] theorem State.tReadMark_response (s : State) (a : BitVec 16) : (s.tReadMark a).response = s.response := rfl
@[simp] theorem State.tReadMark_trace (s : State) (a : BitVec 16) : (s.tReadMark a).trace = s.trace := rfl
@[simp] theorem State.tReadMark_history (s : State) (a : BitVec 16) :
    (s.tReadMark a).history =
      s.history ++ [.tread a] := rfl
@[simp] theorem State.tReadMark_lastEvent (s : State) (a : BitVec 16) : (s.tReadMark a).lastEvent = s.lastEvent := rfl
@[simp] theorem State.tReadMark_tailFed (s : State) (a : BitVec 16) : (s.tReadMark a).tailFed = s.tailFed := rfl
@[simp] theorem State.tReadMark_draws (s : State) (a : BitVec 16) : (s.tReadMark a).draws = s.draws := rfl
@[simp] theorem State.tReadMark_host (s : State) (a : BitVec 16) : (s.tReadMark a).host = s.host := rfl
@[simp] theorem State.tReadMark_inputs (s : State) (a : BitVec 16) : (s.tReadMark a).inputs = s.inputs := rfl

/-! ## `State.tWrite` -/

@[simp] theorem State.tWrite_cfg (s : State) (a : BitVec 16) (v : Word) : (s.tWrite a v).cfg = s.cfg := rfl
@[simp] theorem State.tWrite_hspec (s : State) (a : BitVec 16) (v : Word) : (s.tWrite a v).hspec = s.hspec := rfl
@[simp] theorem State.tWrite_hct (s : State) (a : BitVec 16) (v : Word) : (s.tWrite a v).hct = s.hct := rfl
@[simp] theorem State.tWrite_baseline (s : State) (a : BitVec 16) (v : Word) :
    (s.tWrite a v).baseline =
      s.baseline := rfl
@[simp] theorem State.tWrite_fsm (s : State) (a : BitVec 16) (v : Word) : (s.tWrite a v).fsm = s.fsm := rfl
@[simp] theorem State.tWrite_ctx (s : State) (a : BitVec 16) (v : Word) : (s.tWrite a v).ctx = s.ctx := rfl
@[simp] theorem State.tWrite_cr (s : State) (a : BitVec 16) (v : Word) : (s.tWrite a v).cr = s.cr := rfl
@[simp] theorem State.tWrite_sr (s : State) (a : BitVec 16) (v : Word) : (s.tWrite a v).sr = s.sr := rfl
@[simp] theorem State.tWrite_desc (s : State) (a : BitVec 16) (v : Word) : (s.tWrite a v).desc = s.desc := rfl
@[simp] theorem State.tWrite_info (s : State) (a : BitVec 16) (v : Word) : (s.tWrite a v).info = s.info := rfl
@[simp] theorem State.tWrite_lastError (s : State) (a : BitVec 16) (v : Word) :
    (s.tWrite a v).lastError =
      s.lastError := rfl
@[simp] theorem State.tWrite_hdr (s : State) (a : BitVec 16) (v : Word) : (s.tWrite a v).hdr = s.hdr := rfl
@[simp] theorem State.tWrite_prgRaw (s : State) (a : BitVec 16) (v : Word) : (s.tWrite a v).prgRaw = s.prgRaw := rfl
@[simp] theorem State.tWrite_prgEnc (s : State) (a : BitVec 16) (v : Word) : (s.tWrite a v).prgEnc = s.prgEnc := rfl
@[simp] theorem State.tWrite_tmem (s : State) (a : BitVec 16) (v : Word) :
    (s.tWrite a v).tmem =
      Store.put s.tmem a.toNat v := rfl
@[simp] theorem State.tWrite_qmem (s : State) (a : BitVec 16) (v : Word) : (s.tWrite a v).qmem = s.qmem := rfl
@[simp] theorem State.tWrite_hmem (s : State) (a : BitVec 16) (v : Word) : (s.tWrite a v).hmem = s.hmem := rfl
@[simp] theorem State.tWrite_ififo (s : State) (a : BitVec 16) (v : Word) : (s.tWrite a v).ififo = s.ififo := rfl
@[simp] theorem State.tWrite_ofifo (s : State) (a : BitVec 16) (v : Word) : (s.tWrite a v).ofifo = s.ofifo := rfl
@[simp] theorem State.tWrite_din (s : State) (a : BitVec 16) (v : Word) : (s.tWrite a v).din = s.din := rfl
@[simp] theorem State.tWrite_dout (s : State) (a : BitVec 16) (v : Word) : (s.tWrite a v).dout = s.dout := rfl
@[simp] theorem State.tWrite_sb (s : State) (a : BitVec 16) (v : Word) : (s.tWrite a v).sb = s.sb := rfl
@[simp] theorem State.tWrite_response (s : State) (a : BitVec 16) (v : Word) :
    (s.tWrite a v).response =
      s.response := rfl
@[simp] theorem State.tWrite_trace (s : State) (a : BitVec 16) (v : Word) : (s.tWrite a v).trace = s.trace := rfl
@[simp] theorem State.tWrite_history (s : State) (a : BitVec 16) (v : Word) :
    (s.tWrite a v).history =
      s.history ++ [.twrite a v] := rfl
@[simp] theorem State.tWrite_lastEvent (s : State) (a : BitVec 16) (v : Word) :
    (s.tWrite a v).lastEvent =
      s.lastEvent := rfl
@[simp] theorem State.tWrite_tailFed (s : State) (a : BitVec 16) (v : Word) : (s.tWrite a v).tailFed = s.tailFed := rfl
@[simp] theorem State.tWrite_draws (s : State) (a : BitVec 16) (v : Word) : (s.tWrite a v).draws = s.draws := rfl
@[simp] theorem State.tWrite_host (s : State) (a : BitVec 16) (v : Word) : (s.tWrite a v).host = s.host := rfl
@[simp] theorem State.tWrite_inputs (s : State) (a : BitVec 16) (v : Word) : (s.tWrite a v).inputs = s.inputs := rfl

/-! ## `State.qWrite` -/

@[simp] theorem State.qWrite_cfg (s : State) (q w : BitVec 4) (v : Word) : (s.qWrite q w v).cfg = s.cfg := rfl
@[simp] theorem State.qWrite_hspec (s : State) (q w : BitVec 4) (v : Word) : (s.qWrite q w v).hspec = s.hspec := rfl
@[simp] theorem State.qWrite_hct (s : State) (q w : BitVec 4) (v : Word) : (s.qWrite q w v).hct = s.hct := rfl
@[simp] theorem State.qWrite_baseline (s : State) (q w : BitVec 4) (v : Word) :
    (s.qWrite q w v).baseline =
      s.baseline := rfl
@[simp] theorem State.qWrite_fsm (s : State) (q w : BitVec 4) (v : Word) : (s.qWrite q w v).fsm = s.fsm := rfl
@[simp] theorem State.qWrite_ctx (s : State) (q w : BitVec 4) (v : Word) : (s.qWrite q w v).ctx = s.ctx := rfl
@[simp] theorem State.qWrite_cr (s : State) (q w : BitVec 4) (v : Word) : (s.qWrite q w v).cr = s.cr := rfl
@[simp] theorem State.qWrite_sr (s : State) (q w : BitVec 4) (v : Word) : (s.qWrite q w v).sr = s.sr := rfl
@[simp] theorem State.qWrite_desc (s : State) (q w : BitVec 4) (v : Word) : (s.qWrite q w v).desc = s.desc := rfl
@[simp] theorem State.qWrite_info (s : State) (q w : BitVec 4) (v : Word) : (s.qWrite q w v).info = s.info := rfl
@[simp] theorem State.qWrite_lastError (s : State) (q w : BitVec 4) (v : Word) :
    (s.qWrite q w v).lastError =
      s.lastError := rfl
@[simp] theorem State.qWrite_hdr (s : State) (q w : BitVec 4) (v : Word) : (s.qWrite q w v).hdr = s.hdr := rfl
@[simp] theorem State.qWrite_prgRaw (s : State) (q w : BitVec 4) (v : Word) : (s.qWrite q w v).prgRaw = s.prgRaw := rfl
@[simp] theorem State.qWrite_prgEnc (s : State) (q w : BitVec 4) (v : Word) : (s.qWrite q w v).prgEnc = s.prgEnc := rfl
@[simp] theorem State.qWrite_tmem (s : State) (q w : BitVec 4) (v : Word) : (s.qWrite q w v).tmem = s.tmem := rfl
@[simp] theorem State.qWrite_qmem (s : State) (q w : BitVec 4) (v : Word) :
    (s.qWrite q w v).qmem =
      Store.put s.qmem (qmemIndex q w) v := rfl
@[simp] theorem State.qWrite_hmem (s : State) (q w : BitVec 4) (v : Word) : (s.qWrite q w v).hmem = s.hmem := rfl
@[simp] theorem State.qWrite_ififo (s : State) (q w : BitVec 4) (v : Word) : (s.qWrite q w v).ififo = s.ififo := rfl
@[simp] theorem State.qWrite_ofifo (s : State) (q w : BitVec 4) (v : Word) : (s.qWrite q w v).ofifo = s.ofifo := rfl
@[simp] theorem State.qWrite_din (s : State) (q w : BitVec 4) (v : Word) : (s.qWrite q w v).din = s.din := rfl
@[simp] theorem State.qWrite_dout (s : State) (q w : BitVec 4) (v : Word) : (s.qWrite q w v).dout = s.dout := rfl
@[simp] theorem State.qWrite_sb (s : State) (q w : BitVec 4) (v : Word) : (s.qWrite q w v).sb = s.sb := rfl
@[simp] theorem State.qWrite_response (s : State) (q w : BitVec 4) (v : Word) :
    (s.qWrite q w v).response =
      s.response := rfl
@[simp] theorem State.qWrite_trace (s : State) (q w : BitVec 4) (v : Word) : (s.qWrite q w v).trace = s.trace := rfl
@[simp] theorem State.qWrite_history (s : State) (q w : BitVec 4) (v : Word) :
    (s.qWrite q w v).history =
      s.history ++ [.qwrite q.toNat w.toNat v] := rfl
@[simp] theorem State.qWrite_lastEvent (s : State) (q w : BitVec 4) (v : Word) :
    (s.qWrite q w v).lastEvent =
      s.lastEvent := rfl
@[simp] theorem State.qWrite_tailFed (s : State) (q w : BitVec 4) (v : Word) :
    (s.qWrite q w v).tailFed =
      s.tailFed := rfl
@[simp] theorem State.qWrite_draws (s : State) (q w : BitVec 4) (v : Word) : (s.qWrite q w v).draws = s.draws := rfl
@[simp] theorem State.qWrite_host (s : State) (q w : BitVec 4) (v : Word) : (s.qWrite q w v).host = s.host := rfl
@[simp] theorem State.qWrite_inputs (s : State) (q w : BitVec 4) (v : Word) : (s.qWrite q w v).inputs = s.inputs := rfl

/-! ## `State.emit` -/

@[simp] theorem State.emit_cfg (s : State) (e : Effect) : (s.emit e).cfg = s.cfg := rfl
@[simp] theorem State.emit_hspec (s : State) (e : Effect) : (s.emit e).hspec = s.hspec := rfl
@[simp] theorem State.emit_hct (s : State) (e : Effect) : (s.emit e).hct = s.hct := rfl
@[simp] theorem State.emit_baseline (s : State) (e : Effect) : (s.emit e).baseline = s.baseline := rfl
@[simp] theorem State.emit_fsm (s : State) (e : Effect) : (s.emit e).fsm = s.fsm := rfl
@[simp] theorem State.emit_ctx (s : State) (e : Effect) : (s.emit e).ctx = s.ctx := rfl
@[simp] theorem State.emit_cr (s : State) (e : Effect) : (s.emit e).cr = s.cr := rfl
@[simp] theorem State.emit_sr (s : State) (e : Effect) : (s.emit e).sr = s.sr := rfl
@[simp] theorem State.emit_desc (s : State) (e : Effect) : (s.emit e).desc = s.desc := rfl
@[simp] theorem State.emit_info (s : State) (e : Effect) : (s.emit e).info = s.info := rfl
@[simp] theorem State.emit_lastError (s : State) (e : Effect) : (s.emit e).lastError = s.lastError := rfl
@[simp] theorem State.emit_hdr (s : State) (e : Effect) : (s.emit e).hdr = s.hdr := rfl
@[simp] theorem State.emit_prgRaw (s : State) (e : Effect) : (s.emit e).prgRaw = s.prgRaw := rfl
@[simp] theorem State.emit_prgEnc (s : State) (e : Effect) : (s.emit e).prgEnc = s.prgEnc := rfl
@[simp] theorem State.emit_tmem (s : State) (e : Effect) : (s.emit e).tmem = s.tmem := rfl
@[simp] theorem State.emit_qmem (s : State) (e : Effect) : (s.emit e).qmem = s.qmem := rfl
@[simp] theorem State.emit_hmem (s : State) (e : Effect) : (s.emit e).hmem = s.hmem := rfl
@[simp] theorem State.emit_ififo (s : State) (e : Effect) : (s.emit e).ififo = s.ififo := rfl
@[simp] theorem State.emit_ofifo (s : State) (e : Effect) : (s.emit e).ofifo = s.ofifo := rfl
@[simp] theorem State.emit_din (s : State) (e : Effect) : (s.emit e).din = s.din := rfl
@[simp] theorem State.emit_dout (s : State) (e : Effect) : (s.emit e).dout = s.dout := rfl
@[simp] theorem State.emit_sb (s : State) (e : Effect) : (s.emit e).sb = s.sb := rfl
@[simp] theorem State.emit_response (s : State) (e : Effect) : (s.emit e).response = s.response := rfl
@[simp] theorem State.emit_trace (s : State) (e : Effect) : (s.emit e).trace = s.trace ++ [e] := rfl
@[simp] theorem State.emit_history (s : State) (e : Effect) : (s.emit e).history = s.history := rfl
@[simp] theorem State.emit_lastEvent (s : State) (e : Effect) : (s.emit e).lastEvent = s.lastEvent := rfl
@[simp] theorem State.emit_tailFed (s : State) (e : Effect) : (s.emit e).tailFed = s.tailFed := rfl
@[simp] theorem State.emit_draws (s : State) (e : Effect) : (s.emit e).draws = s.draws := rfl
@[simp] theorem State.emit_host (s : State) (e : Effect) : (s.emit e).host = s.host := rfl
@[simp] theorem State.emit_inputs (s : State) (e : Effect) : (s.emit e).inputs = s.inputs := rfl

/-! ## `State.respond` -/

@[simp] theorem State.respond_cfg (s : State) (st : BitVec 8) (d : Word) : (s.respond st d).cfg = s.cfg := rfl
@[simp] theorem State.respond_hspec (s : State) (st : BitVec 8) (d : Word) : (s.respond st d).hspec = s.hspec := rfl
@[simp] theorem State.respond_hct (s : State) (st : BitVec 8) (d : Word) : (s.respond st d).hct = s.hct := rfl
@[simp] theorem State.respond_baseline (s : State) (st : BitVec 8) (d : Word) :
    (s.respond st d).baseline =
      s.baseline := rfl
@[simp] theorem State.respond_fsm (s : State) (st : BitVec 8) (d : Word) : (s.respond st d).fsm = s.fsm := rfl
@[simp] theorem State.respond_ctx (s : State) (st : BitVec 8) (d : Word) : (s.respond st d).ctx = s.ctx := rfl
@[simp] theorem State.respond_cr (s : State) (st : BitVec 8) (d : Word) : (s.respond st d).cr = s.cr := rfl
@[simp] theorem State.respond_sr (s : State) (st : BitVec 8) (d : Word) : (s.respond st d).sr = s.sr := rfl
@[simp] theorem State.respond_desc (s : State) (st : BitVec 8) (d : Word) : (s.respond st d).desc = s.desc := rfl
@[simp] theorem State.respond_info (s : State) (st : BitVec 8) (d : Word) : (s.respond st d).info = s.info := rfl
@[simp] theorem State.respond_lastError (s : State) (st : BitVec 8) (d : Word) :
    (s.respond st d).lastError =
      s.lastError := rfl
@[simp] theorem State.respond_hdr (s : State) (st : BitVec 8) (d : Word) : (s.respond st d).hdr = s.hdr := rfl
@[simp] theorem State.respond_prgRaw (s : State) (st : BitVec 8) (d : Word) : (s.respond st d).prgRaw = s.prgRaw := rfl
@[simp] theorem State.respond_prgEnc (s : State) (st : BitVec 8) (d : Word) : (s.respond st d).prgEnc = s.prgEnc := rfl
@[simp] theorem State.respond_tmem (s : State) (st : BitVec 8) (d : Word) : (s.respond st d).tmem = s.tmem := rfl
@[simp] theorem State.respond_qmem (s : State) (st : BitVec 8) (d : Word) : (s.respond st d).qmem = s.qmem := rfl
@[simp] theorem State.respond_hmem (s : State) (st : BitVec 8) (d : Word) : (s.respond st d).hmem = s.hmem := rfl
@[simp] theorem State.respond_ififo (s : State) (st : BitVec 8) (d : Word) : (s.respond st d).ififo = s.ififo := rfl
@[simp] theorem State.respond_ofifo (s : State) (st : BitVec 8) (d : Word) : (s.respond st d).ofifo = s.ofifo := rfl
@[simp] theorem State.respond_din (s : State) (st : BitVec 8) (d : Word) : (s.respond st d).din = s.din := rfl
@[simp] theorem State.respond_dout (s : State) (st : BitVec 8) (d : Word) : (s.respond st d).dout = s.dout := rfl
@[simp] theorem State.respond_sb (s : State) (st : BitVec 8) (d : Word) : (s.respond st d).sb = s.sb := rfl
@[simp] theorem State.respond_response (s : State) (st : BitVec 8) (d : Word) :
    (s.respond st d).response =
      some { status := st, data := d } := rfl
@[simp] theorem State.respond_trace (s : State) (st : BitVec 8) (d : Word) : (s.respond st d).trace = s.trace := rfl
@[simp] theorem State.respond_history (s : State) (st : BitVec 8) (d : Word) :
    (s.respond st d).history =
      s.history := rfl
@[simp] theorem State.respond_lastEvent (s : State) (st : BitVec 8) (d : Word) :
    (s.respond st d).lastEvent =
      s.lastEvent := rfl
@[simp] theorem State.respond_tailFed (s : State) (st : BitVec 8) (d : Word) :
    (s.respond st d).tailFed =
      s.tailFed := rfl
@[simp] theorem State.respond_draws (s : State) (st : BitVec 8) (d : Word) : (s.respond st d).draws = s.draws := rfl
@[simp] theorem State.respond_host (s : State) (st : BitVec 8) (d : Word) : (s.respond st d).host = s.host := rfl
@[simp] theorem State.respond_inputs (s : State) (st : BitVec 8) (d : Word) : (s.respond st d).inputs = s.inputs := rfl

/-! ## `State.stopAndReset` -/

@[simp] theorem State.stopAndReset_cfg (s : State) : (s.stopAndReset).cfg = s.cfg := rfl
@[simp] theorem State.stopAndReset_hspec (s : State) : (s.stopAndReset).hspec = s.hspec := rfl
@[simp] theorem State.stopAndReset_hct (s : State) : (s.stopAndReset).hct = s.hct := rfl
@[simp] theorem State.stopAndReset_baseline (s : State) : (s.stopAndReset).baseline = s.baseline := rfl
@[simp] theorem State.stopAndReset_fsm (s : State) : (s.stopAndReset).fsm = .idle := rfl
@[simp] theorem State.stopAndReset_ctx (s : State) : (s.stopAndReset).ctx = s.ctx.idleDefaults := rfl
@[simp] theorem State.stopAndReset_cr (s : State) : (s.stopAndReset).cr = .reset := rfl
@[simp] theorem State.stopAndReset_sr (s : State) :
    (s.stopAndReset).sr =
      { s.sr with eocf := false, hpdf := false } := rfl
@[simp] theorem State.stopAndReset_desc (s : State) : (s.stopAndReset).desc = s.desc := rfl
@[simp] theorem State.stopAndReset_info (s : State) : (s.stopAndReset).info = s.info := rfl
@[simp] theorem State.stopAndReset_lastError (s : State) : (s.stopAndReset).lastError = s.lastError := rfl
@[simp] theorem State.stopAndReset_hdr (s : State) : (s.stopAndReset).hdr = s.hdr := rfl
@[simp] theorem State.stopAndReset_prgRaw (s : State) : (s.stopAndReset).prgRaw = s.prgRaw := rfl
@[simp] theorem State.stopAndReset_prgEnc (s : State) : (s.stopAndReset).prgEnc = s.prgEnc := rfl
@[simp] theorem State.stopAndReset_tmem (s : State) : (s.stopAndReset).tmem = s.tmem := rfl
@[simp] theorem State.stopAndReset_qmem (s : State) : (s.stopAndReset).qmem = s.qmem := rfl
@[simp] theorem State.stopAndReset_hmem (s : State) : (s.stopAndReset).hmem = s.hmem := rfl
@[simp] theorem State.stopAndReset_ififo (s : State) : (s.stopAndReset).ififo = s.ififo := rfl
@[simp] theorem State.stopAndReset_ofifo (s : State) : (s.stopAndReset).ofifo = s.ofifo := rfl
@[simp] theorem State.stopAndReset_din (s : State) : (s.stopAndReset).din = s.din.stop := rfl
@[simp] theorem State.stopAndReset_dout (s : State) : (s.stopAndReset).dout = s.dout.stop := rfl
@[simp] theorem State.stopAndReset_sb (s : State) : (s.stopAndReset).sb = s.sb := rfl
@[simp] theorem State.stopAndReset_response (s : State) : (s.stopAndReset).response = s.response := rfl
@[simp] theorem State.stopAndReset_trace (s : State) : (s.stopAndReset).trace = s.trace := rfl
@[simp] theorem State.stopAndReset_history (s : State) : (s.stopAndReset).history = s.history := rfl
@[simp] theorem State.stopAndReset_lastEvent (s : State) : (s.stopAndReset).lastEvent = s.lastEvent := rfl
@[simp] theorem State.stopAndReset_tailFed (s : State) : (s.stopAndReset).tailFed = s.tailFed := rfl
@[simp] theorem State.stopAndReset_draws (s : State) : (s.stopAndReset).draws = s.draws := rfl
@[simp] theorem State.stopAndReset_host (s : State) : (s.stopAndReset).host = s.host := rfl
@[simp] theorem State.stopAndReset_inputs (s : State) : (s.stopAndReset).inputs = s.inputs := rfl

/-! ## `State.takeTransferError` -/

@[simp] theorem State.takeTransferError_cfg (s : State) : (s.takeTransferError).cfg = s.cfg := rfl
@[simp] theorem State.takeTransferError_hspec (s : State) : (s.takeTransferError).hspec = s.hspec := rfl
@[simp] theorem State.takeTransferError_hct (s : State) : (s.takeTransferError).hct = s.hct := rfl
@[simp] theorem State.takeTransferError_baseline (s : State) : (s.takeTransferError).baseline = s.baseline := rfl
@[simp] theorem State.takeTransferError_fsm (s : State) : (s.takeTransferError).fsm = .idle := rfl
@[simp] theorem State.takeTransferError_ctx (s : State) : (s.takeTransferError).ctx = s.ctx.idleDefaults := rfl
@[simp] theorem State.takeTransferError_cr (s : State) : (s.takeTransferError).cr = .reset := rfl
@[simp] theorem State.takeTransferError_sr (s : State) : (s.takeTransferError).sr = .reset := rfl
@[simp] theorem State.takeTransferError_desc (s : State) : (s.takeTransferError).desc = s.desc := rfl
@[simp] theorem State.takeTransferError_info (s : State) : (s.takeTransferError).info = s.info := rfl
@[simp] theorem State.takeTransferError_lastError (s : State) : (s.takeTransferError).lastError = 0x06#8 := rfl
@[simp] theorem State.takeTransferError_hdr (s : State) : (s.takeTransferError).hdr = s.hdr := rfl
@[simp] theorem State.takeTransferError_prgRaw (s : State) : (s.takeTransferError).prgRaw = s.prgRaw := rfl
@[simp] theorem State.takeTransferError_prgEnc (s : State) : (s.takeTransferError).prgEnc = s.prgEnc := rfl
@[simp] theorem State.takeTransferError_tmem (s : State) : (s.takeTransferError).tmem = s.tmem := rfl
@[simp] theorem State.takeTransferError_qmem (s : State) : (s.takeTransferError).qmem = s.qmem := rfl
@[simp] theorem State.takeTransferError_hmem (s : State) : (s.takeTransferError).hmem = s.hmem := rfl
@[simp] theorem State.takeTransferError_ififo (s : State) : (s.takeTransferError).ififo = s.ififo := rfl
@[simp] theorem State.takeTransferError_ofifo (s : State) : (s.takeTransferError).ofifo = s.ofifo := rfl
@[simp] theorem State.takeTransferError_din (s : State) : (s.takeTransferError).din = s.din.stop := rfl
@[simp] theorem State.takeTransferError_dout (s : State) : (s.takeTransferError).dout = s.dout.stop := rfl
@[simp] theorem State.takeTransferError_sb (s : State) : (s.takeTransferError).sb = s.sb := rfl
@[simp] theorem State.takeTransferError_response (s : State) : (s.takeTransferError).response = s.response := rfl
@[simp] theorem State.takeTransferError_trace (s : State) : (s.takeTransferError).trace = s.trace := rfl
@[simp] theorem State.takeTransferError_history (s : State) : (s.takeTransferError).history = s.history := rfl
@[simp] theorem State.takeTransferError_lastEvent (s : State) : (s.takeTransferError).lastEvent = s.lastEvent := rfl
@[simp] theorem State.takeTransferError_tailFed (s : State) : (s.takeTransferError).tailFed = s.tailFed := rfl
@[simp] theorem State.takeTransferError_draws (s : State) : (s.takeTransferError).draws = s.draws := rfl
@[simp] theorem State.takeTransferError_host (s : State) : (s.takeTransferError).host = s.host := rfl
@[simp] theorem State.takeTransferError_inputs (s : State) : (s.takeTransferError).inputs = s.inputs := rfl

/-! ## `State.pauseInput` -/

@[simp] theorem State.pauseInput_cfg (s : State) : (s.pauseInput).cfg = s.cfg := rfl
@[simp] theorem State.pauseInput_hspec (s : State) : (s.pauseInput).hspec = s.hspec := rfl
@[simp] theorem State.pauseInput_hct (s : State) : (s.pauseInput).hct = s.hct := rfl
@[simp] theorem State.pauseInput_baseline (s : State) : (s.pauseInput).baseline = s.baseline := rfl
@[simp] theorem State.pauseInput_fsm (s : State) : (s.pauseInput).fsm = s.fsm := rfl
@[simp] theorem State.pauseInput_ctx (s : State) : (s.pauseInput).ctx = { s.ctx with pauseIn := true } := rfl
@[simp] theorem State.pauseInput_cr (s : State) :
    (s.pauseInput).cr =
      if s.ctx.fifoMethod then { s.cr with ieIft := false, ieIfnf := false } else s.cr := rfl
@[simp] theorem State.pauseInput_sr (s : State) : (s.pauseInput).sr = s.sr := rfl
@[simp] theorem State.pauseInput_desc (s : State) : (s.pauseInput).desc = s.desc := rfl
@[simp] theorem State.pauseInput_info (s : State) : (s.pauseInput).info = s.info := rfl
@[simp] theorem State.pauseInput_lastError (s : State) : (s.pauseInput).lastError = s.lastError := rfl
@[simp] theorem State.pauseInput_hdr (s : State) : (s.pauseInput).hdr = s.hdr := rfl
@[simp] theorem State.pauseInput_prgRaw (s : State) : (s.pauseInput).prgRaw = s.prgRaw := rfl
@[simp] theorem State.pauseInput_prgEnc (s : State) : (s.pauseInput).prgEnc = s.prgEnc := rfl
@[simp] theorem State.pauseInput_tmem (s : State) : (s.pauseInput).tmem = s.tmem := rfl
@[simp] theorem State.pauseInput_qmem (s : State) : (s.pauseInput).qmem = s.qmem := rfl
@[simp] theorem State.pauseInput_hmem (s : State) : (s.pauseInput).hmem = s.hmem := rfl
@[simp] theorem State.pauseInput_ififo (s : State) : (s.pauseInput).ififo = s.ififo := rfl
@[simp] theorem State.pauseInput_ofifo (s : State) : (s.pauseInput).ofifo = s.ofifo := rfl
@[simp] theorem State.pauseInput_din (s : State) : (s.pauseInput).din = s.din := rfl
@[simp] theorem State.pauseInput_dout (s : State) : (s.pauseInput).dout = s.dout := rfl
@[simp] theorem State.pauseInput_sb (s : State) : (s.pauseInput).sb = s.sb := rfl
@[simp] theorem State.pauseInput_response (s : State) : (s.pauseInput).response = s.response := rfl
@[simp] theorem State.pauseInput_trace (s : State) : (s.pauseInput).trace = s.trace := rfl
@[simp] theorem State.pauseInput_history (s : State) : (s.pauseInput).history = s.history := rfl
@[simp] theorem State.pauseInput_lastEvent (s : State) : (s.pauseInput).lastEvent = s.lastEvent := rfl
@[simp] theorem State.pauseInput_tailFed (s : State) : (s.pauseInput).tailFed = s.tailFed := rfl
@[simp] theorem State.pauseInput_draws (s : State) : (s.pauseInput).draws = s.draws := rfl
@[simp] theorem State.pauseInput_host (s : State) : (s.pauseInput).host = s.host := rfl
@[simp] theorem State.pauseInput_inputs (s : State) : (s.pauseInput).inputs = s.inputs := rfl

/-! ## `State.pauseOutput` -/

@[simp] theorem State.pauseOutput_cfg (s : State) : (s.pauseOutput).cfg = s.cfg := rfl
@[simp] theorem State.pauseOutput_hspec (s : State) : (s.pauseOutput).hspec = s.hspec := rfl
@[simp] theorem State.pauseOutput_hct (s : State) : (s.pauseOutput).hct = s.hct := rfl
@[simp] theorem State.pauseOutput_baseline (s : State) : (s.pauseOutput).baseline = s.baseline := rfl
@[simp] theorem State.pauseOutput_fsm (s : State) : (s.pauseOutput).fsm = s.fsm := rfl
@[simp] theorem State.pauseOutput_ctx (s : State) : (s.pauseOutput).ctx = { s.ctx with pauseOut := true } := rfl
@[simp] theorem State.pauseOutput_cr (s : State) :
    (s.pauseOutput).cr =
      if s.ctx.fifoMethod then { s.cr with ieOft := false, ieOfne := false, ieEoc := false } else s.cr := rfl
@[simp] theorem State.pauseOutput_sr (s : State) : (s.pauseOutput).sr = s.sr := rfl
@[simp] theorem State.pauseOutput_desc (s : State) : (s.pauseOutput).desc = s.desc := rfl
@[simp] theorem State.pauseOutput_info (s : State) : (s.pauseOutput).info = s.info := rfl
@[simp] theorem State.pauseOutput_lastError (s : State) : (s.pauseOutput).lastError = s.lastError := rfl
@[simp] theorem State.pauseOutput_hdr (s : State) : (s.pauseOutput).hdr = s.hdr := rfl
@[simp] theorem State.pauseOutput_prgRaw (s : State) : (s.pauseOutput).prgRaw = s.prgRaw := rfl
@[simp] theorem State.pauseOutput_prgEnc (s : State) : (s.pauseOutput).prgEnc = s.prgEnc := rfl
@[simp] theorem State.pauseOutput_tmem (s : State) : (s.pauseOutput).tmem = s.tmem := rfl
@[simp] theorem State.pauseOutput_qmem (s : State) : (s.pauseOutput).qmem = s.qmem := rfl
@[simp] theorem State.pauseOutput_hmem (s : State) : (s.pauseOutput).hmem = s.hmem := rfl
@[simp] theorem State.pauseOutput_ififo (s : State) : (s.pauseOutput).ififo = s.ififo := rfl
@[simp] theorem State.pauseOutput_ofifo (s : State) : (s.pauseOutput).ofifo = s.ofifo := rfl
@[simp] theorem State.pauseOutput_din (s : State) : (s.pauseOutput).din = s.din := rfl
@[simp] theorem State.pauseOutput_dout (s : State) : (s.pauseOutput).dout = s.dout := rfl
@[simp] theorem State.pauseOutput_sb (s : State) : (s.pauseOutput).sb = s.sb := rfl
@[simp] theorem State.pauseOutput_response (s : State) : (s.pauseOutput).response = s.response := rfl
@[simp] theorem State.pauseOutput_trace (s : State) : (s.pauseOutput).trace = s.trace := rfl
@[simp] theorem State.pauseOutput_history (s : State) : (s.pauseOutput).history = s.history := rfl
@[simp] theorem State.pauseOutput_lastEvent (s : State) : (s.pauseOutput).lastEvent = s.lastEvent := rfl
@[simp] theorem State.pauseOutput_tailFed (s : State) : (s.pauseOutput).tailFed = s.tailFed := rfl
@[simp] theorem State.pauseOutput_draws (s : State) : (s.pauseOutput).draws = s.draws := rfl
@[simp] theorem State.pauseOutput_host (s : State) : (s.pauseOutput).host = s.host := rfl
@[simp] theorem State.pauseOutput_inputs (s : State) : (s.pauseOutput).inputs = s.inputs := rfl

/-! ## `State.primeIn` -/

@[simp] theorem State.primeIn_cfg (s : State) : (s.primeIn).cfg = s.cfg := rfl
@[simp] theorem State.primeIn_hspec (s : State) : (s.primeIn).hspec = s.hspec := rfl
@[simp] theorem State.primeIn_hct (s : State) : (s.primeIn).hct = s.hct := rfl
@[simp] theorem State.primeIn_baseline (s : State) : (s.primeIn).baseline = s.baseline := rfl
@[simp] theorem State.primeIn_fsm (s : State) : (s.primeIn).fsm = s.fsm := rfl
@[simp] theorem State.primeIn_ctx (s : State) : (s.primeIn).ctx = s.ctx := rfl
@[simp] theorem State.primeIn_cr (s : State) : (s.primeIn).cr = s.cr := rfl
@[simp] theorem State.primeIn_sr (s : State) : (s.primeIn).sr = s.sr := rfl
@[simp] theorem State.primeIn_desc (s : State) : (s.primeIn).desc = s.desc := rfl
@[simp] theorem State.primeIn_info (s : State) : (s.primeIn).info = s.info := rfl
@[simp] theorem State.primeIn_lastError (s : State) : (s.primeIn).lastError = s.lastError := rfl
@[simp] theorem State.primeIn_hdr (s : State) : (s.primeIn).hdr = s.hdr := rfl
@[simp] theorem State.primeIn_prgRaw (s : State) : (s.primeIn).prgRaw = s.prgRaw := rfl
@[simp] theorem State.primeIn_prgEnc (s : State) : (s.primeIn).prgEnc = s.prgEnc := rfl
@[simp] theorem State.primeIn_tmem (s : State) : (s.primeIn).tmem = s.tmem := rfl
@[simp] theorem State.primeIn_qmem (s : State) : (s.primeIn).qmem = s.qmem := rfl
@[simp] theorem State.primeIn_hmem (s : State) : (s.primeIn).hmem = s.hmem := rfl
@[simp] theorem State.primeIn_ififo (s : State) : (s.primeIn).ififo = s.ififo := rfl
@[simp] theorem State.primeIn_ofifo (s : State) : (s.primeIn).ofifo = s.ofifo := rfl
@[simp] theorem State.primeIn_din (s : State) :
    (s.primeIn).din =
      { s.din with addr := s.desc.inAddr + s.desc.inOff, len := BitVec.ofNat 32 (primeLen (s.desc.inLen.toNat - s.desc.inOff.toNat) s.cfg.granIn), done := 0#32, busy := true } := rfl
@[simp] theorem State.primeIn_dout (s : State) : (s.primeIn).dout = s.dout := rfl
@[simp] theorem State.primeIn_sb (s : State) : (s.primeIn).sb = s.sb := rfl
@[simp] theorem State.primeIn_response (s : State) : (s.primeIn).response = s.response := rfl
@[simp] theorem State.primeIn_trace (s : State) : (s.primeIn).trace = s.trace := rfl
@[simp] theorem State.primeIn_history (s : State) : (s.primeIn).history = s.history := rfl
@[simp] theorem State.primeIn_lastEvent (s : State) : (s.primeIn).lastEvent = s.lastEvent := rfl
@[simp] theorem State.primeIn_tailFed (s : State) : (s.primeIn).tailFed = s.tailFed := rfl
@[simp] theorem State.primeIn_draws (s : State) : (s.primeIn).draws = s.draws := rfl
@[simp] theorem State.primeIn_host (s : State) : (s.primeIn).host = s.host := rfl
@[simp] theorem State.primeIn_inputs (s : State) : (s.primeIn).inputs = s.inputs := rfl

/-! ## `State.primeOut` -/

@[simp] theorem State.primeOut_cfg (s : State) : (s.primeOut).cfg = s.cfg := rfl
@[simp] theorem State.primeOut_hspec (s : State) : (s.primeOut).hspec = s.hspec := rfl
@[simp] theorem State.primeOut_hct (s : State) : (s.primeOut).hct = s.hct := rfl
@[simp] theorem State.primeOut_baseline (s : State) : (s.primeOut).baseline = s.baseline := rfl
@[simp] theorem State.primeOut_fsm (s : State) : (s.primeOut).fsm = s.fsm := rfl
@[simp] theorem State.primeOut_ctx (s : State) : (s.primeOut).ctx = s.ctx := rfl
@[simp] theorem State.primeOut_cr (s : State) : (s.primeOut).cr = s.cr := rfl
@[simp] theorem State.primeOut_sr (s : State) : (s.primeOut).sr = s.sr := rfl
@[simp] theorem State.primeOut_desc (s : State) : (s.primeOut).desc = s.desc := rfl
@[simp] theorem State.primeOut_info (s : State) : (s.primeOut).info = s.info := rfl
@[simp] theorem State.primeOut_lastError (s : State) : (s.primeOut).lastError = s.lastError := rfl
@[simp] theorem State.primeOut_hdr (s : State) : (s.primeOut).hdr = s.hdr := rfl
@[simp] theorem State.primeOut_prgRaw (s : State) : (s.primeOut).prgRaw = s.prgRaw := rfl
@[simp] theorem State.primeOut_prgEnc (s : State) : (s.primeOut).prgEnc = s.prgEnc := rfl
@[simp] theorem State.primeOut_tmem (s : State) : (s.primeOut).tmem = s.tmem := rfl
@[simp] theorem State.primeOut_qmem (s : State) : (s.primeOut).qmem = s.qmem := rfl
@[simp] theorem State.primeOut_hmem (s : State) : (s.primeOut).hmem = s.hmem := rfl
@[simp] theorem State.primeOut_ififo (s : State) : (s.primeOut).ififo = s.ififo := rfl
@[simp] theorem State.primeOut_ofifo (s : State) : (s.primeOut).ofifo = s.ofifo := rfl
@[simp] theorem State.primeOut_din (s : State) : (s.primeOut).din = s.din := rfl
@[simp] theorem State.primeOut_dout (s : State) :
    (s.primeOut).dout =
      { s.dout with addr := s.desc.outAddr, len := BitVec.ofNat 32 (roundDown s.desc.outLen.toNat s.cfg.granOut), done := 0#32, busy := true } := rfl
@[simp] theorem State.primeOut_sb (s : State) : (s.primeOut).sb = s.sb := rfl
@[simp] theorem State.primeOut_response (s : State) : (s.primeOut).response = s.response := rfl
@[simp] theorem State.primeOut_trace (s : State) : (s.primeOut).trace = s.trace := rfl
@[simp] theorem State.primeOut_history (s : State) : (s.primeOut).history = s.history := rfl
@[simp] theorem State.primeOut_lastEvent (s : State) : (s.primeOut).lastEvent = s.lastEvent := rfl
@[simp] theorem State.primeOut_tailFed (s : State) : (s.primeOut).tailFed = s.tailFed := rfl
@[simp] theorem State.primeOut_draws (s : State) : (s.primeOut).draws = s.draws := rfl
@[simp] theorem State.primeOut_host (s : State) : (s.primeOut).host = s.host := rfl
@[simp] theorem State.primeOut_inputs (s : State) : (s.primeOut).inputs = s.inputs := rfl

/-! ## `State.enterConfiguring` -/

@[simp] theorem State.enterConfiguring_cfg (s : State) : (s.enterConfiguring).cfg = s.cfg := rfl
@[simp] theorem State.enterConfiguring_hspec (s : State) : (s.enterConfiguring).hspec = s.hspec := rfl
@[simp] theorem State.enterConfiguring_hct (s : State) : (s.enterConfiguring).hct = s.hct := rfl
@[simp] theorem State.enterConfiguring_baseline (s : State) : (s.enterConfiguring).baseline = s.baseline := rfl
@[simp] theorem State.enterConfiguring_fsm (s : State) : (s.enterConfiguring).fsm = .configuring := rfl
@[simp] theorem State.enterConfiguring_ctx (s : State) : (s.enterConfiguring).ctx = s.ctx := rfl
@[simp] theorem State.enterConfiguring_cr (s : State) : (s.enterConfiguring).cr = s.cr := rfl
@[simp] theorem State.enterConfiguring_sr (s : State) : (s.enterConfiguring).sr = s.sr := rfl
@[simp] theorem State.enterConfiguring_desc (s : State) : (s.enterConfiguring).desc = s.desc := rfl
@[simp] theorem State.enterConfiguring_info (s : State) : (s.enterConfiguring).info = s.info := rfl
@[simp] theorem State.enterConfiguring_lastError (s : State) : (s.enterConfiguring).lastError = s.lastError := rfl
@[simp] theorem State.enterConfiguring_hdr (s : State) : (s.enterConfiguring).hdr = s.hdr := rfl
@[simp] theorem State.enterConfiguring_prgRaw (s : State) : (s.enterConfiguring).prgRaw = s.prgRaw := rfl
@[simp] theorem State.enterConfiguring_prgEnc (s : State) : (s.enterConfiguring).prgEnc = s.prgEnc := rfl
@[simp] theorem State.enterConfiguring_tmem (s : State) : (s.enterConfiguring).tmem = s.tmem := rfl
@[simp] theorem State.enterConfiguring_qmem (s : State) : (s.enterConfiguring).qmem = s.qmem := rfl
@[simp] theorem State.enterConfiguring_hmem (s : State) : (s.enterConfiguring).hmem = s.hmem := rfl
@[simp] theorem State.enterConfiguring_ififo (s : State) : (s.enterConfiguring).ififo = s.ififo := rfl
@[simp] theorem State.enterConfiguring_ofifo (s : State) : (s.enterConfiguring).ofifo = s.ofifo := rfl
@[simp] theorem State.enterConfiguring_din (s : State) : (s.enterConfiguring).din = s.din := rfl
@[simp] theorem State.enterConfiguring_dout (s : State) : (s.enterConfiguring).dout = s.dout := rfl
@[simp] theorem State.enterConfiguring_sb (s : State) : (s.enterConfiguring).sb = s.sb := rfl
@[simp] theorem State.enterConfiguring_response (s : State) : (s.enterConfiguring).response = s.response := rfl
@[simp] theorem State.enterConfiguring_trace (s : State) : (s.enterConfiguring).trace = s.trace := rfl
@[simp] theorem State.enterConfiguring_history (s : State) : (s.enterConfiguring).history = s.history := rfl
@[simp] theorem State.enterConfiguring_lastEvent (s : State) : (s.enterConfiguring).lastEvent = s.lastEvent := rfl
@[simp] theorem State.enterConfiguring_tailFed (s : State) : (s.enterConfiguring).tailFed = s.tailFed := rfl
@[simp] theorem State.enterConfiguring_draws (s : State) : (s.enterConfiguring).draws = s.draws := rfl
@[simp] theorem State.enterConfiguring_host (s : State) : (s.enterConfiguring).host = s.host := rfl
@[simp] theorem State.enterConfiguring_inputs (s : State) : (s.enterConfiguring).inputs = s.inputs := rfl

/-! ## `State.leaveConfiguring` -/

@[simp] theorem State.leaveConfiguring_cfg (s : State) : (s.leaveConfiguring).cfg = s.cfg := rfl
@[simp] theorem State.leaveConfiguring_hspec (s : State) : (s.leaveConfiguring).hspec = s.hspec := rfl
@[simp] theorem State.leaveConfiguring_hct (s : State) : (s.leaveConfiguring).hct = s.hct := rfl
@[simp] theorem State.leaveConfiguring_baseline (s : State) : (s.leaveConfiguring).baseline = s.baseline := rfl
@[simp] theorem State.leaveConfiguring_fsm (s : State) : (s.leaveConfiguring).fsm = .idle := rfl
@[simp] theorem State.leaveConfiguring_ctx (s : State) : (s.leaveConfiguring).ctx = s.ctx := rfl
@[simp] theorem State.leaveConfiguring_cr (s : State) : (s.leaveConfiguring).cr = s.cr := rfl
@[simp] theorem State.leaveConfiguring_sr (s : State) : (s.leaveConfiguring).sr = s.sr := rfl
@[simp] theorem State.leaveConfiguring_desc (s : State) : (s.leaveConfiguring).desc = s.desc := rfl
@[simp] theorem State.leaveConfiguring_info (s : State) : (s.leaveConfiguring).info = s.info := rfl
@[simp] theorem State.leaveConfiguring_lastError (s : State) : (s.leaveConfiguring).lastError = s.lastError := rfl
@[simp] theorem State.leaveConfiguring_hdr (s : State) : (s.leaveConfiguring).hdr = s.hdr := rfl
@[simp] theorem State.leaveConfiguring_prgRaw (s : State) : (s.leaveConfiguring).prgRaw = s.prgRaw := rfl
@[simp] theorem State.leaveConfiguring_prgEnc (s : State) : (s.leaveConfiguring).prgEnc = s.prgEnc := rfl
@[simp] theorem State.leaveConfiguring_tmem (s : State) : (s.leaveConfiguring).tmem = s.tmem := rfl
@[simp] theorem State.leaveConfiguring_qmem (s : State) : (s.leaveConfiguring).qmem = s.qmem := rfl
@[simp] theorem State.leaveConfiguring_hmem (s : State) : (s.leaveConfiguring).hmem = s.hmem := rfl
@[simp] theorem State.leaveConfiguring_ififo (s : State) : (s.leaveConfiguring).ififo = s.ififo := rfl
@[simp] theorem State.leaveConfiguring_ofifo (s : State) : (s.leaveConfiguring).ofifo = s.ofifo := rfl
@[simp] theorem State.leaveConfiguring_din (s : State) : (s.leaveConfiguring).din = s.din := rfl
@[simp] theorem State.leaveConfiguring_dout (s : State) : (s.leaveConfiguring).dout = s.dout := rfl
@[simp] theorem State.leaveConfiguring_sb (s : State) : (s.leaveConfiguring).sb = s.sb := rfl
@[simp] theorem State.leaveConfiguring_response (s : State) : (s.leaveConfiguring).response = s.response := rfl
@[simp] theorem State.leaveConfiguring_trace (s : State) : (s.leaveConfiguring).trace = s.trace := rfl
@[simp] theorem State.leaveConfiguring_history (s : State) : (s.leaveConfiguring).history = s.history := rfl
@[simp] theorem State.leaveConfiguring_lastEvent (s : State) : (s.leaveConfiguring).lastEvent = s.lastEvent := rfl
@[simp] theorem State.leaveConfiguring_tailFed (s : State) : (s.leaveConfiguring).tailFed = s.tailFed := rfl
@[simp] theorem State.leaveConfiguring_draws (s : State) : (s.leaveConfiguring).draws = s.draws := rfl
@[simp] theorem State.leaveConfiguring_host (s : State) : (s.leaveConfiguring).host = s.host := rfl
@[simp] theorem State.leaveConfiguring_inputs (s : State) : (s.leaveConfiguring).inputs = s.inputs := rfl

/-! ## `State.refreshCfgHuff` -/

@[simp] theorem State.refreshCfgHuff_cfg (s : State) : (s.refreshCfgHuff).cfg = s.cfg := rfl
@[simp] theorem State.refreshCfgHuff_hspec (s : State) : (s.refreshCfgHuff).hspec = s.hspec := rfl
@[simp] theorem State.refreshCfgHuff_hct (s : State) : (s.refreshCfgHuff).hct = s.hct := rfl
@[simp] theorem State.refreshCfgHuff_baseline (s : State) : (s.refreshCfgHuff).baseline = s.baseline := rfl
@[simp] theorem State.refreshCfgHuff_fsm (s : State) : (s.refreshCfgHuff).fsm = s.fsm := rfl
@[simp] theorem State.refreshCfgHuff_ctx (s : State) :
    (s.refreshCfgHuff).ctx =
      { s.ctx with cfgHuff := s.prgRaw.all && s.prgEnc.all } := rfl
@[simp] theorem State.refreshCfgHuff_cr (s : State) : (s.refreshCfgHuff).cr = s.cr := rfl
@[simp] theorem State.refreshCfgHuff_sr (s : State) : (s.refreshCfgHuff).sr = s.sr := rfl
@[simp] theorem State.refreshCfgHuff_desc (s : State) : (s.refreshCfgHuff).desc = s.desc := rfl
@[simp] theorem State.refreshCfgHuff_info (s : State) : (s.refreshCfgHuff).info = s.info := rfl
@[simp] theorem State.refreshCfgHuff_lastError (s : State) : (s.refreshCfgHuff).lastError = s.lastError := rfl
@[simp] theorem State.refreshCfgHuff_hdr (s : State) : (s.refreshCfgHuff).hdr = s.hdr := rfl
@[simp] theorem State.refreshCfgHuff_prgRaw (s : State) : (s.refreshCfgHuff).prgRaw = s.prgRaw := rfl
@[simp] theorem State.refreshCfgHuff_prgEnc (s : State) : (s.refreshCfgHuff).prgEnc = s.prgEnc := rfl
@[simp] theorem State.refreshCfgHuff_tmem (s : State) : (s.refreshCfgHuff).tmem = s.tmem := rfl
@[simp] theorem State.refreshCfgHuff_qmem (s : State) : (s.refreshCfgHuff).qmem = s.qmem := rfl
@[simp] theorem State.refreshCfgHuff_hmem (s : State) : (s.refreshCfgHuff).hmem = s.hmem := rfl
@[simp] theorem State.refreshCfgHuff_ififo (s : State) : (s.refreshCfgHuff).ififo = s.ififo := rfl
@[simp] theorem State.refreshCfgHuff_ofifo (s : State) : (s.refreshCfgHuff).ofifo = s.ofifo := rfl
@[simp] theorem State.refreshCfgHuff_din (s : State) : (s.refreshCfgHuff).din = s.din := rfl
@[simp] theorem State.refreshCfgHuff_dout (s : State) : (s.refreshCfgHuff).dout = s.dout := rfl
@[simp] theorem State.refreshCfgHuff_sb (s : State) : (s.refreshCfgHuff).sb = s.sb := rfl
@[simp] theorem State.refreshCfgHuff_response (s : State) : (s.refreshCfgHuff).response = s.response := rfl
@[simp] theorem State.refreshCfgHuff_trace (s : State) : (s.refreshCfgHuff).trace = s.trace := rfl
@[simp] theorem State.refreshCfgHuff_history (s : State) : (s.refreshCfgHuff).history = s.history := rfl
@[simp] theorem State.refreshCfgHuff_lastEvent (s : State) : (s.refreshCfgHuff).lastEvent = s.lastEvent := rfl
@[simp] theorem State.refreshCfgHuff_tailFed (s : State) : (s.refreshCfgHuff).tailFed = s.tailFed := rfl
@[simp] theorem State.refreshCfgHuff_draws (s : State) : (s.refreshCfgHuff).draws = s.draws := rfl
@[simp] theorem State.refreshCfgHuff_host (s : State) : (s.refreshCfgHuff).host = s.host := rfl
@[simp] theorem State.refreshCfgHuff_inputs (s : State) : (s.refreshCfgHuff).inputs = s.inputs := rfl

/-! ## `State.drew` -/

@[simp] theorem State.drew_cfg (s : State) (n : Nat) : (s.drew n).cfg = s.cfg := rfl
@[simp] theorem State.drew_hspec (s : State) (n : Nat) : (s.drew n).hspec = s.hspec := rfl
@[simp] theorem State.drew_hct (s : State) (n : Nat) : (s.drew n).hct = s.hct := rfl
@[simp] theorem State.drew_baseline (s : State) (n : Nat) : (s.drew n).baseline = s.baseline := rfl
@[simp] theorem State.drew_fsm (s : State) (n : Nat) : (s.drew n).fsm = s.fsm := rfl
@[simp] theorem State.drew_ctx (s : State) (n : Nat) : (s.drew n).ctx = s.ctx := rfl
@[simp] theorem State.drew_cr (s : State) (n : Nat) : (s.drew n).cr = s.cr := rfl
@[simp] theorem State.drew_sr (s : State) (n : Nat) : (s.drew n).sr = s.sr := rfl
@[simp] theorem State.drew_desc (s : State) (n : Nat) : (s.drew n).desc = s.desc := rfl
@[simp] theorem State.drew_info (s : State) (n : Nat) : (s.drew n).info = s.info := rfl
@[simp] theorem State.drew_lastError (s : State) (n : Nat) : (s.drew n).lastError = s.lastError := rfl
@[simp] theorem State.drew_hdr (s : State) (n : Nat) : (s.drew n).hdr = s.hdr := rfl
@[simp] theorem State.drew_prgRaw (s : State) (n : Nat) : (s.drew n).prgRaw = s.prgRaw := rfl
@[simp] theorem State.drew_prgEnc (s : State) (n : Nat) : (s.drew n).prgEnc = s.prgEnc := rfl
@[simp] theorem State.drew_tmem (s : State) (n : Nat) : (s.drew n).tmem = s.tmem := rfl
@[simp] theorem State.drew_qmem (s : State) (n : Nat) : (s.drew n).qmem = s.qmem := rfl
@[simp] theorem State.drew_hmem (s : State) (n : Nat) : (s.drew n).hmem = s.hmem := rfl
@[simp] theorem State.drew_ififo (s : State) (n : Nat) : (s.drew n).ififo = s.ififo := rfl
@[simp] theorem State.drew_ofifo (s : State) (n : Nat) : (s.drew n).ofifo = s.ofifo := rfl
@[simp] theorem State.drew_din (s : State) (n : Nat) : (s.drew n).din = s.din := rfl
@[simp] theorem State.drew_dout (s : State) (n : Nat) : (s.drew n).dout = s.dout := rfl
@[simp] theorem State.drew_sb (s : State) (n : Nat) : (s.drew n).sb = s.sb := rfl
@[simp] theorem State.drew_response (s : State) (n : Nat) : (s.drew n).response = s.response := rfl
@[simp] theorem State.drew_trace (s : State) (n : Nat) : (s.drew n).trace = s.trace := rfl
@[simp] theorem State.drew_history (s : State) (n : Nat) : (s.drew n).history = s.history := rfl
@[simp] theorem State.drew_lastEvent (s : State) (n : Nat) : (s.drew n).lastEvent = s.lastEvent := rfl
@[simp] theorem State.drew_tailFed (s : State) (n : Nat) : (s.drew n).tailFed = s.tailFed := rfl
@[simp] theorem State.drew_draws (s : State) (n : Nat) : (s.drew n).draws = s.draws + n := rfl
@[simp] theorem State.drew_host (s : State) (n : Nat) : (s.drew n).host = s.host := rfl
@[simp] theorem State.drew_inputs (s : State) (n : Nat) : (s.drew n).inputs = s.inputs := rfl

/-! ## `State.endJob` -/

@[simp] theorem State.endJob_cfg (s : State) : (s.endJob).cfg = s.cfg := rfl
@[simp] theorem State.endJob_hspec (s : State) : (s.endJob).hspec = s.hspec := rfl
@[simp] theorem State.endJob_hct (s : State) : (s.endJob).hct = s.hct := rfl
@[simp] theorem State.endJob_baseline (s : State) : (s.endJob).baseline = s.baseline := rfl
@[simp] theorem State.endJob_fsm (s : State) : (s.endJob).fsm = .idle := rfl
@[simp] theorem State.endJob_ctx (s : State) : (s.endJob).ctx = s.ctx.idleDefaults := rfl
@[simp] theorem State.endJob_cr (s : State) : (s.endJob).cr = s.cr := rfl
@[simp] theorem State.endJob_sr (s : State) : (s.endJob).sr = { s.sr with eocf := false, hpdf := false } := rfl
@[simp] theorem State.endJob_desc (s : State) : (s.endJob).desc = s.desc := rfl
@[simp] theorem State.endJob_info (s : State) : (s.endJob).info = s.info := rfl
@[simp] theorem State.endJob_lastError (s : State) : (s.endJob).lastError = s.lastError := rfl
@[simp] theorem State.endJob_hdr (s : State) : (s.endJob).hdr = s.hdr := rfl
@[simp] theorem State.endJob_prgRaw (s : State) : (s.endJob).prgRaw = s.prgRaw := rfl
@[simp] theorem State.endJob_prgEnc (s : State) : (s.endJob).prgEnc = s.prgEnc := rfl
@[simp] theorem State.endJob_tmem (s : State) : (s.endJob).tmem = s.tmem := rfl
@[simp] theorem State.endJob_qmem (s : State) : (s.endJob).qmem = s.qmem := rfl
@[simp] theorem State.endJob_hmem (s : State) : (s.endJob).hmem = s.hmem := rfl
@[simp] theorem State.endJob_ififo (s : State) : (s.endJob).ififo = s.ififo := rfl
@[simp] theorem State.endJob_ofifo (s : State) : (s.endJob).ofifo = s.ofifo := rfl
@[simp] theorem State.endJob_din (s : State) : (s.endJob).din = s.din.complete := rfl
@[simp] theorem State.endJob_dout (s : State) : (s.endJob).dout = s.dout.complete := rfl
@[simp] theorem State.endJob_sb (s : State) : (s.endJob).sb = s.sb := rfl
@[simp] theorem State.endJob_response (s : State) : (s.endJob).response = s.response := rfl
@[simp] theorem State.endJob_trace (s : State) : (s.endJob).trace = s.trace := rfl
@[simp] theorem State.endJob_history (s : State) : (s.endJob).history = s.history := rfl
@[simp] theorem State.endJob_lastEvent (s : State) : (s.endJob).lastEvent = s.lastEvent := rfl
@[simp] theorem State.endJob_tailFed (s : State) : (s.endJob).tailFed = s.tailFed := rfl
@[simp] theorem State.endJob_draws (s : State) : (s.endJob).draws = s.draws := rfl
@[simp] theorem State.endJob_host (s : State) : (s.endJob).host = s.host := rfl
@[simp] theorem State.endJob_inputs (s : State) : (s.endJob).inputs = s.inputs := rfl

/-! ## `State.stopSources` -/

@[simp] theorem State.stopSources_cfg (s : State) : (s.stopSources).cfg = s.cfg := rfl
@[simp] theorem State.stopSources_hspec (s : State) : (s.stopSources).hspec = s.hspec := rfl
@[simp] theorem State.stopSources_hct (s : State) : (s.stopSources).hct = s.hct := rfl
@[simp] theorem State.stopSources_baseline (s : State) : (s.stopSources).baseline = s.baseline := rfl
@[simp] theorem State.stopSources_fsm (s : State) : (s.stopSources).fsm = .draining := rfl
@[simp] theorem State.stopSources_ctx (s : State) : (s.stopSources).ctx = { s.ctx with ending := true } := rfl
@[simp] theorem State.stopSources_cr (s : State) : (s.stopSources).cr = .reset := rfl
@[simp] theorem State.stopSources_sr (s : State) : (s.stopSources).sr = s.sr := rfl
@[simp] theorem State.stopSources_desc (s : State) : (s.stopSources).desc = s.desc := rfl
@[simp] theorem State.stopSources_info (s : State) : (s.stopSources).info = s.info := rfl
@[simp] theorem State.stopSources_lastError (s : State) : (s.stopSources).lastError = s.lastError := rfl
@[simp] theorem State.stopSources_hdr (s : State) : (s.stopSources).hdr = s.hdr := rfl
@[simp] theorem State.stopSources_prgRaw (s : State) : (s.stopSources).prgRaw = s.prgRaw := rfl
@[simp] theorem State.stopSources_prgEnc (s : State) : (s.stopSources).prgEnc = s.prgEnc := rfl
@[simp] theorem State.stopSources_tmem (s : State) : (s.stopSources).tmem = s.tmem := rfl
@[simp] theorem State.stopSources_qmem (s : State) : (s.stopSources).qmem = s.qmem := rfl
@[simp] theorem State.stopSources_hmem (s : State) : (s.stopSources).hmem = s.hmem := rfl
@[simp] theorem State.stopSources_ififo (s : State) : (s.stopSources).ififo = s.ififo := rfl
@[simp] theorem State.stopSources_ofifo (s : State) : (s.stopSources).ofifo = s.ofifo := rfl
@[simp] theorem State.stopSources_din (s : State) : (s.stopSources).din = s.din := rfl
@[simp] theorem State.stopSources_dout (s : State) : (s.stopSources).dout = s.dout := rfl
@[simp] theorem State.stopSources_sb (s : State) : (s.stopSources).sb = s.sb := rfl
@[simp] theorem State.stopSources_response (s : State) : (s.stopSources).response = s.response := rfl
@[simp] theorem State.stopSources_trace (s : State) : (s.stopSources).trace = s.trace := rfl
@[simp] theorem State.stopSources_history (s : State) : (s.stopSources).history = s.history := rfl
@[simp] theorem State.stopSources_lastEvent (s : State) : (s.stopSources).lastEvent = s.lastEvent := rfl
@[simp] theorem State.stopSources_tailFed (s : State) : (s.stopSources).tailFed = s.tailFed := rfl
@[simp] theorem State.stopSources_draws (s : State) : (s.stopSources).draws = s.draws := rfl
@[simp] theorem State.stopSources_host (s : State) : (s.stopSources).host = s.host := rfl
@[simp] theorem State.stopSources_inputs (s : State) : (s.stopSources).inputs = s.inputs := rfl

/-! ## `State.withHct` -/

@[simp] theorem State.withHct_cfg (s : State) (k : Slot) (t : HuffTable) (n : Nat) :
    (s.withHct k t n).cfg =
      s.cfg := rfl
@[simp] theorem State.withHct_hspec (s : State) (k : Slot) (t : HuffTable) (n : Nat) :
    (s.withHct k t n).hspec =
      s.hspec := rfl
@[simp] theorem State.withHct_hct (s : State) (k : Slot) (t : HuffTable) (n : Nat) :
    (s.withHct k t n).hct =
      s.hct.set k t := rfl
@[simp] theorem State.withHct_baseline (s : State) (k : Slot) (t : HuffTable) (n : Nat) :
    (s.withHct k t n).baseline =
      s.baseline := rfl
@[simp] theorem State.withHct_fsm (s : State) (k : Slot) (t : HuffTable) (n : Nat) :
    (s.withHct k t n).fsm =
      s.fsm := rfl
@[simp] theorem State.withHct_ctx (s : State) (k : Slot) (t : HuffTable) (n : Nat) :
    (s.withHct k t n).ctx =
      s.ctx := rfl
@[simp] theorem State.withHct_cr (s : State) (k : Slot) (t : HuffTable) (n : Nat) : (s.withHct k t n).cr = s.cr := rfl
@[simp] theorem State.withHct_sr (s : State) (k : Slot) (t : HuffTable) (n : Nat) : (s.withHct k t n).sr = s.sr := rfl
@[simp] theorem State.withHct_desc (s : State) (k : Slot) (t : HuffTable) (n : Nat) :
    (s.withHct k t n).desc =
      s.desc := rfl
@[simp] theorem State.withHct_info (s : State) (k : Slot) (t : HuffTable) (n : Nat) :
    (s.withHct k t n).info =
      s.info := rfl
@[simp] theorem State.withHct_lastError (s : State) (k : Slot) (t : HuffTable) (n : Nat) :
    (s.withHct k t n).lastError =
      s.lastError := rfl
@[simp] theorem State.withHct_hdr (s : State) (k : Slot) (t : HuffTable) (n : Nat) :
    (s.withHct k t n).hdr =
      s.hdr := rfl
@[simp] theorem State.withHct_prgRaw (s : State) (k : Slot) (t : HuffTable) (n : Nat) :
    (s.withHct k t n).prgRaw =
      s.prgRaw := rfl
@[simp] theorem State.withHct_prgEnc (s : State) (k : Slot) (t : HuffTable) (n : Nat) :
    (s.withHct k t n).prgEnc =
      s.prgEnc := rfl
@[simp] theorem State.withHct_tmem (s : State) (k : Slot) (t : HuffTable) (n : Nat) :
    (s.withHct k t n).tmem =
      s.tmem := rfl
@[simp] theorem State.withHct_qmem (s : State) (k : Slot) (t : HuffTable) (n : Nat) :
    (s.withHct k t n).qmem =
      s.qmem := rfl
@[simp] theorem State.withHct_hmem (s : State) (k : Slot) (t : HuffTable) (n : Nat) :
    (s.withHct k t n).hmem =
      s.hmem := rfl
@[simp] theorem State.withHct_ififo (s : State) (k : Slot) (t : HuffTable) (n : Nat) :
    (s.withHct k t n).ififo =
      s.ififo := rfl
@[simp] theorem State.withHct_ofifo (s : State) (k : Slot) (t : HuffTable) (n : Nat) :
    (s.withHct k t n).ofifo =
      s.ofifo := rfl
@[simp] theorem State.withHct_din (s : State) (k : Slot) (t : HuffTable) (n : Nat) :
    (s.withHct k t n).din =
      s.din := rfl
@[simp] theorem State.withHct_dout (s : State) (k : Slot) (t : HuffTable) (n : Nat) :
    (s.withHct k t n).dout =
      s.dout := rfl
@[simp] theorem State.withHct_sb (s : State) (k : Slot) (t : HuffTable) (n : Nat) : (s.withHct k t n).sb = s.sb := rfl
@[simp] theorem State.withHct_response (s : State) (k : Slot) (t : HuffTable) (n : Nat) :
    (s.withHct k t n).response =
      s.response := rfl
@[simp] theorem State.withHct_trace (s : State) (k : Slot) (t : HuffTable) (n : Nat) :
    (s.withHct k t n).trace =
      s.trace := rfl
@[simp] theorem State.withHct_history (s : State) (k : Slot) (t : HuffTable) (n : Nat) :
    (s.withHct k t n).history =
      s.history := rfl
@[simp] theorem State.withHct_lastEvent (s : State) (k : Slot) (t : HuffTable) (n : Nat) :
    (s.withHct k t n).lastEvent =
      s.lastEvent := rfl
@[simp] theorem State.withHct_tailFed (s : State) (k : Slot) (t : HuffTable) (n : Nat) :
    (s.withHct k t n).tailFed =
      s.tailFed := rfl
@[simp] theorem State.withHct_draws (s : State) (k : Slot) (t : HuffTable) (n : Nat) :
    (s.withHct k t n).draws =
      s.draws + n := rfl
@[simp] theorem State.withHct_host (s : State) (k : Slot) (t : HuffTable) (n : Nat) :
    (s.withHct k t n).host =
      s.host := rfl
@[simp] theorem State.withHct_inputs (s : State) (k : Slot) (t : HuffTable) (n : Nat) :
    (s.withHct k t n).inputs =
      s.inputs := rfl

/-! ## `State.specChanged` -/

@[simp] theorem State.specChanged_cfg (s : State) (k : Slot) : (s.specChanged k).cfg = s.cfg := rfl
@[simp] theorem State.specChanged_hspec (s : State) (k : Slot) : (s.specChanged k).hspec = s.hspec := rfl
@[simp] theorem State.specChanged_hct (s : State) (k : Slot) :
    (s.specChanged k).hct =
      s.hct.set k { s.hct.get k with valid := false } := rfl
@[simp] theorem State.specChanged_baseline (s : State) (k : Slot) : (s.specChanged k).baseline = s.baseline := rfl
@[simp] theorem State.specChanged_fsm (s : State) (k : Slot) : (s.specChanged k).fsm = s.fsm := rfl
@[simp] theorem State.specChanged_ctx (s : State) (k : Slot) :
    (s.specChanged k).ctx =
      { s.ctx with cfgHuff := false } := rfl
@[simp] theorem State.specChanged_cr (s : State) (k : Slot) : (s.specChanged k).cr = s.cr := rfl
@[simp] theorem State.specChanged_sr (s : State) (k : Slot) : (s.specChanged k).sr = s.sr := rfl
@[simp] theorem State.specChanged_desc (s : State) (k : Slot) : (s.specChanged k).desc = s.desc := rfl
@[simp] theorem State.specChanged_info (s : State) (k : Slot) : (s.specChanged k).info = s.info := rfl
@[simp] theorem State.specChanged_lastError (s : State) (k : Slot) : (s.specChanged k).lastError = s.lastError := rfl
@[simp] theorem State.specChanged_hdr (s : State) (k : Slot) : (s.specChanged k).hdr = s.hdr := rfl
@[simp] theorem State.specChanged_prgRaw (s : State) (k : Slot) : (s.specChanged k).prgRaw = .const false := rfl
@[simp] theorem State.specChanged_prgEnc (s : State) (k : Slot) : (s.specChanged k).prgEnc = .const false := rfl
@[simp] theorem State.specChanged_tmem (s : State) (k : Slot) : (s.specChanged k).tmem = s.tmem := rfl
@[simp] theorem State.specChanged_qmem (s : State) (k : Slot) : (s.specChanged k).qmem = s.qmem := rfl
@[simp] theorem State.specChanged_hmem (s : State) (k : Slot) : (s.specChanged k).hmem = s.hmem := rfl
@[simp] theorem State.specChanged_ififo (s : State) (k : Slot) : (s.specChanged k).ififo = s.ififo := rfl
@[simp] theorem State.specChanged_ofifo (s : State) (k : Slot) : (s.specChanged k).ofifo = s.ofifo := rfl
@[simp] theorem State.specChanged_din (s : State) (k : Slot) : (s.specChanged k).din = s.din := rfl
@[simp] theorem State.specChanged_dout (s : State) (k : Slot) : (s.specChanged k).dout = s.dout := rfl
@[simp] theorem State.specChanged_sb (s : State) (k : Slot) : (s.specChanged k).sb = s.sb := rfl
@[simp] theorem State.specChanged_response (s : State) (k : Slot) : (s.specChanged k).response = s.response := rfl
@[simp] theorem State.specChanged_trace (s : State) (k : Slot) : (s.specChanged k).trace = s.trace := rfl
@[simp] theorem State.specChanged_history (s : State) (k : Slot) : (s.specChanged k).history = s.history := rfl
@[simp] theorem State.specChanged_lastEvent (s : State) (k : Slot) : (s.specChanged k).lastEvent = s.lastEvent := rfl
@[simp] theorem State.specChanged_tailFed (s : State) (k : Slot) : (s.specChanged k).tailFed = s.tailFed := rfl
@[simp] theorem State.specChanged_draws (s : State) (k : Slot) : (s.specChanged k).draws = s.draws := rfl
@[simp] theorem State.specChanged_host (s : State) (k : Slot) : (s.specChanged k).host = s.host := rfl
@[simp] theorem State.specChanged_inputs (s : State) (k : Slot) : (s.specChanged k).inputs = s.inputs := rfl

/-! ## `State.sourceTaken` -/

@[simp] theorem State.sourceTaken_cfg (s : State) (n : Nat) : (s.sourceTaken n).cfg = s.cfg := rfl
@[simp] theorem State.sourceTaken_hspec (s : State) (n : Nat) : (s.sourceTaken n).hspec = s.hspec := rfl
@[simp] theorem State.sourceTaken_hct (s : State) (n : Nat) : (s.sourceTaken n).hct = s.hct := rfl
@[simp] theorem State.sourceTaken_baseline (s : State) (n : Nat) : (s.sourceTaken n).baseline = s.baseline := rfl
@[simp] theorem State.sourceTaken_fsm (s : State) (n : Nat) : (s.sourceTaken n).fsm = s.fsm := rfl
@[simp] theorem State.sourceTaken_ctx (s : State) (n : Nat) : (s.sourceTaken n).ctx = s.ctx := rfl
@[simp] theorem State.sourceTaken_cr (s : State) (n : Nat) : (s.sourceTaken n).cr = s.cr := rfl
@[simp] theorem State.sourceTaken_sr (s : State) (n : Nat) : (s.sourceTaken n).sr = s.sr := rfl
@[simp] theorem State.sourceTaken_desc (s : State) (n : Nat) : (s.sourceTaken n).desc = s.desc := rfl
@[simp] theorem State.sourceTaken_info (s : State) (n : Nat) : (s.sourceTaken n).info = s.info := rfl
@[simp] theorem State.sourceTaken_lastError (s : State) (n : Nat) : (s.sourceTaken n).lastError = s.lastError := rfl
@[simp] theorem State.sourceTaken_hdr (s : State) (n : Nat) : (s.sourceTaken n).hdr = s.hdr := rfl
@[simp] theorem State.sourceTaken_prgRaw (s : State) (n : Nat) : (s.sourceTaken n).prgRaw = s.prgRaw := rfl
@[simp] theorem State.sourceTaken_prgEnc (s : State) (n : Nat) : (s.sourceTaken n).prgEnc = s.prgEnc := rfl
@[simp] theorem State.sourceTaken_tmem (s : State) (n : Nat) : (s.sourceTaken n).tmem = s.tmem := rfl
@[simp] theorem State.sourceTaken_qmem (s : State) (n : Nat) : (s.sourceTaken n).qmem = s.qmem := rfl
@[simp] theorem State.sourceTaken_hmem (s : State) (n : Nat) : (s.sourceTaken n).hmem = s.hmem := rfl
@[simp] theorem State.sourceTaken_ififo (s : State) (n : Nat) : (s.sourceTaken n).ififo = s.ififo := rfl
@[simp] theorem State.sourceTaken_ofifo (s : State) (n : Nat) : (s.sourceTaken n).ofifo = s.ofifo := rfl
@[simp] theorem State.sourceTaken_din (s : State) (n : Nat) : (s.sourceTaken n).din = s.din := rfl
@[simp] theorem State.sourceTaken_dout (s : State) (n : Nat) : (s.sourceTaken n).dout = s.dout := rfl
@[simp] theorem State.sourceTaken_sb (s : State) (n : Nat) : (s.sourceTaken n).sb = s.sb := rfl
@[simp] theorem State.sourceTaken_response (s : State) (n : Nat) : (s.sourceTaken n).response = s.response := rfl
@[simp] theorem State.sourceTaken_trace (s : State) (n : Nat) : (s.sourceTaken n).trace = s.trace := rfl
@[simp] theorem State.sourceTaken_history (s : State) (n : Nat) : (s.sourceTaken n).history = s.history := rfl
@[simp] theorem State.sourceTaken_lastEvent (s : State) (n : Nat) : (s.sourceTaken n).lastEvent = s.lastEvent := rfl
@[simp] theorem State.sourceTaken_tailFed (s : State) (n : Nat) : (s.sourceTaken n).tailFed = s.tailFed := rfl
@[simp] theorem State.sourceTaken_draws (s : State) (n : Nat) : (s.sourceTaken n).draws = s.draws + n := rfl
@[simp] theorem State.sourceTaken_host (s : State) (n : Nat) :
    (s.sourceTaken n).host =
      { s.host with source := s.host.source.drop n } := rfl
@[simp] theorem State.sourceTaken_inputs (s : State) (n : Nat) : (s.sourceTaken n).inputs = s.inputs := rfl

/-! ## `State.present` -/

@[simp] theorem State.present_cfg (s : State) (c a : Word) : (s.present c a).cfg = s.cfg := rfl
@[simp] theorem State.present_hspec (s : State) (c a : Word) : (s.present c a).hspec = s.hspec := rfl
@[simp] theorem State.present_hct (s : State) (c a : Word) : (s.present c a).hct = s.hct := rfl
@[simp] theorem State.present_baseline (s : State) (c a : Word) : (s.present c a).baseline = s.baseline := rfl
@[simp] theorem State.present_fsm (s : State) (c a : Word) : (s.present c a).fsm = s.fsm := rfl
@[simp] theorem State.present_ctx (s : State) (c a : Word) : (s.present c a).ctx = s.ctx := rfl
@[simp] theorem State.present_cr (s : State) (c a : Word) : (s.present c a).cr = s.cr := rfl
@[simp] theorem State.present_sr (s : State) (c a : Word) : (s.present c a).sr = s.sr := rfl
@[simp] theorem State.present_desc (s : State) (c a : Word) : (s.present c a).desc = s.desc := rfl
@[simp] theorem State.present_info (s : State) (c a : Word) : (s.present c a).info = s.info := rfl
@[simp] theorem State.present_lastError (s : State) (c a : Word) : (s.present c a).lastError = s.lastError := rfl
@[simp] theorem State.present_hdr (s : State) (c a : Word) : (s.present c a).hdr = s.hdr := rfl
@[simp] theorem State.present_prgRaw (s : State) (c a : Word) : (s.present c a).prgRaw = s.prgRaw := rfl
@[simp] theorem State.present_prgEnc (s : State) (c a : Word) : (s.present c a).prgEnc = s.prgEnc := rfl
@[simp] theorem State.present_tmem (s : State) (c a : Word) : (s.present c a).tmem = s.tmem := rfl
@[simp] theorem State.present_qmem (s : State) (c a : Word) : (s.present c a).qmem = s.qmem := rfl
@[simp] theorem State.present_hmem (s : State) (c a : Word) : (s.present c a).hmem = s.hmem := rfl
@[simp] theorem State.present_ififo (s : State) (c a : Word) : (s.present c a).ififo = s.ififo := rfl
@[simp] theorem State.present_ofifo (s : State) (c a : Word) : (s.present c a).ofifo = s.ofifo := rfl
@[simp] theorem State.present_din (s : State) (c a : Word) : (s.present c a).din = s.din := rfl
@[simp] theorem State.present_dout (s : State) (c a : Word) : (s.present c a).dout = s.dout := rfl
@[simp] theorem State.present_sb (s : State) (c a : Word) : (s.present c a).sb = { s.sb with filling := none } := rfl
@[simp] theorem State.present_response (s : State) (c a : Word) : (s.present c a).response = s.response := rfl
@[simp] theorem State.present_trace (s : State) (c a : Word) : (s.present c a).trace = s.trace := rfl
@[simp] theorem State.present_history (s : State) (c a : Word) : (s.present c a).history = s.history := rfl
@[simp] theorem State.present_lastEvent (s : State) (c a : Word) : (s.present c a).lastEvent = s.lastEvent := rfl
@[simp] theorem State.present_tailFed (s : State) (c a : Word) : (s.present c a).tailFed = s.tailFed := rfl
@[simp] theorem State.present_draws (s : State) (c a : Word) : (s.present c a).draws = s.draws := rfl
@[simp] theorem State.present_host (s : State) (c a : Word) : (s.present c a).host = s.host := rfl
@[simp] theorem State.present_inputs (s : State) (c a : Word) :
    (s.present c a).inputs =
      (if isEventWord c then .event c else .command c a) :: s.inputs := rfl

/-! ## `startJob` -/

@[simp] theorem startJob_cfg (s : State) (op : JobOp) (m : Method) : (startJob op m s).cfg = s.cfg := rfl
@[simp] theorem startJob_hspec (s : State) (op : JobOp) (m : Method) : (startJob op m s).hspec = s.hspec := rfl
@[simp] theorem startJob_hct (s : State) (op : JobOp) (m : Method) : (startJob op m s).hct = s.hct := rfl
@[simp] theorem startJob_baseline (s : State) (op : JobOp) (m : Method) : (startJob op m s).baseline = s.baseline := rfl
@[simp] theorem startJob_fsm (s : State) (op : JobOp) (m : Method) : (startJob op m s).fsm = runningFsm m := rfl
@[simp] theorem startJob_ctx (s : State) (op : JobOp) (m : Method) :
    (startJob op m s).ctx =
      { s.ctx with op := some op, method := some m, pauseIn := false, pauseOut := false, ending := false } := rfl
@[simp] theorem startJob_cr (s : State) (op : JobOp) (m : Method) : (startJob op m s).cr = startCr op m := rfl
@[simp] theorem startJob_sr (s : State) (op : JobOp) (m : Method) : (startJob op m s).sr = .reset := rfl
@[simp] theorem startJob_desc (s : State) (op : JobOp) (m : Method) :
    (startJob op m s).desc =
      { s.desc with inOff := 0#32, outOff := 0#32 } := rfl
@[simp] theorem startJob_info (s : State) (op : JobOp) (m : Method) : (startJob op m s).info = s.info := rfl
@[simp] theorem startJob_lastError (s : State) (op : JobOp) (m : Method) :
    (startJob op m s).lastError =
      s.lastError := rfl
@[simp] theorem startJob_hdr (s : State) (op : JobOp) (m : Method) : (startJob op m s).hdr = s.hdr := rfl
@[simp] theorem startJob_prgRaw (s : State) (op : JobOp) (m : Method) : (startJob op m s).prgRaw = s.prgRaw := rfl
@[simp] theorem startJob_prgEnc (s : State) (op : JobOp) (m : Method) : (startJob op m s).prgEnc = s.prgEnc := rfl
@[simp] theorem startJob_tmem (s : State) (op : JobOp) (m : Method) : (startJob op m s).tmem = s.tmem := rfl
@[simp] theorem startJob_qmem (s : State) (op : JobOp) (m : Method) : (startJob op m s).qmem = s.qmem := rfl
@[simp] theorem startJob_hmem (s : State) (op : JobOp) (m : Method) : (startJob op m s).hmem = s.hmem := rfl
@[simp] theorem startJob_ififo (s : State) (op : JobOp) (m : Method) : (startJob op m s).ififo = [] := rfl
@[simp] theorem startJob_ofifo (s : State) (op : JobOp) (m : Method) : (startJob op m s).ofifo = [] := rfl
@[simp] theorem startJob_din (s : State) (op : JobOp) (m : Method) : (startJob op m s).din = s.din.stop := rfl
@[simp] theorem startJob_dout (s : State) (op : JobOp) (m : Method) : (startJob op m s).dout = s.dout.stop := rfl
@[simp] theorem startJob_sb (s : State) (op : JobOp) (m : Method) : (startJob op m s).sb = s.sb := rfl
@[simp] theorem startJob_response (s : State) (op : JobOp) (m : Method) : (startJob op m s).response = s.response := rfl
@[simp] theorem startJob_trace (s : State) (op : JobOp) (m : Method) : (startJob op m s).trace = s.trace := rfl
@[simp] theorem startJob_history (s : State) (op : JobOp) (m : Method) : (startJob op m s).history = s.history := rfl
@[simp] theorem startJob_lastEvent (s : State) (op : JobOp) (m : Method) :
    (startJob op m s).lastEvent =
      s.lastEvent := rfl
@[simp] theorem startJob_tailFed (s : State) (op : JobOp) (m : Method) : (startJob op m s).tailFed = false := rfl
@[simp] theorem startJob_draws (s : State) (op : JobOp) (m : Method) : (startJob op m s).draws = s.draws := rfl
@[simp] theorem startJob_host (s : State) (op : JobOp) (m : Method) : (startJob op m s).host = s.host := rfl
@[simp] theorem startJob_inputs (s : State) (op : JobOp) (m : Method) : (startJob op m s).inputs = s.inputs := rfl

/-! ## `sbHandOver` -/

@[simp] theorem sbHandOver_cfg (s : State) (i : BufIdx) : (sbHandOver i s).cfg = s.cfg := rfl
@[simp] theorem sbHandOver_hspec (s : State) (i : BufIdx) : (sbHandOver i s).hspec = s.hspec := rfl
@[simp] theorem sbHandOver_hct (s : State) (i : BufIdx) : (sbHandOver i s).hct = s.hct := rfl
@[simp] theorem sbHandOver_baseline (s : State) (i : BufIdx) : (sbHandOver i s).baseline = s.baseline := rfl
@[simp] theorem sbHandOver_fsm (s : State) (i : BufIdx) : (sbHandOver i s).fsm = s.fsm := rfl
@[simp] theorem sbHandOver_ctx (s : State) (i : BufIdx) : (sbHandOver i s).ctx = s.ctx := rfl
@[simp] theorem sbHandOver_cr (s : State) (i : BufIdx) : (sbHandOver i s).cr = s.cr := rfl
@[simp] theorem sbHandOver_sr (s : State) (i : BufIdx) : (sbHandOver i s).sr = s.sr := rfl
@[simp] theorem sbHandOver_desc (s : State) (i : BufIdx) :
    (sbHandOver i s).desc =
      { s.desc with inAddr := sbAddr s.cfg i, inLen := (s.sb.buf i).len, inOff := 0#32 } := rfl
@[simp] theorem sbHandOver_info (s : State) (i : BufIdx) : (sbHandOver i s).info = s.info := rfl
@[simp] theorem sbHandOver_lastError (s : State) (i : BufIdx) : (sbHandOver i s).lastError = s.lastError := rfl
@[simp] theorem sbHandOver_hdr (s : State) (i : BufIdx) : (sbHandOver i s).hdr = s.hdr := rfl
@[simp] theorem sbHandOver_prgRaw (s : State) (i : BufIdx) : (sbHandOver i s).prgRaw = s.prgRaw := rfl
@[simp] theorem sbHandOver_prgEnc (s : State) (i : BufIdx) : (sbHandOver i s).prgEnc = s.prgEnc := rfl
@[simp] theorem sbHandOver_tmem (s : State) (i : BufIdx) : (sbHandOver i s).tmem = s.tmem := rfl
@[simp] theorem sbHandOver_qmem (s : State) (i : BufIdx) : (sbHandOver i s).qmem = s.qmem := rfl
@[simp] theorem sbHandOver_hmem (s : State) (i : BufIdx) : (sbHandOver i s).hmem = s.hmem := rfl
@[simp] theorem sbHandOver_ififo (s : State) (i : BufIdx) : (sbHandOver i s).ififo = s.ififo := rfl
@[simp] theorem sbHandOver_ofifo (s : State) (i : BufIdx) : (sbHandOver i s).ofifo = s.ofifo := rfl
@[simp] theorem sbHandOver_din (s : State) (i : BufIdx) : (sbHandOver i s).din = s.din := rfl
@[simp] theorem sbHandOver_dout (s : State) (i : BufIdx) : (sbHandOver i s).dout = s.dout := rfl
@[simp] theorem sbHandOver_sb (s : State) (i : BufIdx) : (sbHandOver i s).sb = { s.sb with wait := false } := rfl
@[simp] theorem sbHandOver_response (s : State) (i : BufIdx) : (sbHandOver i s).response = s.response := rfl
@[simp] theorem sbHandOver_trace (s : State) (i : BufIdx) : (sbHandOver i s).trace = s.trace := rfl
@[simp] theorem sbHandOver_history (s : State) (i : BufIdx) : (sbHandOver i s).history = s.history := rfl
@[simp] theorem sbHandOver_lastEvent (s : State) (i : BufIdx) : (sbHandOver i s).lastEvent = s.lastEvent := rfl
@[simp] theorem sbHandOver_tailFed (s : State) (i : BufIdx) : (sbHandOver i s).tailFed = s.tailFed := rfl
@[simp] theorem sbHandOver_draws (s : State) (i : BufIdx) : (sbHandOver i s).draws = s.draws := rfl
@[simp] theorem sbHandOver_host (s : State) (i : BufIdx) : (sbHandOver i s).host = s.host := rfl
@[simp] theorem sbHandOver_inputs (s : State) (i : BufIdx) : (sbHandOver i s).inputs = s.inputs := rfl

end Sys2Proof.Machine
end

