-- ==== Sys2Proof/Laws/Memory.lean ====
section
/-! SUPPORT. The laws of the memories: a read after a write, every other place left alone, and the canonical form that every
memory operation keeps. -/

namespace Sys2Proof.Machine

open Sys2Proof

variable {α : Type}

/-! ## One cell -/

theorem Store.find_put_self (m : Store α) (a : Nat) (v : α) : Store.find (Store.put m a v) a = some v := by
  induction m with
  | nil => simp [Store.put, Store.find]
  | cons c m ih =>
    obtain ⟨k, w⟩ := c
    by_cases hk : k = a
    · simp [Store.put, Store.find, hk]
    · by_cases hl : a < k
      · simp [Store.put, Store.find, hk, hl]
      · simp [Store.put, Store.find, hk, hl, ih]

theorem Store.find_put_ne (m : Store α) {a b : Nat} (v : α) (h : b ≠ a) :
    Store.find (Store.put m a v) b = Store.find m b := by
  induction m with
  | nil => simp [Store.put, Store.find, Ne.symm h]
  | cons c m ih =>
    obtain ⟨k, w⟩ := c
    by_cases hk : k = a
    · subst hk; simp [Store.put, Store.find, Ne.symm h]
    · by_cases hl : a < k
      · simp [Store.put, Store.find, hk, hl, Ne.symm h]
      · simp [Store.put, Store.find, hk, hl, ih]

theorem Store.find_put (m : Store α) (a b : Nat) (v : α) :
    Store.find (Store.put m a v) b = if b = a then some v else Store.find m b := by
  by_cases h : b = a
  · subst h; simp [Store.find_put_self]
  · simp [h, Store.find_put_ne]

/-! ## The canonical form -/

theorem Store.risesFrom_put {hi lo : Nat} {m : Store α} {a : Nat} (v : α) (h : Store.risesFrom hi lo m = true)
    (hlo : lo ≤ a) (hhi : a < hi) : Store.risesFrom hi lo (Store.put m a v) = true := by
  induction m generalizing lo with
  | nil => simp [Store.put, Store.risesFrom, hlo, hhi]
  | cons c m ih =>
    obtain ⟨k, w⟩ := c
    simp only [Store.risesFrom, Bool.and_eq_true, decide_eq_true_eq] at h
    obtain ⟨⟨hk, hkh⟩, hm⟩ := h
    by_cases hka : k = a
    · subst hka; simp [Store.put, Store.risesFrom, hk, hkh, hm]
    · by_cases hl : a < k
      · simp only [Store.put, hka, hl, if_true, if_false, Store.risesFrom, Bool.and_eq_true, decide_eq_true_eq]
        exact ⟨⟨hlo, hhi⟩, ⟨by omega, hkh⟩, hm⟩
      · simp only [Store.put, hka, hl, if_false, Store.risesFrom, Bool.and_eq_true, decide_eq_true_eq]
        exact ⟨⟨hk, hkh⟩, ih hm (by omega)⟩

/-- A write keeps the canonical form. -/
theorem Store.wf_put {hi : Nat} {m : Store α} {a : Nat} (v : α) (h : Store.wf hi m = true) (ha : a < hi) :
    Store.wf hi (Store.put m a v) = true :=
  Store.risesFrom_put v h (Nat.zero_le a) ha

theorem Store.find_eq_none_of_rises {hi lo a : Nat} {m : Store α} (h : Store.risesFrom hi lo m = true) (ha : a < lo) :
    Store.find m a = none := by
  induction m generalizing lo with
  | nil => rfl
  | cons c m ih =>
    obtain ⟨k, w⟩ := c
    simp only [Store.risesFrom, Bool.and_eq_true, decide_eq_true_eq] at h
    have hne : k ≠ a := by omega
    simpa [Store.find, hne] using ih h.2 (by omega)

/-- Memories in canonical form that hold the same at every address are the same list. -/
theorem Store.ext_of_rises {hi lo : Nat} {m m' : Store α} (h : Store.risesFrom hi lo m = true)
    (h' : Store.risesFrom hi lo m' = true) (heq : ∀ a, Store.find m a = Store.find m' a) : m = m' := by
  induction m generalizing lo m' with
  | nil =>
    cases m' with
    | nil => rfl
    | cons c m' =>
      obtain ⟨k, w⟩ := c
      have := heq k
      simp [Store.find] at this
  | cons c m ih =>
    obtain ⟨k, w⟩ := c
    cases m' with
    | nil =>
      have := heq k
      simp [Store.find] at this
    | cons c' m' =>
      obtain ⟨k', w'⟩ := c'
      simp only [Store.risesFrom, Bool.and_eq_true, decide_eq_true_eq] at h h'
      have hk : k = k' := by
        rcases Nat.lt_trichotomy k k' with hlt | he | hgt
        · have hf := heq k
          have hne : k' ≠ k := by omega
          simp [Store.find, hne, Store.find_eq_none_of_rises h'.2 (show k < k' + 1 by omega)] at hf
        · exact he
        · have hf := heq k'
          have hne : k ≠ k' := by omega
          simp [Store.find, hne, Store.find_eq_none_of_rises h.2 (show k' < k + 1 by omega)] at hf
      subst hk
      have hw : w = w' := by simpa [Store.find] using heq k
      subst hw
      congr 1
      apply ih h.2 h'.2
      intro a
      by_cases ha : k = a
      · subst ha
        rw [Store.find_eq_none_of_rises h.2 (Nat.lt_succ_self k), Store.find_eq_none_of_rises h'.2 (Nat.lt_succ_self k)]
      · simpa [Store.find, ha] using heq a

/-! ## Bytes of host memory -/

@[simp] theorem readByte_put (m : Store Byte) (a b : Nat) (v : Byte) :
    readByte (Store.put m a v) b = if b = a then v else readByte m b := by
  by_cases h : b = a <;> simp [readByte, Store.find_put, h]

theorem wf_writeBytes {hi : Nat} {m : Store Byte} {a : Nat} {bs : List Byte} (h : Store.wf hi m = true)
    (ha : a + bs.length ≤ hi) : Store.wf hi (writeBytes m a bs) = true := by
  induction bs generalizing m a with
  | nil => exact h
  | cons b bs ih =>
    simp only [List.length_cons] at ha
    exact ih (Store.wf_put b h (by omega)) (by omega)

/-- Every byte outside the written range reads as before. -/
theorem readByte_writeBytes_outside {m : Store Byte} {a : Nat} {bs : List Byte} {c : Nat}
    (h : c < a ∨ a + bs.length ≤ c) : readByte (writeBytes m a bs) c = readByte m c := by
  induction bs generalizing m a with
  | nil => rfl
  | cons b bs ih =>
    simp only [List.length_cons] at h
    have hne : c ≠ a := by omega
    rw [writeBytes, ih (by omega), readByte_put, if_neg hne]

/-- Every byte inside the written range reads as written. -/
theorem readByte_writeBytes_inside {m : Store Byte} {a : Nat} {bs : List Byte} {j : Nat} (h : j < bs.length) :
    readByte (writeBytes m a bs) (a + j) = bs[j] := by
  induction bs generalizing m a j with
  | nil => simp at h
  | cons b bs ih =>
    cases j with
    | zero => rw [writeBytes, readByte_writeBytes_outside (by omega)]; simp
    | succ j =>
      simp only [List.length_cons] at h
      have := ih (m := Store.put m a b) (a := a + 1) (j := j) (by omega)
      rw [writeBytes, show a + (j + 1) = a + 1 + j by omega, this]
      simp

theorem readBytes_congr {m m' : Store Byte} {a n : Nat} (h : ∀ c, a ≤ c → c < a + n → readByte m' c = readByte m c) :
    readBytes m' a n = readBytes m a n := by
  apply List.map_congr_left
  intro i hi
  have := List.mem_range.mp hi
  exact h (a + i) (by omega) (by omega)

@[simp] theorem readBytes_length (m : Store Byte) (a n : Nat) : (readBytes m a n).length = n := by simp [readBytes]

@[simp] theorem bytesOfWord_length (w : Word) : (bytesOfWord w).length = 4 := rfl

/-- The four bytes of a word make the word again (20_memory R76). -/
theorem wordOfBytes_bytesOfWord (w : Word) : wordOfBytes (bytesOfWord w) = w := by
  apply BitVec.eq_of_getLsbD_eq
  intro i hi
  unfold wordOfBytes
  change BitVec.getLsbD (w := 8 + (8 + (8 + 8))) _ i = _
  rw [BitVec.getLsbD_append, BitVec.getLsbD_append, BitVec.getLsbD_append]
  simp only [bytesOfWord, List.getD_cons_zero, List.getD_cons_succ, BitVec.getLsbD_extractLsb']
  by_cases h8 : i < 8
  · simp [h8, show i < 16 by omega, show i < 24 by omega]
  · by_cases h16 : i < 16
    · simp [h8, h16, show i < 24 by omega, show i - 8 < 8 by omega, show 8 + (i - 8) = i by omega]
    · by_cases h24 : i < 24
      · simp [h16, h24, show i - 16 < 8 by omega, show 16 + (i - 16) = i by omega]
      · simp [h24, show i - 24 < 8 by omega, show 24 + (i - 24) = i by omega]

/-- All that `MemRead` does: the bytes, inside the host address space. -/
theorem memRead_ok {a n : Nat} {s : State} {bs : List Byte} :
    memRead a n s = .ok bs ↔ a + n ≤ Config.hostSpace ∧ bs = readBytes s.hmem a n := by
  unfold memRead
  split <;> simp_all [eq_comm]

/-- All that `MemWrite` does: the bytes, inside the host address space, and nothing but `HMEM`. -/
theorem memWrite_ok {a : Nat} {bs : List Byte} {s t : State} :
    memWrite a bs s = .ok t ↔ a + bs.length ≤ Config.hostSpace ∧ t = { s with hmem := writeBytes s.hmem a bs } := by
  unfold memWrite
  split <;> simp_all [eq_comm]

/-! ## The table memories -/

/-- `TMEM` alone decides what its words read as. -/
theorem readTmem_congr {s t : State} (h : s.tmem = t.tmem) (a : BitVec 16) : readTmem s a = readTmem t a := by
  rw [readTmem, readTmem, h]

/-- `QMEM` alone decides what its words read as. -/
theorem readQmem_congr {s t : State} (h : s.qmem = t.qmem) (q w : BitVec 4) : readQmem s q w = readQmem t q w := by
  rw [readQmem, readQmem, h]

@[simp] theorem readTmem_tWrite (s : State) (a b : BitVec 16) (v : Word) :
    readTmem (s.tWrite a v) b = if b = a then v else readTmem s b := by
  by_cases h : b = a
  · subst h; simp [readTmem, Store.find_put_self]
  · have hn : b.toNat ≠ a.toNat := fun e => h (BitVec.eq_of_toNat_eq e)
    simp [readTmem, Store.find_put_ne _ _ hn, h]

@[simp] theorem readTmem_tReadMark (s : State) (a b : BitVec 16) : readTmem (s.tReadMark a) b = readTmem s b := rfl

theorem qmemIndex_inj {q w q' w' : BitVec 4} (h : qmemIndex q w = qmemIndex q' w') : q = q' ∧ w = w' := by
  unfold qmemIndex at h
  constructor <;> apply BitVec.eq_of_toNat_eq <;> omega

theorem qmemIndex_lt (q w : BitVec 4) : qmemIndex q w < 256 := by
  unfold qmemIndex
  omega

@[simp] theorem readQmem_qWrite (s : State) (q w q' w' : BitVec 4) (v : Word) :
    readQmem (s.qWrite q w v) q' w' = if q' = q ∧ w' = w then v else readQmem s q' w' := by
  by_cases h : q' = q ∧ w' = w
  · obtain ⟨rfl, rfl⟩ := h; simp [readQmem, Store.find_put_self]
  · have hn : qmemIndex q' w' ≠ qmemIndex q w := fun e => h (qmemIndex_inj e)
    simp [readQmem, Store.find_put_ne _ _ hn, h]

/-- All that a list of `TMEM` writes changes. -/
theorem tWriteAll_frame (l : List (BitVec 16 × Word)) (s : State) :
    s.tWriteAll l = { s with
      tmem := (s.tWriteAll l).tmem
      history := s.history ++ l.map (fun p => .twrite p.1 p.2) } := by
  induction l generalizing s with
  | nil => simp [State.tWriteAll]
  | cons p l ih =>
    obtain ⟨a, v⟩ := p
    rw [State.tWriteAll, ih]
    simp [State.tWrite]

/-- A word that the list does not write reads as before. -/
theorem readTmem_tWriteAll_outside {l : List (BitVec 16 × Word)} {s : State} {b : BitVec 16}
    (h : ∀ p ∈ l, p.1 ≠ b) : readTmem (s.tWriteAll l) b = readTmem s b := by
  induction l generalizing s with
  | nil => rfl
  | cons p l ih =>
    obtain ⟨a, v⟩ := p
    have ha : b ≠ a := fun e => h (a, v) (by simp) e.symm
    rw [State.tWriteAll, ih (fun p hp => h p (by simp [hp])), readTmem_tWrite, if_neg ha]

/-- A word that the list writes once reads as written. -/
theorem readTmem_tWriteAll_mem {l : List (BitVec 16 × Word)} {s : State} {b : BitVec 16} {v : Word}
    (hd : (l.map Prod.fst).Nodup) (h : (b, v) ∈ l) : readTmem (s.tWriteAll l) b = v := by
  induction l generalizing s with
  | nil => simp at h
  | cons p l ih =>
    obtain ⟨a, u⟩ := p
    simp only [List.map_cons, List.nodup_cons] at hd
    rw [State.tWriteAll]
    rcases List.mem_cons.mp h with heq | hmem
    · cases heq
      rw [readTmem_tWriteAll_outside, readTmem_tWrite, if_pos rfl]
      intro p hp he
      exact hd.1 (he ▸ List.mem_map_of_mem hp)
    · exact ih hd.2 hmem

theorem wf_tWriteAll {l : List (BitVec 16 × Word)} {s : State} (h : Store.wf 65536 s.tmem = true) :
    Store.wf 65536 (s.tWriteAll l).tmem = true := by
  induction l generalizing s with
  | nil => exact h
  | cons p l ih => exact ih (Store.wf_put _ h p.1.isLt)

/-- All that a list of `QMEM[q]` writes changes. -/
theorem qWriteAll_frame (q : BitVec 4) (l : List (BitVec 4 × Word)) (s : State) :
    s.qWriteAll q l = { s with
      qmem := (s.qWriteAll q l).qmem
      history := s.history ++ l.map (fun p => .qwrite q.toNat p.1.toNat p.2) } := by
  induction l generalizing s with
  | nil => simp [State.qWriteAll]
  | cons p l ih =>
    obtain ⟨a, v⟩ := p
    rw [State.qWriteAll, ih]
    simp [State.qWrite]

theorem readQmem_qWriteAll_other {q q' : BitVec 4} {l : List (BitVec 4 × Word)} {s : State} {w : BitVec 4}
    (h : q' ≠ q ∨ ∀ p ∈ l, p.1 ≠ w) : readQmem (s.qWriteAll q l) q' w = readQmem s q' w := by
  induction l generalizing s with
  | nil => rfl
  | cons p l ih =>
    obtain ⟨a, v⟩ := p
    have hne : ¬(q' = q ∧ w = a) := by
      rintro ⟨rfl, rfl⟩
      rcases h with h | h
      · exact h rfl
      · exact h (w, v) (by simp) rfl
    rw [State.qWriteAll, ih (h.imp id fun h p hp => h p (by simp [hp])), readQmem_qWrite, if_neg hne]

theorem readQmem_qWriteAll_mem {q : BitVec 4} {l : List (BitVec 4 × Word)} {s : State} {w : BitVec 4} {v : Word}
    (hd : (l.map Prod.fst).Nodup) (h : (w, v) ∈ l) : readQmem (s.qWriteAll q l) q w = v := by
  induction l generalizing s with
  | nil => simp at h
  | cons p l ih =>
    obtain ⟨a, u⟩ := p
    simp only [List.map_cons, List.nodup_cons] at hd
    rw [State.qWriteAll]
    rcases List.mem_cons.mp h with heq | hmem
    · cases heq
      rw [readQmem_qWriteAll_other, readQmem_qWrite, if_pos ⟨rfl, rfl⟩]
      right
      intro p hp he
      exact hd.1 (he ▸ List.mem_map_of_mem hp)
    · exact ih hd.2 hmem

theorem wf_qWriteAll {q : BitVec 4} {l : List (BitVec 4 × Word)} {s : State} (h : Store.wf 256 s.qmem = true) :
    Store.wf 256 (s.qWriteAll q l).qmem = true := by
  induction l generalizing s with
  | nil => exact h
  | cons p l ih => exact ih (Store.wf_put _ h (qmemIndex_lt q p.1))

/-! ## The three memories together -/

theorem Memory.wf_iff {s : State} : Memory.wf s = true ↔
    Store.wf Config.hostSpace s.hmem = true ∧ Store.wf 65536 s.tmem = true ∧ Store.wf 256 s.qmem = true := by
  simp [Memory.wf, and_assoc]

/-- The canonical form depends on the three memories only. -/
theorem Memory.wf_congr {s t : State} (h : Memory.wf s = true) (hh : t.hmem = s.hmem) (ht : t.tmem = s.tmem)
    (hq : t.qmem = s.qmem) : Memory.wf t = true := by
  rw [Memory.wf_iff] at *
  rw [hh, ht, hq]
  exact h

theorem memWrite_wf {a : Nat} {bs : List Byte} {s t : State} (h : memWrite a bs s = .ok t) (hs : Memory.wf s = true) :
    Memory.wf t = true := by
  obtain ⟨ha, rfl⟩ := memWrite_ok.mp h
  rw [Memory.wf_iff] at *
  exact ⟨wf_writeBytes hs.1 ha, hs.2⟩

theorem State.reset_memory_wf : Memory.wf State.reset = true := by decide

end Sys2Proof.Machine
end

