-- ==== Sys2Proof/Laws/Transfer.lean ====
section
/-! SUPPORT. What each shared operation of the Transfer State Machine can do, said once: the callbacks, the output drain path,
the input pump path, completion and the residual drain. Each frame lemma names every field the operation may change. -/

namespace Sys2Proof.Machine

open Sys2Proof

/-! ## Sequencing -/

/-- A sequence answers where its parts do. -/
theorem bind_eq_ok {α β : Type} {x : Except Fault α} {f : α → Except Fault β} {c : β} :
    (x >>= f) = .ok c ↔ ∃ a, x = .ok a ∧ f a = .ok c := by
  cases x <;> simp [bind, Except.bind]

@[simp] theorem pure_eq_ok {α : Type} {a b : α} : (pure a : Except Fault α) = .ok b ↔ a = b := by
  simp [pure, Except.pure]

/-! ## The drain callback (43_transfer_fsm R219) -/

/-- The reply changes the host's answers and the draw counter, no more. -/
theorem drainReply_frame (s : State) :
    (drainReply s).2 = { s with
      host := { s.host with drainReplies := (drainReply s).2.host.drainReplies }
      draws := (drainReply s).2.draws } := by
  unfold drainReply
  split
  · rfl
  · split <;> simp [State.drew]

theorem drainReply_managed {s : State} (h : s.host.managed = true) : drainReply s = (.proceed, s) := by
  simp [drainReply, h]

/-- All that the drain callback does. -/
theorem drain_frame {addr len : Word} {s : State} {p : Bool × State} (h : drain addr len s = .ok p) :
    p.2 = { s with
      trace := s.trace ++ [.drain addr len (readBytes s.hmem addr.toNat len.toNat)]
      host := { s.host with drainReplies := p.2.host.drainReplies }
      draws := p.2.draws } := by
  have hf := drainReply_frame (s.emit (.drain addr len (readBytes s.hmem addr.toNat len.toNat)))
  unfold drain at h
  simp only at h
  split at h <;> cases h <;> exact hf

/-- The manager answers `Continue`. -/
theorem drain_managed {addr len : Word} {s : State} (hm : s.host.managed = true) :
    drain addr len s = .ok (false, s.emit (.drain addr len (readBytes s.hmem addr.toNat len.toNat))) := by
  simp [drain, drainReply_managed, hm]

/-! ## The callbacks without a reply (60_exceptions R296) -/

/-- All that `INFO_READY`, `DONE` or `ERROR` does. -/
theorem notify_ok {e : Effect} {s t : State} : notify e s = .ok t ↔
    s.host.notices.head? ≠ some .command ∧
    t = { s with trace := s.trace ++ [e], host := { s.host with notices := s.host.notices.tail } } := by
  unfold notify
  by_cases h : s.host.notices.head? = some .command <;> simp [h, State.emit, eq_comm]

/-- It faults exactly where the host issues a command inside it. -/
theorem notify_fault {e : Effect} {s : State} {f : Fault} : notify e s = .error f ↔
    s.host.notices.head? = some .command ∧ f = .commandInCallback := by
  unfold notify
  by_cases h : s.host.notices.head? = some .command <;> simp [h, eq_comm]

/-! ## The output drain path (43_transfer_fsm R237) -/

/-- Either the output was not paused, or it is paused now and its sources are masked. -/
def pausedOut (s t : State) : Prop :=
  (t.ctx = s.ctx ∧ t.cr = s.cr) ∨ (t.ctx = s.pauseOutput.ctx ∧ t.cr = s.pauseOutput.cr)

theorem pausedOut_refl (s : State) : pausedOut s s := .inl ⟨rfl, rfl⟩

theorem pausedOut_trans {s t u : State} (h : pausedOut s t) (h' : pausedOut t u) : pausedOut s u := by
  rcases h with ⟨hc, hr⟩ | ⟨hc, hr⟩ <;> rcases h' with ⟨hc', hr'⟩ | ⟨hc', hr'⟩
  · exact .inl ⟨hc'.trans hc, hr'.trans hr⟩
  · right
    have hm : t.ctx.fifoMethod = s.ctx.fifoMethod := by rw [hc]
    refine ⟨by simp_all, ?_⟩
    simp only [State.pauseOutput_cr] at hr' ⊢
    rw [hr', hm, hr]
  · exact .inr ⟨hc'.trans hc, hr'.trans hr⟩
  · right
    have hm : t.ctx.fifoMethod = s.ctx.fifoMethod := by rw [hc]; rfl
    refine ⟨by simp_all, ?_⟩
    simp only [State.pauseOutput_cr] at hr hr' ⊢
    rw [hr', hm, hr]
    split <;> rfl

/-- What the output drain path may change. -/
def drainedFrame (s t : State) : Prop :=
  t = { s with
    hmem := t.hmem
    ofifo := t.ofifo
    desc := { s.desc with outOff := t.desc.outOff }
    ctx := t.ctx
    cr := t.cr
    trace := t.trace
    host := { s.host with drainReplies := t.host.drainReplies }
    draws := t.draws } ∧ pausedOut s t

theorem drainedFrame_refl (s : State) : drainedFrame s s := ⟨rfl, pausedOut_refl s⟩

theorem drainedFrame_trans {s t u : State} (h : drainedFrame s t) (h' : drainedFrame t u) : drainedFrame s u := by
  refine ⟨?_, pausedOut_trans h.2 h'.2⟩
  have e := h'.1
  have e' := h.1
  generalize t.hmem = a1, t.ofifo = a2, t.desc.outOff = a3, t.ctx = a4, t.cr = a5, t.trace = a6,
    t.host.drainReplies = a7, t.draws = a8 at e'
  subst e'
  exact e

theorem drainFull_frame {s t : State} (h : drainFull s = .ok t) : drainedFrame s t := by
  unfold drainFull at h
  obtain ⟨p, hp, hr⟩ := bind_eq_ok.mp h
  have hf := drain_frame hp
  rw [pure_eq_ok] at hr
  have hctx : p.2.ctx = s.ctx := by rw [hf]
  have hcr : p.2.cr = s.cr := by rw [hf]
  by_cases hpp : p.1 = true
  · rw [if_pos hpp] at hr
    subst hr
    refine ⟨?_, .inr ⟨by simp [hctx], by simp [hctx, hcr]⟩⟩
    rw [hf]
    simp [State.pauseOutput]
  · rw [if_neg hpp] at hr
    subst hr
    refine ⟨?_, .inl ⟨hctx, hcr⟩⟩
    rw [hf]

theorem storeWord_frame {w : Word} {s t : State} (h : storeWord w s = .ok t) : drainedFrame s t := by
  unfold storeWord at h
  obtain ⟨u, hu, hr⟩ := bind_eq_ok.mp h
  obtain ⟨_, rfl⟩ := memWrite_ok.mp hu
  refine drainedFrame_trans (t := { s with
    hmem := writeBytes s.hmem (s.desc.outAddr.toNat + s.desc.outOff.toNat) (bytesOfWord w)
    desc := { s.desc with outOff := s.desc.outOff + 4#32 } }) ⟨rfl, .inl ⟨rfl, rfl⟩⟩ ?_
  simp only at hr
  split at hr
  · exact drainFull_frame hr
  · rw [pure_eq_ok] at hr
    subst hr
    exact drainedFrame_refl _

/-- All that `StoreWords` may change. -/
theorem storeWords_frame {n : Nat} {s t : State} (h : storeWords n s = .ok t) : drainedFrame s t := by
  induction n generalizing s with
  | zero => cases h; exact drainedFrame_refl _
  | succ n ih =>
    unfold storeWords at h
    split at h
    · cases h; exact drainedFrame_refl _
    · split at h
      · cases h; exact drainedFrame_refl _
      · rename_i w rest he
        obtain ⟨u, hu, hr⟩ := bind_eq_ok.mp h
        exact drainedFrame_trans (t := { s with ofifo := rest }) ⟨rfl, .inl ⟨rfl, rfl⟩⟩
          (drainedFrame_trans (storeWord_frame hu) (ih hr))

/-! ## The input pump path (43_transfer_fsm R238) -/

/-- All that `push(IFIFO, w)` does. -/
theorem pushInput_ok {bs : List Byte} {s t : State} : pushInput bs s = .ok t ↔
    s.tailFed = false ∧ t = { s with ififo := s.ififo ++ [wordOfBytes bs], tailFed := decide (bs.length < 4) } := by
  unfold pushInput
  by_cases h : s.tailFed = true
  · simp [h]
  · simp [h, eq_comm]

/-- All that feeding one FIFO word does. -/
theorem feedWord_ok {m : Nat} {s t : State} : feedWord m s = .ok t ↔
    s.desc.inAddr.toNat + s.desc.inOff.toNat + m ≤ Config.hostSpace ∧ s.tailFed = false ∧
    t = { s with
      ififo := s.ififo ++ [wordOfBytes (readBytes s.hmem (s.desc.inAddr.toNat + s.desc.inOff.toNat) m)]
      tailFed := decide (m < 4)
      desc := { s.desc with inOff := s.desc.inOff + BitVec.ofNat 32 m } } := by
  unfold feedWord
  rw [bind_eq_ok]
  constructor
  · rintro ⟨b, hb, h⟩
    obtain ⟨hr, rfl⟩ := memRead_ok.mp hb
    obtain ⟨u, hu, h⟩ := bind_eq_ok.mp h
    obtain ⟨ht, rfl⟩ := pushInput_ok.mp hu
    rw [pure_eq_ok] at h
    subst h
    exact ⟨hr, ht, by simp⟩
  · rintro ⟨hr, ht, rfl⟩
    refine ⟨_, memRead_ok.mpr ⟨hr, rfl⟩, bind_eq_ok.mpr ⟨_, pushInput_ok.mpr ⟨ht, rfl⟩, ?_⟩⟩
    simp

/-- Word `j` of the input buffer from the read offset on. -/
def inputWord (s : State) (j : Nat) : Word :=
  wordOfBytes (readBytes s.hmem (s.desc.inAddr.toNat + s.desc.inOff.toNat + 4 * j) 4)

/-- All that feeding `n` whole words does. -/
theorem feedWhole_ok {n : Nat} {s : State} (hr : s.desc.inAddr.toNat + s.desc.inOff.toNat + 4 * n ≤ Config.hostSpace)
    (ho : s.desc.inOff.toNat + 4 * n < Config.hostSpace) (ht : s.tailFed = false) :
    feedWhole n s = .ok { s with
      ififo := s.ififo ++ (List.range n).map (inputWord s)
      desc := { s.desc with inOff := s.desc.inOff + BitVec.ofNat 32 (4 * n) } } := by
  induction n generalizing s with
  | zero => simp [feedWhole]
  | succ n ih =>
    have hone := (feedWord_ok (m := 4) (s := s)).mpr ⟨by omega, ht, rfl⟩
    have hoff : (s.desc.inOff + BitVec.ofNat 32 4).toNat = s.desc.inOff.toNat + 4 := by
      simp only [Config.hostSpace] at ho
      rw [BitVec.toNat_add, BitVec.toNat_ofNat]
      omega
    have hadd : s.desc.inOff + 4#32 + BitVec.ofNat 32 (4 * n) = s.desc.inOff + BitVec.ofNat 32 (4 * (n + 1)) := by
      rw [BitVec.add_assoc]
      congr 1
      apply BitVec.eq_of_toNat_eq
      rw [BitVec.toNat_add, BitVec.toNat_ofNat, BitVec.toNat_ofNat, BitVec.toNat_ofNat]
      omega
    rw [feedWhole, hone]
    change feedWhole n _ = _
    rw [ih (by simp only [hoff]; omega) (by simp only [hoff]; omega) (by simp)]
    clear hone ih
    simp only [hadd]
    rw [List.range_succ_eq_map, List.map_cons, List.map_map]
    simp only [List.append_assoc, Function.comp_def, inputWord]
    simp [ht]
    intro j _
    unfold inputWord
    rw [hoff]
    congr 2
    simp only
    omega

/-- The tail of the input buffer, 1 to 3 bytes, is fed as one padded word; else up to `k` whole words are. -/
theorem feedAvail_ok {k : Nat} {s : State} (hk : 1 ≤ k) (ht : s.tailFed = false)
    (hr : s.desc.inAddr.toNat + s.desc.inLen.toNat ≤ Config.hostSpace) (hlt : s.desc.inOff.toNat < s.desc.inLen.toNat) :
    feedAvail k s = .ok (
      let left : Nat := s.desc.inLen.toNat - s.desc.inOff.toNat
      if 4 ≤ left then { s with
        ififo := s.ififo ++ (List.range (min k (left / 4))).map (inputWord s)
        desc := { s.desc with inOff := s.desc.inOff + BitVec.ofNat 32 (4 * min k (left / 4)) } }
      else { s with
        ififo := s.ififo ++ [wordOfBytes (readBytes s.hmem (s.desc.inAddr.toNat + s.desc.inOff.toNat) left)]
        desc := { s.desc with inOff := s.desc.inLen }
        tailFed := true }) := by
  have hl := s.desc.inLen.isLt
  simp only [Config.hostSpace] at hr
  unfold feedAvail inAvail
  by_cases h4 : 4 ≤ s.desc.inLen.toNat - s.desc.inOff.toNat
  · rw [if_pos (by omega), feedWhole_ok (by simp only [Config.hostSpace]; omega) (by simp only [Config.hostSpace]; omega) ht]
    simp [h4]
  · rw [if_neg (by omega), feedWord_ok.mpr ⟨by simp only [Config.hostSpace]; omega, ht, rfl⟩]
    have e : s.desc.inOff + BitVec.ofNat 32 (s.desc.inLen.toNat - s.desc.inOff.toNat) = s.desc.inLen := by
      apply BitVec.eq_of_toNat_eq
      rw [BitVec.toNat_add, BitVec.toNat_ofNat]
      omega
    simp only [h4, if_false, e]
    simp
    omega

/-- After a padded tail word any further word is a fault (93_implementation_defined U12). -/
theorem feedAvail_ragged {k : Nat} {s : State} (ht : s.tailFed = true)
    (hr : s.desc.inAddr.toNat + s.desc.inLen.toNat ≤ Config.hostSpace) (hlt : s.desc.inOff.toNat < s.desc.inLen.toNat) :
    feedAvail k s = .error .raggedMidStream := by
  have hw : ∀ m, m ≤ s.desc.inLen.toNat - s.desc.inOff.toNat → feedWord m s = .error .raggedMidStream := by
    intro m hm
    rw [feedWord, memRead_ok.mpr ⟨by omega, rfl⟩]
    simp [bind, Except.bind, pushInput, ht]
  unfold feedAvail inAvail
  split
  · rename_i hp
    obtain ⟨n, hn⟩ := Nat.exists_eq_succ_of_ne_zero (Nat.pos_iff_ne_zero.mp hp)
    rw [hn, feedWhole, hw 4 (by omega)]
    rfl
  · exact hw _ (le_refl _)

/-! ## The refill callback (43_transfer_fsm R218, 44_stream_buffers R272) -/

/-- The reply changes the Streaming Buffer Manager or the outside host's answers and the draw counter, no more. -/
theorem refillReply_frame (consumed : Word) (s : State) :
    (refillReply consumed s).2 = { s with
      sb := (refillReply consumed s).2.sb
      host := { s.host with refillReplies := (refillReply consumed s).2.host.refillReplies }
      draws := (refillReply consumed s).2.draws } := by
  unfold refillReply
  split
  · unfold managerRefill
    simp only
    split
    · rfl
    · split <;> rfl
  · unfold outsideRefill
    split <;> simp [State.drew]

/-- The reply stands on the parameters, the manager, the host's answers and the draw counter. -/
theorem refillReply_congr {consumed : Word} {s t : State} (hc : t.cfg = s.cfg) (hb : t.sb = s.sb) (hh : t.host = s.host)
    (hd : t.draws = s.draws) : (refillReply consumed t).1 = (refillReply consumed s).1 := by
  unfold refillReply managerRefill outsideRefill
  simp only [hc, hb, hh, hd, apply_ite Prod.fst]
  congr 1
  cases s.host.refillReplies <;> rfl

/-- All that `Refill()` can do: a new active buffer, checked, and no pause; or an empty one and a pause. -/
theorem refill_cases {s t : State} (h : refill s = .ok t) :
    ∃ sb host draws addr len, (host = { s.host with refillReplies := host.refillReplies }) ∧
      (sb = s.sb ∨ s.host.managed = true) ∧
      let u : State := { s with
        trace := s.trace ++ [.refill s.desc.inOff]
        desc := { s.desc with inAddr := addr, inLen := len, inOff := 0#32 }
        sb := sb
        host := host
        draws := draws }
      (t = u ∧ len ≠ 0#32 ∧ inputFault u = none) ∨
        (t = u.pauseInput ∧ len = 0#32 ∧ (addr = s.desc.inAddr ∨ inputFault u = none)) := by
  unfold refill at h
  simp only at h
  have hf := refillReply_frame s.desc.inOff (s.emit (.refill s.desc.inOff))
  have hsb : (refillReply s.desc.inOff (s.emit (.refill s.desc.inOff))).2.sb = s.sb ∨ s.host.managed = true := by
    by_cases hm : s.host.managed = true
    · exact .inr hm
    · left
      rw [refillReply, State.emit_host, if_neg hm, outsideRefill]
      split <;> rfl
  generalize refillReply s.desc.inOff (s.emit (.refill s.desc.inOff)) = p at h hf hsb
  obtain ⟨r, v⟩ := p
  simp only at h hf hsb
  unfold takeRefill at h
  cases r with
  | supply addr len =>
    simp only at h
    split at h
    · cases h
    · rename_i hnone
      cases h
      refine ⟨v.sb, v.host, v.draws, addr, len, by rw [hf]; simp, hsb, ?_⟩
      have hv : ({ v with desc := { v.desc with inAddr := addr, inLen := len, inOff := 0#32 } } : State) =
          { s with
            trace := s.trace ++ [.refill s.desc.inOff]
            desc := { s.desc with inAddr := addr, inLen := len, inOff := 0#32 }
            sb := v.sb
            host := v.host
            draws := v.draws } := by
        rw [hf]; simp [State.emit]
      rw [hv] at hnone ⊢
      by_cases hl : len = 0#32
      · right; simp [hl] at hnone ⊢; exact .inr hnone
      · left; simp [hl]; exact hnone
  | pause =>
    cases h
    refine ⟨v.sb, v.host, v.draws, s.desc.inAddr, 0#32, by rw [hf]; simp, hsb, .inr ⟨?_, rfl, .inl rfl⟩⟩
    rw [hf]; simp [State.emit]
  | command => cases h

/-- `Refill()` with a supplied buffer that passes the tests. -/
theorem refill_of_supply {s v : State} {addr len : Word}
    (h : refillReply s.desc.inOff (s.emit (.refill s.desc.inOff)) = (.supply addr len, v))
    (hp : inputFault { v with desc := { v.desc with inAddr := addr, inLen := len, inOff := 0#32 } } = none) :
    refill s = .ok (
      let t : State := { v with desc := { v.desc with inAddr := addr, inLen := len, inOff := 0#32 } }
      if len = 0#32 then t.pauseInput else t) := by
  simp only [refill, h, takeRefill, hp]

/-- A supplied buffer that breaks R218 or overlaps ends it in that fault (60_exceptions R304 (e)). -/
theorem refill_of_bad {s v : State} {addr len : Word} {f : Fault}
    (h : refillReply s.desc.inOff (s.emit (.refill s.desc.inOff)) = (.supply addr len, v))
    (hf : inputFault { v with desc := { v.desc with inAddr := addr, inLen := len, inOff := 0#32 } } = some f) :
    refill s = .error f := by
  unfold refill takeRefill
  rw [h]
  simp only [hf]

/-- `Refill()` with a `Pause` reply. -/
theorem refill_of_pause {s v : State}
    (h : refillReply s.desc.inOff (s.emit (.refill s.desc.inOff)) = (.pause, v)) :
    refill s = .ok ({ v with desc := { v.desc with inLen := 0#32, inOff := 0#32 } } : State).pauseInput := by
  simp only [refill, h, takeRefill]

end Sys2Proof.Machine
end

