-- ==== Sys2Proof/Laws/Output.lean ====
section
/-! SUPPORT. The output drain path: which bytes reach the output buffer and the host, in which order, what the host's replies
decide, and what completion leaves (43_transfer_fsm R219, R221, R222, R234, R237). The lemmas `_ok` hold of any host; `_continues`,
`_passes` and `_pauses` say what its replies lead to, and `_managed` what the Streaming Buffer Manager's do. -/

namespace Sys2Proof.Machine

open Sys2Proof

/-! ## Byte lists -/

theorem drainBytes_append (xs ys : List Effect) : drainBytes (xs ++ ys) = drainBytes xs ++ drainBytes ys := by
  induction xs with
  | nil => rfl
  | cons e xs ih => cases e <;> simp [drainBytes, ih]

theorem readBytes_add (m : Store Byte) (a n k : Nat) :
    readBytes m a (n + k) = readBytes m a n ++ readBytes m (a + n) k := by
  simp [readBytes, List.range_add, Nat.add_assoc]

@[simp] theorem readBytes_zero (m : Store Byte) (a : Nat) : readBytes m a 0 = [] := rfl

/-- The bytes just written read back. -/
theorem readBytes_writeBytes_self (m : Store Byte) (a : Nat) (bs : List Byte) :
    readBytes (writeBytes m a bs) a bs.length = bs := by
  apply List.ext_getElem (by simp)
  intro i h1 h2
  simp only [readBytes, List.getElem_map, List.getElem_range]
  exact readByte_writeBytes_inside h2

/-- Bytes below a write read as before. -/
theorem readBytes_writeBytes_below {m : Store Byte} {a b n : Nat} {bs : List Byte} (h : b + n ≤ a) :
    readBytes (writeBytes m a bs) b n = readBytes m b n :=
  readBytes_congr fun _ _ h2 => readByte_writeBytes_outside (.inl (by omega))

/-! ## The drains of a buffer that bytes run through -/

theorem undrained_length (len : Word) (bs : List Byte) : (undrained len bs).length = bs.length % len.toNat := by
  have := Nat.div_add_mod bs.length len.toNat
  simp [undrained]
  omega

/-- Bytes that fill the buffer a whole number of times are drained before those after them. -/
theorem fullDrains_append {addr len : Word} {p x : List Byte} {k : Nat} (hl : 0 < len.toNat)
    (hp : p.length = len.toNat * k) :
    fullDrains addr len (p ++ x) = fullDrains addr len p ++ fullDrains addr len x ∧
      undrained len (p ++ x) = undrained len x := by
  have hdiv : (p.length + x.length) / len.toNat = k + x.length / len.toNat := by
    rw [hp, Nat.mul_add_div hl]
  have hk : p.length / len.toNat = k := by rw [hp, Nat.mul_div_cancel_left _ hl]
  have hdrop : ∀ j, (p ++ x).drop (len.toNat * (k + j)) = x.drop (len.toNat * j) := fun j => by
    rw [Nat.mul_add, ← hp, List.drop_length_add_append]
  constructor
  · unfold fullDrains
    rw [List.length_append, hdiv, hk, List.range_add, List.map_append, List.map_map]
    congr 1
    · refine List.map_congr_left fun j hj => ?_
      have hj' : len.toNat * (j + 1) ≤ len.toNat * k := Nat.mul_le_mul_left _ (List.mem_range.mp hj)
      rw [List.drop_append_of_le_length (by rw [hp]; exact le_trans (Nat.mul_le_mul_left _ (Nat.le_succ j)) hj'),
        List.take_append_of_le_length (by rw [List.length_drop, hp]; rw [Nat.mul_add] at hj'; omega)]
    · refine List.map_congr_left fun j _ => ?_
      simp only [Function.comp_apply, hdrop]
  · unfold undrained
    rw [List.length_append, hdiv, hdrop]

theorem fullDrains_short {addr len : Word} {bs : List Byte} (h : bs.length < len.toNat) :
    fullDrains addr len bs = [] ∧ undrained len bs = bs := by
  simp [fullDrains, undrained, Nat.div_eq_of_lt h]

/-- What the buffer holds, and the bytes after it, decide what is drained next. -/
theorem fullDrains_trans {addr len : Word} {bs x : List Byte} (hl : 0 < len.toNat) :
    fullDrains addr len (bs ++ x) = fullDrains addr len bs ++ fullDrains addr len (undrained len bs ++ x) ∧
      undrained len (bs ++ x) = undrained len (undrained len bs ++ x) := by
  have hlen : (bs.take (len.toNat * (bs.length / len.toNat))).length = len.toNat * (bs.length / len.toNat) := by
    rw [List.length_take]
    exact Nat.min_eq_left (Nat.mul_div_le _ _)
  have hs : bs = bs.take (len.toNat * (bs.length / len.toNat)) ++ undrained len bs := (List.take_append_drop _ bs).symm
  have h1 := fullDrains_append (addr := addr) (x := undrained len bs) hl hlen
  have h2 := fullDrains_append (addr := addr) (x := undrained len bs ++ x) hl hlen
  rw [← hs, (fullDrains_short (addr := addr) (bs := undrained len bs) (by rw [undrained_length]; exact Nat.mod_lt _ hl)).1, List.append_nil] at h1
  rw [← List.append_assoc, ← hs, ← h1.1] at h2
  exact h2

/-- The drains carry all bytes but those the buffer still holds. -/
theorem drainBytes_fullDrains (addr len : Word) (bs : List Byte) :
    drainBytes (fullDrains addr len bs) ++ undrained len bs = bs := by
  have key : ∀ n, drainBytes ((List.range n).map (fun j =>
      Effect.drain addr len ((bs.drop (len.toNat * j)).take len.toNat))) = bs.take (len.toNat * n) := by
    intro n
    induction n with
    | zero => simp [drainBytes]
    | succ n ih =>
      rw [List.range_succ, List.map_append, drainBytes_append, ih, Nat.mul_succ, List.take_add]
      simp [drainBytes]
  rw [fullDrains, key]
  exact List.take_append_drop _ _

/-- At a job's end every byte is drained. -/
theorem drainBytes_finalEffects (addr len : Word) (op : Option JobOp) (bs : List Byte) :
    drainBytes (finalEffects addr len op bs) = bs := by
  have h := drainBytes_fullDrains addr len bs
  unfold finalEffects
  simp only [drainBytes_append]
  split
  · rename_i h0
    rw [h0, List.append_nil] at h
    simp [drainBytes, h]
  · simp [drainBytes, h]

theorem finalEffects_last (addr len : Word) (op : Option JobOp) (bs : List Byte) :
    (finalEffects addr len op bs).getLast? = some (.done op) := by
  simp [finalEffects]

/-! ## The buffer -/

/-- The output buffer can take a word: it lies in host memory and the fill offset stands on a word of it. -/
structure OutReady (d : Desc) : Prop where
  space : d.outAddr.toNat + d.outLen.toNat ≤ Config.hostSpace
  off : d.outOff.toNat < d.outLen.toNat
  words : d.outLen.toNat % 4 = 0 ∧ d.outOff.toNat % 4 = 0

theorem outReady_of_inv {s : State} (h : Inv s) (hj : s.fsm ≠ .idle) : OutReady s.desc where
  space := by simpa [inHostSpace] using h.buffers.out_space hj
  off := h.buffers.out_off hj
  words := h.buffers.out_words hj

/-- The words `ws` left `OFIFO` for the output buffer, and nothing else happened but drains of the full buffer, and a pause that
one of them may have asked for. -/
structure OutMoved (s t : State) (ws : List Word) : Prop where
  frame : drainedFrame s t
  fifo : s.ofifo = ws ++ t.ofifo
  effects : t.trace = s.trace ++ fullDrains s.desc.outAddr s.desc.outLen
    (readBytes s.hmem s.desc.outAddr.toNat s.desc.outOff.toNat ++ ws.flatMap bytesOfWord)
  left : readBytes t.hmem s.desc.outAddr.toNat t.desc.outOff.toNat = undrained s.desc.outLen
    (readBytes s.hmem s.desc.outAddr.toNat s.desc.outOff.toNat ++ ws.flatMap bytesOfWord)
  off : t.desc.outOff.toNat = (s.desc.outOff.toNat + 4 * ws.length) % s.desc.outLen.toNat
  outside : ∀ a, a < s.desc.outAddr.toNat ∨ s.desc.outAddr.toNat + s.desc.outLen.toNat ≤ a →
    readByte t.hmem a = readByte s.hmem a

/-- The descriptors keep all but the fill offset. -/
theorem OutMoved.desc {s t : State} {ws : List Word} (h : OutMoved s t ws) :
    t.desc = { s.desc with outOff := t.desc.outOff } := by
  have := congrArg State.desc h.frame.1
  exact this

/-- No byte is lost or doubled. -/
theorem OutMoved.bytes {s t : State} {ws : List Word} (h : OutMoved s t ws) :
    drainBytes t.trace ++ readBytes t.hmem s.desc.outAddr.toNat t.desc.outOff.toNat =
      drainBytes s.trace ++ readBytes s.hmem s.desc.outAddr.toNat s.desc.outOff.toNat ++ ws.flatMap bytesOfWord := by
  rw [h.effects, h.left, drainBytes_append, List.append_assoc, drainBytes_fullDrains, List.append_assoc]

theorem OutMoved.ready {s t : State} {ws : List Word} (h : OutMoved s t ws) (hr : OutReady s.desc) : OutReady t.desc := by
  have hoff := h.off
  obtain ⟨h1, h2, h3, h4⟩ := hr
  have hd := h.desc
  refine ⟨?_, ?_, ?_⟩
  · rw [hd]; exact h1
  · rw [hd]
    simp only [hoff]
    exact Nat.mod_lt _ (by omega)
  · rw [hd]
    refine ⟨h3, ?_⟩
    simp only [hoff]
    obtain ⟨k, hk⟩ := Nat.dvd_of_mod_eq_zero h3
    rw [hk, Nat.mod_mul_right_mod]
    omega

theorem OutMoved.refl {s : State} (hr : OutReady s.desc) : OutMoved s s [] where
  frame := drainedFrame_refl s
  fifo := rfl
  effects := by simp [(fullDrains_short (addr := s.desc.outAddr) (len := s.desc.outLen)
    (bs := readBytes s.hmem s.desc.outAddr.toNat s.desc.outOff.toNat) (by simpa using hr.off)).1]
  left := by simp [(fullDrains_short (addr := s.desc.outAddr) (len := s.desc.outLen)
    (bs := readBytes s.hmem s.desc.outAddr.toNat s.desc.outOff.toNat) (by simpa using hr.off)).2]
  off := by simp [Nat.mod_eq_of_lt hr.off]
  outside := fun _ _ => rfl

theorem OutMoved.trans {s t u : State} {ws vs : List Word} (hl0 : 0 < s.desc.outLen.toNat) (h : OutMoved s t ws)
    (h' : OutMoved t u vs) : OutMoved s u (ws ++ vs) := by
  have hd := h.desc
  have ha : t.desc.outAddr = s.desc.outAddr := by rw [hd]
  have hl : t.desc.outLen = s.desc.outLen := by rw [hd]
  have hb : readBytes s.hmem s.desc.outAddr.toNat s.desc.outOff.toNat ++ (ws ++ vs).flatMap bytesOfWord =
      readBytes s.hmem s.desc.outAddr.toNat s.desc.outOff.toNat ++ ws.flatMap bytesOfWord ++ vs.flatMap bytesOfWord := by
    simp
  constructor
  · exact drainedFrame_trans h.frame h'.frame
  · rw [h.fifo, h'.fifo, List.append_assoc]
  · have b := h'.effects
    rw [ha, hl, h.left] at b
    rw [b, h.effects, hb, List.append_assoc, ← (fullDrains_trans hl0).1]
  · have b := h'.left
    rw [ha, hl, h.left] at b
    rw [b, hb, ← (fullDrains_trans (addr := s.desc.outAddr) hl0).2]
  · rw [h'.off, h.off, hl, List.length_append]
    rw [Nat.mod_add_mod]
    congr 1
    omega
  · intro a hout
    rw [h'.outside a (by rw [ha, hl]; exact hout), h.outside a hout]

/-! ## The host's replies -/

theorem HostSide.continues_zero (h : HostSide) : h.continues 0 h := by
  unfold HostSide.continues
  split
  · rfl
  · exact ⟨h.drainReplies, rfl, rfl⟩

theorem HostSide.continues_zero_iff {h h' : HostSide} : h.continues 0 h' ↔ h' = h := by
  refine ⟨fun hc => ?_, fun e => e ▸ h.continues_zero⟩
  unfold HostSide.continues at hc
  split at hc
  · exact hc
  · obtain ⟨rs, hr, rfl⟩ := hc
    simp only [List.replicate_zero, List.nil_append] at hr
    rw [← hr]

theorem HostSide.continues_of_managed {h : HostSide} (n : Nat) (hm : h.managed = true) : h.continues n h := by
  simp [HostSide.continues, hm]

theorem HostSide.continues_add {h h' : HostSide} {n k : Nat} (hc : h.continues (n + k) h') :
    ∃ m, h.continues n m ∧ m.continues k h' := by
  unfold HostSide.continues at hc ⊢
  split at hc
  · exact ⟨h, by simp [*], by simp [*]⟩
  · rename_i hm
    obtain ⟨rs, hr, rfl⟩ := hc
    rw [← List.replicate_append_replicate, List.append_assoc] at hr
    exact ⟨{ h with drainReplies := List.replicate k .proceed ++ rs }, by simp [hm, hr], by simp [hm]⟩

theorem HostSide.pausesAfter_add {h h' : HostSide} {n k : Nat} (hc : h.pausesAfter (n + k) h') :
    ∃ m, h.continues n m ∧ m.pausesAfter k h' := by
  obtain ⟨hm, rs, hr, rfl⟩ := hc
  rw [← List.replicate_append_replicate, List.append_assoc] at hr
  refine ⟨{ h with drainReplies := List.replicate k .proceed ++ .pause :: rs }, ?_, hm, rs, rfl, rfl⟩
  simp [HostSide.continues, hm, hr]

theorem HostSide.passes_zero_iff {h h' : HostSide} : h.passes 0 h' ↔ h' = h := by
  constructor
  · rintro (hc | ⟨k, hk, -⟩)
    · exact HostSide.continues_zero_iff.mp hc
    · omega
  · exact fun e => .inl (HostSide.continues_zero_iff.mpr e)

/-- Only listed replies to `DRAIN` are used up. -/
theorem HostSide.passes_notices {h h' : HostSide} {n : Nat} (hc : h.passes n h') : h'.notices = h.notices := by
  rcases hc with hc | ⟨k, -, -, rs, -, rfl⟩
  · unfold HostSide.continues at hc
    split at hc
    · rw [hc]
    · obtain ⟨rs, -, rfl⟩ := hc
      rfl
  · rfl

/-- The last `DRAIN` may be answered with `Continue` or `Pause`, those before it with `Continue`. -/
theorem HostSide.passes_succ {h h' : HostSide} {n : Nat} (hc : h.passes (n + 1) h') :
    ∃ m, h.continues n m ∧ m.passes 1 h' := by
  rcases hc with hc | ⟨k, hk, hc⟩
  · obtain ⟨m, h1, h2⟩ := HostSide.continues_add hc
    exact ⟨m, h1, .inl h2⟩
  · obtain rfl : k = n := by omega
    obtain ⟨m, h1, h2⟩ := HostSide.pausesAfter_add (n := k) (k := 0) hc
    exact ⟨m, h1, .inr ⟨0, rfl, h2⟩⟩

theorem drain_continues {addr len : Word} {s : State} {h : HostSide} (hc : s.host.continues 1 h) :
    drain addr len s = .ok (false, { s.emit (.drain addr len (readBytes s.hmem addr.toNat len.toNat)) with host := h }) := by
  unfold HostSide.continues at hc
  split at hc
  · rename_i hm
    rw [drain_managed hm, hc]
    rfl
  · rename_i hm
    obtain ⟨rs, hr, rfl⟩ := hc
    simp [drain, drainReply, hm, hr, State.emit]

theorem drain_pauses {addr len : Word} {s : State} {h : HostSide} (hc : s.host.pausesAfter 0 h) :
    drain addr len s = .ok (true, { s.emit (.drain addr len (readBytes s.hmem addr.toNat len.toNat)) with host := h }) := by
  obtain ⟨hm, rs, hr, rfl⟩ := hc
  simp [drain, drainReply, hm, hr, State.emit]

/-- A full buffer drained with `Continue`. -/
theorem drainFull_continues {s : State} {h : HostSide} (hc : s.host.continues 1 h) : drainFull s = .ok { s with
    trace := s.trace ++ [.drain s.desc.outAddr s.desc.outLen (readBytes s.hmem s.desc.outAddr.toNat s.desc.outLen.toNat)]
    desc := { s.desc with outOff := 0#32 }
    host := h } := by
  unfold drainFull
  rw [drain_continues hc]
  rfl

/-- A full buffer drained with `Pause`. -/
theorem drainFull_pauses {s : State} {h : HostSide} (hc : s.host.pausesAfter 0 h) : drainFull s = .ok { s.pauseOutput with
    trace := s.trace ++ [.drain s.desc.outAddr s.desc.outLen (readBytes s.hmem s.desc.outAddr.toNat s.desc.outLen.toNat)]
    desc := { s.desc with outOff := 0#32 }
    host := h } := by
  unfold drainFull
  rw [drain_pauses hc]
  rfl

/-! ## Moving words -/

/-- What one word of `StoreWords` does, whatever the `DRAIN` of a buffer it fills is answered. -/
theorem storeWord_eq {s : State} {w : Word} {rest : List Word} (hr : OutReady s.desc) :
    storeWord w { s with ofifo := rest } =
      let t : State := { s with
        ofifo := rest
        hmem := writeBytes s.hmem (s.desc.outAddr.toNat + s.desc.outOff.toNat) (bytesOfWord w)
        desc := { s.desc with outOff := s.desc.outOff + 4#32 } }
      if s.desc.outOff.toNat + 4 = s.desc.outLen.toNat then drainFull t else .ok t := by
  obtain ⟨hs, ho, hw, hw'⟩ := hr
  have hlt := s.desc.outLen.isLt
  have hoff : (s.desc.outOff + 4#32).toNat = s.desc.outOff.toNat + 4 := by
    rw [BitVec.toNat_add]
    simp only [BitVec.toNat_ofNat]
    omega
  have hwr : memWrite (s.desc.outAddr.toNat + s.desc.outOff.toNat) (bytesOfWord w) { s with ofifo := rest } =
      .ok { s with
        ofifo := rest
        hmem := writeBytes s.hmem (s.desc.outAddr.toNat + s.desc.outOff.toNat) (bytesOfWord w) } :=
    memWrite_ok.mpr ⟨by simp only [bytesOfWord_length]; omega, rfl⟩
  unfold storeWord
  simp only [hwr, bind, Except.bind, pure, Except.pure, ← BitVec.toNat_inj, hoff]

/-- One word of `StoreWords` with any host. -/
theorem storeWord_ok {s t : State} {w : Word} {rest : List Word} (hr : OutReady s.desc) (hf : s.ofifo = w :: rest)
    (h : storeWord w { s with ofifo := rest } = .ok t) : OutMoved s t [w] := by
  have hframe : drainedFrame s t :=
    drainedFrame_trans (t := { s with ofifo := rest }) ⟨rfl, .inl ⟨rfl, rfl⟩⟩ (storeWord_frame h)
  rw [storeWord_eq hr] at h
  obtain ⟨hs, ho, hw, hw'⟩ := hr
  have hlt := s.desc.outLen.isLt
  have hoff : (s.desc.outOff + 4#32).toNat = s.desc.outOff.toNat + 4 := by
    rw [BitVec.toNat_add]
    simp only [BitVec.toNat_ofNat]
    omega
  have hbytes : readBytes (writeBytes s.hmem (s.desc.outAddr.toNat + s.desc.outOff.toNat) (bytesOfWord w))
      s.desc.outAddr.toNat (s.desc.outOff.toNat + 4) =
      readBytes s.hmem s.desc.outAddr.toNat s.desc.outOff.toNat ++ bytesOfWord w := by
    rw [readBytes_add, readBytes_writeBytes_below (by omega)]
    exact congrArg _ (readBytes_writeBytes_self _ _ (bytesOfWord w))
  have hout : ∀ a, a < s.desc.outAddr.toNat ∨ s.desc.outAddr.toNat + s.desc.outLen.toNat ≤ a →
      readByte (writeBytes s.hmem (s.desc.outAddr.toNat + s.desc.outOff.toNat) (bytesOfWord w)) a = readByte s.hmem a :=
    fun a h => readByte_writeBytes_outside (by simp only [bytesOfWord_length]; omega)
  by_cases hfull : s.desc.outOff.toNat + 4 = s.desc.outLen.toNat
  · simp only [hfull, if_true] at h
    obtain ⟨p, hp, hq⟩ := bind_eq_ok.mp h
    have hfr := drain_frame hp
    rw [pure_eq_ok] at hq
    have hm : t.hmem = writeBytes s.hmem (s.desc.outAddr.toNat + s.desc.outOff.toNat) (bytesOfWord w) := by
      rw [← hq, hfr]; split <;> rfl
    have hof : t.ofifo = rest := by rw [← hq, hfr]; split <;> rfl
    have hd : t.desc.outOff = 0#32 := by rw [← hq]; split <;> rfl
    have htr : t.trace = s.trace ++ [.drain s.desc.outAddr s.desc.outLen (readBytes
        (writeBytes s.hmem (s.desc.outAddr.toNat + s.desc.outOff.toNat) (bytesOfWord w))
        s.desc.outAddr.toNat s.desc.outLen.toNat)] := by
      rw [← hq, hfr]; split <;> rfl
    constructor
    · exact hframe
    · simp [hf, hof]
    · rw [htr]
      simp [fullDrains, ← hfull, hbytes, List.take_of_length_le]
    · simp [undrained, ← hfull, hd]
    · simp [← hfull, hd]
    · rw [hm]; exact hout
  · simp only [hfull, if_false, Except.ok.injEq] at h
    subst h
    constructor
    · exact hframe
    · simp [hf]
    · simp [(fullDrains_short (addr := s.desc.outAddr) (len := s.desc.outLen) (bs := readBytes s.hmem
        s.desc.outAddr.toNat s.desc.outOff.toNat ++ bytesOfWord w) (by simp; omega)).1]
    · simp only [hoff, hbytes, List.flatMap_cons, List.flatMap_nil, List.append_nil]
      exact (fullDrains_short (addr := s.desc.outAddr) (by simp; omega)).2.symm
    · simp only [hoff, List.length_singleton]
      exact (Nat.mod_eq_of_lt (by omega)).symm
    · exact hout

/-- `StoreWords(n)` with any host: the oldest words, in order, as many as the replies let it move. -/
theorem storeWords_ok {n : Nat} {s t : State} (hr : OutReady s.desc) (h : storeWords n s = .ok t) :
    ∃ m, m ≤ n ∧ OutMoved s t (s.ofifo.take m) ∧ (m < n → t.ctx.pauseOut = true ∨ t.ofifo = []) := by
  induction n generalizing s with
  | zero => cases h; exact ⟨0, le_refl _, by simpa using OutMoved.refl hr, by simp⟩
  | succ n ih =>
    unfold storeWords at h
    split at h
    · rename_i hp
      cases h
      exact ⟨0, Nat.zero_le _, by simpa using OutMoved.refl hr, fun _ => .inl hp⟩
    · cases hf : s.ofifo with
      | nil =>
        rw [hf] at h
        cases h
        exact ⟨0, Nat.zero_le _, by simpa using OutMoved.refl hr, fun _ => .inr hf⟩
      | cons w rest =>
        simp only [hf] at h
        obtain ⟨u, hu, hw⟩ := bind_eq_ok.mp h
        have hmv := storeWord_ok hr hf hu
        have hrest : u.ofifo = rest := by
          have := hmv.fifo
          rw [hf] at this
          simpa using this.symm
        obtain ⟨m, hm, hmv', hend⟩ := ih (hmv.ready hr) hw
        refine ⟨m + 1, Nat.succ_le_succ hm, ?_, fun hlt => hend (Nat.lt_of_succ_lt_succ hlt)⟩
        have := hmv.trans (Nat.lt_of_le_of_lt (Nat.zero_le _) hr.off) hmv'
        rwa [hrest] at this

/-- The state after drained words that paused nothing: only what `OutMoved` says, and the host's answers. -/
def answered (s t : State) (h : HostSide) : Prop :=
  t = { s with
    hmem := t.hmem
    ofifo := t.ofifo
    desc := { s.desc with outOff := t.desc.outOff }
    trace := t.trace
    host := h }

theorem answered_trans {s t u : State} {h h' : HostSide} (e : answered s t h) (e' : answered t u h') : answered s u h' := by
  unfold answered at *
  generalize t.hmem = a1, t.ofifo = a2, t.desc.outOff = a3, t.trace = a4 at e
  subst e
  exact e'

/-- One word of `StoreWords`, a `DRAIN` answered with `Continue`. -/
theorem storeWord_continues {s : State} {w : Word} {rest : List Word} {h : HostSide} (hr : OutReady s.desc)
    (hf : s.ofifo = w :: rest) (hc : s.host.continues ((s.desc.outOff.toNat + 4) / s.desc.outLen.toNat) h) :
    ∃ t, storeWord w { s with ofifo := rest } = .ok t ∧ OutMoved s t [w] ∧ answered s t h := by
  have ho := hr.off
  have hw := hr.words
  by_cases hfull : s.desc.outOff.toNat + 4 = s.desc.outLen.toNat
  · rw [hfull, Nat.div_self (by omega)] at hc
    have e := storeWord_eq (w := w) (rest := rest) hr
    simp only [hfull, if_true] at e
    replace e := e.trans (drainFull_continues hc)
    exact ⟨_, e, storeWord_ok hr hf e, rfl⟩
  · rw [Nat.div_eq_of_lt (by omega)] at hc
    obtain rfl := HostSide.continues_zero_iff.mp hc
    have e := storeWord_eq (w := w) (rest := rest) hr
    simp only [hfull, if_false] at e
    exact ⟨_, e, storeWord_ok hr hf e, rfl⟩

/-- The buffers that two runs of bytes fill one after the other. -/
theorem div_add_rest (a b l : Nat) (hl : 0 < l) : (a + b) / l = a / l + (a % l + b) / l := by
  have h := Nat.div_add_mod a l
  conv_lhs => rw [← h, Nat.add_assoc, Nat.mul_add_div hl]

theorem storeWords_nil {n : Nat} {s : State} (he : s.ofifo = []) : storeWords n s = .ok s := by
  cases n with
  | zero => rfl
  | succ n => unfold storeWords; rw [he]; split <;> rfl

theorem storeWords_paused {n : Nat} {s : State} (hp : s.ctx.pauseOut = true) : storeWords n s = .ok s := by
  cases n with
  | zero => rfl
  | succ n => unfold storeWords; rw [if_pos hp]

theorem storeWords_cons {n : Nat} {s t : State} {w : Word} {rest : List Word} (hp : s.ctx.pauseOut = false)
    (hf : s.ofifo = w :: rest) (h : storeWord w { s with ofifo := rest } = .ok t) :
    storeWords (n + 1) s = storeWords n t := by
  conv_lhs => unfold storeWords
  rw [if_neg (by simp [hp]), hf]
  simp only [h, bind, Except.bind]

/-- `StoreWords(n)` whose `DRAIN`s are answered with `Continue`: the oldest `n` words, or all there are. -/
theorem storeWords_continues {n : Nat} {s : State} {h : HostSide} (hp : s.ctx.pauseOut = false ∨ s.ofifo = [])
    (hr : OutReady s.desc)
    (hc : s.host.continues ((s.desc.outOff.toNat + 4 * min n s.ofifo.length) / s.desc.outLen.toNat) h) :
    ∃ t, storeWords n s = .ok t ∧ OutMoved s t (s.ofifo.take n) ∧ answered s t h := by
  have ho := hr.off
  induction n generalizing s with
  | zero =>
    simp only [Nat.zero_min, Nat.mul_zero, Nat.add_zero, Nat.div_eq_of_lt ho] at hc
    obtain rfl := HostSide.continues_zero_iff.mp hc
    exact ⟨s, rfl, by simpa using OutMoved.refl hr, rfl⟩
  | succ n ih =>
    cases hf : s.ofifo with
    | nil =>
      simp only [hf, List.length_nil, Nat.min_zero, Nat.mul_zero, Nat.add_zero, Nat.div_eq_of_lt ho] at hc
      obtain rfl := HostSide.continues_zero_iff.mp hc
      exact ⟨s, storeWords_nil hf, by simpa using OutMoved.refl hr, rfl⟩
    | cons w rest =>
      have hp' : s.ctx.pauseOut = false := hp.resolve_right (by simp [hf])
      have hn : s.desc.outOff.toNat + 4 * min (n + 1) s.ofifo.length =
          s.desc.outOff.toNat + 4 + 4 * min n rest.length := by
        rw [hf, List.length_cons, Nat.add_min_add_right]
        omega
      rw [hn, div_add_rest _ _ _ (by omega)] at hc
      obtain ⟨h1, hc1, hc2⟩ := HostSide.continues_add hc
      obtain ⟨t, ht, hmv, ha⟩ := storeWord_continues hr hf hc1
      have hrest : t.ofifo = rest := by
        have := hmv.fifo
        rw [hf] at this
        simpa using this.symm
      have hoff := hmv.off
      have hlen : t.desc.outLen = s.desc.outLen := by rw [hmv.desc]
      have hhost : t.host = h1 := by rw [ha]
      have hctx : t.ctx = s.ctx := by rw [ha]
      obtain ⟨u, hu, hmv', ha'⟩ := ih (s := t) (.inl (by rw [hctx]; exact hp')) (hmv.ready hr)
        (by rw [hhost, hoff, hrest, hlen]; exact hc2) (hmv.ready hr).off
      refine ⟨u, (storeWords_cons hp' hf ht).trans hu, ?_, answered_trans ha ha'⟩
      have := hmv.trans (Nat.lt_of_le_of_lt (Nat.zero_le _) ho) hmv'
      rwa [hrest] at this

/-- `StoreWords(n)` with a `DRAIN` answered with `Pause`: it stops after the `m` words that brought that `DRAIN` to pass. -/
theorem storeWords_pauses {n m k : Nat} {s : State} {h : HostSide} (hp : s.ctx.pauseOut = false) (hr : OutReady s.desc)
    (hn : m ≤ n) (hm : m ≤ s.ofifo.length)
    (hk : s.desc.outOff.toNat + 4 * m = s.desc.outLen.toNat * (k + 1)) (hc : s.host.pausesAfter k h) :
    ∃ t, storeWords n s = .ok t ∧ OutMoved s t (s.ofifo.take m) ∧ answered s.pauseOutput t h ∧ t.desc.outOff = 0#32 := by
  have ho := hr.off
  induction n generalizing s m k with
  | zero =>
    obtain rfl : m = 0 := by omega
    exact absurd hk (by have := Nat.le_mul_of_pos_right s.desc.outLen.toNat (show 0 < k + 1 by omega); omega)
  | succ n ih =>
    have hle := Nat.le_mul_of_pos_right s.desc.outLen.toNat (show 0 < k + 1 by omega)
    obtain ⟨j, rfl⟩ : ∃ j, m = j + 1 := ⟨m - 1, by omega⟩
    cases hf : s.ofifo with
    | nil => simp [hf] at hm
    | cons w rest =>
      by_cases hlast : j = 0
      · subst hlast
        have hw := hr.words
        obtain rfl : k = 0 := by
          rcases Nat.eq_zero_or_pos k with h0 | h0
          · exact h0
          · have := Nat.le_mul_of_pos_right s.desc.outLen.toNat h0
            have := Nat.mul_add_one s.desc.outLen.toNat k
            omega
        have e := storeWord_eq (w := w) (rest := rest) hr
        simp only [show s.desc.outOff.toNat + 4 = s.desc.outLen.toNat by omega, if_true] at e
        replace e := e.trans (drainFull_pauses hc)
        exact ⟨_, (storeWords_cons hp hf e).trans (storeWords_paused rfl), storeWord_ok hr hf e, rfl, rfl⟩
      · have hw := hr.words
        have hsplit : ∃ k', k = (s.desc.outOff.toNat + 4) / s.desc.outLen.toNat + k' ∧
            (s.desc.outOff.toNat + 4) % s.desc.outLen.toNat + 4 * j = s.desc.outLen.toNat * (k' + 1) := by
          by_cases hfull : s.desc.outOff.toNat + 4 = s.desc.outLen.toNat
          · rw [hfull, Nat.div_self (by omega), Nat.mod_self]
            refine ⟨k - 1, ?_, ?_⟩
            · rcases Nat.eq_zero_or_pos k with h0 | h0
              · subst h0; omega
              · omega
            · rcases Nat.eq_zero_or_pos k with h0 | h0
              · subst h0; omega
              · rw [Nat.sub_add_cancel h0]
                have := Nat.mul_add_one s.desc.outLen.toNat k
                omega
          · refine ⟨k, ?_, ?_⟩
            · rw [Nat.div_eq_of_lt (by omega), Nat.zero_add]
            · rw [Nat.mod_eq_of_lt (by omega)]
              omega
        obtain ⟨k', rfl, hk'⟩ := hsplit
        obtain ⟨h1, hc1, hc2⟩ := HostSide.pausesAfter_add hc
        obtain ⟨t, ht, hmv, ha⟩ := storeWord_continues hr hf hc1
        have hrest : t.ofifo = rest := by
          have := hmv.fifo
          rw [hf] at this
          simpa using this.symm
        have hoff := hmv.off
        have hlen : t.desc.outLen = s.desc.outLen := by rw [hmv.desc]
        have hhost : t.host = h1 := by rw [ha]
        have hctx : t.ctx = s.ctx := by rw [ha]
        obtain ⟨u, hu, hmv', ha', h0⟩ := ih (s := t) (m := j) (k := k') (by rw [hctx]; exact hp) (hmv.ready hr) (by omega)
          (by rw [hrest]; simp [hf] at hm; omega) (by rw [hoff, hlen]; exact hk') (by rw [hhost]; exact hc2)
          (hmv.ready hr).off
        refine ⟨u, (storeWords_cons hp hf ht).trans hu, ?_, ?_, h0⟩
        · have := hmv.trans (Nat.lt_of_le_of_lt (Nat.zero_le _) ho) hmv'
          rwa [hrest] at this
        · unfold answered at ha ha' ⊢
          generalize t.hmem = a1, t.ofifo = a2, t.desc.outOff = a3, t.trace = a4 at ha
          subst ha
          exact ha'

/-- `StoreWords(n)` under the manager. -/
theorem storeWords_managed {n : Nat} {s : State} (hm : s.host.managed = true) (hp : s.ctx.pauseOut = false)
    (hr : OutReady s.desc) : ∃ t, storeWords n s = .ok t ∧ OutMoved s t (s.ofifo.take n) ∧ answered s t s.host :=
  storeWords_continues (.inl hp) hr (HostSide.continues_of_managed _ hm)

/-! ## Completion -/

/-- `Complete()` with any host: the bytes still in the output buffer reach the host, then `DONE`. -/
theorem complete_ok {s t : State} (h : complete s = .ok t) : t = { s.endJob with
    trace := s.trace ++ (if s.desc.outOff = 0#32 then [] else [.drain s.desc.outAddr s.desc.outOff
      (readBytes s.hmem s.desc.outAddr.toNat s.desc.outOff.toNat)]) ++ [.done s.ctx.op]
    desc := { s.desc with outOff := 0#32 }
    host := { s.host with drainReplies := t.host.drainReplies, notices := t.host.notices }
    draws := t.draws } := by
  unfold complete finalDrain at h
  obtain ⟨u, hu, hn⟩ := bind_eq_ok.mp h
  obtain ⟨_, rfl⟩ := notify_ok.mp hn
  by_cases h0 : s.desc.outOff = 0#32
  · rw [if_pos h0] at hu
    cases hu
    have hd : s.desc = { s.desc with outOff := 0#32 } := by rw [← h0]
    simp only [State.endJob, h0, if_true, List.append_nil, ← hd]
  · rw [if_neg h0] at hu
    obtain ⟨p, hp, hq⟩ := bind_eq_ok.mp hu
    have hf := drain_frame hp
    rw [pure_eq_ok] at hq
    rw [← hq, hf]
    simp [State.endJob, h0]

/-- `Complete()` whose final `DRAIN`, if there is one, is answered with anything but a command ("reply ignored"). -/
theorem complete_passes {s : State} {h : HostSide} (hc : s.host.passes (if s.desc.outOff = 0#32 then 0 else 1) h)
    (hn : s.host.notices.head? ≠ some .command) :
    complete s = .ok { s.endJob with
      trace := s.trace ++ (if s.desc.outOff = 0#32 then [] else [.drain s.desc.outAddr s.desc.outOff
        (readBytes s.hmem s.desc.outAddr.toNat s.desc.outOff.toNat)]) ++ [.done s.ctx.op]
      desc := { s.desc with outOff := 0#32 }
      host := { h with notices := h.notices.tail } } := by
  have hk : h.notices = s.host.notices := HostSide.passes_notices hc
  rw [← hk] at hn
  unfold complete finalDrain
  by_cases h0 : s.desc.outOff = 0#32
  · rw [if_pos h0] at hc ⊢
    rw [if_pos h0]
    obtain rfl := HostSide.passes_zero_iff.mp hc
    have hd : s.desc = { s.desc with outOff := 0#32 } := by rw [← h0]
    rw [List.append_nil]
    exact notify_ok.mpr ⟨hn, by simp only [State.endJob, ← hd]⟩
  · rw [if_neg h0] at hc ⊢
    rw [if_neg h0]
    have : ∃ b, drain s.desc.outAddr s.desc.outOff s = .ok (b, { s.emit (.drain s.desc.outAddr s.desc.outOff
        (readBytes s.hmem s.desc.outAddr.toNat s.desc.outOff.toNat)) with host := h }) := by
      rcases hc with hc | ⟨k, hk, hc⟩
      · exact ⟨_, drain_continues hc⟩
      · obtain rfl : k = 0 := by omega
        exact ⟨_, drain_pauses hc⟩
    obtain ⟨b, hb⟩ := this
    simp only [hb, bind, Except.bind, pure, Except.pure]
    exact notify_ok.mpr ⟨hn, by simp [State.endJob, State.emit]⟩

/-- `Finish()` with any host: no byte of the output is lost or doubled. -/
theorem finish_ok {s t : State} (hr : OutReady s.desc) (h : finish s = .ok t) :
    drainBytes t.trace ++ readBytes t.hmem t.desc.outAddr.toNat t.desc.outOff.toNat ++ t.ofifo.flatMap bytesOfWord =
      drainBytes s.trace ++ readBytes s.hmem s.desc.outAddr.toNat s.desc.outOff.toNat ++ s.ofifo.flatMap bytesOfWord := by
  unfold finish at h
  obtain ⟨u, hu, hw⟩ := bind_eq_ok.mp h
  obtain ⟨m, -, hmv, -⟩ := storeWords_ok hr hu
  have ha : u.desc.outAddr = s.desc.outAddr := by rw [hmv.desc]
  have key := hmv.bytes
  have hfifo := congrArg (List.flatMap bytesOfWord) hmv.fifo
  rw [List.flatMap_append] at hfifo
  split at hw
  · rename_i he
    have he : u.ofifo = [] := by simpa using he
    rw [he, List.flatMap_nil, List.append_nil] at hfifo
    rw [complete_ok hw, hfifo, ← key]
    by_cases h0 : u.desc.outOff = 0#32
    · simp [State.endJob, he, h0, drainBytes_append, drainBytes]
    · simp [State.endJob, he, h0, drainBytes_append, drainBytes, ha]
  · rw [pure_eq_ok] at hw
    subst hw
    rw [hfifo, ha, key, List.append_assoc]

/-- The number of `DRAIN`s of a job's end. -/
theorem finalEffects_length (addr len : Word) (op : Option JobOp) (bs : List Byte) :
    (finalEffects addr len op bs).length - 1 = bs.length / len.toNat + if undrained len bs = [] then 0 else 1 := by
  unfold finalEffects fullDrains
  split <;> simp [*]

/-- With every source off there is nothing to mask. -/
theorem State.pauseOutput_of_reset {s : State} (h : s.cr = .reset) :
    s.pauseOutput = { s with ctx := { s.ctx with pauseOut := true } } := by
  unfold State.pauseOutput
  split
  · have : ({ s.cr with ieOft := false, ieOfne := false, ieEoc := false } : Cr) = s.cr := by rw [h]; rfl
    rw [this]
  · rfl

/-- `Finish()` whose `DRAIN`s pass: every word and byte of the job reaches the host, then `DONE` (43_transfer_fsm R221, R222). -/
theorem finish_passes {s : State} {h : HostSide} (hp : s.ctx.pauseOut = false ∨ s.ofifo = []) (hr : OutReady s.desc)
    (hl : s.ofifo.length ≤ s.cfg.fifoDepth) (hcr : s.cr = .reset) (hn : s.host.notices.head? ≠ some .command)
    (hc : s.host.passes ((finalEffects s.desc.outAddr s.desc.outLen s.ctx.op
      (readBytes s.hmem s.desc.outAddr.toNat s.desc.outOff.toNat ++ s.ofifo.flatMap bytesOfWord)).length - 1) h) :
    ∃ t, finish s = .ok t ∧
    (∀ a, a < s.desc.outAddr.toNat ∨ s.desc.outAddr.toNat + s.desc.outLen.toNat ≤ a →
      readByte t.hmem a = readByte s.hmem a) ∧
    t = { s.endJob with
      hmem := t.hmem
      ofifo := []
      trace := s.trace ++ finalEffects s.desc.outAddr s.desc.outLen s.ctx.op
        (readBytes s.hmem s.desc.outAddr.toNat s.desc.outOff.toNat ++ s.ofifo.flatMap bytesOfWord)
      desc := { s.desc with outOff := 0#32 }
      host := { h with notices := h.notices.tail } } := by
  have hh : h.notices = s.host.notices := HostSide.passes_notices hc
  have ho := hr.off
  have hlen : (readBytes s.hmem s.desc.outAddr.toNat s.desc.outOff.toNat ++ s.ofifo.flatMap bytesOfWord).length =
      s.desc.outOff.toNat + 4 * s.ofifo.length := by
    simp [Nat.mul_comm]
  rw [finalEffects_length, hlen] at hc
  -- the words reach the buffer, and its last bytes are then drained
  have moved : ∃ (u : State) (h1 : HostSide), storeWords s.cfg.fifoDepth s = .ok u ∧ OutMoved s u s.ofifo ∧
      (∃ c : Ctx, c.idleDefaults = s.ctx.idleDefaults ∧ c.op = s.ctx.op ∧
        u = { s with
          hmem := u.hmem
          ofifo := []
          desc := { s.desc with outOff := u.desc.outOff }
          trace := u.trace
          host := h1
          ctx := c }) ∧
      h1.passes (if u.desc.outOff = 0#32 then 0 else 1) h := by
    have hmin : min s.cfg.fifoDepth s.ofifo.length = s.ofifo.length := Nat.min_eq_right hl
    have hempty : ∀ u, OutMoved s u s.ofifo → u.ofifo = [] := fun u hmv => by simpa using hmv.fifo
    have hrest : undrained s.desc.outLen
        (readBytes s.hmem s.desc.outAddr.toNat s.desc.outOff.toNat ++ s.ofifo.flatMap bytesOfWord) = [] ↔
        (s.desc.outOff.toNat + 4 * s.ofifo.length) % s.desc.outLen.toNat = 0 := by
      rw [← List.length_eq_zero_iff, undrained_length, hlen]
    have goOn : ∀ h1, s.host.continues ((s.desc.outOff.toNat + 4 * s.ofifo.length) / s.desc.outLen.toNat) h1 →
        ∃ u, storeWords s.cfg.fifoDepth s = .ok u ∧ OutMoved s u s.ofifo ∧ answered s u h1 := fun h1 hc1 => by
      have := storeWords_continues (n := s.cfg.fifoDepth) hp hr (by rw [hmin]; exact hc1)
      rwa [List.take_of_length_le hl] at this
    by_cases h0 : (s.desc.outOff.toNat + 4 * s.ofifo.length) % s.desc.outLen.toNat = 0
    · rw [if_pos (hrest.mpr h0), Nat.add_zero] at hc
      rcases hc with hc | ⟨k, hk, hc⟩
      · obtain ⟨u, hu, hmv, ha⟩ := goOn h hc
        have hz : u.desc.outOff = 0#32 := BitVec.eq_of_toNat_eq (hmv.off.trans h0)
        unfold answered at ha
        rw [hempty u hmv] at ha
        exact ⟨u, h, hu, hmv, ⟨s.ctx, rfl, rfl, ha⟩, by rw [if_pos hz]; exact HostSide.passes_zero_iff.mpr rfl⟩
      · have hdiv := Nat.div_add_mod (s.desc.outOff.toNat + 4 * s.ofifo.length) s.desc.outLen.toNat
        rw [h0, hk, Nat.add_zero] at hdiv
        have hp' : s.ctx.pauseOut = false := hp.resolve_right fun e => by
          rw [e] at hk
          simp [Nat.div_eq_of_lt ho] at hk
        obtain ⟨u, hu, hmv, ha, hz⟩ := storeWords_pauses hp' hr hl (le_refl _) hdiv.symm hc
        rw [List.take_length] at hmv
        unfold answered at ha
        rw [hempty u hmv] at ha
        refine ⟨u, h, hu, hmv, ⟨{ s.ctx with pauseOut := true }, rfl, rfl, ?_⟩, by rw [if_pos hz]; exact HostSide.passes_zero_iff.mpr rfl⟩
        rw [State.pauseOutput_of_reset hcr] at ha
        exact ha
    · rw [if_neg (fun e => h0 (hrest.mp e))] at hc
      obtain ⟨h1, hc1, hc2⟩ := HostSide.passes_succ hc
      obtain ⟨u, hu, hmv, ha⟩ := goOn h1 hc1
      have hz : u.desc.outOff ≠ 0#32 := fun e => h0 (hmv.off.symm.trans (by rw [e]; rfl))
      unfold answered at ha
      rw [hempty u hmv] at ha
      exact ⟨u, h1, hu, hmv, ⟨s.ctx, rfl, rfl, ha⟩, by rw [if_neg hz]; exact hc2⟩
  obtain ⟨u, h1, hu, hmv, ⟨c, hcd, hco, hfr⟩, hc1⟩ := moved
  have he : u.ofifo = [] := by rw [hfr]
  have hfin : finish s = complete u := by simp [finish, hu, bind, Except.bind, he]
  have hn1 : u.host.notices = s.host.notices := by
    have := congrArg (fun x => x.host.notices) hmv.frame.1
    exact this
  have hh1 : u.host = h1 := by rw [hfr]
  refine ⟨_, hfin.trans (complete_passes (by rw [hh1]; exact hc1) (by rw [hn1]; exact hn)), hmv.outside, ?_⟩
  have hop : u.ctx.op = s.ctx.op := by rw [hfr]; exact hco
  have hd := hmv.desc
  have haddr : u.desc.outAddr = s.desc.outAddr := by rw [hd]
  have hleft := hmv.left
  have hllen := congrArg List.length hleft
  rw [readBytes_length] at hllen
  have hoff : u.desc.outOff = 0#32 ↔ undrained s.desc.outLen
      (readBytes s.hmem s.desc.outAddr.toNat s.desc.outOff.toNat ++ s.ofifo.flatMap bytesOfWord) = [] := by
    rw [← List.length_eq_zero_iff, ← hllen, ← BitVec.toNat_inj]
    rfl
  have htr : u.trace ++ (if u.desc.outOff = 0#32 then [] else [.drain u.desc.outAddr u.desc.outOff
      (readBytes u.hmem u.desc.outAddr.toNat u.desc.outOff.toNat)]) ++ [.done u.ctx.op] =
      s.trace ++ finalEffects s.desc.outAddr s.desc.outLen s.ctx.op
        (readBytes s.hmem s.desc.outAddr.toNat s.desc.outOff.toNat ++ s.ofifo.flatMap bytesOfWord) := by
    unfold finalEffects
    simp only [hmv.effects, haddr, hop, hleft, hoff, ← hllen, BitVec.ofNat_toNat, BitVec.setWidth_eq, List.append_assoc]
  rw [htr]
  generalize s.trace ++ finalEffects _ _ _ _ = tr
  generalize u.hmem = m, u.desc.outOff = o, u.trace = tr' at hfr
  subst hfr
  simp only [State.endJob, hcd]

/-- `Finish()` under the manager. -/
theorem finish_managed {s : State} (hm : s.host.managed = true) (hp : s.ctx.pauseOut = false) (hr : OutReady s.desc)
    (hl : s.ofifo.length ≤ s.cfg.fifoDepth) (hcr : s.cr = .reset) (hn : s.host.notices.head? ≠ some .command) :
    ∃ t, finish s = .ok t ∧
    (∀ a, a < s.desc.outAddr.toNat ∨ s.desc.outAddr.toNat + s.desc.outLen.toNat ≤ a →
      readByte t.hmem a = readByte s.hmem a) ∧
    t = { s.endJob with
      hmem := t.hmem
      ofifo := []
      trace := s.trace ++ finalEffects s.desc.outAddr s.desc.outLen s.ctx.op
        (readBytes s.hmem s.desc.outAddr.toNat s.desc.outOff.toNat ++ s.ofifo.flatMap bytesOfWord)
      desc := { s.desc with outOff := 0#32 }
      host := { s.host with notices := s.host.notices.tail } } :=
  finish_passes (.inl hp) hr hl hcr hn (.inl (HostSide.continues_of_managed _ hm))

/-- `Finish()` whose `DRAIN` of the buffer that the first `m` words fill is answered with `Pause`, with words left: the job stays
as it is, paused, those words still in `OFIFO` (43_transfer_fsm R221). -/
theorem finish_pauses {s : State} {h : HostSide} {m k : Nat} (hp : s.ctx.pauseOut = false) (hr : OutReady s.desc)
    (hl : s.ofifo.length ≤ s.cfg.fifoDepth) (hcr : s.cr = .reset) (hm : m < s.ofifo.length)
    (hk : s.desc.outOff.toNat + 4 * m = s.desc.outLen.toNat * (k + 1)) (hc : s.host.pausesAfter k h) :
    ∃ t, finish s = .ok t ∧
    (∀ a, a < s.desc.outAddr.toNat ∨ s.desc.outAddr.toNat + s.desc.outLen.toNat ≤ a →
      readByte t.hmem a = readByte s.hmem a) ∧
    t = { s with
      hmem := t.hmem
      ofifo := s.ofifo.drop m
      trace := s.trace ++ fullDrains s.desc.outAddr s.desc.outLen
        (readBytes s.hmem s.desc.outAddr.toNat s.desc.outOff.toNat ++ (s.ofifo.take m).flatMap bytesOfWord)
      desc := { s.desc with outOff := 0#32 }
      ctx := { s.ctx with pauseOut := true }
      host := h } := by
  obtain ⟨u, hu, hmv, ha, hz⟩ := storeWords_pauses hp hr (show m ≤ s.cfg.fifoDepth by omega) hm.le hk hc
  have hf : u.ofifo = s.ofifo.drop m := by
    have := hmv.fifo
    conv_lhs at this => rw [← List.take_append_drop m s.ofifo]
    exact (List.append_cancel_left this).symm
  have hne : u.ofifo.isEmpty = false := by
    rw [hf, List.isEmpty_eq_false_iff_exists_mem]
    exact List.exists_mem_of_length_pos (by rw [List.length_drop]; omega)
  refine ⟨u, by simp [finish, hu, bind, Except.bind, hne, pure, Except.pure], hmv.outside, ?_⟩
  rw [State.pauseOutput_of_reset hcr] at ha
  unfold answered at ha
  rw [hf, hz, hmv.effects] at ha
  exact ha

/-- `Finish()` under an output pause, with words left: nothing (43_transfer_fsm R221). -/
theorem finish_paused {s : State} (hp : s.ctx.pauseOut = true) (hne : s.ofifo ≠ []) : finish s = .ok s := by
  simp [finish, storeWords_paused hp, bind, Except.bind, hne, pure, Except.pure]

end Sys2Proof.Machine
end

