-- ==== Sys2Proof/Laws/Engines.lean ====
section
/-! SUPPORT. What a burst of a DMA engine does, said once (43_transfer_fsm R232, R233), and what taking an event can answer
(43_transfer_fsm R214, 60_exceptions R295). -/

namespace Sys2Proof.Machine

open Sys2Proof

/-! ## A burst of `DIN` (43_transfer_fsm R232) -/

/-- Word `j` of the rest of the block of `DIN`: up to four bytes. -/
def blockWord (s : State) (j : Nat) : Word :=
  wordOfBytes (readBytes s.hmem (s.din.addr.toNat + s.din.done.toNat + 4 * j)
    (min 4 (s.din.len.toNat - s.din.done.toNat - 4 * j)))

/-- `n` words of `DIN`, of which only the last may end the block. -/
theorem dinWords_ok {n : Nat} {s : State} (hb : s.din.addr.toNat + s.din.len.toNat ≤ Config.hostSpace)
    (hn : 4 * n < s.din.len.toNat - s.din.done.toNat + 4) (hd : s.din.done.toNat ≤ s.din.len.toNat)
    (ht : s.tailFed = false) : dinWords n s = .ok { s with
      ififo := s.ififo ++ (List.range n).map (blockWord s)
      tailFed := decide (s.din.len.toNat - s.din.done.toNat < 4 * n)
      din := { s.din with done :=
        s.din.done + BitVec.ofNat 32 (min (4 * n) (s.din.len.toNat - s.din.done.toNat)) } } := by
  induction n generalizing s with
  | zero =>
    have h0 : decide (s.din.len.toNat - s.din.done.toNat < 4 * 0) = s.tailFed := by simp [ht]
    rw [dinWords, h0]
    simp
  | succ n ih =>
    have hlen := s.din.len.isLt
    generalize hleft : s.din.len.toNat - s.din.done.toNat = left at *
    have hrd : memRead (s.din.addr.toNat + s.din.done.toNat) (min 4 left) s =
        .ok (readBytes s.hmem (s.din.addr.toNat + s.din.done.toNat) (min 4 left)) :=
      memRead_ok.mpr ⟨by omega, rfl⟩
    have hpush : pushInput (readBytes s.hmem (s.din.addr.toNat + s.din.done.toNat) (min 4 left)) s = .ok { s with
        ififo := s.ififo ++ [wordOfBytes (readBytes s.hmem (s.din.addr.toNat + s.din.done.toNat) (min 4 left))]
        tailFed := decide (min 4 left < 4) } := pushInput_ok.mpr ⟨ht, by rw [readBytes_length]⟩
    have hdone : (s.din.done + BitVec.ofNat 32 (min 4 left)).toNat = s.din.done.toNat + min 4 left := by
      rw [BitVec.toNat_add, BitVec.toNat_ofNat]
      omega
    rw [dinWords, hleft, hrd]
    simp only [bind, Except.bind, hpush]
    by_cases hz : n = 0
    · subst hz
      simp only [dinWords]
      simp [blockWord, hleft]
    · have h4 : min 4 left = 4 := by omega
      have hadd : s.din.done + BitVec.ofNat 32 4 + BitVec.ofNat 32 (min (4 * n) (left - 4)) =
          s.din.done + BitVec.ofNat 32 (min (4 * (n + 1)) left) := by
        apply BitVec.eq_of_toNat_eq
        simp only [BitVec.toNat_add, BitVec.toNat_ofNat]
        omega
      have hlt : decide (left - 4 < 4 * n) = decide (left < 4 * (n + 1)) := by rw [decide_eq_decide]; omega
      have hl4 : s.din.len.toNat - (s.din.done.toNat + 4) = left - 4 := by omega
      have hfirst : wordOfBytes (readBytes s.hmem (s.din.addr.toNat + s.din.done.toNat) (min 4 left)) = blockWord s 0 := by
        simp [blockWord, hleft]
      rw [hfirst]
      rw [h4] at hdone ⊢
      have hlist : (List.range (n + 1)).map (blockWord s) = blockWord s 0 :: (List.range n).map (blockWord { s with
          ififo := s.ififo ++ [blockWord s 0]
          tailFed := decide (4 < 4)
          din := { s.din with done := s.din.done + BitVec.ofNat 32 4 } }) := by
        rw [List.range_succ_eq_map, List.map_cons, List.map_map]
        refine congrArg (List.cons _) (List.map_congr_left fun j _ => ?_)
        unfold blockWord
        simp only [Function.comp_apply, hdone, hl4, hleft]
        rw [show s.din.addr.toNat + (s.din.done.toNat + 4) + 4 * j = s.din.addr.toNat + s.din.done.toNat + 4 * j.succ by omega,
          show left - 4 - 4 * j = left - 4 * j.succ by omega]
      rw [hlist]
      rw [ih (by simpa using hb) (by simp only [hdone]; omega) (by simp only [hdone]; omega) (by simp)]
      simp only [hdone, hl4, hadd, hlt, List.append_assoc, List.singleton_append]

/-- After a padded tail word any further word is a fault (93_implementation_defined U12). -/
theorem dinWords_ragged {n : Nat} {s : State} (hb : s.din.addr.toNat + s.din.len.toNat ≤ Config.hostSpace)
    (hd : s.din.done.toNat ≤ s.din.len.toNat) (ht : s.tailFed = true) :
    dinWords (n + 1) s = .error .raggedMidStream := by
  rw [dinWords, memRead_ok.mpr ⟨by omega, rfl⟩]
  simp [bind, Except.bind, pushInput, ht]

/-! ## A burst of `DOUT` (43_transfer_fsm R233) -/

/-- `n` words of `DOUT`, which the trigger saw in `OFIFO`. -/
theorem doutWords_ok {n : Nat} {s : State} (hb : s.dout.addr.toNat + s.dout.done.toNat + 4 * n ≤ Config.hostSpace)
    (hd : s.dout.done.toNat + 4 * n < Config.hostSpace) (hn : n ≤ s.ofifo.length) : doutWords n s = .ok { s with
      ofifo := s.ofifo.drop n
      hmem := writeBytes s.hmem (s.dout.addr.toNat + s.dout.done.toNat) ((s.ofifo.take n).flatMap bytesOfWord)
      dout := { s.dout with done := s.dout.done + BitVec.ofNat 32 (4 * n) } } := by
  have happ : ∀ (xs ys : List Byte) (m : Store Byte) (a : Nat),
      writeBytes m a (xs ++ ys) = writeBytes (writeBytes m a xs) (a + xs.length) ys := by
    intro xs
    induction xs with
    | nil => simp [writeBytes]
    | cons x xs ih =>
      intro ys m a
      simp only [List.cons_append, writeBytes, ih, List.length_cons]
      congr 1
      omega
  induction n generalizing s with
  | zero => simp [doutWords, writeBytes]
  | succ n ih =>
    cases hf : s.ofifo with
    | nil => simp [hf] at hn
    | cons w rest =>
      simp only [hf, List.length_cons] at hn
      simp only [Config.hostSpace] at hd hb
      have hwr : memWrite (s.dout.addr.toNat + s.dout.done.toNat) (bytesOfWord w) { s with ofifo := rest } =
          .ok { s with
            ofifo := rest
            hmem := writeBytes s.hmem (s.dout.addr.toNat + s.dout.done.toNat) (bytesOfWord w) } :=
        memWrite_ok.mpr ⟨by simp only [bytesOfWord_length, Config.hostSpace]; omega, rfl⟩
      have hdone : (s.dout.done + 4#32).toNat = s.dout.done.toNat + 4 := by
        rw [BitVec.toNat_add]
        simp only [BitVec.toNat_ofNat]
        omega
      have hadd : s.dout.done + 4#32 + BitVec.ofNat 32 (4 * n) = s.dout.done + BitVec.ofNat 32 (4 * (n + 1)) := by
        apply BitVec.eq_of_toNat_eq
        simp only [BitVec.toNat_add, BitVec.toNat_ofNat]
        omega
      rw [doutWords, hf]
      simp only [hwr, bind, Except.bind]
      rw [ih (by simp only [hdone, Config.hostSpace]; omega) (by simp only [hdone, Config.hostSpace]; omega)
        (by simpa using hn)]
      simp only [hdone, hadd, List.drop_succ_cons, List.take_succ_cons, List.flatMap_cons, happ, bytesOfWord_length,
        Nat.add_assoc]

/-! ## What the Streaming Buffer Manager supplies (44_stream_buffers R272) -/

/-- A streaming buffer holds no more than its capacity. -/
theorem streamBuffer_len {s : State} (hi : Inv s) (i : BufIdx) : (s.sb.buf i).len.toNat ≤ s.cfg.ibcap := by
  cases i
  · exact hi.streams.buf0
  · exact hi.streams.buf1

/-- A streaming buffer lies in host memory and is word aligned. -/
theorem streamBuffer_space {s : State} (hi : Inv s) (i : BufIdx) :
    (sbAddr s.cfg i).toNat + s.cfg.ibcap ≤ Config.hostSpace ∧ (sbAddr s.cfg i).toNat % 4 = 0 := by
  have hwf := hi.params
  simp only [Config.wf, Bool.and_eq_true, decide_eq_true_eq, beq_iff_eq] at hwf
  cases i
  · exact ⟨hwf.1.1.2, hwf.1.1.1.1.2⟩
  · exact ⟨hwf.1.2, hwf.1.1.1.2⟩

/-- In a job a part of a streaming buffer, in method DMA one at a word offset, passes the tests of 43_transfer_fsm R218. -/
theorem streamBuffer_passes {s : State} (hi : Inv s) (hj : s.fsm ≠ .idle) {i : BufIdx} {off : Nat} {addr len : Word}
    (h1 : addr.toNat = (sbAddr s.cfg i).toNat + off) (h2 : off + len.toNat ≤ s.cfg.ibcap)
    (ha : s.ctx.dmaMethod = true → off % 4 = 0) : addr.toNat + len.toNat ≤ Config.hostSpace ∧
    ∀ u : State, u.desc = { s.desc with inAddr := addr, inLen := len, inOff := 0#32 } → u.ctx = s.ctx → u.cfg = s.cfg →
      inputFault u = none := by
  have ⟨w, a4⟩ := streamBuffer_space hi i
  have hap := hi.buffers.apart_sb hj
  have hsp : addr.toNat + len.toNat ≤ Config.hostSpace := by omega
  refine ⟨hsp, fun u hu hx hc => ?_⟩
  have hov : inOverlapsOut u.desc = false := by
    rw [hu]
    simp only [outOverlapsSb, inOverlapsOut, Config.disjoint, Bool.not_eq_false', Bool.and_eq_true, Bool.or_eq_true,
      decide_eq_true_eq, beq_iff_eq] at hap ⊢
    cases i <;> simp only [sbAddr] at h1 <;> omega
  have hsb : inOverlapsSb u.cfg u.desc = false := by
    rw [hu, hc]
    have hwf := hi.params
    simp only [Config.wf, Bool.and_eq_true] at hwf
    have hd := hwf.2
    simp only [inOverlapsSb, inFitsSb, Config.disjoint, Bool.not_eq_false', Bool.and_eq_true, Bool.or_eq_true,
      decide_eq_true_eq, beq_iff_eq] at hd ⊢
    cases i <;> simp only [sbAddr] at h1 <;> omega
  have hal : (s.ctx.dmaMethod && !wordAligned addr) = false := by
    by_cases hd : s.ctx.dmaMethod = true
    · have := ha hd
      simp [hd, wordAligned]
      omega
    · simp [hd]
  unfold inputFault
  rw [hov, hsb, hu, hx]
  simp [inHostSpace, hsp, hal]

/-- In a job of a FIFO method the manager answers with a pause or with a buffer that passes the tests of 43_transfer_fsm
R218, and changes nothing but its own registers. -/
theorem managerRefill_good {s t : State} (hi : Inv s) (hj : s.fsm ≠ .idle) (hd : s.ctx.dmaMethod = false) (consumed : Word)
    (hc : t.cfg = s.cfg) (hb : t.sb = s.sb) :
    (∃ sb, (managerRefill consumed t).2 = { t with sb := sb }) ∧
    ((managerRefill consumed t).1 = .pause ∨
      ∃ addr len, (managerRefill consumed t).1 = .supply addr len ∧ addr.toNat + len.toNat ≤ Config.hostSpace ∧
        ∀ u : State, u.desc = { s.desc with inAddr := addr, inLen := len, inOff := 0#32 } → u.ctx = s.ctx →
          u.cfg = s.cfg → inputFault u = none) := by
  have hlen := streamBuffer_len hi
  have key : ∀ (i : BufIdx) (off : Nat) (addr len : Word), addr.toNat = (sbAddr s.cfg i).toNat + off →
      off + len.toNat ≤ s.cfg.ibcap → addr.toNat + len.toNat ≤ Config.hostSpace ∧
      ∀ u : State, u.desc = { s.desc with inAddr := addr, inLen := len, inOff := 0#32 } → u.ctx = s.ctx →
        u.cfg = s.cfg → inputFault u = none :=
    fun i off addr len h1 h2 => streamBuffer_passes hi hj h1 h2 (by simp [hd])
  unfold managerRefill
  simp only [hc, hb]
  split
  · rename_i hlt
    refine ⟨⟨_, rfl⟩, .inr ⟨_, _, rfl, key s.sb.rd (s.sb.off + consumed).toNat _ _ ?_ ?_⟩⟩
    · have h2 := (streamBuffer_space hi s.sb.rd).1
      have := hlen s.sb.rd
      simp only [Config.hostSpace] at h2
      rw [BitVec.toNat_add (sbAddr s.cfg s.sb.rd)]
      omega
    · have := hlen s.sb.rd
      have := (s.sb.buf s.sb.rd).len.isLt
      rw [BitVec.toNat_sub]
      omega
  · have hother : ({ s.sb.setBuf s.sb.rd { s.sb.buf s.sb.rd with full := false } with
        off := 0#32, rd := s.sb.rd.flip } : StreamBuffers).buf s.sb.rd.flip = s.sb.buf s.sb.rd.flip := by
      cases s.sb.rd <;> rfl
    split
    · refine ⟨⟨_, rfl⟩, .inr ⟨_, _, rfl, key s.sb.rd.flip 0 _ _ (by omega) ?_⟩⟩
      rw [hother]
      have := hlen s.sb.rd.flip
      omega
    · exact ⟨⟨_, rfl⟩, .inl rfl⟩

/-- In a job the input descriptor may be written exactly while the input is paused with no block in flight (45_register_access
R281). -/
theorem inputWritable_job {s : State} (hj : s.fsm ≠ .idle) :
    inputWritable s = true ↔ s.ctx.pauseIn = true ∧ s.din.busy = false ∧ s.din.cplt = false := by
  simp [inputWritable, hj, and_assoc]

/-! ## Taking an event -/

/-- A record that is taken is of an eligible event. -/
theorem eligible_of_taken {e : Event} {s : State} (h : recordTaken e s = true) : eligible e s = true := by
  simp only [recordTaken, Bool.and_eq_true] at h
  exact h.1.2

/-- An eligible event belongs to a job. -/
theorem method_of_eligible {e : Event} {s : State} (h : eligible e s = true) : s.ctx.method.isSome = true := by
  simp only [eligible, Bool.and_eq_true] at h
  exact h.1

theorem running_of_eligible {e : Event} {s : State} (hi : Inv s) (h : eligible e s = true) : s.fsm ≠ .idle := by
  intro he
  have := method_of_eligible h
  simp [(hi.modes.idle_iff.mp he).2.1] at this

/-- All that taking an event can answer with a next state: refused and nothing changed, or its handler's state. -/
theorem takeEvent_next {e : Event} {handler : State → Except Fault State} {s t : State} :
    takeEvent e handler s = .next t ↔
      (recordTaken e s = false ∧ t = { s with lastEvent := .refused }) ∨
      (recordTaken e s = true ∧ ∃ u, handler s = .ok u ∧ t = { u with lastEvent := .taken e }) := by
  unfold takeEvent
  by_cases h : recordTaken e s = true
  · simp only [h, if_true, Bool.true_eq_false, false_and, false_or, true_and]
    cases hh : handler s with
    | ok u => simp [returnFromHandler, eq_comm]
    | error f => simp
  · simp [h, eq_comm]

theorem takeEvent_fault {e : Event} {handler : State → Except Fault State} {s : State} {f : Fault} :
    takeEvent e handler s = .fault f ↔ recordTaken e s = true ∧ handler s = .error f := by
  unfold takeEvent
  by_cases h : recordTaken e s = true
  · simp only [h, if_true, true_and]
    cases hh : handler s with
    | ok u => simp [returnFromHandler]
    | error f => simp
  · simp [h]

/-- The two method tests exclude each other. -/
theorem not_dma_of_fifo {c : Ctx} (h : c.fifoMethod = true) : c.dmaMethod = false := by
  unfold Ctx.fifoMethod at h
  unfold Ctx.dmaMethod
  revert h
  split <;> simp

theorem not_fifo_of_dma {c : Ctx} (h : c.dmaMethod = true) : c.fifoMethod = false := by
  unfold Ctx.dmaMethod at h
  unfold Ctx.fifoMethod
  revert h
  split <;> simp

end Sys2Proof.Machine
end

