-- ==== Sys2Proof/Laws/Huffman.lean ====
section
/-! SUPPORT. The laws of the Huffman Table Builder and of the register files it reads: when every element is written, what
the code assignment gives class by class, and what the entries of a built table are (40_huffman_builder R141 to R146). -/

namespace Sys2Proof.Machine

open Sys2Proof

/-! ## Register files (10_state R44) -/

@[simp] theorem readAll_map_some {α : Type} (l : List α) : readAll (l.map some) = some l := by
  induction l with
  | nil => rfl
  | cons x l ih => simp [readAll, ih]

/-- A register file reads as a list exactly when every element has been written. -/
theorem readAll_eq_some {α : Type} {l : List (Option α)} {r : List α} : readAll l = some r ↔ l = r.map some := by
  constructor
  · intro h
    induction l generalizing r with
    | nil => cases h; rfl
    | cons x l ih =>
      cases x with
      | none => cases h
      | some x =>
        simp only [readAll, Option.map_eq_some_iff] at h
        obtain ⟨r', hr', rfl⟩ := h
        rw [ih hr', List.map_cons]
  · rintro rfl
    exact readAll_map_some r

/-- A register file with an unwritten element does not read. -/
theorem readAll_eq_none {α : Type} {l : List (Option α)} : readAll l = none ↔ none ∈ l := by
  induction l with
  | nil => simp [readAll]
  | cons x l ih => cases x <;> simp [readAll, ih]

/-! ## Slots -/

@[simp] theorem PerSlot.get_set_self {α : Type} (p : PerSlot α) (s : Slot) (x : α) : (p.set s x).get s = x := by
  cases s <;> rfl

theorem PerSlot.get_set_ne {α : Type} (p : PerSlot α) {s s' : Slot} (x : α) (h : s' ≠ s) :
    (p.set s x).get s' = p.get s' := by
  cases s <;> cases s' <;> first | rfl | exact absurd rfl h

@[simp] theorem PerSlot.get_const {α : Type} (x : α) (s : Slot) : (PerSlot.const x).get s = x := by cases s <;> rfl

/-! ## Code assignment (40_huffman_builder R142) -/

/-- The running code at the start of class `l`, from code `c` before the first class. -/
def classStart (c : Nat) : List Byte → Nat → Nat
  | _, 0 => c
  | [], l + 1 => classStart (2 * c) [] l
  | b :: bs, l + 1 => classStart (2 * (c + b.toNat)) bs l

theorem classStart_succ (c : Nat) (bits : List Byte) (l : Nat) :
    classStart c bits (l + 1) = 2 * (classStart c bits l + (bits.getD l 0#8).toNat) := by
  induction l generalizing c bits with
  | zero => cases bits <;> simp [classStart]
  | succ l ih =>
    cases bits with
    | nil =>
      have := ih (2 * c) []
      simpa [classStart] using this
    | cons b bs =>
      have := ih (2 * (c + b.toNat)) bs
      simpa [classStart] using this

theorem classStart_zero (bits : List Byte) (l : Nat) : classStart 0 bits l = firstCode bits l := by
  induction l with
  | zero => rfl
  | succ l ih => rw [classStart_succ, ih, firstCode]

/-- The assignment fails where the codes of some class run past the class. -/
theorem assignCodes_eq_none {bits : List Byte} {L c : Nat} : assignCodes bits L c = none ↔
    ∃ l, l < bits.length ∧ 2 ^ (L + l) ≤ classStart c bits l + (bits.getD l 0#8).toNat := by
  induction bits generalizing L c with
  | nil => simp [assignCodes]
  | cons b bs ih =>
    unfold assignCodes
    by_cases h : 2 ^ L ≤ c + b.toNat
    · rw [if_pos h]
      simp only [true_iff]
      exact ⟨0, by simp, by simpa [classStart] using h⟩
    · rw [if_neg h, Option.map_eq_none_iff, ih]
      constructor
      · rintro ⟨l, hl, h'⟩
        refine ⟨l + 1, by simpa using hl, ?_⟩
        rw [show L + (l + 1) = L + 1 + l by omega]
        simpa [classStart] using h'
      · rintro ⟨l, hl, h'⟩
        cases l with
        | zero => exact absurd (by simpa [classStart] using h') h
        | succ l =>
          refine ⟨l, by simpa using hl, ?_⟩
          rw [show L + 1 + l = L + (l + 1) by omega]
          simpa [classStart] using h'

theorem assignCodes_length {bits : List Byte} {L c : Nat} {cs : List (Nat × Nat)}
    (h : assignCodes bits L c = some cs) : cs.length = symbolCount bits := by
  induction bits generalizing L c cs with
  | nil => cases h; rfl
  | cons b bs ih =>
    unfold assignCodes at h
    split at h
    · cases h
    · obtain ⟨r, hr, rfl⟩ := Option.map_eq_some_iff.mp h
      simp [symbolCount, ih hr]

/-- The codes of class `l`: consecutive from the class's start. -/
theorem assignCodes_get {bits : List Byte} {L c : Nat} {cs : List (Nat × Nat)} (h : assignCodes bits L c = some cs)
    {l j : Nat} (hj : j < (bits.getD l 0#8).toNat) :
    cs[symbolCount (bits.take l) + j]? = some (L + l, classStart c bits l + j) := by
  induction bits generalizing L c cs l with
  | nil => simp at hj
  | cons b bs ih =>
    unfold assignCodes at h
    split at h
    · cases h
    · obtain ⟨r, hr, rfl⟩ := Option.map_eq_some_iff.mp h
      cases l with
      | zero =>
        simp only [List.getD_cons_zero] at hj
        rw [List.getElem?_append_left (by simpa [symbolCount] using hj)]
        simp [symbolCount, classStart, hj]
      | succ l =>
        simp only [List.getD_cons_succ] at hj
        rw [List.getElem?_append_right (by simp [symbolCount]; omega)]
        simp only [List.take_succ_cons, symbolCount, List.length_map, List.length_range, classStart]
        rw [show b.toNat + symbolCount (bs.take l) + j - b.toNat = symbolCount (bs.take l) + j by omega, ih hr hj]
        congr 2
        omega

/-- Every code lies in its class, past no all-ones code, and its length is that of one of the classes. -/
theorem assignCodes_mem {bits : List Byte} {L c : Nat} {cs : List (Nat × Nat)} (h : assignCodes bits L c = some cs)
    {p : Nat × Nat} (hp : p ∈ cs) : L ≤ p.1 ∧ p.1 < L + bits.length ∧ p.2 + 1 < 2 ^ p.1 := by
  induction bits generalizing L c cs with
  | nil => cases h; cases hp
  | cons b bs ih =>
    unfold assignCodes at h
    split at h
    · cases h
    · rename_i hlt
      obtain ⟨r, hr, rfl⟩ := Option.map_eq_some_iff.mp h
      rcases List.mem_append.mp hp with hm | hm
      · obtain ⟨i, hi, rfl⟩ := List.mem_map.mp hm
        have := List.mem_range.mp hi
        simp only [List.length_cons]
        refine ⟨by omega, by omega, by omega⟩
      · obtain ⟨h1, h2, h3⟩ := ih hr hm
        simp only [List.length_cons]
        exact ⟨by omega, by omega, h3⟩

/-- No two symbols share length and code. -/
theorem assignCodes_nodup {bits : List Byte} {L c : Nat} {cs : List (Nat × Nat)} (h : assignCodes bits L c = some cs) :
    cs.Nodup := by
  induction bits generalizing L c cs with
  | nil => cases h; simp
  | cons b bs ih =>
    unfold assignCodes at h
    split at h
    · cases h
    · obtain ⟨r, hr, rfl⟩ := Option.map_eq_some_iff.mp h
      rw [List.nodup_append]
      refine ⟨?_, ih hr, ?_⟩
      · refine List.Nodup.map ?_ List.nodup_range
        intro i j hij
        simp only [Prod.mk.injEq, true_and] at hij
        omega
      · intro p hp q hq he
        subst he
        obtain ⟨i, -, rfl⟩ := List.mem_map.mp hp
        have := (assignCodes_mem hr hq).1
        omega

/-! ## The entries of a table (40_huffman_builder R143, R145, R146) -/

theorem assignEntries_length (k : Kind) (vs : List Byte) (cs : List (Nat × Nat)) :
    (assignEntries k vs cs).length = min vs.length cs.length := by
  induction vs generalizing cs with
  | nil => simp [assignEntries]
  | cons v vs ih =>
    cases cs with
    | nil => simp [assignEntries]
    | cons c cs => simp [assignEntries, ih]

theorem assignEntries_get {k : Kind} {vs : List Byte} {cs : List (Nat × Nat)} {i : Nat} {v : Byte} {p : Nat × Nat}
    (hv : vs[i]? = some v) (hc : cs[i]? = some p) : (assignEntries k vs cs)[i]? =
      some { index := symbolIndex k v, len := BitVec.ofNat 5 p.1, code := BitVec.ofNat 16 p.2 } := by
  induction vs generalizing cs i with
  | nil => simp at hv
  | cons w vs ih =>
    cases cs with
    | nil => simp at hc
    | cons c cs =>
      cases i with
      | zero => simp_all [assignEntries]
      | succ i =>
        simp only [List.getElem?_cons_succ] at hv hc
        simpa [assignEntries] using ih hv hc

/-- The entries stand at the indices of the symbols, in their order. -/
theorem assignEntries_index (k : Kind) (vs : List Byte) (cs : List (Nat × Nat)) (h : vs.length ≤ cs.length) :
    (assignEntries k vs cs).map (·.index) = vs.map (symbolIndex k) := by
  induction vs generalizing cs with
  | nil => simp [assignEntries]
  | cons v vs ih =>
    cases cs with
    | nil => simp at h
    | cons c cs =>
      simp only [List.length_cons] at h
      simp [assignEntries, ih cs (by omega)]

@[simp] theorem writeEntries_valid (t : HuffTable) (es : List Assigned) : (writeEntries t es).valid = t.valid := by
  induction es generalizing t with
  | nil => rfl
  | cons e es ih => simp [writeEntries, ih]

@[simp] theorem writeEntries_len_length (t : HuffTable) (es : List Assigned) :
    (writeEntries t es).len.length = t.len.length := by
  induction es generalizing t with
  | nil => rfl
  | cons e es ih => simp [writeEntries, ih]

@[simp] theorem writeEntries_code_length (t : HuffTable) (es : List Assigned) :
    (writeEntries t es).code.length = t.code.length := by
  induction es generalizing t with
  | nil => rfl
  | cons e es ih => simp [writeEntries, ih]

/-- An index that no entry names is as before. -/
theorem writeEntries_other {t : HuffTable} {es : List Assigned} {i : Nat} (h : ∀ e ∈ es, e.index ≠ i) :
    (writeEntries t es).len[i]? = t.len[i]? ∧ (writeEntries t es).code[i]? = t.code[i]? := by
  induction es generalizing t with
  | nil => exact ⟨rfl, rfl⟩
  | cons e es ih =>
    have he := h e (by simp)
    have := ih (t := { t with len := t.len.set e.index (some e.len), code := t.code.set e.index (some e.code) })
      (fun e' h' => h e' (by simp [h']))
    simpa [writeEntries, List.getElem?_set_ne he] using this

/-- The last entry of an index is the one that stands. -/
theorem writeEntries_last {t : HuffTable} {es : List Assigned} {k : Nat} {e : Assigned} (hk : es[k]? = some e)
    (hl : ∀ j e', k < j → es[j]? = some e' → e'.index ≠ e.index) (h1 : e.index < t.len.length)
    (h2 : e.index < t.code.length) : (writeEntries t es).len[e.index]? = some (some e.len) ∧
      (writeEntries t es).code[e.index]? = some (some e.code) := by
  induction es generalizing t k with
  | nil => simp at hk
  | cons a es ih =>
    rw [writeEntries]
    cases k with
    | zero =>
      simp only [List.getElem?_cons_zero, Option.some.injEq] at hk
      subst hk
      have := writeEntries_other
        (t := { t with len := t.len.set a.index (some a.len), code := t.code.set a.index (some a.code) })
        (es := es) (i := a.index) (by
          intro e' he'
          obtain ⟨j, hj⟩ := List.mem_iff_getElem?.mp he'
          exact hl (j + 1) e' (by omega) (by simpa using hj))
      rw [this.1, this.2]
      simp [h1, h2]
    | succ k =>
      simp only [List.getElem?_cons_succ] at hk
      exact ih hk (fun j e' hj he' => hl (j + 1) e' (by omega) (by simpa using he')) (by simpa using h1) (by simpa using h2)

/-! ## `BUILD` on a slot (40_huffman_builder R145) -/

/-- All that a build changes. -/
theorem buildWith_frame (slot : Slot) (bits vals : List Byte) (s : State) :
    (buildWith slot bits vals s).state = { s with
      hct := s.hct.set slot ((buildWith slot bits vals s).state.hct.get slot)
      draws := s.draws + slot.size } := by
  unfold buildWith
  split <;> simp [State.withHct]

/-- The table a build leaves is valid exactly when it succeeds, and has its length. -/
theorem buildWith_table (slot : Slot) (bits vals : List Byte) (s : State) :
    let t := (buildWith slot bits vals s).state.hct.get slot
    t.valid = (buildWith slot bits vals s).error.isNone ∧ t.len.length = slot.size ∧ t.code.length = slot.size := by
  unfold buildWith
  split <;> simp [State.withHct, drawnTable]

end Sys2Proof.Machine
end

