-- ==== Sys2Proof/Laws/Quantization.lean ====
section
/-! SUPPORT. The laws of the Quantization Table Generator: what the sixteen words of a table read back as, and when an estimate
exists (42_quantization R190 to R197). -/

namespace Sys2Proof.Machine

open Sys2Proof

/-! ## Lanes (20_memory R76) -/

/-- Lane `j` of the word of some bytes. -/
theorem wordOfBytes_lane (bs : List Byte) {j : Nat} (hj : j < 4) :
    (wordOfBytes bs).extractLsb' (8 * j) 8 = bs.getD j 0#8 := by
  apply BitVec.eq_of_getLsbD_eq
  intro i hi
  rw [BitVec.getLsbD_extractLsb']
  simp only [hi, decide_true, Bool.true_and]
  unfold wordOfBytes
  change BitVec.getLsbD (w := 8 + (8 + (8 + 8))) _ _ = _
  rw [BitVec.getLsbD_append, BitVec.getLsbD_append, BitVec.getLsbD_append]
  rcases (by omega : j = 0 ∨ j = 1 ∨ j = 2 ∨ j = 3) with rfl | rfl | rfl | rfl
  · simp [show i < 16 by omega, show i < 24 by omega, hi]
  · simp [show 8 + i < 16 by omega, show 8 + i < 24 by omega]
  · simp [show ¬16 + i < 16 by omega, show 16 + i < 24 by omega,
      show 16 + i - 16 = i by omega]
  · simp [show ¬24 + i < 24 by omega]

/-! ## `QGEN` (42_quantization R190 to R194) -/

theorem clampValue_eq (x : Nat) : clampValue x = max 1 (min 255 x) := by
  unfold clampValue
  split
  · omega
  · split <;> omega

theorem quantValue_toNat (b scale : Nat) : (quantValue b scale).toNat = max 1 (min 255 ((b * scale + 50) / 100)) := by
  rw [quantValue, clampValue_eq, BitVec.toNat_ofNat, Nat.mod_eq_of_lt (by omega)]

theorem quantWords_keys_nodup (c : Config) (base : List Byte) (scale : Nat) :
    ((quantWords c base scale).map Prod.fst).Nodup := by
  rw [quantWords, List.map_map]
  change ((List.range 16).map (fun w => BitVec.ofNat 4 w)).Nodup
  decide

/-- All that the writes of a quantization table change. -/
theorem programQuant_frame (q : BitVec 4) (base : List Byte) (scale : Nat) (s : State) :
    programQuant q base scale s = { s with
      fsm := .idle
      qmem := (programQuant q base scale s).qmem
      history := s.history ++ (quantWords s.cfg base scale).map (fun p => .qwrite q.toNat p.1.toNat p.2)
      ctx := { s.ctx with cfgQuant := true } } := by
  unfold programQuant
  simp only
  rw [qWriteAll_frame]
  simp [State.leaveConfiguring]

/-- Word `w` of the table reads as written. -/
theorem readQmem_programQuant (q : BitVec 4) (base : List Byte) (scale : Nat) (s : State) {w : Nat} (hw : w < 16) :
    readQmem (programQuant q base scale s) q (BitVec.ofNat 4 w) = quantWord s.cfg base scale w := by
  rw [readQmem_congr (t := s.enterConfiguring.qWriteAll q (quantWords s.cfg base scale)) (by simp [programQuant])]
  apply readQmem_qWriteAll_mem (quantWords_keys_nodup s.cfg base scale)
  exact List.mem_map.mpr ⟨w, List.mem_range.mpr hw, rfl⟩

/-- A word of another table reads as before. -/
theorem readQmem_programQuant_other {q q' : BitVec 4} (base : List Byte) (scale : Nat) (s : State) (w : BitVec 4)
    (h : q' ≠ q) : readQmem (programQuant q base scale s) q' w = readQmem s q' w := by
  rw [readQmem_congr (t := s.enterConfiguring.qWriteAll q (quantWords s.cfg base scale)) (by simp [programQuant]),
    readQmem_qWriteAll_other (.inl h)]
  exact readQmem_congr (by simp) _ _

/-- `QMEM` alone decides what is read back. -/
theorem readBack_congr {s t : State} (h : s.qmem = t.qmem) (q : BitVec 4) (i : Nat) : readBack s q i = readBack t q i := by
  rw [readBack, readBack, readQmem_congr h]

/-- The value read back at a zig-zag position is the scaled baseline element (42_quantization R192, R193). -/
theorem readBack_programQuant (q : BitVec 4) (base : List Byte) (scale : Nat) (s : State) {i : Nat} (hi : i < 64) :
    readBack (programQuant q base scale s) q i =
      max 1 (min 255 (((zigzagElem s.cfg base i).toNat * scale + 50) / 100)) := by
  unfold readBack
  rw [readQmem_programQuant q base scale s (by omega), quantWord, wordOfBytes_lane _ (Nat.mod_lt i (by decide))]
  have hget : ((List.range 4).map (fun j => quantValue (zigzagElem s.cfg base (4 * (i / 4) + j)).toNat scale)).getD (i % 4) 0#8 =
      quantValue (zigzagElem s.cfg base (4 * (i / 4) + i % 4)).toNat scale := by
    rw [List.getD_eq_getElem _ _ (by simp; omega)]
    simp
  rw [hget, show 4 * (i / 4) + i % 4 = i by omega, quantValue_toNat]

/-! ## `QEST` (42_quantization R195, R197) -/

/-- A contribution exists unless a value other than 1 stands over a zero element, and is at most 100. -/
theorem contribution_some {v b : Nat} (h : v = 1 ∨ b ≠ 0) : contribution v b = some (
    if v = 1 then 100 else if v * 100 / b ≤ 100 then (200 - v * 100 / b) / 2 else 5000 / (v * 100 / b)) := by
  unfold contribution
  by_cases h1 : v = 1
  · simp [h1]
  · have hb : b ≠ 0 := by tauto
    simp only [h1, hb, if_false]
    split <;> rfl

theorem contribution_le {v b c : Nat} (h : contribution v b = some c) : c ≤ 100 := by
  unfold contribution at h
  split at h
  · cases h; omega
  · split at h
    · cases h
    · split at h
      · cases h
        have := Nat.sub_le 200 (v * 100 / b)
        omega
      · rename_i hgt
        cases h
        have : v * 100 / b ≥ 101 := by omega
        exact (Nat.div_le_div_left this (by decide)).trans (by decide)

theorem contributionSum_some {value baseline part : Nat → Nat} {l : List Nat}
    (h : ∀ i ∈ l, contribution (value i) (baseline i) = some (part i)) :
    contributionSum value baseline l = some (l.map part).sum := by
  induction l with
  | nil => rfl
  | cons i l ih =>
    rw [contributionSum, h i (by simp), ih (fun j hj => h j (by simp [hj]))]
    simp

/-- The sum does not exist exactly where some contribution does not. -/
theorem contributionSum_eq_none {value baseline : Nat → Nat} {l : List Nat} : contributionSum value baseline l = none ↔
    ∃ i ∈ l, contribution (value i) (baseline i) = none := by
  induction l with
  | nil => simp [contributionSum]
  | cons i l ih =>
    rw [contributionSum]
    cases hc : contribution (value i) (baseline i) with
    | none => simp [hc]
    | some c => simp [hc, ih]

/-- The estimate is at most 100 (42_quantization R195, 10_state R32). -/
theorem contributionSum_le {value baseline : Nat → Nat} {l : List Nat} {n : Nat}
    (h : contributionSum value baseline l = some n) : n ≤ 100 * l.length := by
  induction l generalizing n with
  | nil => cases h; simp
  | cons i l ih =>
    rw [contributionSum] at h
    cases hc : contribution (value i) (baseline i) with
    | none => simp [hc] at h
    | some c =>
      simp only [hc, Option.bind_some, Option.map_eq_some_iff] at h
      obtain ⟨r, hr, rfl⟩ := h
      have := contribution_le hc
      have := ih hr
      simp only [List.length_cons]
      omega

theorem estimate_le {s : State} {q : BitVec 4} {base : List Byte} {r : Nat} (h : estimate s q base = some r) :
    r ≤ 100 := by
  obtain ⟨n, hn, rfl⟩ := Option.map_eq_some_iff.mp h
  have := contributionSum_le hn
  simp only [List.length_range] at this
  omega

end Sys2Proof.Machine
end

