-- ==== Sys2Proof/Laws/TableProgrammer.lean ====
section
/-! SUPPORT. The laws of the Hardware Table Programmer: the addresses a region's writes go to, each once, what its words read
as afterwards, and the bytes of the raw-spec region (41_table_programmer R162 to R168). -/

namespace Sys2Proof.Machine

open Sys2Proof

/-! ## Addresses -/

/-- Two words of a region of fewer than 2^16 words stand at different addresses. -/
theorem word_address_inj {base : BitVec 16} {i j : Nat} (hi : i < 65536) (hj : j < 65536)
    (h : base + BitVec.ofNat 16 i = base + BitVec.ofNat 16 j) : i = j := by
  have hn := congrArg BitVec.toNat h
  simp only [BitVec.toNat_add, BitVec.toNat_ofNat] at hn
  omega

/-- The data part of a region, from the last word down (41_table_programmer R165). -/
theorem dataWrites_eq (base : BitVec 16) (t : ReadTable) (n : Nat) :
    dataWrites base t n = (List.range n).reverse.map (fun w => (base + BitVec.ofNat 16 w, t.word w)) := by
  induction n with
  | zero => rfl
  | succ n ih => simp [dataWrites, ih, List.range_succ]

/-- Words at ascending addresses from word `k` of a region. -/
theorem ascendingWrites_eq (base : BitVec 16) (k : Nat) (vs : List Word) :
    ascendingWrites (base + BitVec.ofNat 16 k) vs =
      (List.range vs.length).map (fun j => (base + BitVec.ofNat 16 (k + j), vs.getD j 0#32)) := by
  induction vs generalizing k with
  | nil => rfl
  | cons v vs ih =>
    have hk : base + BitVec.ofNat 16 k + 1#16 = base + BitVec.ofNat 16 (k + 1) := by
      apply BitVec.eq_of_toNat_eq
      simp only [BitVec.toNat_add, BitVec.toNat_ofNat]
      omega
    rw [ascendingWrites, hk, ih, List.length_cons, List.range_succ_eq_map, List.map_cons, List.map_map]
    refine congrArg₂ List.cons (by simp) (List.map_congr_left fun j _ => ?_)
    simp [show k + (j + 1) = k + 1 + j by omega]

/-- The data words of a region of a kind, and the words of its sentinels. -/
def dataWords : Kind → Nat
  | .dc => 6
  | .ac => 81

/-- The words above the data part: the DC terminator, or the reserved AC codes (41_table_programmer R164). -/
def sentinels (c : Config) : Kind → List Word
  | .dc => [Config.dcTerm, Config.dcTerm]
  | .ac => c.acReserved.take 7

/-- The writes of a region: the sentinels ascending, then the data part descending. -/
theorem regionWrites_eq (c : Config) (k : Kind) (base : BitVec 16) (t : ReadTable) : regionWrites c k base t =
    (List.range (sentinels c k).length).map
        (fun j => (base + BitVec.ofNat 16 (dataWords k + j), (sentinels c k).getD j 0#32)) ++
      (List.range (dataWords k)).reverse.map (fun w => (base + BitVec.ofNat 16 w, t.word w)) := by
  cases k with
  | dc =>
    rw [regionWrites, writeDc, dataWrites_eq]
    exact congrArg (· ++ _) (ascendingWrites_eq base 6 [Config.dcTerm, Config.dcTerm])
  | ac =>
    rw [regionWrites, writeAc, dataWrites_eq]
    exact congrArg (· ++ _) (ascendingWrites_eq base 81 (c.acReserved.take 7))

theorem sentinels_length_le (c : Config) (k : Kind) : (sentinels c k).length ≤ 7 := by
  cases k
  · simp [sentinels]
  · simp [sentinels]

/-- No word of a region is written twice. -/
theorem regionWrites_nodup (c : Config) (k : Kind) (base : BitVec 16) (t : ReadTable) :
    ((regionWrites c k base t).map Prod.fst).Nodup := by
  have hl := sentinels_length_le c k
  have hd : dataWords k ≤ 81 := by cases k <;> decide
  rw [regionWrites_eq, List.map_append, List.map_map, List.map_map, List.nodup_append]
  refine ⟨?_, ?_, ?_⟩
  · refine List.Nodup.map_on ?_ List.nodup_range
    intro i hi j hj h
    have := word_address_inj (by have := List.mem_range.mp hi; omega) (by have := List.mem_range.mp hj; omega) h
    omega
  · refine List.Nodup.map_on ?_ (List.nodup_reverse.mpr List.nodup_range)
    intro i hi j hj h
    simp only [List.mem_reverse, List.mem_range] at hi hj
    exact word_address_inj (by omega) (by omega) h
  · intro a ha b hb he
    subst he
    obtain ⟨i, hi, rfl⟩ := List.mem_map.mp ha
    obtain ⟨j, hj, h⟩ := List.mem_map.mp hb
    simp only [List.mem_reverse, List.mem_range] at hi hj
    have := word_address_inj (by omega) (by omega) h
    omega

/-- All that programming a region changes. -/
theorem programRegion_frame (r : Slot) (t : ReadTable) (s : State) : programRegion r t s = { s with
    fsm := .idle
    tmem := (s.tWriteAll (regionWrites s.cfg r.kind (encBase s.cfg r) t)).tmem
    history := s.history ++ (regionWrites s.cfg r.kind (encBase s.cfg r) t).map (fun p => .twrite p.1 p.2)
    prgEnc := s.prgEnc.set r true
    ctx := { s.ctx with cfgHuff := s.prgRaw.all && (s.prgEnc.set r true).all } } := by
  have htm : ∀ (l : List (BitVec 16 × Word)) (u v : State), u.tmem = v.tmem → (u.tWriteAll l).tmem = (v.tWriteAll l).tmem := by
    intro l
    induction l with
    | nil => exact fun _ _ h => h
    | cons p l ih => exact fun u v h => ih _ _ (by simp [State.tWrite, h])
  unfold programRegion
  simp only
  rw [tWriteAll_frame, htm _ s.enterConfiguring s rfl]
  simp [State.leaveConfiguring, State.refreshCfgHuff]

/-! ## Lanes of the raw-spec region (41_table_programmer R167, R168) -/

/-- A lane of a word joined from four lanes. -/
theorem lanes_extract (l0 l1 l2 l3 : Byte) {j : Nat} (hj : j < 4) :
    (l3 ++ (l2 ++ (l1 ++ l0)) : Word).extractLsb' (8 * j) 8 = [l0, l1, l2, l3].getD j 0#8 := by
  have := wordOfBytes_lane [l0, l1, l2, l3] hj
  simpa [wordOfBytes] using this

/-- A lane of a merged word: the written byte inside the range, the old lane outside it. -/
theorem mergeLanes_lane (lo a : Nat) (bytes : List Byte) (v : Word) {j : Nat} (hj : j < 4) :
    (mergeLanes lo a bytes v).extractLsb' (8 * j) 8 =
      if lo ≤ 4 * a + j ∧ 4 * a + j < lo + bytes.length then bytes.getD (4 * a + j - lo) 0#8
      else v.extractLsb' (8 * j) 8 := by
  unfold mergeLanes
  simp only
  rw [lanes_extract _ _ _ _ hj]
  rcases (by omega : j = 0 ∨ j = 1 ∨ j = 2 ∨ j = 3) with rfl | rfl | rfl | rfl <;> rfl

/-- One word of `WriteSub` sets the bytes of its range in that word and leaves every other byte of the region. -/
theorem rawByte_writeSubWord {lo a b : Nat} (bytes : List Byte) (s : State) (ha : a < 65536) (hb : b < 4 * 65536) :
    rawByte (writeSubWord lo a bytes s) b =
      if b / 4 = a ∧ lo ≤ b ∧ b < lo + bytes.length then bytes.getD (b - lo) 0#8 else rawByte s b := by
  have hcfg : (writeSubWord lo a bytes s).cfg = s.cfg := by unfold writeSubWord; simp only; split <;> rfl
  have hadr : s.cfg.rawBase + BitVec.ofNat 16 (b / 4) = s.cfg.rawBase + BitVec.ofNat 16 a ↔ b / 4 = a :=
    ⟨word_address_inj (by omega) ha, fun h => by rw [h]⟩
  have hj : b % 4 < 4 := Nat.mod_lt _ (by decide)
  have hb4 : 4 * (b / 4) + b % 4 = b := by omega
  unfold rawByte
  rw [hcfg]
  unfold writeSubWord
  simp only
  split
  · rename_i hw
    rw [readTmem_tWrite]
    by_cases he : b / 4 = a
    · rw [if_pos (hadr.mpr he), mergeLanes_lane _ _ _ _ hj, ← he, hb4, if_pos (by omega), if_pos (by omega)]
    · rw [if_neg (fun h => he (hadr.mp h)), if_neg (by tauto)]
  · rw [readTmem_tWrite]
    by_cases he : b / 4 = a
    · rw [if_pos (hadr.mpr he), mergeLanes_lane _ _ _ _ hj, ← he, hb4]
      by_cases hr : lo ≤ b ∧ b < lo + bytes.length
      · rw [if_pos hr, if_pos (by omega)]
      · rw [if_neg hr, if_neg (by omega)]
    · rw [if_neg (fun h => he (hadr.mp h)), if_neg (by tauto), readTmem_tReadMark]

theorem writeSubWord_outside {lo a : Nat} {bytes : List Byte} {s : State} {x : BitVec 16}
    (h : x ≠ s.cfg.rawBase + BitVec.ofNat 16 a) : readTmem (writeSubWord lo a bytes s) x = readTmem s x := by
  unfold writeSubWord
  simp only
  split <;> rw [readTmem_tWrite, if_neg h]
  exact readTmem_tReadMark s _ x

theorem rawByte_writeSubDown {lo first n b : Nat} (bytes : List Byte) (s : State) (ha : first + n ≤ 65536)
    (hb : b < 4 * 65536) : rawByte (writeSubDown lo first bytes n s) b =
      if (first ≤ b / 4 ∧ b / 4 < first + n) ∧ lo ≤ b ∧ b < lo + bytes.length then bytes.getD (b - lo) 0#8
      else rawByte s b := by
  induction n generalizing s with
  | zero => rw [writeSubDown, if_neg (by omega)]
  | succ n ih =>
    rw [writeSubDown, ih _ (by omega), rawByte_writeSubWord _ _ (by omega) hb]
    by_cases h1 : (first ≤ b / 4 ∧ b / 4 < first + n) ∧ lo ≤ b ∧ b < lo + bytes.length
    · rw [if_pos h1, if_pos (by omega)]
    · rw [if_neg h1]
      by_cases h2 : b / 4 = first + n ∧ lo ≤ b ∧ b < lo + bytes.length
      · rw [if_pos h2, if_pos (by omega)]
      · rw [if_neg h2, if_neg (by omega)]

/-- `WriteSub(lo, bytes)` sets bytes `lo .. lo+n-1` of the region's stream and leaves every other byte of it
(41_table_programmer R168). -/
theorem rawByte_writeSub {lo b : Nat} {bytes : List Byte} (s : State) (hpos : 0 < bytes.length)
    (ha : lo + bytes.length ≤ 4 * 65536) (hb : b < 4 * 65536) : rawByte (writeSub lo bytes s) b =
      if lo ≤ b ∧ b < lo + bytes.length then bytes.getD (b - lo) 0#8 else rawByte s b := by
  rw [writeSub, rawByte_writeSubDown _ _ (by omega) hb]
  by_cases h : lo ≤ b ∧ b < lo + bytes.length
  · rw [if_pos h, if_pos (by omega)]
  · rw [if_neg h, if_neg (by tauto)]

/-- All that `WriteSub` changes. -/
theorem writeSubWord_frame (lo a : Nat) (bytes : List Byte) (s : State) : writeSubWord lo a bytes s = { s with
    tmem := (writeSubWord lo a bytes s).tmem, history := (writeSubWord lo a bytes s).history } := by
  unfold writeSubWord
  simp only
  split <;> rfl

theorem writeSubDown_frame (lo first : Nat) (bytes : List Byte) (n : Nat) (s : State) :
    writeSubDown lo first bytes n s = { s with
      tmem := (writeSubDown lo first bytes n s).tmem, history := (writeSubDown lo first bytes n s).history } := by
  induction n generalizing s with
  | zero => rfl
  | succ n ih =>
    rw [writeSubDown, ih, writeSubWord_frame]

theorem writeSub_frame (lo : Nat) (bytes : List Byte) (s : State) : writeSub lo bytes s = { s with
    tmem := (writeSub lo bytes s).tmem, history := (writeSub lo bytes s).history } :=
  writeSubDown_frame _ _ _ _ _

/-- A word of `TMEM` outside the words of the range reads as before. -/
theorem readTmem_writeSubDown {lo first n : Nat} {bytes : List Byte} {s : State} {x : BitVec 16}
    (h : ∀ w, first ≤ w → w < first + n → x ≠ s.cfg.rawBase + BitVec.ofNat 16 w) :
    readTmem (writeSubDown lo first bytes n s) x = readTmem s x := by
  induction n generalizing s with
  | zero => rfl
  | succ n ih =>
    have hcfg : (writeSubWord lo (first + n) bytes s).cfg = s.cfg := by rw [writeSubWord_frame]
    rw [writeSubDown, ih (fun w h1 h2 => by rw [hcfg]; exact h w h1 (by omega)),
      writeSubWord_outside (h _ (by omega) (by omega))]

theorem readTmem_writeSub {lo : Nat} {bytes : List Byte} {s : State} {x : BitVec 16}
    (h : ∀ w, lo / 4 ≤ w → w ≤ (lo + bytes.length - 1) / 4 → x ≠ s.cfg.rawBase + BitVec.ofNat 16 w) :
    readTmem (writeSub lo bytes s) x = readTmem s x :=
  readTmem_writeSubDown fun w h1 h2 => h w h1 (by omega)

theorem writeSubDown_wf {lo first n : Nat} {bytes : List Byte} {s : State} (h : Store.wf 65536 s.tmem = true) :
    Store.wf 65536 (writeSubDown lo first bytes n s).tmem = true := by
  induction n generalizing s with
  | zero => exact h
  | succ n ih =>
    refine ih ?_
    unfold writeSubWord
    simp only
    split <;> exact Store.wf_put _ h (BitVec.isLt _)

/-! ## One slot of `PROGR` (41_table_programmer R166, R167) -/

/-- The two sub-regions of a slot follow one another and end inside the 412 bytes of the region. -/
theorem off_bounds (k : Slot) : offVals k = offBits k + 16 ∧ offVals k + k.size ≤ 412 ∧ 0 < k.size := by
  cases k <;> decide

/-- The bytes of different slots do not meet. -/
theorem off_disjoint {k k' : Slot} (h : k' ≠ k) :
    offVals k + k.size ≤ offBits k' ∨ offVals k' + k'.size ≤ offBits k := by
  cases k <;> cases k' <;> first | exact absurd rfl h | decide

/-- All that programming the raw specification of a slot changes. -/
theorem programRaw_frame (k : Slot) (h : RawSpec) (s : State) : programRaw k h s = { s with
    tmem := (programRaw k h s).tmem
    history := (programRaw k h s).history
    prgRaw := s.prgRaw.set k true } := by
  unfold programRaw
  simp only
  rw [writeSub_frame, writeSub_frame]

/-- The bytes of the region after one slot. -/
theorem rawByte_programRaw {k : Slot} {h : RawSpec} (s : State) (h1 : h.bits.length = 16) (h2 : h.vals.length = k.size)
    {b : Nat} (hb : b < 412) : rawByte (programRaw k h s) b =
      if offBits k ≤ b ∧ b < offVals k then h.bits.getD (b - offBits k) 0#8
      else if offVals k ≤ b ∧ b < offVals k + k.size then h.vals.getD (b - offVals k) 0#8
      else rawByte s b := by
  have hbd := off_bounds k
  have e : rawByte (programRaw k h s) b =
      rawByte (writeSub (offVals k) h.vals (writeSub (offBits k) h.bits s)) b := by
    unfold rawByte
    rw [readTmem_congr (s := programRaw k h s) (t := writeSub (offVals k) h.vals (writeSub (offBits k) h.bits s)) rfl]
    rfl
  rw [e, rawByte_writeSub _ (by omega) (by omega) (by omega), rawByte_writeSub _ (by omega) (by omega) (by omega), h1, h2]
  split_ifs <;> first | rfl | omega

/-- A word outside the region reads as before. -/
theorem readTmem_programRaw {k : Slot} {h : RawSpec} {s : State} (h1 : h.bits.length = 16) (h2 : h.vals.length = k.size)
    {x : BitVec 16} (hx : ∀ w, w < 103 → x ≠ s.cfg.rawBase + BitVec.ofNat 16 w) :
    readTmem (programRaw k h s) x = readTmem s x := by
  have hbd := off_bounds k
  have hc : (writeSub (offBits k) h.bits s).cfg = s.cfg := by rw [writeSub_frame]
  rw [readTmem_congr (s := programRaw k h s) (t := writeSub (offVals k) h.vals (writeSub (offBits k) h.bits s)) rfl,
    readTmem_writeSub, readTmem_writeSub]
  · intro w _ hw; exact hx w (by omega)
  · intro w _ hw; rw [hc]; exact hx w (by omega)

/-! ## The order of the accesses of `PROGR` (41_table_programmer R166, R168) -/

/-- Whether an access writes, and the word it names. -/
def TableAccess.shape : TableAccess → Bool × BitVec 16
  | .tread a => (false, a)
  | .twrite a _ => (true, a)
  | .qwrite _ w _ => (true, BitVec.ofNat 16 w)

/-- `TMEM` after an access. -/
def TableAccess.effect (m : Store Word) : TableAccess → Store Word
  | .tread _ => m
  | .twrite a v => Store.put m a.toNat v
  | .qwrite _ _ _ => m

/-- From `s` to `t` the accesses of shape `l` were made and recorded, and `TMEM` is what they leave. -/
structure Accessed (s t : State) (l : List (Bool × BitVec 16)) : Prop where
  made : ∃ h, t.history = s.history ++ h ∧ h.map TableAccess.shape = l ∧ t.tmem = h.foldl TableAccess.effect s.tmem
  cfg : t.cfg = s.cfg
  hspec : t.hspec = s.hspec

theorem Accessed.trans {s t u : State} {l k : List (Bool × BitVec 16)} (a : Accessed s t l) (b : Accessed t u k) :
    Accessed s u (l ++ k) := by
  obtain ⟨⟨h, h1, h2, h3⟩, h4, h5⟩ := a
  obtain ⟨⟨j, j1, j2, j3⟩, j4, j5⟩ := b
  exact ⟨⟨h ++ j, by rw [j1, h1, List.append_assoc], by rw [List.map_append, h2, j2], by rw [j3, h3, List.foldl_append]⟩,
    j4.trans h4, j5.trans h5⟩

/-- The accesses of word `a` of `WriteSub` over `n` bytes from `lo`. -/
def wordAccesses (c : Config) (lo n a : Nat) : List (Bool × BitVec 16) :=
  let word := c.rawBase + BitVec.ofNat 16 a
  if lo ≤ 4 * a ∧ 4 * a + 3 < lo + n then [(true, word)] else [(false, word), (true, word)]

/-- The accesses of `WriteSub` over `n` bytes from `lo`. -/
def subAccesses (c : Config) (lo n : Nat) : List (Bool × BitVec 16) :=
  (List.range ((lo + n - 1) / 4 + 1 - lo / 4)).reverse.flatMap (fun j => wordAccesses c lo n (lo / 4 + j))

theorem writeSubWord_accessed (lo a : Nat) (bytes : List Byte) (s : State) :
    Accessed s (writeSubWord lo a bytes s) (wordAccesses s.cfg lo bytes.length a) := by
  unfold writeSubWord wordAccesses
  have : (lo ≤ 4 * a ∧ 4 * a + 4 ≤ lo + bytes.length) ↔ (lo ≤ 4 * a ∧ 4 * a + 3 < lo + bytes.length) := by omega
  simp only [this]
  split
  · exact ⟨⟨_, rfl, rfl, rfl⟩, rfl, rfl⟩
  · exact ⟨⟨_, by simp [State.tWrite, State.tReadMark]; rfl, rfl, rfl⟩, rfl, rfl⟩

theorem writeSubDown_accessed (lo first n : Nat) (bytes : List Byte) (s : State) :
    Accessed s (writeSubDown lo first bytes n s)
      ((List.range n).reverse.flatMap (fun j => wordAccesses s.cfg lo bytes.length (first + j))) := by
  induction n generalizing s with
  | zero => exact ⟨⟨[], by simp [writeSubDown], rfl, rfl⟩, rfl, rfl⟩
  | succ n ih =>
    rw [List.range_succ, List.reverse_append]
    simp only [List.reverse_cons, List.reverse_nil, List.nil_append, List.singleton_append, List.flatMap_cons]
    rw [writeSubDown]
    have h1 := writeSubWord_accessed lo (first + n) bytes s
    have h2 := ih (writeSubWord lo (first + n) bytes s)
    rw [h1.cfg] at h2
    exact h1.trans h2

/-- The accesses of one selected slot: its Bits, then its Values. -/
theorem programRaw_accessed (k : Slot) (h : RawSpec) (s : State) : Accessed s (programRaw k h s)
    (subAccesses s.cfg (offBits k) h.bits.length ++ subAccesses s.cfg (offVals k) h.vals.length) := by
  have a : Accessed s (writeSub (offBits k) h.bits s) _ := writeSubDown_accessed _ _ _ _ _
  have b : Accessed _ (writeSub (offVals k) h.vals (writeSub (offBits k) h.bits s)) _ := writeSubDown_accessed _ _ _ _ _
  rw [a.cfg] at b
  obtain ⟨h1, h2, h3⟩ := a.trans b
  exact ⟨h1, h2, h3⟩

end Sys2Proof.Machine
end

