-- ==== Sys2Proof/Laws/PerInstr.lean ====
section
/-! SUPPORT. The per-instruction family `Opcode`: the top byte of an encoded operation is the opcode of its row in the tables
of 30_encoding R104 and R105. -/

namespace Sys2Proof.Laws

open Sys2Proof

/-- The opcode byte of an operation (30_encoding R104, R105). -/
def opcodeOf : Instr → BitVec 8
  | .ldb _ _ _ => 0x01#8
  | .wrd _ _ => 0x02#8
  | .build _ => 0x10#8
  | .progc _ _ => 0x11#8
  | .progr _ => 0x12#8
  | .qgen _ _ => 0x13#8
  | .qest _ => 0x14#8
  | .start _ _ => 0x20#8
  | .pause _ => 0x21#8
  | .resume _ => 0x22#8
  | .poll => 0x23#8
  | .abort => 0x24#8
  | .getinfo _ => 0x30#8
  | .getstate => 0x31#8
  | .geterr => 0x32#8
  | .sbfill _ => 0x40#8
  | .sbinit => 0x41#8
  | .evErr => 0x81#8
  | .evHpd => 0x82#8
  | .evIn => 0x83#8
  | .evOut => 0x84#8
  | .evEoc => 0x85#8
  | .evDmaInCplt => 0x86#8
  | .evDmaOutCplt => 0x87#8
  | .evDmaAbort => 0x88#8

/-- The top byte of the encoded words is the opcode. -/
def Opcode.Statement (i : Instr) : Prop := (encodeCmd i).extractLsb' 24 8 = opcodeOf i

/-- The top byte of a word that begins with a byte. -/
theorem top_byte (b : BitVec 8) (r : BitVec 24) : (b ++ r : Word).extractLsb' 24 8 = b := by
  apply BitVec.eq_of_getLsbD_eq
  intro i hi
  rw [BitVec.getLsbD_extractLsb', BitVec.getLsbD_append]
  simp [hi]

theorem Opcode.ldb (file : LdbFile) (index : BitVec 8) (data : Byte) : Opcode.Statement (.ldb file index data) := top_byte _ _
theorem Opcode.wrd (reg : DescReg) (value : Word) : Opcode.Statement (.wrd reg value) := top_byte _ _
theorem Opcode.build (slot : Slot) : Opcode.Statement (.build slot) := top_byte _ _
theorem Opcode.progc (addr : BitVec 16) (src : Option Slot) : Opcode.Statement (.progc addr src) := top_byte _ _
theorem Opcode.progr (mask : SlotSet) : Opcode.Statement (.progr mask) := top_byte _ _
theorem Opcode.qgen (q : BitVec 4) (quality : BitVec 8) : Opcode.Statement (.qgen q quality) := top_byte _ _
theorem Opcode.qest (q : BitVec 4) : Opcode.Statement (.qest q) := top_byte _ _
theorem Opcode.start (op : JobOp) (method : Method) : Opcode.Statement (.start op method) := top_byte _ _
theorem Opcode.pause (dir : DirSet) : Opcode.Statement (.pause dir) := top_byte _ _
theorem Opcode.resume (dir : DirSet) : Opcode.Statement (.resume dir) := top_byte _ _
theorem Opcode.poll : Opcode.Statement .poll := by unfold Opcode.Statement; decide
theorem Opcode.abort : Opcode.Statement .abort := by unfold Opcode.Statement; decide
theorem Opcode.getinfo (sel : InfoSel) : Opcode.Statement (.getinfo sel) := top_byte _ _
theorem Opcode.getstate : Opcode.Statement .getstate := by unfold Opcode.Statement; decide
theorem Opcode.geterr : Opcode.Statement .geterr := by unfold Opcode.Statement; decide
theorem Opcode.sbfill (len : Word) : Opcode.Statement (.sbfill len) := by
  change BitVec.extractLsb' 24 8 0x40000000#32 = 0x40#8
  decide
theorem Opcode.sbinit : Opcode.Statement .sbinit := by unfold Opcode.Statement; decide
theorem Opcode.evErr : Opcode.Statement .evErr := by unfold Opcode.Statement; decide
theorem Opcode.evHpd : Opcode.Statement .evHpd := by unfold Opcode.Statement; decide
theorem Opcode.evIn : Opcode.Statement .evIn := by unfold Opcode.Statement; decide
theorem Opcode.evOut : Opcode.Statement .evOut := by unfold Opcode.Statement; decide
theorem Opcode.evEoc : Opcode.Statement .evEoc := by unfold Opcode.Statement; decide
theorem Opcode.evDmaInCplt : Opcode.Statement .evDmaInCplt := by unfold Opcode.Statement; decide
theorem Opcode.evDmaOutCplt : Opcode.Statement .evDmaOutCplt := by unfold Opcode.Statement; decide
theorem Opcode.evDmaAbort : Opcode.Statement .evDmaAbort := by unfold Opcode.Statement; decide

end Sys2Proof.Laws
end

