-- ==== Sys2Proof/Machine/Pseudo.lean ====
section
/-! DEFINITION. The pseudo-operations (30_encoding R114 to R116), as the lists of commands they expand to, the rule by which
an expansion stops (R114), and the assembler form of a command (R113). -/

namespace Sys2Proof.Machine

open Sys2Proof

/-! ## Expansions -/

/-- The source of a region in `CONFIGURE_TABLES`: its own slot if its bit of `hmask` is 1, else `NULL`. -/
def suppliedSlot (hmask : SlotSet) (slot : Slot) : Option Slot := if hmask.has slot then some slot else none

/-- `CONFIGURE_TABLES hmask, qlist` (30_encoding R114): `PROGR`, the four regions in the order AC0, DC0, AC1, DC1, then a
`QGEN` for each pair. -/
def configureTables (c : Config) (hmask : SlotSet) (qlist : List (BitVec 4 × BitVec 8)) : List Instr :=
  [.progr hmask,
   .progc c.encAc0Base (suppliedSlot hmask .ac0),
   .progc c.encDc0Base (suppliedSlot hmask .dc0),
   .progc c.encAc1Base (suppliedSlot hmask .ac1),
   .progc c.encDc1Base (suppliedSlot hmask .dc1)] ++
  qlist.map (fun p => .qgen p.1 p.2)

/-- `START_DECODE` and `START_ENCODE` (30_encoding R115). -/
def startJobCommands (op : JobOp) (method : Method) (input inputLen output outputLen : Word) : List Instr :=
  [.wrd .inAddr input, .wrd .inLen inputLen, .wrd .outAddr output, .wrd .outLen outputLen, .start op method]

/-- One `LDB` per byte, ascending index from `k`. -/
def loadFrom (file : LdbFile) : Nat → List Byte → List Instr
  | _, [] => []
  | k, b :: bs => .ldb file (BitVec.ofNat 8 k) b :: loadFrom file (k + 1) bs

/-- `LOAD_SPEC s, bits, vals` (30_encoding R116). -/
def loadSpec (s : Slot) (bits vals : List Byte) : List Instr := loadFrom (.bits s) 0 bits ++ loadFrom (.vals s) 0 vals

/-- `LOAD_BASELINE q, table` (30_encoding R116). -/
def loadBaseline (q : BitVec 4) (table : List Byte) : List Instr := loadFrom (.baseline q) 0 table

/-- "The expansion stops at the first command whose status is not `OK` and that status is the result" (30_encoding R114). -/
def runCommands : List Instr → State → Result
  | [], s => .next s
  | i :: is, s =>
    match exec i s with
    | .next t =>
      match t.response with
      | some r => if r.status = 0x00#8 then runCommands is t else .next t
      | none => .next t
    | .fault f => .fault f
    | .refused r => .refused r

/-! ## Assembler form (30_encoding R113) -/

/-- `0x` and hexadecimal digits. -/
def hexText {n : Nat} (b : BitVec n) : String := "0x" ++ b.toHex.map Char.toUpper

/-- The name of a slot. -/
def Slot.text : Slot → String
  | .dc0 => "DC0"
  | .ac0 => "AC0"
  | .dc1 => "DC1"
  | .ac1 => "AC1"

/-- A set written in braces. -/
def setText (members : List String) : String :=
  String.singleton (Char.ofNat 123) ++ String.intercalate "," members ++ String.singleton (Char.ofNat 125)

/-- A direction as a set. -/
def dirText (d : DirSet) : String :=
  setText ((if d.input then ["Input"] else []) ++ (if d.output then ["Output"] else []))

/-- The name of a file of `LDB`. -/
def fileText : LdbFile → String
  | .bits s => Slot.text s ++ ".BITS"
  | .vals s => Slot.text s ++ ".VALS"
  | .baseline q => "BASELINE[" ++ toString q.toNat ++ "]"

/-- The name of a descriptor register. -/
def regText : DescReg → String
  | .inAddr => "IN_ADDR"
  | .inLen => "IN_LEN"
  | .outAddr => "OUT_ADDR"
  | .outLen => "OUT_LEN"

/-- The name of an operation of `START`. -/
def opText : JobOp → String
  | .decode => "Decode"
  | .encode => "Encode"

/-- The name of a method. -/
def methodText : Method → String
  | .poll => "Poll"
  | .interrupt => "Interrupt"
  | .dma => "DMA"

/-- An operation as 30_encoding R113 writes it. -/
def asmText : Instr → String
  | .ldb f i d => "LDB " ++ fileText f ++ ", " ++ toString i.toNat ++ ", " ++ hexText d
  | .wrd r v => "WRD " ++ regText r ++ ", " ++ toString v.toNat
  | .build s => "BUILD " ++ Slot.text s
  | .progc a none => "PROGC " ++ hexText a ++ ", NULL"
  | .progc a (some s) => "PROGC " ++ hexText a ++ ", " ++ Slot.text s
  | .progr m => "PROGR " ++ setText (([.dc0, .ac0, .dc1, .ac1].filter m.has).map Slot.text)
  | .qgen q v => "QGEN " ++ toString q.toNat ++ ", " ++ toString v.toNat
  | .qest q => "QEST " ++ toString q.toNat
  | .start op m => "START " ++ opText op ++ ", " ++ methodText m
  | .pause d => "PAUSE " ++ dirText d
  | .resume d => "RESUME " ++ dirText d
  | .poll => "POLL"
  | .abort => "ABORT"
  | .getinfo .dimensions => "GETINFO 0"
  | .getinfo .attributes => "GETINFO 1"
  | .getstate => "GETSTATE"
  | .geterr => "GETERR"
  | .sbfill len => "SBFILL " ++ toString len.toNat
  | .sbinit => "SBINIT"
  | .evErr => "EV_ERR"
  | .evHpd => "EV_HPD"
  | .evIn => "EV_IN"
  | .evOut => "EV_OUT"
  | .evEoc => "EV_EOC"
  | .evDmaInCplt => "EV_DMA_IN_CPLT"
  | .evDmaOutCplt => "EV_DMA_OUT_CPLT"
  | .evDmaAbort => "EV_DMA_ABORT"

end Sys2Proof.Machine
end

