-- ==== Sys2Proof/Tests/Slice0.lean ====
section
/-! SUPPORT. Tests on single steps, with expected values from 95_test_vectors or worked by hand from the rules named beside
them, and for every statement a concrete state and operands that meet its hypotheses. -/

namespace Sys2Proof.Tests

set_option Elab.async false

open Sys2Proof
open Sys2Proof.Machine

/-! ## Helpers -/

/-- The outcome is a next state with the property. -/
def nextIs (r : Result) (p : State → Bool) : Bool :=
  match r with
  | .next t => p t
  | .fault _ => false
  | .refused _ => false

/-- The outcome is the fault. -/
def faultIs (r : Result) (f : Fault) : Bool :=
  match r with
  | .next _ => false
  | .fault g => decide (g = f)
  | .refused _ => false

theorem next_of_nextIs {r : Result} {p : State → Bool} (h : nextIs r p = true) : ∃ t, r = .next t ∧ p t = true := by
  cases r with
  | next t => exact ⟨t, rfl, h⟩
  | fault f => cases h
  | refused f => cases h

theorem fault_of_faultIs {r : Result} {f : Fault} (h : faultIs r f = true) : r = .fault f := by
  cases r with
  | next t => cases h
  | fault g => exact congrArg _ (of_decide_eq_true h)
  | refused g => cases h

/-- The response is this status with this data. -/
def responds (status : BitVec 8) (data : Word) (t : State) : Bool :=
  decide (t.response = some { status := status, data := data })

/-- BITS of the luminance DC specification (95_test_vectors V-H0). -/
def lumBits : List Byte := [0, 1, 5, 1, 1, 1, 1, 1, 1, 0, 0, 0, 0, 0, 0, 0]
/-- VALS of the luminance DC specification (95_test_vectors V-H0). -/
def lumVals : List Byte := [0, 1, 2, 3, 4, 5, 6, 7, 8, 9, 10, 11]
/-- Lengths of the table of V-H0. -/
def lumLen : List (BitVec 5) := [2, 3, 3, 3, 3, 3, 4, 5, 6, 7, 8, 9]
/-- Codes of the table of V-H0. -/
def lumCode : List HalfWord := [0, 2, 3, 4, 5, 6, 0xE, 0x1E, 0x3E, 0x7E, 0xFE, 0x1FE]
/-- The table of V-H0. -/
def lumTable : HuffTable where
  valid := true
  len := lumLen.map some
  code := lumCode.map some

/-- Reset with DC0 loaded with some BITS and with the VALS of V-H0. -/
def withBits (bits : List Byte) : State :=
  { State.reset with
    hspec := { State.reset.hspec with dc0 := { bits := bits.map some, vals := lumVals.map some } } }
/-- Reset with DC0 built from V-H0. -/
def built : State := { withBits lumBits with hct := { State.reset.hct with dc0 := lumTable } }
/-- Reset with one baseline, every element `b`. -/
def withBaseline (b : Byte) : State :=
  { State.reset with baseline := State.reset.baseline.set 0 (List.replicate 64 (some b)) }

/-- Reset with an input buffer of 64 bytes at 0x3000 and an output buffer of 64 bytes at 0x2000. -/
def ready : State :=
  { State.reset with
    desc := { inAddr := 0x3000#32, inLen := 64#32, inOff := 0#32, outAddr := 0x2000#32, outLen := 64#32, outOff := 0#32 } }
/-- A job just started. -/
def job (op : JobOp) (m : Method) : State := startWith op m ready
/-- The same job, the host outside the block. -/
def outside (s : State) (refills : List RefillReply) (drains : List DrainReply) : State :=
  { s with host := { s.host with managed := false, refillReplies := refills, drainReplies := drains } }
/-- The state whose host comes back from `INFO_READY`, `DONE` and `ERROR` as listed. -/
def notified (s : State) (l : List NoticeReply) : State := { s with host := { s.host with notices := l } }
/-- The state with words in `OFIFO`. -/
def words (s : State) (n : Nat) : State := { s with ofifo := List.replicate n 0x04030201#32 }
/-- The state with the output buffer full but for one word, `n` words in `OFIFO`, and a host outside the block. -/
def nearFull (s : State) (n : Nat) (drains : List DrainReply) : State :=
  words (outside { s with desc := { s.desc with outOff := 60#32 } } [] drains) n
/-- The state with `EOCF` raised. -/
def ended (s : State) : State := { s with sr := { s.sr with eocf := true } }
/-- The state with one thing to do. -/
def doing (s : State) (x : Stimulus) : State := { s with inputs := [x] }
/-- The job with both directions paused. -/
def paused (s : State) : State := s.pauseInput.pauseOutput
/-- The job with its input buffer used up, buffer 0 of the manager being read. -/
def usedUp (s : State) : State :=
  { s with
    desc := { s.desc with inAddr := 0x1000#32, inLen := 16#32, inOff := 16#32 }
    sb := { s.sb with buf0 := { full := true, len := 16#32 } } }
/-- The residual drain of a job, stopped by an output pause. -/
def drainingPaused : State := words (job .encode .interrupt).stopSources.pauseOutput 2
/-- A `DMA` job whose `DIN` has finished its block. -/
def dinDone : State :=
  let s := job .decode .dma
  { s with din := { s.din with done := 64#32, busy := false, cplt := true } }
/-- A `DMA` job whose `DOUT` has finished its block. -/
def doutDone : State :=
  let s := job .decode .dma
  { s with dout := { s.dout with done := 64#32, busy := false, cplt := true } }
/-- A `POLL` in which every event but `EV_ERR` is eligible, the input buffer used up and the other one empty. -/
def pollAll : State :=
  let s := notified (usedUp (words (ended (job .decode .poll)) 1)) [.returned, .returned]
  { s with sr := { s.sr with hpdf := true } }
/-- A `DMA` job that ends: `DOUT` moved 32 bytes and was aborted, and so was `DIN`, `left` still busy. -/
def aborted (left : Bool) : State :=
  let s := (job .encode .dma).stopSources
  { words s 2 with
    din := { s.din with busy := left, aborted := !left, abortReq := left }
    dout := { s.dout with done := 32#32, busy := false, aborted := true } }

/-! ## The invariant on concrete states -/

/-- The invariant from its parts, each a decidable proposition of a concrete state. -/
theorem inv_of_parts {s : State} (p : s.cfg.wf = true ∧ Memory.wf s = true)
    (m : (s.fsm = .idle ↔ s.ctx.op = none ∧ s.ctx.method = none ∧ s.ctx.pauseIn = false ∧ s.ctx.pauseOut = false ∧
        s.ctx.ending = false ∧ s.cr.run = false) ∧
      (s.fsm = .polling ↔ s.cr.run = true ∧ s.ctx.ending = false ∧ s.ctx.method = some .poll) ∧
      (s.fsm = .interrupting ↔ s.cr.run = true ∧ s.ctx.ending = false ∧ s.ctx.method = some .interrupt))
    (m' : (s.fsm = .dmaActive ↔ s.cr.run = true ∧ s.ctx.ending = false ∧ s.ctx.method = some .dma) ∧
      (s.fsm = .draining ↔ s.ctx.ending = true) ∧ (s.ctx.ending = true → s.cr.run = false) ∧
      (s.fsm ≠ .idle → s.ctx.op ≠ none ∧ s.ctx.method ≠ none) ∧ s.fsm ≠ .configuring)
    (e : (s.fsm = .idle ∨ s.fsm = .draining → s.cr = .reset) ∧ (s.cr.run = true → s.cr.ieErr = true) ∧
      (s.cr.run = true → s.ctx.fifoMethod = true →
        s.cr.ieIft = !s.ctx.pauseIn ∧ s.cr.ieIfnf = !s.ctx.pauseIn ∧ s.cr.ieOft = !s.ctx.pauseOut ∧
          s.cr.ieOfne = !s.ctx.pauseOut ∧ s.cr.ieEoc = !s.ctx.pauseOut ∧ s.cr.dmaInEn = false ∧ s.cr.dmaOutEn = false))
    (e' : (s.cr.run = true → s.ctx.dmaMethod = true →
        s.cr.ieIft = false ∧ s.cr.ieIfnf = false ∧ s.cr.ieOft = false ∧ s.cr.ieOfne = false ∧ s.cr.ieEoc = true ∧
          s.cr.dmaInEn = true ∧ s.cr.dmaOutEn = true) ∧
      (s.cr.ieHpd = true ∨ s.sr.hpdf = true → s.ctx.op = some .decode) ∧
      (s.fsm = .idle → s.sr.eocf = false ∧ s.sr.hpdf = false))
    (f : s.ififo.length ≤ s.cfg.fifoDepth ∧ s.ofifo.length ≤ s.cfg.fifoDepth)
    (t : slotShape s .dc0 = true ∧ slotShape s .ac0 = true ∧ slotShape s .dc1 = true ∧ slotShape s .ac1 = true)
    (t' : s.baseline.length = s.cfg.nq ∧ (∀ b ∈ s.baseline, b.length = 64) ∧
      s.ctx.cfgHuff = (s.prgRaw.all && s.prgEnc.all) ∧ s.info.quality.toNat ≤ 100)
    (b : s.desc.inOff.toNat ≤ s.desc.inLen.toNat ∧
      (s.fsm ≠ .idle → inHostSpace s.desc.inAddr s.desc.inLen = true) ∧
      (s.fsm ≠ .idle → inHostSpace s.desc.outAddr s.desc.outLen = true) ∧
      (s.fsm ≠ .idle → s.desc.outOff.toNat < s.desc.outLen.toNat))
    (b' : (s.fsm ≠ .idle → s.desc.outLen.toNat % 4 = 0 ∧ s.desc.outOff.toNat % 4 = 0) ∧
      (s.fsm ≠ .idle → inOverlapsOut s.desc = false) ∧
      (s.fsm ≠ .idle → outOverlapsSb s.cfg s.desc = false) ∧
      (s.ctx.dmaMethod = true → wordAligned s.desc.inAddr = true ∧ wordAligned s.desc.outAddr = true))
    (n : (s.din.busy = true → s.din.done.toNat < s.din.len.toNat) ∧
      (s.din.busy = true → inHostSpace s.din.addr s.din.len = true) ∧ (s.din.busy = true → s.din.cplt = false) ∧
      (s.cr.dmaInEn = true → s.din.busy = true → s.desc.inAddr.toNat ≤ s.din.addr.toNat ∧
        s.din.addr.toNat + s.din.len.toNat ≤ s.desc.inAddr.toNat + s.desc.inLen.toNat) ∧
      (s.ctx.dmaMethod = true → s.din.busy = true ∨ s.din.cplt = true → s.desc.inOff ≠ s.desc.inLen))
    (n' : (s.ctx.dmaMethod = true → s.dout.addr = s.desc.outAddr ∧
        s.dout.len.toNat = roundDown s.desc.outLen.toNat s.cfg.granOut ∧ Gran.bytes s.cfg.granOut ≤ s.desc.outLen.toNat) ∧
      (s.ctx.dmaMethod = true → s.dout.done.toNat ≤ s.dout.len.toNat ∧
        s.dout.done.toNat % Gran.bytes s.cfg.granOut = 0) ∧
      (s.ctx.dmaMethod = true → s.dout.cplt = false → s.dout.done.toNat < s.dout.len.toNat) ∧
      (s.ctx.dmaMethod = true → s.dout.busy = true → s.dout.cplt = false) ∧
      (s.din.abortReq = true ∨ s.dout.abortReq = true ∨ s.din.aborted = true ∨ s.dout.aborted = true →
        s.ctx.dmaMethod = true))
    (k : s.sb.buf0.len.toNat ≤ s.cfg.ibcap ∧ s.sb.buf1.len.toNat ≤ s.cfg.ibcap ∧
      (s.sb.filling = some .b0 → s.sb.buf0.len ≠ 0#32) ∧ (s.sb.filling = some .b1 → s.sb.buf1.len ≠ 0#32)) : Inv s :=
  ⟨p.1, p.2, ⟨m.1, m.2.1, m.2.2, m'.1, m'.2.1, m'.2.2.1, m'.2.2.2.1, m'.2.2.2.2⟩,
    ⟨e.1, e.2.1, e.2.2, e'.1, e'.2.1, e'.2.2⟩, ⟨f.1, f.2⟩,
    ⟨t.1, t.2.1, t.2.2.1, t.2.2.2, t'.1, t'.2.1, t'.2.2.1, t'.2.2.2⟩,
    ⟨b.1, b.2.1, b.2.2.1, b.2.2.2, b'.1, b'.2.1, b'.2.2.1, b'.2.2.2⟩,
    ⟨n.1, n.2.1, n.2.2.1, n'.1, n'.2.1, n'.2.2.1, n'.2.2.2.1, n.2.2.2.1, n.2.2.2.2, n'.2.2.2.2⟩,
    ⟨k.1, k.2.1, fun i => match i with
      | .b0 => k.2.2.1
      | .b1 => k.2.2.2⟩⟩

/-! ## Ill-formed terms are refused (30_encoding R103, R107) -/

theorem test_wf_bits_index : Instr.wellFormed 4 (.ldb (.bits .dc0) 16#8 0#8) = false := by decide
theorem test_wf_vals_index_dc : Instr.wellFormed 4 (.ldb (.vals .dc1) 12#8 0#8) = false := by decide
theorem test_wf_vals_index_ac : Instr.wellFormed 4 (.ldb (.vals .ac0) 162#8 0#8) = false := by decide
theorem test_wf_baseline_index : Instr.wellFormed 4 (.ldb (.baseline 0#4) 64#8 0#8) = false := by decide
theorem test_wf_baseline_q : Instr.wellFormed 4 (.ldb (.baseline 4#4) 0#8 0#8) = false := by decide
theorem test_wf_qgen_q : Instr.wellFormed 4 (.qgen 4#4 50#8) = false := by decide
theorem test_wf_qest_q : Instr.wellFormed 4 (.qest 4#4) = false := by decide
theorem test_wf_last_of_each_range : [Instr.ldb (.bits .dc0) 15#8 0#8, .ldb (.vals .dc1) 11#8 0#8, .ldb (.vals .ac0) 161#8 0#8,
    .ldb (.baseline 3#4) 63#8 0#8, .qgen 3#4 255#8, .qest 3#4].all (Instr.wellFormed 4) = true := by decide

/-! ## Words written out from 30_encoding R101, R104, R105 -/

/-- opc 01, file 05, index A1, data FA -/
theorem test_decode_ldb : decode 4 0x0105A1FA#32 0#32 = some (.ldb (.vals .ac0) 161#8 0xFA#8) := by decide
/-- opc 01, file 11, index 3F, data 63 -/
theorem test_decode_ldb_baseline : decode 4 0x01113F63#32 0#32 = some (.ldb (.baseline 1#4) 63#8 99#8) := by decide
/-- opc 02, reg 1; ARG the value -/
theorem test_decode_wrd : decode 4 0x02000001#32 16#32 = some (.wrd .inLen 16#32) := by decide
/-- opc 10, slot 3 -/
theorem test_decode_build : decode 4 0x10000003#32 0#32 = some (.build .ac1) := by decide
/-- opc 11, src 1, addr 01F0 -/
theorem test_decode_progc : decode 4 0x110101F0#32 0#32 = some (.progc 0x01F0#16 (some .dc0)) := by decide
/-- opc 11, src 0, addr 01F0 -/
theorem test_decode_progc_null : decode 4 0x110001F0#32 0#32 = some (.progc 0x01F0#16 none) := by decide
/-- opc 12, mask 4 -/
theorem test_decode_progr :
    decode 4 0x12000004#32 0#32 = some (.progr { dc0 := false, ac0 := false, dc1 := true, ac1 := false }) := by decide
/-- opc 13, q 2, quality 50 -/
theorem test_decode_qgen : decode 4 0x13000250#32 0#32 = some (.qgen 2#4 80#8) := by decide
/-- opc 14, q 1 -/
theorem test_decode_qest : decode 4 0x14000100#32 0#32 = some (.qest 1#4) := by decide
/-- opc 20, method 1, op 1 -/
theorem test_decode_start : decode 4 0x20000003#32 0#32 = some (.start .encode .interrupt) := by decide
/-- opc 21, dir 2 -/
theorem test_decode_pause :
    decode 4 0x21000002#32 0#32 = some (.pause { input := false, output := true }) := by decide
/-- opc 22, dir 1 -/
theorem test_decode_resume :
    decode 4 0x22000001#32 0#32 = some (.resume { input := true, output := false }) := by decide
theorem test_decode_poll : decode 4 0x23000000#32 0#32 = some .poll := by decide
theorem test_decode_abort : decode 4 0x24000000#32 0#32 = some .abort := by decide
theorem test_decode_getinfo : decode 4 0x30000001#32 0#32 = some (.getinfo .attributes) := by decide
theorem test_decode_getstate : decode 4 0x31000000#32 0#32 = some .getstate := by decide
theorem test_decode_geterr : decode 4 0x32000000#32 0#32 = some .geterr := by decide
/-- opc 40; ARG the length -/
theorem test_decode_sbfill : decode 4 0x40000000#32 16#32 = some (.sbfill 16#32) := by decide
theorem test_decode_sbinit : decode 4 0x41000000#32 0#32 = some .sbinit := by decide
theorem test_decode_ev_err : decode 4 0x81000000#32 0#32 = some .evErr := by decide
theorem test_decode_ev_hpd : decode 4 0x82000000#32 0#32 = some .evHpd := by decide
theorem test_decode_ev_in : decode 4 0x83000000#32 0#32 = some .evIn := by decide
theorem test_decode_ev_out : decode 4 0x84000000#32 0#32 = some .evOut := by decide
theorem test_decode_ev_eoc : decode 4 0x85000000#32 0#32 = some .evEoc := by decide
theorem test_decode_ev_dma_in_cplt : decode 4 0x86000000#32 0#32 = some .evDmaInCplt := by decide
theorem test_decode_ev_dma_out_cplt : decode 4 0x87000000#32 0#32 = some .evDmaOutCplt := by decide
theorem test_decode_ev_dma_abort : decode 4 0x88000000#32 0#32 = some .evDmaAbort := by decide
/-- A must-be-zero bit set, a field out of range, or an unused opcode: illegal (30_encoding R101, R103, R107). -/
theorem test_decode_mbz : [0x10000007#32, 0x20000006#32, 0x110501F0#32, 0x23000001#32, 0x14000001#32, 0x02000004#32, 0x01080000#32,
    0x80000000#32, 0x89000000#32, 0x81000001#32, 0x00000000#32].all (fun c => (decode 4 c 0#32).isNone) = true := by decide
/-- `ARG` counts from bit 32 of an opcode-table word. -/
theorem test_table_word_arg : decodeTableWord 64 0x0000001002000001 = some (.wrd .inLen 16#32) := by decide
/-- `GETSTATE` as the first command after reset: all zero (10_state R44, 45_register_access R284). -/
theorem test_fetch_word :
    nextIs (step (State.reset.withFetchWord 32 0x31000000)) (responds 0#8 0#32) = true := by decide +kernel

/-! ## One step of each instruction -/

/-- R280: the element is written and `VALID` falls. -/
theorem test_ldb : nextIs (exec (.ldb (.bits .dc0) 2#8 5#8) built) (fun t =>
    decide (t.hspec.dc0.bits[2]? = some (some 5#8)) && !t.hct.dc0.valid && responds 0#8 0#32 t) = true := by decide +kernel
/-- 60_exceptions R302. -/
theorem test_ldb_in_job :
    faultIs (exec (.ldb (.bits .dc0) 2#8 5#8) (job .encode .poll)) .programmingOutsideIdle = true := by decide +kernel
theorem test_wrd :
    nextIs (exec (.wrd .outLen 32#32) State.reset) (fun t => decide (t.desc.outLen = 32#32) && responds 0#8 0#32 t) = true := by decide +kernel
/-- R281: `Busy` while the input is not paused. -/
theorem test_wrd_in_job :
    nextIs (exec (.wrd .inLen 32#32) (job .encode .poll)) (fun t => decide (t.desc.inLen = 64#32) && responds 7#8 0#32 t) = true := by decide +kernel
/-- 95_test_vectors V-H0. -/
theorem test_build :
    nextIs (exec (.build .dc0) (withBits lumBits)) (fun t => decide (t.hct.dc0 = lumTable) && responds 0#8 0#32 t) = true := by decide +kernel
/-- 95_test_vectors V-B2: codes 0; 2, 3; then 4 >= 4. -/
theorem test_build_code_overflow : nextIs (exec (.build .dc0) (withBits [1, 2, 0, 0, 0, 0, 0, 0, 0, 0, 0, 0, 0, 0, 0, 0])) (fun t =>
    !t.hct.dc0.valid && decide (t.lastError = 2#8) && responds 2#8 0#32 t) = true := by decide +kernel
/-- 95_test_vectors V-C1: the writes, in order. -/
theorem test_progc : nextIs (exec (.progc 0x01F0#16 (some .dc0)) built) (fun t => decide (t.history =
    [.twrite 0x1F6#16 0xFFFFFFFF#32, .twrite 0x1F7#16 0xFFFFFFFF#32, .twrite 0x1F5#16 0x09FE08FE#32,
     .twrite 0x1F4#16 0x077E063E#32, .twrite 0x1F3#16 0x051E040E#32, .twrite 0x1F2#16 0x03060305#32,
     .twrite 0x1F1#16 0x03040303#32, .twrite 0x1F0#16 0x03020200#32])) = true := by decide +kernel
/-- 95_test_vectors V-C4. -/
theorem test_progc_address_first :
    nextIs (exec (.progc 0x01F1#16 none) State.reset) (responds 4#8 0#32) = true := by decide +kernel
/-- 95_test_vectors V-P3, words 0 to 6. -/
theorem test_progr : nextIs (exec (.progr { dc0 := true, ac0 := false, dc1 := false, ac1 := false }) (withBits lumBits)) (fun t =>
    decide ([0, 1, 2, 3, 4, 5, 6].map (fun w => readTmem t (0xD8#16 + w)) =
      [0x01050100#32, 0x01010101#32, 0x00000001#32, 0x00000000#32, 0x03020100#32, 0x07060504#32, 0x0B0A0908#32]) &&
    t.prgRaw.dc0) = true := by decide +kernel
/-- 95_test_vectors V-P6: `PROGR` of the empty set makes no access. -/
theorem test_progr_none : nextIs (exec (.progr { dc0 := false, ac0 := false, dc1 := false, ac1 := false }) State.reset) (fun t =>
    decide (t.history = []) && responds 0#8 0#32 t) = true := by decide +kernel
/-- By hand from 42_quantization R191, R193: scale 50, (16*50+50)/100 = 8. -/
theorem test_qgen :
    nextIs (exec (.qgen 0#4 75#8) (withBaseline 16#8)) (fun t => decide (readQmem t 0#4 15#4 = 0x08080808#32) && t.ctx.cfgQuant) = true := by decide +kernel
/-- 42_quantization R191, on a baseline nothing has written. -/
theorem test_qgen_quality_0 :
    nextIs (exec (.qgen 0#4 0#8) State.reset) (responds 5#8 0#32) = true := by decide +kernel
/-- By hand from 42_quantization R195: 8*100/16 = 50, (200-50)/2 = 75. -/
theorem test_qest : nextIs (exec (.qest 0#4) { withBaseline 16#8 with qmem := (List.range 16).map (fun w => (w, 0x08080808#32)) })
    (responds 0#8 75#32) = true := by decide +kernel
/-- 42_quantization R197 (b). -/
theorem test_qest_divide : faultIs (exec (.qest 0#4) { withBaseline 0#8 with qmem := (List.range 16).map (fun w => (w, 0x08080808#32)) })
    .divideByZero = true := by decide +kernel
/-- 43_transfer_fsm R211: run bit, end of conversion, header, error, both DMA enables. -/
theorem test_start : nextIs (exec (.start .decode .dma) ready) (fun t => decide (t.fsm = .dmaActive) && t.din.busy &&
    decide (t.din.len = 64#32) && decide (t.cr.pack = 0x000018E1#32)) = true := by decide +kernel
/-- 43_transfer_fsm R212 (a). -/
theorem test_start_empty :
    nextIs (exec (.start .encode .poll) State.reset) (responds 5#8 0#32) = true := by decide +kernel
/-- 43_transfer_fsm R231. -/
theorem test_pause : nextIs (exec (.pause { input := true, output := false }) (job .encode .interrupt)) (fun t =>
    t.ctx.pauseIn && !t.cr.ieIft && !t.cr.ieIfnf && t.cr.ieOft) = true := by decide +kernel
/-- 43_transfer_fsm R231. -/
theorem test_resume : nextIs (exec (.resume { input := true, output := false }) (paused (job .encode .interrupt))) (fun t =>
    !t.ctx.pauseIn && t.ctx.pauseOut && t.cr.ieIft && !t.cr.ieOft) = true := by decide +kernel
/-- 43_transfer_fsm R229: input and output ran, bits 3 and 4. -/
theorem test_poll : nextIs (exec .poll (words (job .encode .poll) 1)) (fun t => responds 0#8 0x18#32 t && decide (t.ofifo = []) &&
    decide (t.ififo.length = 8) && decide (t.desc.inOff = 32#32)) = true := by decide +kernel
/-- 43_transfer_fsm R230. -/
theorem test_abort :
    nextIs (exec .abort (paused (job .encode .dma))) (fun t => decide (t.fsm = .idle) && !t.din.busy && !t.cr.run) = true := by decide +kernel
theorem test_abort_unpaused : nextIs (exec .abort (job .encode .dma)) (responds 7#8 0#32) = true := by decide +kernel
/-- 45_register_access R283: chroma 1, colour space 1, quality 4B. -/
theorem test_getinfo : nextIs (exec (.getinfo .attributes) { State.reset with
    info := { width := 1#16, height := 2#16, colorspace := .ycbcr, chroma := .c420, quality := 75#7 } })
    (responds 0#8 0x0000114B#32) = true := by decide +kernel
/-- 45_register_access R284: `Polling` 2, op 2, method 1. -/
theorem test_getstate :
    nextIs (exec .getstate (job .decode .poll)) (responds 0#8 0x00060002#32) = true := by decide +kernel
theorem test_geterr :
    nextIs (exec .geterr { State.reset with lastError := 0xFF#8 }) (responds 0#8 0xFF#32) = true := by decide +kernel
/-- 44_stream_buffers R273. -/
theorem test_sbfill : nextIs (exec (.sbfill 4#32) { State.reset with host := { State.reset.host with source := [1, 2, 3, 4, 5] } }) (fun t =>
    decide (readBytes t.hmem 0x1000 4 = [1, 2, 3, 4]) && t.sb.buf0.full && decide (t.sb.wr = .b1) &&
    decide (t.host.source = [5])) = true := by decide +kernel
theorem test_sbfill_too_long :
    nextIs (exec (.sbfill 17#32) State.reset) (responds 5#8 0#32) = true := by decide +kernel
theorem test_sbinit : nextIs (exec .sbinit { State.reset with sb := { State.reset.sb with buf0 := { full := true, len := 8#32 }, wr := .b1 } })
    (fun t => decide (t.sb = .reset)) = true := by decide +kernel
theorem test_ev_err : nextIs (exec .evErr { job .encode .interrupt with sr := { eocf := false, hpdf := false, errf := true } }) (fun t =>
    decide (t.fsm = .idle) && decide (t.lastError = 6#8) && decide (t.trace = [.error 6#8])) = true := by decide +kernel
/-- 43_transfer_fsm R215. -/
theorem test_ev_hpd : nextIs (exec .evHpd { job .decode .interrupt with
    sr := { eocf := false, hpdf := true, errf := false }
    hdr := { width := 640#16, height := 480#16, ncomp := 3#3, nb0 := 4#4, nb1 := 1#4, nb2 := 1#4, nb3 := 0#4 } }) (fun t =>
    decide (t.info.chroma = .c420) && decide (t.info.colorspace = .ycbcr) && decide (t.trace = [.infoReady])) = true := by decide +kernel
/-- 20_memory R76: the byte at the lowest address in lane 0. -/
theorem test_ev_in : nextIs (exec .evIn { job .encode .interrupt with hmem := [(0x3000, 1#8), (0x3001, 2#8), (0x3002, 3#8), (0x3003, 4#8)] })
    (fun t => decide (t.ififo.head? = some 0x04030201#32) && decide (t.desc.inOff = 32#32)) = true := by decide +kernel
theorem test_ev_out : nextIs (exec .evOut (words (job .encode .interrupt) 9)) (fun t => decide (t.ofifo.length = 1) &&
    decide (readBytes t.hmem 0x2000 5 = [1, 2, 3, 4, 1]) && decide (t.desc.outOff = 32#32)) = true := by decide +kernel
/-- 43_transfer_fsm R220 to R222. -/
theorem test_ev_eoc : nextIs (exec .evEoc (words (ended (job .encode .interrupt)) 2)) (fun t => decide (t.fsm = .idle) &&
    decide (t.trace = [.drain 0x2000#32 8#32 [1, 2, 3, 4, 1, 2, 3, 4], .done (some .encode)])) = true := by decide +kernel
/-- 10_state R29: a transfer error of an engine sets `ERRF` too. -/
theorem test_din_error : nextIs (step (doing (job .decode .dma) .dinError)) (fun t => t.din.err && !t.din.busy && t.sr.errf &&
    eligible .err t) = true := by decide +kernel
/-- 60_exceptions R296: a command from inside `INFO_READY`. -/
theorem test_info_ready_command : faultIs (exec .evHpd (notified { job .decode .interrupt with
    sr := { eocf := false, hpdf := true, errf := false } } [.command])) .commandInCallback = true := by decide +kernel
/-- 30_encoding R105: not eligible. -/
theorem test_ev_eoc_refused :
    nextIs (exec .evEoc (job .encode .interrupt)) (fun t => decide (t.lastEvent = .refused) && decide (t.trace = [])) = true := by decide +kernel
/-- 43_transfer_fsm R223, R213. -/
theorem test_ev_dma_in_cplt : nextIs (exec .evDmaInCplt (outside dinDone [.supply 0x4000#32 33#32] [])) (fun t => t.din.busy &&
    decide (t.din.addr = 0x4000#32) && decide (t.din.len = 32#32) && decide (t.trace = [.refill 64#32])) = true := by decide +kernel
/-- 43_transfer_fsm R224. -/
theorem test_ev_dma_out_cplt : nextIs (exec .evDmaOutCplt (outside doutDone [] [.pause])) (fun t => t.ctx.pauseOut && !t.dout.busy &&
    decide (t.dout.done = 0#32)) = true := by decide +kernel
/-- 43_transfer_fsm R225: 32 bytes of the engine and two words, in one drain. -/
theorem test_ev_dma_abort : nextIs (exec .evDmaAbort (aborted false)) (fun t => decide (t.fsm = .idle) &&
    decide ((drainBytes t.trace).length = 40) && decide (t.trace.length = 2)) = true := by decide +kernel

/-! ## Concrete states that meet the hypotheses of the statements -/

theorem witness_inv_fifo :
    Inv (words (ended (job .encode .interrupt)) 9) := by
  apply inv_of_parts <;> decide +kernel
theorem witness_inv_poll : Inv (words (job .decode .poll) 9) := by
  apply inv_of_parts <;> decide +kernel
theorem witness_inv_poll_ended : Inv (ended (job .decode .poll)) := by
  apply inv_of_parts <;> decide +kernel
theorem witness_inv_dma : Inv (job .decode .dma) := by
  apply inv_of_parts <;> decide +kernel
theorem witness_inv_used_up : Inv (usedUp (job .encode .interrupt)) := by
  apply inv_of_parts <;> decide +kernel
theorem witness_inv_used_up_full : Inv { usedUp (job .encode .interrupt) with
    sb := { (usedUp (job .encode .interrupt)).sb with buf1 := { full := true, len := 16#32 } } } := by
  apply inv_of_parts <;> decide +kernel
/-- The other buffer full with a tail of 3 bytes. -/
theorem witness_inv_used_up_tail : Inv { usedUp (job .encode .interrupt) with
    sb := { (usedUp (job .encode .interrupt)).sb with buf1 := { full := true, len := 3#32 } } } := by
  apply inv_of_parts <;> decide +kernel
theorem witness_inv_draining : Inv drainingPaused := by
  apply inv_of_parts <;> decide +kernel
theorem witness_inv_aborted : Inv (aborted false) := by
  apply inv_of_parts <;> decide +kernel
theorem witness_inv_tail : Inv { job .encode .interrupt with
    desc := { (job .encode .interrupt).desc with inLen := 63#32, inOff := 60#32 } } := by
  apply inv_of_parts <;> decide +kernel
theorem witness_inv_dout_full : Inv (words (job .decode .dma) 9) := by
  apply inv_of_parts <;> decide +kernel
theorem witness_inv_outside : Inv (words (outside { job .encode .interrupt with
    desc := { (job .encode .interrupt).desc with outOff := 60#32 } } [] [.pause]) 1) := by
  apply inv_of_parts <;> decide +kernel
theorem witness_inv_din_tail :
    Inv { job .encode .dma with din := { (job .encode .dma).din with len := 3#32 } } := by
  apply inv_of_parts <;> decide +kernel
theorem witness_inv_running : Inv (job .encode .interrupt) := by
  apply inv_of_parts <;> decide +kernel
/-- O1, at the ends of the ranges. -/
theorem witness_encode : Instr.wellFormed 4 (.ldb (.baseline 3#4) 63#8 255#8) = true := by decide
theorem witness_decode : decode 4 0x02000003#32 0xFFFFFFFF#32 = some (.wrd .outLen 0xFFFFFFFF#32) := by decide
theorem witness_illegal : (doing State.reset (.command 0x03000000#32 1#32)).inputs = [.command 0x03000000#32 1#32] ∧
    State.reset.sb.filling = none ∧ decodeCommand State.reset.cfg.nq 0x03000000#32 1#32 = none := by decide
theorem witness_step_command :
    decodeCommand State.reset.cfg.nq 0x31000000#32 0#32 = some .getstate ∧ State.reset.sb.filling = none := by decide
theorem witness_step_event : decodeEvent 0x84000000#32 = some .evOut := by decide
theorem witness_step_irq : irqEvent (doing (words (job .encode .interrupt) 1) .irq) = some .inp := by decide
theorem witness_step_filling :
    ({ State.reset with sb := { State.reset.sb with filling := some .b0 } } : State).sb.filling = some .b0 := by decide
/-- A step of an invariant state (`witness_inv_fifo`, whose `inputs` no part of the invariant reads). -/
theorem witness_steps :
    nextIs (step (doing (words (ended (job .encode .interrupt)) 9) (.event 0x84000000#32))) (fun _ => true) = true := by decide +kernel
theorem witness_inv_doing :
    Inv (doing (words (ended (job .encode .interrupt)) 9) (.event 0x84000000#32)) := by
  apply inv_of_parts <;> decide +kernel
/-- The first byte past the output buffer of 64 bytes at 0x2000. -/
theorem witness_no_write :
    ¬ mayWrite (doing (words (ended (job .encode .interrupt)) 9) (.event 0x84000000#32)) 0x2040 := by
  rintro (⟨_, _, h⟩ | ⟨⟨_, _, _, h, _⟩, _⟩ | ⟨_, _, _, h, _⟩)
  · exact absurd h (by decide)
  · cases h
  · cases h
theorem witness_qmem_in_job :
    nextIs (step (doing (job .decode .poll) (.core (.writeQmem 0#4 3#4 7#32)))) (fun t => decide (t.qmem = [(3, 7#32)])) = true := by decide +kernel
theorem witness_fault_outside_idle :
    faultIs (step (doing (job .decode .poll) (.command 0x10000000#32 0#32))) .programmingOutsideIdle = true := by decide +kernel
theorem witness_fault_single_writer :
    faultIs (step (doing (job .decode .poll) (.host .writeBlockState))) .singleWriter = true := by decide +kernel
theorem witness_fault_divide : faultIs (step (doing { withBaseline 0#8 with qmem := (List.range 16).map (fun w => (w, 0x08080808#32)) }
    (.command 0x14000000#32 0#32))) .divideByZero = true := by decide +kernel
theorem witness_fault_unwritten :
    faultIs (step (doing State.reset (.command 0x10000000#32 0#32))) .unwrittenOperand = true := by decide +kernel
theorem witness_fault_bad_buffer : faultIs (step (doing (outside (usedUp (job .encode .interrupt)) [.supply 0xFFFFFFFF#32 2#32] [])
    (.event 0x83000000#32))) .badBuffer = true := by decide +kernel
/-- By a `WRD` of a paused job and by `START`. -/
theorem witness_fault_overlap :
    faultIs (step (doing (paused (job .encode .poll)) (.command 0x02000000#32 0x203F#32))) .bufferOverlap = true ∧
    faultIs (step (doing { ready with desc := { ready.desc with inAddr := 0x203F#32 } } (.command 0x20000001#32 0#32)))
      .bufferOverlap = true := by decide +kernel
/-- 60_exceptions R304 (e): a `Supply` and a `WRD` over both streaming buffers, at 0x1000 and 0x1010; and a part of one. -/
theorem witness_fault_overlap_stream :
    faultIs (exec .evIn (outside (usedUp (job .encode .interrupt)) [.supply 0x1008#32 16#32] [])) .bufferOverlap = true ∧
    faultIs (exec (.wrd .inAddr 0x1008#32) (paused (job .encode .poll))) .bufferOverlap = true ∧
    nextIs (exec .evIn (outside (usedUp (job .encode .interrupt)) [.supply 0x1004#32 12#32] [])) (fun t =>
      decide (t.desc.inAddr = 0x1004#32) && decide (t.ififo.length = 3)) = true := by decide +kernel
theorem witness_fault_ragged :
    faultIs (step (doing { job .encode .dma with tailFed := true } .din)) .raggedMidStream = true := by decide +kernel
theorem witness_fault_callback :
    faultIs (step (doing (outside (usedUp (job .encode .interrupt)) [.command] []) (.event 0x83000000#32))) .commandInCallback = true := by decide +kernel
/-- O12 (f): `DONE` after `INFO_READY` in one `POLL`; the second `DRAIN` of a job's end. -/
theorem witness_fault_callback_later :
    faultIs (exec .poll (notified pollAll [.returned, .command])) .commandInCallback = true ∧
    faultIs (exec .evEoc (words (outside { ended (job .encode .interrupt) with
      desc := { (job .encode .interrupt).desc with outOff := 60#32 } } [] [.proceed, .command]) 2)) .commandInCallback = true := by decide +kernel
theorem witness_stream : (words (ended (job .encode .interrupt)) 9).fsm ≠ .idle ∧
    (words (ended (job .encode .interrupt)) 9).ctx.fifoMethod = true := by decide
/-- O13 with a host outside the block that answers a `DRAIN` with `Pause`, in `EV_OUT` and in `EV_EOC`. -/
theorem witness_stream_outside : let s := nearFull (ended (job .encode .interrupt)) 2 [.pause]
    s.fsm ≠ .idle ∧ s.ctx.fifoMethod = true ∧ [0x84000000#32, 0x85000000#32].all (fun e =>
      nextIs (step (doing s (.event e))) (fun t => decide ((outputStream t).length = 68) && t.ctx.pauseOut &&
        decide (t.ofifo.length = 1))) = true := by decide +kernel
theorem witness_inv_near_full : Inv (nearFull (ended (job .encode .interrupt)) 2 [.pause]) ∧
    Inv (nearFull (ended (job .encode .interrupt)) 2 [.proceed, .pause]) ∧
    Inv (nearFull (job .encode .interrupt) 9 [.pause]) ∧ Inv (nearFull drainingPaused 2 [.pause]) ∧
    Inv (nearFull drainingPaused 2 [.proceed, .pause]) := by
  refine ⟨?_, ?_, ?_, ?_, ?_⟩ <;> apply inv_of_parts <;> decide +kernel
/-- The predicates on the host's replies: the manager; a host outside the block that lists `Continue`, then `Pause`, as the
second `DRAIN` of a drain that goes on, or as the last one of a job's end; one that lists `Continue`. -/
theorem witness_replies (s : State) (h : s.host.managed = true) : s.host.continues 2 s.host ∧ s.host.passes 2 s.host ∧
    (outside s [] [.pause]).host.pausesAfter 0 (outside s [] []).host ∧
    (outside s [] [.proceed, .pause]).host.pausesAfter 1 (outside s [] []).host ∧
    (outside s [] [.proceed, .pause]).host.passes 2 (outside s [] []).host ∧
    (outside s [] [.proceed]).host.continues 1 (outside s [] []).host :=
  ⟨HostSide.continues_of_managed 2 h, .inl (HostSide.continues_of_managed 2 h), ⟨rfl, [], rfl, rfl⟩, ⟨rfl, [], rfl, rfl⟩,
    .inr ⟨1, rfl, rfl, [], rfl, rfl⟩, [], rfl, rfl⟩
theorem witness_outside_idle :
    (job .encode .poll).fsm ≠ .idle ∧ Instr.wellFormed (job .encode .poll).cfg.nq (.ldb (.bits .dc0) 15#8 0#8) = true := by decide
/-- O15, with the mask that has slot DC0, qualities 1 and 100, and `q = 3`. -/
theorem witness_unwritten : State.reset.fsm = .idle ∧ none ∈ (State.reset.hspec.get .dc0).bits ∧ none ∈ (State.reset.hspec.get .dc0).vals ∧
    none ∈ State.reset.baselineOf 3#4 := by decide
/-- O15, an unwritten element among the first `count` Values: the last of them. -/
theorem witness_unwritten_value : let s : State := { withBits lumBits with
      hspec := { (withBits lumBits).hspec with dc0 := { bits := lumBits.map some, vals := (lumVals.map some).set 11 none } } }
    symbolCount lumBits ≤ Slot.dc0.size ∧ none ∈ (s.hspec.get .dc0).vals.take (symbolCount lumBits) ∧
    target s.cfg 0x01F0#16 = some .dc0 ∧ (s.hct.get .dc0).valid = false := by decide
theorem witness_zero_baseline : (withBaseline 0#8).baselineOf 0#4 = (List.replicate 64 0#8).map some ∧
    readBack { withBaseline 0#8 with qmem := [(15, 0x08000000#32)] } 0#4 63 ≠ 1 ∧
    zigzagElem (withBaseline 0#8).cfg (List.replicate 64 0#8) 63 = 0#8 := by decide +kernel
theorem witness_ldb : (15#8 : BitVec 8).toNat < 16 ∧ (161#8 : BitVec 8).toNat < Slot.ac0.size ∧ (11#8 : BitVec 8).toNat < Slot.dc0.size ∧
    (63#8 : BitVec 8).toNat < 64 ∧ (3#4 : BitVec 4).toNat < State.reset.cfg.nq ∧ State.reset.fsm = .idle := by decide
/-- An input buffer that ends where the output buffer begins. -/
theorem witness_wrd_quiet : (paused (job .encode .poll)).fsm ≠ .idle ∧ (paused (job .encode .poll)).ctx.pauseIn = true ∧
    (paused (job .encode .poll)).din.busy = false ∧ (paused (job .encode .poll)).din.cplt = false ∧
    inputFault { paused (job .encode .poll) with desc := { (paused (job .encode .poll)).desc with inAddr := 0x1FC0#32, inOff := 0#32 } } = none ∧
    inputFault { paused (job .encode .poll) with desc := { (paused (job .encode .poll)).desc with inLen := 8#32, inOff := 0#32 } } = none := by decide
theorem witness_wrd_fault : inputFault { paused (job .encode .poll) with desc := { (paused (job .encode .poll)).desc with inAddr := 0x1FC1#32, inOff := 0#32 } } =
      some .bufferOverlap ∧
    inputFault { paused (job .encode .poll) with desc := { (paused (job .encode .poll)).desc with inLen := 0xFFFFFFFF#32, inOff := 0#32 } } =
      some .badBuffer := by decide
theorem witness_wrd_busy : (job .encode .poll).fsm ≠ .idle ∧ (job .encode .poll).ctx.pauseIn = false := by decide
theorem witness_last_error :
    nextIs (exec (.start .encode .poll) State.reset) (fun t => responds 5#8 0#32 t && decide (t.lastError = 5#8)) = true := by decide +kernel
theorem witness_last_error_ok : nextIs (exec .geterr State.reset) (responds 0#8 0#32) = true := by decide +kernel
theorem witness_last_error_fill :
    nextIs (sbfillStep2 .b0 { State.reset with sb := { State.reset.sb with filling := some .b0 } }) (responds 0#8 0#32) = true := by decide +kernel
/-- Twelve symbols, as many as a DC table has, the last at the last index. -/
theorem witness_build : (withBits lumBits).fsm = .idle ∧ ((withBits lumBits).hspec.get .dc0).bits = lumBits.map some ∧
    ((withBits lumBits).hspec.get .dc0).vals.take (symbolCount lumBits) = lumVals.map some ∧
    lumVals.length = symbolCount lumBits ∧ symbolCount lumBits ≤ Slot.dc0.size ∧
    assignCodes lumBits 1 0 = some ((lumLen.map BitVec.toNat).zip (lumCode.map BitVec.toNat)) ∧
    (∀ v ∈ lumVals, symbolIndex Slot.dc0.kind v < Slot.dc0.size) := by decide
theorem witness_build_too_many :
    Slot.dc0.size < symbolCount [13, 0, 0, 0, 0, 0, 0, 0, 0, 0, 0, 0, 0, 0, 0, 0] := by decide
theorem witness_build_overflow : symbolCount [2, 0, 0, 0, 0, 0, 0, 0, 0, 0, 0, 0, 0, 0, 0, 0] ≤ Slot.dc0.size ∧
    assignCodes [2, 0, 0, 0, 0, 0, 0, 0, 0, 0, 0, 0, 0, 0, 0, 0] 1 0 = none := by decide
theorem witness_build_symbol : assignCodes [0, 1, 0, 0, 0, 0, 0, 0, 0, 0, 0, 0, 0, 0, 0, 0] 1 0 ≠ none ∧
    (∃ v ∈ [0x0C#8], Slot.dc0.size ≤ symbolIndex Slot.dc0.kind v) := by decide
theorem witness_codes : lumBits.length = 16 ∧ (assignCodes lumBits 1 0).isSome = true := by decide
/-- The values 40_huffman_builder R144 works out, and the ends of the range of the well-formed symbols. -/
theorem witness_symbols : [0x01#8, 0x0A#8, 0x10#8, 0x1B#8, 0x21#8, 0xFA#8, 0xFB#8, 0xFC#8, 0xFD#8, 0xFE#8, 0xFF#8].map (symbolIndex .ac) =
    [0, 9, 9, 20, 20, 159, 160, 161, 162, 163, 164] := by decide
theorem witness_progc_rejects : State.reset.fsm = .idle ∧ target State.reset.cfg 0x01F0#16 = some .dc0 ∧ Slot.ac0.kind ≠ Slot.dc0.kind ∧
    target State.reset.cfg 0x01F1#16 = none := by decide
theorem witness_progc_dc : built.fsm = .idle ∧ built.cfg.acReserved.length = 7 ∧ target built.cfg 0x01F8#16 = some .dc1 ∧
    Slot.dc0.kind = Slot.dc1.kind ∧ (built.hct.get .dc0).valid = true ∧
    readTable (built.hct.get .dc0) = some { len := lumLen, code := lumCode } := by decide
theorem witness_progc_ac : target State.reset.cfg 0x0140#16 = some .ac0 ∧
    readTable { valid := true, len := List.replicate 162 (some 16#5), code := List.replicate 162 (some 1#16) } =
      some { len := List.replicate 162 16#5, code := List.replicate 162 1#16 } := by decide +kernel
theorem witness_progc_builds : nextIs (exec (.build .dc0) (withBits lumBits)) (responds 0#8 0#32) = true ∧
    ((withBits lumBits).hct.get .dc0).valid = false := by decide +kernel
theorem witness_progc_build_fails :
    nextIs (exec (.build .dc0) (withBits [2, 0, 0, 0, 0, 0, 0, 0, 0, 0, 0, 0, 0, 0, 0, 0])) (responds 2#8 0#32) = true := by decide +kernel
theorem witness_progr : ((withBits lumBits).hspec.get .dc0).bits = lumBits.map some ∧ ((withBits lumBits).hspec.get .dc0).vals = lumVals.map some ∧
    lumBits.length = 16 ∧ lumVals.length = Slot.dc0.size := by decide
/-- 41_table_programmer R167, R168: the Bits of DC1 are stream bytes 206 to 221, words 55 to 51, both ends shared; its Values
are 222 to 233, words 58 to 55, both ends shared. -/
theorem witness_progr_order : nextIs (exec (.progr { dc0 := false, ac0 := false, dc1 := true, ac1 := false }) { State.reset with
      hspec := { State.reset.hspec with dc1 := { bits := lumBits.map some, vals := lumVals.map some } } }) (fun t =>
    decide (t.history.map (fun x => match x with
      | .tread a => (false, (a - 0xD8#16).toNat)
      | .twrite a _ => (true, (a - 0xD8#16).toNat)
      | .qwrite _ _ _ => (true, 0)) =
    [(false, 55), (true, 55), (true, 54), (true, 53), (true, 52), (false, 51), (true, 51),
     (false, 58), (true, 58), (true, 57), (true, 56), (false, 55), (true, 55)])) = true := by decide +kernel
/-- O29, O31, O32; a baseline without a zero element. -/
theorem witness_qgen : (withBaseline 16#8).fsm = .idle ∧ (0#4 : BitVec 4).toNat < (withBaseline 16#8).cfg.nq ∧
    (withBaseline 16#8).baselineOf 0#4 = (List.replicate 64 16#8).map some := by decide
theorem witness_qgen_rejects :
    State.reset.cfg.nq ≤ (4#4 : BitVec 4).toNat ∧ 100 < (101#8 : BitVec 8).toNat := by decide
theorem witness_start :
    ready.fsm = .idle ∧ checkArgs ready.cfg ready.desc .dma = true ∧ startOverlap ready = false := by decide
/-- The last byte of the output buffer, and the byte after it. -/
theorem witness_start_overlap : checkArgs ready.cfg { ready.desc with inAddr := 0x203F#32 } .poll = true ∧
    startOverlap { ready with desc := { ready.desc with inAddr := 0x203F#32 } } = true ∧
    startOverlap { ready with desc := { ready.desc with inAddr := 0x2040#32 } } = false := by decide
/-- 20_memory R74: an output buffer on the streaming buffer at 0x1000, whoever the host is. -/
theorem witness_start_on_stream_buffer : [true, false].all (fun m => faultIs (exec (.start .encode .poll) { ready with
    desc := { ready.desc with outAddr := 0x100C#32 }
    host := { ready.host with managed := m } }) .bufferOverlap) = true := by decide +kernel
theorem witness_resume_fifo : (paused (job .encode .interrupt)).fsm ≠ .idle ∧ (paused (job .encode .interrupt)).ctx.ending = false ∧
    (paused (job .encode .interrupt)).ctx.pauseIn = true ∧ (paused (job .encode .interrupt)).ctx.pauseOut = true ∧
    (paused (job .encode .interrupt)).ctx.fifoMethod = true := by decide
theorem witness_resume_dma : (paused (job .encode .dma)).ctx.dmaMethod = true ∧
    (paused (job .encode .dma)).desc.inOff ≠ (paused (job .encode .dma)).desc.inLen := by decide
theorem witness_resume_no_data : ({ paused (job .encode .dma) with desc := { (paused (job .encode .dma)).desc with inLen := 0#32 } } : State).desc.inOff =
    ({ paused (job .encode .dma) with desc := { (paused (job .encode .dma)).desc with inLen := 0#32 } } : State).desc.inLen := by decide
/-- A job in `Draining` with the input paused, the output not, and with both paused. -/
theorem witness_resume_draining : let s := (job .encode .interrupt).pauseInput.stopSources
    s.fsm ≠ .idle ∧ s.ctx.ending = true ∧ s.ctx.pauseIn = true ∧ s.ctx.pauseOut = false ∧
    (paused s).ctx.ending = true ∧ (paused s).ctx.pauseOut = true := by decide
theorem witness_resume_finishes :
    drainingPaused.host.continues 1 drainingPaused.host ∧ drainingPaused.fsm = .draining ∧ drainingPaused.ctx.pauseOut = true ∧
    drainingPaused.host.notices.head? ≠ some .command := ⟨HostSide.continues_of_managed 1 rfl, by decide⟩
/-- O38 with a host outside the block (`witness_inv_near_full`, `witness_replies`): it completes, the reply to the final `DRAIN`
ignored; it stops again. -/
theorem witness_resume_stops : let r : Instr := .resume { input := false, output := true }
    let s := nearFull drainingPaused 2 [.pause]
    s.fsm = .draining ∧ s.ctx.pauseOut = true ∧ 1 < s.ofifo.length ∧
    s.desc.outOff.toNat + 4 * 1 = s.desc.outLen.toNat * (0 + 1) ∧
    nextIs (exec r s) (fun t => decide (t.fsm = .draining) && t.ctx.pauseOut && decide (t.ofifo.length = 1) &&
      decide (t.trace.length = 1) && decide (t.host.drainReplies = [])) = true ∧
    nextIs (exec r (nearFull drainingPaused 2 [.proceed, .pause])) (fun t => decide (t.fsm = .idle) && decide (t.ofifo = []) &&
      decide (t.trace.length = 3) && decide (t.host.drainReplies = [])) = true := by decide +kernel
theorem witness_idempotent : (job .encode .interrupt).ctx.pauseIn = false ∧ (job .encode .interrupt).ctx.pauseOut = false ∧
    (paused (job .encode .interrupt)).ctx.pauseIn = true := by decide
theorem witness_poll_error :
    eligible .err { job .decode .poll with sr := { eocf := false, hpdf := false, errf := true } } = true := by decide
theorem witness_poll_nothing :
    (job .decode .poll).pauseInput.ctx.method = some .poll ∧ ∀ e ∈ eventOrder, eligible e (job .decode .poll).pauseInput = false := by decide
/-- With `witness_inv_poll`: input, output; with `witness_inv_poll_all`: header, refill, output and end as well. -/
theorem witness_poll_pass : (words (job .decode .poll) 9).ctx.method = some .poll ∧ eligible .err (words (job .decode .poll) 9) = false ∧
    (words (job .decode .poll) 9).tailFed = false ∧ .command ∉ (words (job .decode .poll) 9).host.notices ∧
    eligible .inp (words (job .decode .poll) 9) = true := by decide
theorem witness_inv_poll_all : Inv pollAll := by
  apply inv_of_parts <;> decide +kernel
theorem witness_poll_all : nextIs (exec .poll pollAll) (fun t => responds 0#8 0x3C#32 t && decide (t.fsm = .idle) &&
    decide (t.trace.length = 4) && decide (t.host.notices = [])) = true := by decide +kernel
theorem witness_poll_ragged : let s : State := { job .decode .poll with tailFed := true }
    eligible .inp s = true ∧ s.desc.inOff ≠ s.desc.inLen ∧ exec .poll s = .fault .raggedMidStream :=
  ⟨by decide, by decide, fault_of_faultIs (by decide +kernel)⟩
theorem witness_inv_poll_ragged : Inv { job .decode .poll with tailFed := true } := by
  apply inv_of_parts <;> decide +kernel
theorem witness_abort : (paused (job .encode .dma)).fsm ≠ .idle ∧ (job .encode .dma).ctx.pauseOut = false := by decide
/-- 8 free words and 7, 8 words held and 7, with the single-word sources off. -/
theorem witness_thresholds : let s (n m : Nat) : State := { job .encode .interrupt with
      ififo := List.replicate n 0#32, ofifo := List.replicate m 0#32
      cr := { (job .encode .interrupt).cr with ieIfnf := false, ieOfne := false } }
    eligible .inp (s 8 0) = true ∧ eligible .inp (s 9 0) = false ∧ eligible .out (s 0 8) = true ∧
    eligible .out (s 0 7) = false := by decide
theorem witness_refused_event : eligible .eoc (job .encode .interrupt) = false := by decide
theorem witness_ev_err :
    recordTaken .err { job .encode .interrupt with sr := { eocf := false, hpdf := false, errf := true } } = true ∧
    ({ job .encode .interrupt with sr := { eocf := false, hpdf := false, errf := true } } : State).host.notices.head? ≠ some .command := by decide
theorem witness_ev_hpd :
    recordTaken .hpd { job .decode .interrupt with sr := { eocf := false, hpdf := true, errf := false } } = true ∧
    (notified (job .decode .interrupt) [.returned, .command]).host.notices.head? ≠ some .command := by decide
/-- With `witness_inv_running`; `witness_inv_tail` is the case of a tail of 3 bytes. -/
theorem witness_ev_in : recordTaken .inp (job .encode .interrupt) = true ∧ (job .encode .interrupt).tailFed = false ∧
    (job .encode .interrupt).desc.inOff ≠ (job .encode .interrupt).desc.inLen := by decide
/-- With `witness_inv_used_up`; in `witness_inv_used_up_full` the other buffer is full. -/
theorem witness_ev_in_refills : recordTaken .inp (usedUp (job .encode .interrupt)) = true ∧ (usedUp (job .encode .interrupt)).sb.off = 0#32 ∧
    ((usedUp (job .encode .interrupt)).sb.buf .b0).len = (usedUp (job .encode .interrupt)).desc.inLen ∧
    ((usedUp (job .encode .interrupt)).sb.buf .b1).full = false := by decide
/-- O45, the manager supplies the rest of a buffer of which 12 bytes were taken; after a padded tail word it is a fault. -/
theorem witness_ev_in_refills_rest : let s : State := { usedUp (job .encode .interrupt) with
      desc := { (usedUp (job .encode .interrupt)).desc with inLen := 12#32, inOff := 12#32 } }
    nextIs (exec .evIn s) (fun t => decide (t.desc.inAddr = 0x100C#32) && decide (t.desc.inLen = 4#32) &&
      decide (t.ififo.length = 1) && decide (t.sb.off = 12#32)) = true ∧
    faultIs (exec .evIn { s with tailFed := true }) .raggedMidStream = true := by decide +kernel
theorem witness_inv_refills_rest : Inv { usedUp (job .encode .interrupt) with
    desc := { (usedUp (job .encode .interrupt)).desc with inLen := 12#32, inOff := 12#32 }, tailFed := true } := by
  apply inv_of_parts <;> decide +kernel
theorem witness_inv_refills_outside : Inv (outside (usedUp (job .encode .interrupt)) [.supply 0x3000#32 3#32] []) := by
  apply inv_of_parts <;> decide +kernel
/-- O45, a host outside the block: a tail of 3 bytes, a `Supply` of length 0, a `Pause`. -/
theorem witness_ev_in_refills_outside : recordTaken .inp (outside (usedUp (job .encode .interrupt)) [.supply 0x3000#32 3#32] []) = true ∧
    nextIs (exec .evIn (outside (usedUp (job .encode .interrupt)) [.supply 0x3000#32 3#32] [])) (fun t => t.tailFed &&
      decide (t.ififo.length = 1) && decide (t.desc.inOff = 3#32) && decide (t.host.refillReplies = [])) = true ∧
    [RefillReply.supply 0x3000#32 0#32, .pause].all (fun r => nextIs (exec .evIn (outside (usedUp (job .encode .interrupt)) [r] []))
      (fun t => t.ctx.pauseIn && !t.cr.ieIft && decide (t.desc.inLen = 0#32) && decide (t.ififo = []))) = true := by decide +kernel
/-- O44 after a padded tail word. -/
theorem witness_ev_in_ragged : let s : State := { job .encode .interrupt with tailFed := true }
    recordTaken .inp s = true ∧ s.desc.inOff ≠ s.desc.inLen ∧ exec .evIn s = .fault .raggedMidStream :=
  ⟨by decide, by decide, fault_of_faultIs (by decide +kernel)⟩
/-- A part of the buffer read, and all of it. -/
theorem witness_manager : (4#32 : Word).toNat < (usedUp (job .encode .interrupt)).sb.buf0.len.toNat ∧
    (usedUp (job .encode .interrupt)).sb.buf0.len.toNat ≤ (16#32 : Word).toNat := by decide
theorem witness_ev_out : recordTaken .out (words (ended (job .encode .interrupt)) 9) = true := by decide
/-- The first of 8 words fills the buffer: one `DRAIN` of 64 bytes, 28 bytes left. -/
theorem witness_ev_out_drains : nextIs (exec .evOut (words { job .encode .interrupt with
      desc := { (job .encode .interrupt).desc with outOff := 60#32 } } 9)) (fun t => decide (t.desc.outOff = 28#32) &&
    match t.trace with
    | [.drain a n bs] => decide (a = 0x2000#32) && decide (n = 64#32) && decide (bs.length = 64)
    | _ => false) = true := by decide +kernel
theorem witness_ev_out_pauses : let s := words (outside { job .encode .interrupt with
      desc := { (job .encode .interrupt).desc with outOff := 60#32 } } [] [.pause]) 1
    recordTaken .out s = true ∧ s.host.managed = false ∧ s.host.drainReplies = .pause :: [] ∧
      s.ofifo = 0x04030201#32 :: [] ∧ s.desc.outOff + 4#32 = s.desc.outLen := by decide
/-- O47 with a host outside the block. -/
theorem witness_ev_out_outside : recordTaken .out (nearFull (job .encode .interrupt) 9 [.proceed]) = true ∧
    nextIs (exec .evOut (nearFull (job .encode .interrupt) 9 [.proceed])) (fun t => decide (t.desc.outOff = 28#32) &&
      decide (t.host.drainReplies = []) && decide (t.trace.length = 1)) = true := by decide +kernel
/-- O48 with words of the burst left, and with a buffer of 8 bytes, whose second `DRAIN` is answered with `Pause`. -/
theorem witness_ev_out_pauses_later : let s := nearFull (job .encode .interrupt) 9 [.pause]
    let t : State := words (outside { job .encode .interrupt with
      desc := { (job .encode .interrupt).desc with outLen := 8#32 } } [] [.proceed, .pause]) 9
    recordTaken .out s = true ∧ s.desc.outOff.toNat + 4 * 1 = s.desc.outLen.toNat * (0 + 1) ∧
    nextIs (exec .evOut s) (fun u => u.ctx.pauseOut && decide (u.ofifo.length = 8)) = true ∧
    recordTaken .out t = true ∧ t.desc.outOff.toNat + 4 * 4 = t.desc.outLen.toNat * (1 + 1) ∧
    nextIs (exec .evOut t) (fun u => u.ctx.pauseOut && decide (u.ofifo.length = 5) && decide (u.trace.length = 2)) = true := by
  decide +kernel
theorem witness_ev_eoc : recordTaken .eoc (words (ended (job .encode .interrupt)) 9) = true ∧
    (words (ended (job .encode .interrupt)) 9).host.notices.head? ≠ some .command := by decide
/-- O49 with a host outside the block: the `Pause` stops the drain with a word left; at the final `DRAIN` it is ignored. -/
theorem witness_ev_eoc_stops : let s := nearFull (ended (job .encode .interrupt)) 2 [.pause]
    recordTaken .eoc s = true ∧ s.ctx.fifoMethod = true ∧ 1 < s.ofifo.length ∧
    s.desc.outOff.toNat + 4 * 1 = s.desc.outLen.toNat * (0 + 1) ∧
    nextIs (exec .evEoc s) (fun t => decide (t.fsm = .draining) && t.ctx.ending && t.ctx.pauseOut &&
      decide (t.ofifo.length = 1) && decide (t.desc.outOff = 0#32) && decide (t.trace.length = 1)) = true ∧
    nextIs (exec .evEoc (nearFull (ended (job .encode .interrupt)) 2 [.proceed, .pause])) (fun t => decide (t.fsm = .idle) &&
      decide (t.ofifo = []) && decide (t.trace.length = 3) && decide (t.host.drainReplies = [])) = true := by decide +kernel
theorem witness_ev_eoc_dma :
    recordTaken .eoc (ended (job .encode .dma)) = true ∧ (ended (job .encode .dma)).din.busy = true := by decide
/-- A `DMA` job ends with both engines idle, 32 bytes moved and two words in `OFIFO`: one `DRAIN` of 40 bytes, then `DONE`. -/
def endedIdle : State :=
  let s := words (ended (job .encode .dma)) 2
  { s with din := { s.din with busy := false }, dout := { s.dout with busy := false, done := 32#32 } }
theorem witness_inv_eoc_dma_idle : Inv endedIdle := by
  apply inv_of_parts <;> decide +kernel
theorem witness_ev_eoc_dma_idle : recordTaken .eoc endedIdle = true ∧ endedIdle.host.managed = true ∧
    endedIdle.ctx.dmaMethod = true ∧ endedIdle.host.notices.head? ≠ some .command ∧
    nextIs (exec .evEoc endedIdle) (fun t => decide (t.fsm = .idle) && decide (t.ofifo = []) &&
      match t.trace with
      | [.drain a n bs, .done op] => decide (a = 0x2000#32) && decide (n = 40#32) && decide (bs.length = 40) && decide (op = some .encode)
      | _ => false) = true := by decide +kernel
/-- O50 with a host outside the block: 8 of 9 words fill the buffer, and its `DRAIN` is answered with `Pause`. -/
theorem witness_ev_eoc_dma_stops : let s := words (outside endedIdle [] [.pause]) 9
    recordTaken .eoc s = true ∧ s.din.busy = false ∧ s.dout.busy = false ∧ 8 < s.ofifo.length ∧
    s.dout.done.toNat + 4 * 8 = s.desc.outLen.toNat * (0 + 1) ∧
    nextIs (exec .evEoc s) (fun t => decide (t.fsm = .draining) && t.ctx.ending && t.ctx.pauseOut &&
      decide (t.ofifo.length = 1)) = true := by decide +kernel
theorem witness_inv_dma_stops : Inv (words (outside endedIdle [] [.pause]) 9) ∧
    Inv (words (outside (aborted false) [] [.pause]) 9) ∧ Inv (words (aborted false).pauseOutput 0) := by
  refine ⟨?_, ?_, ?_⟩ <;> apply inv_of_parts <;> decide +kernel
theorem witness_ev_dma_in_cplt : recordTaken .dmaInCplt (outside dinDone [.supply 0x4000#32 33#32] []) = true ∧
    inputFault { outside dinDone [.supply 0x4000#32 33#32] [] with
      desc := { dinDone.desc with inAddr := 0x4000#32, inLen := 33#32, inOff := 0#32 } } = none := by decide
/-- The same with a `Pause` and with a `Supply` of length 0. -/
theorem witness_ev_dma_in_cplt_pause : recordTaken .dmaInCplt (outside dinDone [.pause] []) = true ∧
    inputFault { outside dinDone [.supply 0x4000#32 0#32] [] with
      desc := { dinDone.desc with inAddr := 0x4000#32, inLen := 0#32, inOff := 0#32 } } = none := by decide
/-- A `DMA` job on buffer 0 of the manager, 14 bytes, of which `DIN` moved `n`, with the granularity of 4 bytes; the other
buffer full or empty. -/
def dinPart (n : Word) (full : Bool) : State :=
  { dinDone with
    cfg := { dinDone.cfg with granIn := .four }
    desc := { dinDone.desc with inAddr := 0x1000#32, inLen := 14#32, inOff := 0#32 }
    din := { dinDone.din with len := n, done := n }
    sb := { dinDone.sb with buf0 := { full := true, len := 14#32 }, buf1 := { full := full, len := 16#32 } } }
theorem witness_inv_din_part : Inv (dinPart 12#32 false) ∧ Inv (dinPart 14#32 true) ∧ Inv (dinPart 14#32 false) := by
  refine ⟨?_, ?_, ?_⟩ <;> apply inv_of_parts <;> decide +kernel
/-- 44_stream_buffers R276: 12 of 14 bytes taken, the rest supplied; all 14 taken, the other buffer full, and empty. -/
theorem witness_ev_dma_in_cplt_managed : (dinPart 12#32 false).host.managed = true ∧
    ((dinPart 12#32 false).sb.off + ((dinPart 12#32 false).desc.inOff + (dinPart 12#32 false).din.len)).toNat = 12 ∧
    nextIs (exec .evDmaInCplt (dinPart 12#32 false)) (fun t => decide (t.desc.inAddr = 0x100C#32) && decide (t.desc.inLen = 2#32) &&
      decide (t.din.len = 2#32) && t.din.busy && t.sb.buf0.full && decide (t.sb.off = 12#32)) = true ∧
    nextIs (exec .evDmaInCplt (dinPart 14#32 true)) (fun t => decide (t.desc.inAddr = 0x1010#32) && t.din.busy &&
      !t.sb.buf0.full && decide (t.sb.rd = .b1)) = true ∧
    nextIs (exec .evDmaInCplt (dinPart 14#32 false)) (fun t => t.ctx.pauseIn && t.sb.wait && !t.din.busy) = true := by decide +kernel
/-- O51: a `Supply` over the output buffer, one that is not aligned, and the rest of a buffer of the manager that is not. -/
theorem witness_ev_dma_in_cplt_bad : recordTaken .dmaInCplt (dinPart 13#32 false) = true ∧
    (refillReply 13#32 (dinPart 13#32 false)).1 = .supply 0x100D#32 1#32 ∧
    faultIs (exec .evDmaInCplt (outside dinDone [.supply 0x2000#32 4#32] [])) .bufferOverlap = true ∧
    faultIs (exec .evDmaInCplt (outside dinDone [.supply 0x3001#32 4#32] [])) .badBuffer = true ∧
    faultIs (exec .evDmaInCplt (dinPart 13#32 false)) .badBuffer = true := by decide +kernel
theorem witness_ev_dma_out_cplt : recordTaken .dmaOutCplt doutDone = true ∧ recordTaken .dmaOutCplt (outside doutDone [] [.pause]) = true ∧
    doutDone.host.managed = true ∧
    recordTaken .dmaOutCplt (outside doutDone [] [.proceed]) = true := by decide
theorem witness_ev_dma_abort : recordTaken .dmaAbort (aborted false) = true ∧ (aborted false).din.busy = false ∧ (aborted false).dout.busy = false ∧
    (aborted false).ctx.pauseOut = false ∧ recordTaken .dmaAbort (aborted true) = true ∧ (aborted true).din.busy = true ∧
    (aborted false).host.notices.head? ≠ some .command := by decide
/-- O53 under an output pause: with words in `OFIFO` the block stays in `Draining`, without it completes; and a `DRAIN` answered
with `Pause`. -/
theorem witness_ev_dma_abort_paused : let s := (aborted false).pauseOutput
    let u := words (outside (aborted false) [] [.pause]) 9
    recordTaken .dmaAbort s = true ∧ s.din.busy = false ∧ s.dout.busy = false ∧ s.ctx.pauseOut = true ∧ s.ofifo ≠ [] ∧
    nextIs (exec .evDmaAbort s) (fun t => decide (t.fsm = .draining) && decide (t.ofifo.length = 2) && decide (t.trace = []) &&
      decide (t.desc.outOff = 32#32)) = true ∧
    nextIs (exec .evDmaAbort (words s 0)) (fun t => decide (t.fsm = .idle) && decide (t.trace.length = 2)) = true ∧
    recordTaken .dmaAbort u = true ∧ u.dout.done.toNat + 4 * 8 = u.desc.outLen.toNat * (0 + 1) ∧
    nextIs (exec .evDmaAbort u) (fun t => decide (t.fsm = .draining) && t.ctx.pauseOut && decide (t.ofifo.length = 1)) = true := by
  decide +kernel
/-- A length of exactly `IBCAP`, and one above it. -/
theorem witness_sbfill : State.reset.cfg.wf = true ∧ (16#32 : Word).toNat ≤ State.reset.cfg.ibcap ∧ State.reset.cfg.ibcap < (17#32 : Word).toNat ∧
    (State.reset.sb.buf State.reset.sb.wr).full = false := by decide +kernel
theorem witness_sbfill_busy :
    (({ State.reset with sb := { State.reset.sb with buf0 := { full := true, len := 4#32 } } } : State).sb.buf .b0).full = true := by decide
theorem witness_sbfill_hand_over : let s := (usedUp (job .encode .interrupt)).pauseInput
    let t : State := { s with sb := { s.sb with filling := some .b0, wait := true } }
    t.sb.rd = .b0 ∧ t.fsm ≠ .idle ∧ t.ctx.ending = false ∧ t.ctx.fifoMethod = true ∧ t.ctx.pauseIn = true ∧
      inputFault (sbHandOver .b0 t) = none := by decide
/-- A job whose manager waits for buffer 0, an `SBFILL` of it between its steps. -/
def waiting (s : State) : State := { usedUp s with sb := { (usedUp s).sb with filling := some .b0, wait := true } }
/-- The same in method DMA with `DIN` idle. -/
theorem witness_sbfill_hand_over_dma : let t := (waiting { job .encode .dma with din := (job .encode .dma).din.stop }).pauseInput
    t.sb.rd = .b0 ∧ t.fsm ≠ .idle ∧ t.ctx.ending = false ∧ t.ctx.dmaMethod = true ∧ t.ctx.pauseIn = true ∧
      (t.sb.buf .b0).len ≠ 0#32 ∧ inputWritable t = true ∧ inputFault (sbHandOver .b0 t) = none := by decide
/-- The same in `Draining`. -/
theorem witness_sbfill_hand_over_draining : let t := (waiting (job .encode .interrupt)).pauseInput.stopSources
    t.ctx.ending = true ∧ inputWritable t = true ∧ inputFault (sbHandOver .b0 t) = none := by decide
/-- A job whose manager waits for buffer 0, which is empty, with the input not paused. -/
def waitingEmpty (s : State) : State :=
  { usedUp s with sb := { (usedUp s).sb with buf0 := { full := false, len := 16#32 }, wait := true } }
/-- 44_stream_buffers R273: an empty buffer is filled with the input not paused, a block in flight, a block not yet reported, and
with the input paused. -/
theorem witness_sbfill_fills_waiting : [waitingEmpty (job .encode .interrupt), (waitingEmpty (job .encode .dma)).pauseInput,
    (waitingEmpty dinDone).pauseInput, (waitingEmpty (job .encode .interrupt)).pauseInput].all (fun s =>
      nextIs (exec (.sbfill 16#32) s) (fun t => decide (t.sb.filling = some .b0) && t.sb.buf0.full && t.sb.wait &&
        decide (t.response = none) && decide (t.desc = s.desc))) = true := by decide +kernel
/-- A job, its input buffer not used up, whose manager waits for buffer 0, an `SBFILL` of it between its steps. -/
def waitingFed (s : State) : State :=
  { s with sb := { s.sb with buf0 := { full := true, len := 16#32 }, filling := some .b0, wait := true } }
/-- Where no `WRD` may write between the two steps the descriptor stays, the wait ends and the input resumes: with the input not
paused, a block in flight, a block not yet reported, and the last two in `Draining`. -/
theorem witness_sbfill_second_completes : [waitingFed (job .encode .interrupt), (waitingFed (job .encode .dma)).pauseInput,
    (waitingFed dinDone).pauseInput, (waitingFed (job .encode .dma)).pauseInput.stopSources].all (fun s => !inputWritable s &&
      nextIs (step s) (fun t => responds 0#8 0#32 t && !t.sb.wait && t.sb.buf0.full && !t.ctx.pauseIn &&
        decide (t.sb.filling = none) && decide (t.desc = s.desc) && decide (t.din = s.din))) = true := by decide +kernel
theorem witness_inv_sbfill_second_fed : Inv (waitingFed (job .encode .dma)).pauseInput ∧ Inv (waitingFed dinDone).pauseInput := by
  refine ⟨?_, ?_⟩ <;> apply inv_of_parts <;> decide +kernel
/-- O56, a FIFO method with `DIN` busy, which only a state that no job reaches has: the input's sources come on. -/
theorem witness_sbfill_second_fifo : let s := { (waitingFed (job .encode .interrupt)).pauseInput with din := (job .encode .dma).din }
    s.din.busy = true ∧ s.ctx.pauseIn = true ∧ s.ctx.ending = false ∧ s.ctx.fifoMethod = true ∧
    nextIs (step s) (fun t => responds 0#8 0#32 t && t.cr.ieIft && t.cr.ieIfnf && decide (t.desc = s.desc)) = true := by
  decide +kernel
/-- The same with no data in the descriptor, which the invariant rules out: `InvalidArgument`, `LAST_ERROR` alone changed. -/
theorem witness_sbfill_second_no_data : let s := (waiting (job .encode .dma)).pauseInput
    s.din.busy = true ∧ s.desc.inOff = s.desc.inLen ∧
    nextIs (step s) (fun t => responds 5#8 0#32 t && t.sb.wait && t.ctx.pauseIn && decide (t.desc = s.desc)) = true := by
  decide +kernel
theorem witness_inv_sbfill_second : Inv (waiting (job .encode .interrupt)).pauseInput ∧ Inv (waiting (job .encode .interrupt)) := by
  refine ⟨?_, ?_⟩ <;> apply inv_of_parts <;> decide +kernel
/-- 43_transfer_fsm R231: an empty buffer in method DMA. -/
theorem witness_sbfill_empty_second : let s := (waiting { job .encode .dma with din := (job .encode .dma).din.stop }).pauseInput
    let t : State := { s with sb := { s.sb with buf0 := { full := true, len := 0#32 } } }
    inputWritable t = true ∧ inputFault (sbHandOver .b0 t) = none ∧
    nextIs (step t) (fun u => responds 5#8 0#32 u && u.sb.wait && u.ctx.pauseIn) = true := by decide +kernel
/-- A burst of 32 bytes, and the tail of 3 bytes of a block. -/
theorem witness_din_moves : (job .decode .dma).din.busy = true ∧ (job .decode .dma).din.abortReq = false ∧ (job .decode .dma).cr.dmaInEn = true ∧
    8 ≤ (job .decode .dma).cfg.fifoDepth - (job .decode .dma).ififo.length ∧ (job .decode .dma).cfg.granIn = .thirtyTwo ∧
    (job .decode .dma).tailFed = false := by decide
/-- The granularity of 4 bytes: one free word, one word held. -/
def byFour : State := words { job .decode .dma with
  cfg := { (job .decode .dma).cfg with granIn := .four, granOut := .four }, ififo := List.replicate 15 0#32 } 1
theorem witness_inv_four : Inv byFour := by
  apply inv_of_parts <;> decide +kernel
theorem witness_moves_four : byFour.din.busy = true ∧ byFour.din.abortReq = false ∧ byFour.cr.dmaInEn = true ∧
    byFour.ififo.length < byFour.cfg.fifoDepth ∧ byFour.tailFed = false ∧ byFour.dout.busy = true ∧ byFour.dout.abortReq = false ∧
    byFour.cr.dmaOutEn = true ∧ 1 ≤ byFour.ofifo.length ∧ byFour.cfg.granIn = .four ∧ byFour.cfg.granOut = .four := by decide
/-- 43_transfer_fsm R232, R233: a burst of one word each way; an error in its place. -/
theorem witness_steps_four :
    nextIs (step (doing byFour .din)) (fun t => decide (t.ififo.length = 16) && decide (t.din.done = 4#32)) = true ∧
    nextIs (step (doing byFour .dout)) (fun t => decide (t.ofifo = []) && decide (t.dout.done = 4#32)) = true ∧
    nextIs (step (doing byFour .doutError)) (fun t => t.dout.err && !t.dout.busy && t.sr.errf && decide (t.ofifo.length = 1)) = true := by decide +kernel
/-- O57 after a padded tail word. -/
theorem witness_din_ragged : let s : State := { job .decode .dma with tailFed := true }
    s.din.busy = true ∧ s.din.abortReq = false ∧ s.cr.dmaInEn = true ∧ 8 ≤ s.cfg.fifoDepth - s.ififo.length ∧
    step (doing s .din) = .fault .raggedMidStream :=
  ⟨by decide, by decide, by decide, by decide, fault_of_faultIs (by decide +kernel)⟩
theorem witness_inv_din_ragged : Inv (doing { job .decode .dma with tailFed := true } .din) := by
  apply inv_of_parts <;> decide +kernel
theorem witness_din_abort :
    ({ job .encode .dma with din := { (job .encode .dma).din with abortReq := true } } : State).din.busy = true := by decide
theorem witness_din_waits : (job .encode .interrupt).din.busy = false ∧ (job .encode .dma).din.abortReq = false ∧
    ¬ 8 ≤ (job .encode .dma).cfg.fifoDepth - (List.replicate 9 0#32).length := by decide
theorem witness_dout_moves : let s := words (job .decode .dma) 8
    s.dout.busy = true ∧ s.dout.abortReq = false ∧ s.cr.dmaOutEn = true ∧ 8 ≤ s.ofifo.length ∧ s.cfg.granOut = .thirtyTwo := by decide
theorem witness_dout_waits : (job .decode .dma).dout.busy = true ∧ ¬ 8 ≤ (words (job .decode .dma) 7).ofifo.length ∧
    (job .decode .dma).dout.abortReq = false := by decide
theorem witness_core :
    (doing (job .decode .poll) (.core .pop)).inputs = [.core .pop] ∧ (job .encode .poll).ctx.op ≠ some .decode := by decide
/-- O59: the run bit, and each act allowed and not. -/
theorem witness_core_acts : (job .decode .poll).cr.run = true ∧ (job .decode .poll).ctx.op = some .decode ∧
    (job .decode .poll).sr.hpdf = false ∧ (job .decode .poll).cr.ieHpd = true ∧ (job .encode .poll).cr.ieHpd = false ∧
    (job .decode .poll).ofifo.length < (job .decode .poll).cfg.fifoDepth ∧ (job .decode .poll).sr.eocf = false ∧
    (ended (job .decode .poll)).sr.eocf = true ∧ (3#4 : BitVec 4).toNat < (job .decode .poll).cfg.nq ∧
    ¬ (4#4 : BitVec 4).toNat < (job .decode .poll).cfg.nq := by decide
theorem witness_core_steps :
    nextIs (step (doing { job .decode .poll with ififo := [1#32, 2#32] } (.core .pop))) (fun t => decide (t.ififo = [2#32])) = true ∧
    nextIs (step (doing (words (job .decode .poll) 15) (.core (.push 7#32)))) (fun t => decide (t.ofifo.getLast? = some 7#32)) = true ∧
    nextIs (step (doing (words (job .decode .poll) 16) (.core (.push 7#32)))) (fun t => decide (t.ofifo.length = 16)) = true ∧
    nextIs (step (doing (job .decode .poll) (.core (.header { Hdr.reset with width := 9#16 })))) (fun t => t.sr.hpdf &&
      decide (t.hdr.width = 9#16)) = true := by decide +kernel
theorem witness_inv_callbacks : Inv (notified (ended (job .encode .interrupt)) [.command]) := by
  apply inv_of_parts <;> decide +kernel
theorem witness_inv_callbacks_drain : Inv (words (outside { job .encode .interrupt with
    desc := { (job .encode .interrupt).desc with outOff := 60#32 } } [] [.command]) 1) := by
  apply inv_of_parts <;> decide +kernel
/-- O60: each of the five callbacks. -/
theorem witness_callbacks :
    recordTaken .hpd (notified { job .decode .interrupt with sr := { eocf := false, hpdf := true, errf := false } } [.command]) = true ∧
    recordTaken .err (notified { job .decode .interrupt with sr := { eocf := false, hpdf := false, errf := true } } [.command]) = true ∧
    recordTaken .eoc (notified (ended (job .encode .interrupt)) [.command]) = true ∧
    recordTaken .inp (outside (usedUp (job .encode .interrupt)) [.command] []) = true ∧
    recordTaken .dmaInCplt (outside dinDone [.command] []) = true ∧
    recordTaken .out (words (outside { job .encode .interrupt with
      desc := { (job .encode .interrupt).desc with outOff := 60#32 } } [] [.command]) 1) = true ∧
    recordTaken .dmaOutCplt (outside doutDone [] [.command]) = true := by decide

end Sys2Proof.Tests
end

section
/-! What every step keeps of the memories, the parameters and the flag that says who answers the callbacks (O9): one lemma
for each operation that a step is made of, then one for each instruction and one for each agent. -/

namespace Sys2Proof.Machine

open Sys2Proof

variable {s t u : State}

/-! ## The relation -/

/-- From `s` to `t` the memories stay canonical, and the parameters and who answers the callbacks are the same. -/
structure MemoryKept (s t : State) : Prop where
  wf : Memory.wf s = true → Memory.wf t = true
  cfg : t.cfg = s.cfg
  managed : t.host.managed = s.host.managed

theorem MemoryKept.refl (s : State) : MemoryKept s s := ⟨id, rfl, rfl⟩

theorem MemoryKept.trans (h : MemoryKept s t) (h' : MemoryKept t u) : MemoryKept s u :=
  ⟨h'.wf ∘ h.wf, h'.cfg.trans h.cfg, h'.managed.trans h.managed⟩

theorem MemoryKept.ite {c : Prop} [Decidable c] (h : MemoryKept s t) (h' : MemoryKept s u) :
    MemoryKept s (if c then t else u) := by
  split
  · exact h
  · exact h'

/-- What the relation is about: an update of other fields leaves it the same by definition. -/
def State.held (s : State) : Store Byte × Store Word × Store Word × Config × Bool :=
  (s.hmem, s.tmem, s.qmem, s.cfg, s.host.managed)

theorem MemoryKept.of_held (h : t.held = s.held) : MemoryKept s t := by
  simp only [State.held, Prod.mk.injEq] at h
  obtain ⟨hmem, tmem, qmem, cfg, managed⟩ := h
  exact ⟨fun hs => Memory.wf_congr hs hmem tmem qmem, cfg, managed⟩

/-- An update of other fields comes first. -/
theorem MemoryKept.after (h : MemoryKept t u) (e : t.held = s.held) : MemoryKept s u := (MemoryKept.of_held e).trans h

/-- An update of other fields comes last. -/
theorem MemoryKept.before (h : MemoryKept s t) (e : u.held = t.held) : MemoryKept s u := h.trans (.of_held e)

theorem MemoryKept.of_stores
    (hmem : Store.wf Config.hostSpace s.hmem = true → Store.wf Config.hostSpace t.hmem = true)
    (tmem : Store.wf 65536 s.tmem = true → Store.wf 65536 t.tmem = true)
    (qmem : Store.wf 256 s.qmem = true → Store.wf 256 t.qmem = true)
    (cfg : t.cfg = s.cfg) (managed : t.host.managed = s.host.managed) : MemoryKept s t := by
  refine ⟨fun h => ?_, cfg, managed⟩
  obtain ⟨hh, ht, hq⟩ := Memory.wf_iff.mp h
  exact Memory.wf_iff.mpr ⟨hmem hh, tmem ht, qmem hq⟩

/-- If the outcome is a next state, `s` is kept there. -/
def NextKeepsMemory (s : State) (r : Result) : Prop := ∀ t, r = .next t → MemoryKept s t

theorem NextKeepsMemory.next (h : MemoryKept s t) : NextKeepsMemory s (.next t) := by
  rintro _ ⟨⟩
  exact h

theorem NextKeepsMemory.fault {f : Fault} : NextKeepsMemory s (.fault f) := by
  rintro _ ⟨⟩

theorem NextKeepsMemory.returnOk {data : Word} (h : MemoryKept s t) : NextKeepsMemory s (returnOk data t) :=
  .next (h.before rfl)

theorem NextKeepsMemory.raiseError {e : ErrCode} (h : MemoryKept s t) : NextKeepsMemory s (raiseError e t) :=
  .next (h.before rfl)

theorem NextKeepsMemory.of_kept {r : Result} (h : NextKeepsMemory t r) (h' : MemoryKept s t) : NextKeepsMemory s r :=
  fun u hu => h'.trans (h u hu)

/-! ## The memory operations -/

theorem memWrite_memoryKept {a : Nat} {bs : List Byte} (h : memWrite a bs s = .ok t) : MemoryKept s t := by
  have hwf := memWrite_wf h
  obtain ⟨-, rfl⟩ := memWrite_ok.mp h
  exact ⟨hwf, rfl, rfl⟩

theorem tWriteAll_memoryKept (l : List (BitVec 16 × Word)) (s : State) : MemoryKept s (s.tWriteAll l) := by
  have hwf := wf_tWriteAll (l := l) (s := s)
  rw [tWriteAll_frame]
  exact .of_stores id hwf id rfl rfl

theorem qWriteAll_memoryKept (q : BitVec 4) (l : List (BitVec 4 × Word)) (s : State) : MemoryKept s (s.qWriteAll q l) := by
  have hwf := wf_qWriteAll (q := q) (l := l) (s := s)
  rw [qWriteAll_frame]
  exact .of_stores id id hwf rfl rfl

theorem writeSub_memoryKept (lo : Nat) (bytes : List Byte) (s : State) : MemoryKept s (writeSub lo bytes s) := by
  rw [writeSub_frame]
  exact .of_stores id writeSubDown_wf id rfl rfl

/-! ## The callbacks -/

theorem drain_memoryKept {addr len : Word} {p : Bool × State} (h : drain addr len s = .ok p) : MemoryKept s p.2 := by
  rw [drain_frame h]
  exact .of_held rfl

theorem notify_memoryKept {e : Effect} (h : notify e s = .ok t) : MemoryKept s t := by
  obtain ⟨-, rfl⟩ := notify_ok.mp h
  exact .of_held rfl

theorem refill_memoryKept (h : refill s = .ok t) : MemoryKept s t := by
  obtain ⟨sb, host, draws, addr, len, hhost, -, ht⟩ := refill_cases h
  have hm : host.managed = s.host.managed := by rw [hhost]
  rcases ht with ⟨rfl, -⟩ | ⟨rfl, -⟩ <;> exact .of_held (by simp [State.held, hm])

/-! ## The transfer paths -/

theorem drainFull_memoryKept (h : drainFull s = .ok t) : MemoryKept s t := by
  obtain ⟨p, hp, hr⟩ := bind_eq_ok.mp h
  rw [pure_eq_ok] at hr
  subst hr
  refine (drain_memoryKept hp).trans ?_
  split <;> exact .of_held rfl

theorem storeWord_memoryKept {w : Word} (h : storeWord w s = .ok t) : MemoryKept s t := by
  obtain ⟨u, hu, hr⟩ := bind_eq_ok.mp h
  have hadvance : MemoryKept s { u with desc := { u.desc with outOff := u.desc.outOff + 4#32 } } :=
    (memWrite_memoryKept hu).before rfl
  simp only at hr
  split at hr
  · exact hadvance.trans (drainFull_memoryKept hr)
  · cases hr
    exact hadvance

theorem storeWords_memoryKept {n : Nat} (h : storeWords n s = .ok t) : MemoryKept s t := by
  induction n generalizing s with
  | zero => cases h; exact .refl _
  | succ n ih =>
    rw [storeWords] at h
    split at h
    · cases h; exact .refl _
    · split at h
      · cases h; exact .refl _
      · next w rest _ =>
        obtain ⟨u, hu, hr⟩ := bind_eq_ok.mp h
        have hpop : MemoryKept s { s with ofifo := rest } := .of_held rfl
        exact hpop.trans ((storeWord_memoryKept hu).trans (ih hr))

theorem feedWord_memoryKept {m : Nat} (h : feedWord m s = .ok t) : MemoryKept s t := by
  obtain ⟨-, -, rfl⟩ := feedWord_ok.mp h
  exact .of_held rfl

theorem feedWhole_memoryKept {n : Nat} (h : feedWhole n s = .ok t) : MemoryKept s t := by
  induction n generalizing s with
  | zero => cases h; exact .refl _
  | succ n ih =>
    obtain ⟨u, hu, hr⟩ := bind_eq_ok.mp h
    exact (feedWord_memoryKept hu).trans (ih hr)

theorem feedAvail_memoryKept {n : Nat} (h : feedAvail n s = .ok t) : MemoryKept s t := by
  unfold feedAvail at h
  split at h
  · exact feedWhole_memoryKept h
  · exact feedWord_memoryKept h

theorem feedWords_memoryKept {n : Nat} (h : feedWords n s = .ok t) : MemoryKept s t := by
  have hfed : ∀ v : State, (if v.ctx.pauseIn then pure v else feedAvail n v) = Except.ok t → MemoryKept v t := by
    intro v hv
    split at hv
    · cases hv; exact .refl _
    · exact feedAvail_memoryKept hv
  unfold feedWords at h
  simp only at h
  split at h
  · obtain ⟨u, hu, hr⟩ := bind_eq_ok.mp h
    exact (refill_memoryKept hu).trans (hfed u hr)
  · exact hfed s h

theorem complete_memoryKept (h : complete s = .ok t) : MemoryKept s t := by
  rw [complete_ok h]
  exact .of_held rfl

theorem finish_memoryKept (h : finish s = .ok t) : MemoryKept s t := by
  obtain ⟨u, hu, hr⟩ := bind_eq_ok.mp h
  refine (storeWords_memoryKept hu).trans ?_
  split at hr
  · exact complete_memoryKept hr
  · cases hr; exact .refl _

theorem finishFromDma_memoryKept (h : finishFromDma s = .ok t) : MemoryKept s t := by
  have hoff : MemoryKept s { s with desc := { s.desc with outOff := s.dout.done } } := .of_held rfl
  exact hoff.trans (finish_memoryKept h)

theorem resumeInput_memoryKept (h : resumeInput s = some t) : MemoryKept s t := by
  unfold resumeInput at h
  simp only at h
  split at h
  · cases h; exact .refl _
  split at h
  · cases h
  split at h
  · cases h; exact .of_held rfl
  split at h
  · cases h; exact .of_held rfl
  split at h <;> cases h <;> exact .of_held rfl

theorem resumeOutput_memoryKept (h : resumeOutput s = .ok t) : MemoryKept s t := by
  have hresumed : MemoryKept s { s with ctx := { s.ctx with pauseOut := false } } := .of_held rfl
  unfold resumeOutput at h
  simp only at h
  split at h
  · cases h; exact .refl _
  split at h
  · exact hresumed.trans (finish_memoryKept h)
  split at h
  · cases h; exact .of_held rfl
  split at h <;> cases h <;> exact .of_held rfl

/-! ## The event handlers -/

theorem handleErr_memoryKept (h : handleErr s = .ok t) : MemoryKept s t := by
  have hstop : MemoryKept s s.takeTransferError := .of_held rfl
  exact hstop.trans (notify_memoryKept h)

theorem handleHpd_memoryKept (h : handleHpd s = .ok t) : MemoryKept s t :=
  (notify_memoryKept h).after rfl

theorem handleIn_memoryKept (h : handleIn s = .ok t) : MemoryKept s t := feedWords_memoryKept h

theorem handleOut_memoryKept (h : handleOut s = .ok t) : MemoryKept s t := storeWords_memoryKept h

theorem handleEoc_memoryKept (h : handleEoc s = .ok t) : MemoryKept s t := by
  have hstop : MemoryKept s s.stopSources := .of_held rfl
  unfold handleEoc at h
  simp only at h
  split at h
  · split at h
    · cases h; exact .of_held rfl
    · exact (finishFromDma_memoryKept h).after rfl
  · exact hstop.trans (finish_memoryKept h)

theorem handleDmaInCplt_memoryKept (h : handleDmaInCplt s = .ok t) : MemoryKept s t := by
  obtain ⟨u, hu, hr⟩ := bind_eq_ok.mp h
  rw [pure_eq_ok] at hr
  subst hr
  have hrefill : MemoryKept s u := (refill_memoryKept hu).after rfl
  exact hrefill.trans (.ite (.of_held rfl) (.refl _))

theorem handleDmaOutCplt_memoryKept (h : handleDmaOutCplt s = .ok t) : MemoryKept s t := by
  obtain ⟨p, hp, hr⟩ := bind_eq_ok.mp h
  simp only [pure_eq_ok] at hr
  subst hr
  have hdrain : MemoryKept s p.2 := (drain_memoryKept hp).after rfl
  have hprime : ∀ v : State, MemoryKept p.2 v →
      MemoryKept p.2 (if !v.ctx.pauseOut && !v.ctx.ending && v.cr.run then v.primeOut else v) :=
    fun v hv => .ite (hv.before rfl) hv
  exact hdrain.trans (hprime _ (.ite (.of_held rfl) (.of_held rfl)))

theorem handleDmaAbort_memoryKept (h : handleDmaAbort s = .ok t) : MemoryKept s t := by
  unfold handleDmaAbort at h
  simp only at h
  split at h
  · cases h; exact .of_held rfl
  · exact (finishFromDma_memoryKept h).after rfl

theorem takeEvent_keepsMemory {e : Event} {handler : State → Except Fault State}
    (hh : ∀ {s t}, handler s = .ok t → MemoryKept s t) (s : State) : NextKeepsMemory s (takeEvent e handler s) := by
  intro t h
  rcases takeEvent_next.mp h with ⟨-, rfl⟩ | ⟨-, u, hu, rfl⟩
  · exact .of_held rfl
  · exact (hh hu).before rfl

/-! ## The Huffman and quantization tables -/

theorem buildSlot_memoryKept {slot : Slot} {b : Built} (h : buildSlot slot s = some b) : MemoryKept s b.state := by
  have hbuilt : ∀ bits vals, MemoryKept s (buildWith slot bits vals s).state := fun bits vals => by
    rw [buildWith_frame]
    exact .of_held rfl
  unfold buildSlot at h
  split at h
  · cases h
  split at h
  · cases h; exact hbuilt _ _
  · obtain ⟨vals, -, rfl⟩ := Option.map_eq_some_iff.mp h
    exact hbuilt _ _

theorem programRegion_memoryKept (r : Slot) (table : ReadTable) (s : State) : MemoryKept s (programRegion r table s) := by
  have hmark : ∀ v : State,
      MemoryKept v ({ v with prgEnc := v.prgEnc.set r true } : State).refreshCfgHuff.leaveConfiguring :=
    fun _ => .of_held rfl
  exact ((tWriteAll_memoryKept _ s.enterConfiguring).trans (hmark _)).after rfl

theorem programRaw_memoryKept (slot : Slot) (spec : RawSpec) (s : State) : MemoryKept s (programRaw slot spec s) :=
  (writeSub_memoryKept (offBits slot) spec.bits s).trans ((writeSub_memoryKept (offVals slot) spec.vals _).before rfl)

theorem programSlots_memoryKept {mask : SlotSet} {slots : List Slot} (h : programSlots mask slots s = some t) :
    MemoryKept s t := by
  induction slots generalizing s with
  | nil => cases h; exact .refl _
  | cons slot rest ih =>
    rw [programSlots] at h
    split at h
    · split at h
      · cases h
      · exact (programRaw_memoryKept _ _ _).trans (ih h)
    · exact ih h

theorem programQuant_memoryKept (q : BitVec 4) (base : List Byte) (scale : Nat) (s : State) :
    MemoryKept s (programQuant q base scale s) := by
  have hmark : ∀ v : State,
      MemoryKept v ({ v with ctx := { v.ctx with cfgQuant := true } } : State).leaveConfiguring := fun _ => .of_held rfl
  exact ((qWriteAll_memoryKept q _ s.enterConfiguring).trans (hmark _)).after rfl

/-! ## The programming and load commands -/

theorem execBuild_keepsMemory (slot : Slot) (s : State) : NextKeepsMemory s (execBuild slot s) := by
  unfold execBuild
  split
  · exact .fault
  split
  · exact .fault
  · next hb =>
    split
    · exact .returnOk (buildSlot_memoryKept hb)
    · exact .raiseError (buildSlot_memoryKept hb)

theorem programFrom_keepsMemory (r src : Slot) (s : State) : NextKeepsMemory s (programFrom r src s) := by
  unfold programFrom
  split
  · split
    · exact .fault
    · exact .returnOk (programRegion_memoryKept _ _ _)
  split
  · exact .fault
  next hb =>
    split
    · exact .raiseError (buildSlot_memoryKept hb)
    split
    · exact .fault
    · exact .returnOk ((buildSlot_memoryKept hb).trans (programRegion_memoryKept _ _ _))

theorem execProgc_keepsMemory (addr : BitVec 16) (src : Option Slot) (s : State) :
    NextKeepsMemory s (execProgc addr src s) := by
  unfold execProgc
  split
  · exact .fault
  split
  · exact .raiseError (.refl s)
  split
  · exact .returnOk (.refl s)
  split
  · exact .raiseError (.refl s)
  · exact programFrom_keepsMemory _ _ s

theorem execProgr_keepsMemory (mask : SlotSet) (s : State) : NextKeepsMemory s (execProgr mask s) := by
  unfold execProgr
  split
  · exact .fault
  split
  · exact .fault
  · next u hslots =>
    have hwritten : MemoryKept s u := (programSlots_memoryKept hslots).after rfl
    exact .returnOk (hwritten.before rfl)

theorem execQgen_keepsMemory (q : BitVec 4) (quality : BitVec 8) (s : State) : NextKeepsMemory s (execQgen q quality s) := by
  unfold execQgen
  split
  · exact .raiseError (.refl s)
  split
  · exact .fault
  split
  · exact .raiseError (.refl s)
  split
  · exact .fault
  · exact .returnOk (programQuant_memoryKept _ _ _ s)

theorem execQest_keepsMemory (q : BitVec 4) (s : State) : NextKeepsMemory s (execQest q s) := by
  unfold execQest
  split
  · exact .raiseError (.refl s)
  split
  · exact .fault
  split
  · exact .fault
  split
  · exact .fault
  · exact .returnOk (.of_held rfl)

theorem execLdb_keepsMemory (file : LdbFile) (index : BitVec 8) (data : Byte) (s : State) :
    NextKeepsMemory s (execLdb file index data s) := by
  have hload : MemoryKept s (loadByte file index.toNat data s) := by cases file <;> exact .of_held rfl
  unfold execLdb
  split
  · exact .raiseError (.refl s)
  split
  · exact .fault
  · exact .returnOk hload

theorem finishInputWrite_keepsMemory (s : State) : NextKeepsMemory s (finishInputWrite s) := by
  unfold finishInputWrite
  split
  · exact .returnOk (.refl s)
  split
  · exact .fault
  · exact .returnOk (.refl s)

theorem execWrd_keepsMemory (reg : DescReg) (value : Word) (s : State) : NextKeepsMemory s (execWrd reg value s) := by
  have hinput : ∀ d : Desc, NextKeepsMemory s
      (if inputWritable s then finishInputWrite { s with desc := d } else raiseError .busy s) := fun d => by
    split
    · exact (finishInputWrite_keepsMemory _).of_kept (.of_held rfl)
    · exact .raiseError (.refl s)
  have houtput : ∀ d : Desc, NextKeepsMemory s
      (if s.fsm = .idle then returnOk 0#32 { s with desc := d } else raiseError .busy s) := fun d => by
    split
    · exact .returnOk (.of_held rfl)
    · exact .raiseError (.refl s)
  cases reg with
  | inAddr => exact hinput _
  | inLen => exact hinput _
  | outAddr => exact houtput _
  | outLen => exact houtput _

/-! ## The transfer commands -/

theorem execStart_keepsMemory (op : JobOp) (method : Method) (s : State) : NextKeepsMemory s (execStart op method s) := by
  unfold execStart
  split
  · exact .raiseError (.refl s)
  split
  · exact .raiseError (.refl s)
  split
  · exact .fault
  · refine .returnOk ?_
    unfold startWith
    split <;> exact .of_held rfl

theorem pauseDirs_memoryKept (dir : DirSet) (s : State) : MemoryKept s (pauseDirs dir s) := by
  have hin : MemoryKept s (if dir.input then s.pauseInput else s) := by split <;> exact .of_held rfl
  unfold pauseDirs
  simp only
  split
  · exact hin.before rfl
  · exact hin

theorem execPause_keepsMemory (dir : DirSet) (s : State) : NextKeepsMemory s (execPause dir s) := by
  unfold execPause
  split
  · exact .returnOk (.refl s)
  · exact .returnOk (pauseDirs_memoryKept dir s)

theorem execResume_keepsMemory (dir : DirSet) (s : State) : NextKeepsMemory s (execResume dir s) := by
  unfold execResume
  split
  · exact .returnOk (.refl s)
  split
  · exact .raiseError (.refl s)
  next t hin =>
    have hin : MemoryKept s t := by
      split at hin
      · exact resumeInput_memoryKept hin
      · cases hin; exact .refl s
    split
    · next u hout =>
      have hout : MemoryKept t u := by
        split at hout
        · exact resumeOutput_memoryKept hout
        · cases hout; exact .refl t
      exact .returnOk (hin.trans hout)
    · exact .fault

theorem pollEvent_memoryKept {e : Event} {handler : State → Except Fault State} {p r : Word × State}
    (hh : ∀ {s t}, handler s = .ok t → MemoryKept s t) (h : pollEvent e handler p = .ok r) : MemoryKept p.2 r.2 := by
  unfold pollEvent at h
  split at h
  · obtain ⟨u, hu, hr⟩ := bind_eq_ok.mp h
    cases hr
    exact hh hu
  · cases h; exact .refl _

theorem pollPass_memoryKept {p : Word × State} (h : pollPass s = .ok p) : MemoryKept s p.2 := by
  obtain ⟨p1, h1, h⟩ := bind_eq_ok.mp h
  obtain ⟨p2, h2, h⟩ := bind_eq_ok.mp h
  obtain ⟨p3, h3, h⟩ := bind_eq_ok.mp h
  obtain ⟨p4, h4, h5⟩ := bind_eq_ok.mp h
  have herr : MemoryKept s p1.2 := pollEvent_memoryKept handleErr_memoryKept h1
  have hhpd : MemoryKept p1.2 p2.2 := pollEvent_memoryKept handleHpd_memoryKept h2
  have hin : MemoryKept p2.2 p3.2 := pollEvent_memoryKept handleIn_memoryKept h3
  have hout : MemoryKept p3.2 p4.2 := pollEvent_memoryKept handleOut_memoryKept h4
  have heoc : MemoryKept p4.2 p.2 := pollEvent_memoryKept handleEoc_memoryKept h5
  exact herr.trans (hhpd.trans (hin.trans (hout.trans heoc)))

theorem execPoll_keepsMemory (s : State) : NextKeepsMemory s (execPoll s) := by
  unfold execPoll
  split
  · exact .returnOk (.refl s)
  split
  · next hp => exact .returnOk (pollPass_memoryKept hp)
  · exact .fault

theorem execAbort_keepsMemory (s : State) : NextKeepsMemory s (execAbort s) := by
  unfold execAbort
  split
  · exact .returnOk (.refl s)
  split
  · exact .raiseError (.refl s)
  · exact .returnOk (.of_held rfl)

/-! ## The Streaming Buffer Manager -/

theorem execSbinit_keepsMemory (s : State) : NextKeepsMemory s (execSbinit s) := by
  unfold execSbinit
  split
  · exact .raiseError (.refl s)
  · exact .returnOk (.of_held rfl)

theorem sbfillStep1_memoryKept {len : Word} (h : sbfillStep1 len s = .ok t) : MemoryKept s t := by
  obtain ⟨u, hu, hr⟩ := bind_eq_ok.mp h
  cases hr
  have hfilled : MemoryKept s u := (memWrite_memoryKept hu).after rfl
  exact hfilled.before rfl

theorem execSbfill_keepsMemory (len : Word) (s : State) : NextKeepsMemory s (execSbfill len s) := by
  unfold execSbfill
  split
  · exact .raiseError (.refl s)
  split
  · exact .returnOk (.refl s)
  split
  · exact .raiseError (.refl s)
  split
  · next h => exact .next (sbfillStep1_memoryKept h)
  · exact .fault

theorem sbTakeBuffer_memoryKept {i : BufIdx} (h : sbTakeBuffer i s = .ok t) : MemoryKept s t := by
  unfold sbTakeBuffer at h
  split at h
  · split at h <;> cases h
    exact .of_held rfl
  · cases h; exact .of_held rfl

theorem sbfillStep2_keepsMemory (i : BufIdx) (s : State) : NextKeepsMemory s (sbfillStep2 i s) := by
  unfold sbfillStep2
  simp only
  split
  · exact .returnOk (.of_held rfl)
  split
  · exact .fault
  next htake =>
    split
    · next hresume =>
      have hdescriptor : MemoryKept s _ := (sbTakeBuffer_memoryKept htake).after rfl
      exact .returnOk (hdescriptor.trans (resumeInput_memoryKept hresume))
    · exact .raiseError (.of_held rfl)

/-! ## Every instruction -/

theorem exec_keepsMemory : ∀ (i : Instr) (s : State), NextKeepsMemory s (exec i s)
  | .ldb file index data, s => execLdb_keepsMemory file index data s
  | .wrd reg value, s => execWrd_keepsMemory reg value s
  | .build slot, s => execBuild_keepsMemory slot s
  | .progc addr src, s => execProgc_keepsMemory addr src s
  | .progr mask, s => execProgr_keepsMemory mask s
  | .qgen q quality, s => execQgen_keepsMemory q quality s
  | .qest q, s => execQest_keepsMemory q s
  | .start op method, s => execStart_keepsMemory op method s
  | .pause dir, s => execPause_keepsMemory dir s
  | .resume dir, s => execResume_keepsMemory dir s
  | .poll, s => execPoll_keepsMemory s
  | .abort, s => execAbort_keepsMemory s
  | .getinfo _, s => .returnOk (.refl s)
  | .getstate, s => .returnOk (.refl s)
  | .geterr, s => .returnOk (.refl s)
  | .sbfill len, s => execSbfill_keepsMemory len s
  | .sbinit, s => execSbinit_keepsMemory s
  | .evErr, s => takeEvent_keepsMemory handleErr_memoryKept s
  | .evHpd, s => takeEvent_keepsMemory handleHpd_memoryKept s
  | .evIn, s => takeEvent_keepsMemory handleIn_memoryKept s
  | .evOut, s => takeEvent_keepsMemory handleOut_memoryKept s
  | .evEoc, s => takeEvent_keepsMemory handleEoc_memoryKept s
  | .evDmaInCplt, s => takeEvent_keepsMemory handleDmaInCplt_memoryKept s
  | .evDmaOutCplt, s => takeEvent_keepsMemory handleDmaOutCplt_memoryKept s
  | .evDmaAbort, s => takeEvent_keepsMemory handleDmaAbort_memoryKept s

/-! ## The agents that run no instruction -/

theorem dinWords_memoryKept {n : Nat} (h : dinWords n s = .ok t) : MemoryKept s t := by
  induction n generalizing s with
  | zero => cases h; exact .refl _
  | succ n ih =>
    obtain ⟨b, -, h⟩ := bind_eq_ok.mp h
    obtain ⟨u, hu, hr⟩ := bind_eq_ok.mp h
    obtain ⟨-, rfl⟩ := pushInput_ok.mp hu
    exact (ih hr).after rfl

theorem dinStep_memoryKept (h : dinStep s = .ok t) : MemoryKept s t := by
  unfold dinStep at h
  split at h
  · cases h; exact .of_held rfl
  split at h
  · obtain ⟨u, hu, hr⟩ := bind_eq_ok.mp h
    cases hr
    exact (dinWords_memoryKept hu).before rfl
  · cases h; exact .refl _

theorem doutWords_memoryKept {n : Nat} (h : doutWords n s = .ok t) : MemoryKept s t := by
  induction n generalizing s with
  | zero => cases h; exact .refl _
  | succ n ih =>
    rw [doutWords] at h
    split at h
    · cases h; exact .refl _
    · obtain ⟨u, hu, hr⟩ := bind_eq_ok.mp h
      have hword : MemoryKept s u := (memWrite_memoryKept hu).after rfl
      exact hword.trans ((ih hr).after rfl)

theorem doutStep_memoryKept (h : doutStep s = .ok t) : MemoryKept s t := by
  unfold doutStep at h
  split at h
  · cases h; exact .of_held rfl
  split at h
  · obtain ⟨u, hu, hr⟩ := bind_eq_ok.mp h
    cases hr
    exact (doutWords_memoryKept hu).before rfl
  · cases h; exact .refl _

theorem dinErrorStep_memoryKept (s : State) : MemoryKept s (dinErrorStep s) := by
  unfold dinErrorStep
  split <;> exact .of_held rfl

theorem doutErrorStep_memoryKept (s : State) : MemoryKept s (doutErrorStep s) := by
  unfold doutErrorStep
  split <;> exact .of_held rfl

theorem coreDo_memoryKept (a : CoreAct) (s : State) : MemoryKept s (coreDo a s) := by
  cases a with
  | writeQmem q w v => exact .of_stores id id (fun h => Store.wf_put v h (qmemIndex_lt q w)) rfl rfl
  | pop => exact .of_held rfl
  | push w => exact .of_held rfl
  | header h => exact .of_held rfl
  | endOfConversion => exact .of_held rfl
  | error => exact .of_held rfl

theorem coreStep_memoryKept (a : CoreAct) (s : State) : MemoryKept s (coreStep a s) := by
  unfold coreStep
  split
  · exact coreDo_memoryKept a s
  · exact .refl s

theorem hostStep_memoryKept {a : HostAct} (h : hostStep a s = .ok t) : MemoryKept s t := by
  cases a with
  | write addr b =>
    cases h
    exact .of_stores (fun h => Store.wf_put b h addr.isLt) id id rfl rfl
  | writeBlockState => cases h

theorem agentOutcome_keepsMemory {r : Except Fault State} (h : ∀ {t}, r = .ok t → MemoryKept s t) :
    NextKeepsMemory s (agentOutcome r) := by
  cases r with
  | ok t => exact .next (h rfl)
  | error f => exact .fault

/-! ## The step -/

/-- What a step finds to do keeps `s`: the state an instruction runs in, or the outcome itself. -/
def Fetched.KeepsMemory (s : State) : Fetched → Prop
  | .run _ t => MemoryKept s t
  | .outcome r => NextKeepsMemory s r

theorem fetchCommand_keepsMemory (cmd arg : Word) (h : MemoryKept s t) : (fetchCommand cmd arg t).KeepsMemory s := by
  unfold fetchCommand
  split
  · exact h
  · exact .raiseError h

theorem fetchEvent_keepsMemory (evt : Word) (h : MemoryKept s t) : (fetchEvent evt t).KeepsMemory s := by
  unfold fetchEvent
  split
  · exact h
  · exact .next (h.before rfl)

theorem fetchIrq_keepsMemory (h : MemoryKept s t) : (fetchIrq t).KeepsMemory s := by
  unfold fetchIrq
  split
  · exact h
  · exact .next h

theorem taskIdle_keepsMemory (h : MemoryKept s t) : (taskIdle t).KeepsMemory s := by
  unfold taskIdle
  split
  · exact (sbfillStep2_keepsMemory _ t).of_kept h
  · exact .next h

theorem fetch_keepsMemory (s : State) : (fetch s).KeepsMemory s := by
  have htaken : ∀ rest, MemoryKept s { s with inputs := rest } := fun _ => .of_held rfl
  unfold fetch
  split
  · exact taskIdle_keepsMemory (.refl s)
  · split
    · exact sbfillStep2_keepsMemory _ s
    · exact fetchCommand_keepsMemory _ _ (htaken _)
  · exact taskIdle_keepsMemory (htaken _)
  · exact fetchEvent_keepsMemory _ (htaken _)
  · exact fetchIrq_keepsMemory (htaken _)
  · exact (agentOutcome_keepsMemory dinStep_memoryKept).of_kept (htaken _)
  · exact .next ((htaken _).trans (dinErrorStep_memoryKept _))
  · exact (agentOutcome_keepsMemory doutStep_memoryKept).of_kept (htaken _)
  · exact .next ((htaken _).trans (doutErrorStep_memoryKept _))
  · exact .next ((htaken _).trans (coreStep_memoryKept _ _))
  · exact (agentOutcome_keepsMemory hostStep_memoryKept).of_kept (htaken _)

theorem step_keepsMemory (s : State) : NextKeepsMemory s (step s) := by
  have hfetch := fetch_keepsMemory s
  unfold step
  cases hf : fetch s with
  | run i t =>
    rw [hf] at hfetch
    exact (exec_keepsMemory i t).of_kept hfetch
  | outcome r =>
    rw [hf] at hfetch
    exact hfetch

/-- Settles O9: what is fetched keeps the three, and so does whatever then runs. -/
theorem stepKeepsMemory : Obligations.StepKeepsMemory := by
  intro s t h
  obtain ⟨hwf, hcfg, hmanaged⟩ := step_keepsMemory s t h
  exact ⟨hwf, hcfg, hmanaged⟩

end Sys2Proof.Machine
end

section
/-! The faults of the programming and load commands, said once as equivalences (60_exceptions R304 (a), (c), (d)): which
elements a command reads, and that a fault comes exactly where one of them is unwritten or divides by zero (O15). The
state after reset has no written element (O6) and meets the invariant (O7). -/

namespace Sys2Proof.Machine

open Sys2Proof

-- One proof after the other: side by side they take more threads than the check's memory limit has room for.
set_option Elab.async false

variable {s : State}

/-! ## What is read -/

/-- A build of the slot reads an element that nothing has written (40_huffman_builder R145, log 17). -/
def BuildReadsUnwritten (s : State) (k : Slot) : Prop :=
  none ∈ (s.hspec.get k).bits ∨
    ∃ bits, (s.hspec.get k).bits = bits.map some ∧ symbolCount bits ≤ k.size ∧
      none ∈ (s.hspec.get k).vals.take (symbolCount bits)

/-- The raw specification of the slot has an element that nothing has written. -/
def SpecUnwritten (s : State) (k : Slot) : Prop := none ∈ (s.hspec.get k).bits ∨ none ∈ (s.hspec.get k).vals

/-- The code table of the slot has an element that nothing has written. -/
def TableUnwritten (s : State) (k : Slot) : Prop := none ∈ (s.hct.get k).len ∨ none ∈ (s.hct.get k).code

theorem buildSlot_eq_none {k : Slot} : buildSlot k s = none ↔ BuildReadsUnwritten s k := by
  unfold buildSlot BuildReadsUnwritten
  cases hb : readAll (s.hspec.get k).bits with
  | none => simp [readAll_eq_none.mp hb]
  | some bits =>
    have hbits := readAll_eq_some.mp hb
    have hwritten : none ∉ (s.hspec.get k).bits := fun h => by simp [readAll_eq_none.mpr h] at hb
    have hsame : ∀ l : List Byte, (s.hspec.get k).bits = l.map some ↔ l = bits := fun l => by
      rw [← readAll_eq_some, hb]
      simp [eq_comm]
    simp only [hsame, hwritten, false_or, exists_eq_left]
    by_cases hc : k.size < symbolCount bits
    · simp [hc]
    · simp [hc, readAll_eq_none, Nat.le_of_not_lt hc]

/-- A table is incomplete exactly where an entry is unwritten. -/
theorem readTable_eq_none {t : HuffTable} : readTable t = none ↔ none ∈ t.len ∨ none ∈ t.code := by
  rw [readTable, ← readAll_eq_none, ← readAll_eq_none]
  cases readAll t.len <;> simp

theorem readSpec_eq_none {h : HuffSpec} : readSpec h = none ↔ none ∈ h.bits ∨ none ∈ h.vals := by
  rw [readSpec, ← readAll_eq_none, ← readAll_eq_none]
  cases readAll h.bits <;> simp

theorem programRaw_hspec (k : Slot) (h : RawSpec) (s : State) : (programRaw k h s).hspec = s.hspec := by
  rw [programRaw_frame]

theorem programSlots_eq_none {mask : SlotSet} {slots : List Slot} :
    programSlots mask slots s = none ↔ ∃ k ∈ slots, mask.has k = true ∧ SpecUnwritten s k := by
  induction slots generalizing s with
  | nil => simp [programSlots]
  | cons k rest ih =>
    rw [programSlots]
    by_cases hm : mask.has k = true
    · cases hr : readSpec (s.hspec.get k) with
      | none => simp [hm, SpecUnwritten, readSpec_eq_none.mp hr]
      | some h =>
        have hk : ¬ SpecUnwritten s k := fun hu => by simp [readSpec_eq_none.mpr hu] at hr
        simp only [hm, if_true, ih, SpecUnwritten, programRaw_hspec, List.mem_cons, exists_eq_or_imp, true_and]
        exact ⟨.inr, fun h => h.resolve_left hk⟩
    · simp [hm, ih]

theorem mem_rawOrder (k : Slot) : k ∈ rawOrder := by cases k <;> decide

theorem contribution_eq_none {v b : Nat} : contribution v b = none ↔ v ≠ 1 ∧ b = 0 := by
  constructor
  · intro h
    by_contra hne
    have hdef : v = 1 ∨ b ≠ 0 := by tauto
    simp [contribution_some hdef] at h
  · rintro ⟨hv, hb⟩
    simp [contribution, hv, hb]

/-- The estimate does not exist exactly where a value other than 1 stands over a zero baseline element. -/
theorem estimate_eq_none {q : BitVec 4} {base : List Byte} :
    estimate s q base = none ↔ ∃ i, i < 64 ∧ readBack s q i ≠ 1 ∧ zigzagElem s.cfg base i = 0#8 := by
  have hzero : ∀ b : Byte, b.toNat = 0 ↔ b = 0#8 := fun b => by rw [BitVec.toNat_eq]; rfl
  simp [estimate, contributionSum_eq_none, contribution_eq_none, hzero]

/-! ## What a build leaves -/

theorem none_notMem_set_some {α : Type} {l : List (Option α)} (h : none ∉ l) (i : Nat) (x : α) : none ∉ l.set i (some x) :=
  fun hm => (List.mem_or_eq_of_mem_set hm).elim h (by simp)

theorem drawnTable_written (valid : Bool) (d n : Nat) :
    none ∉ (drawnTable valid d n).len ∧ none ∉ (drawnTable valid d n).code := by
  simp [drawnTable]

theorem writeEntries_written {t : HuffTable} {es : List Assigned} (h : none ∉ t.len ∧ none ∉ t.code) :
    none ∉ (writeEntries t es).len ∧ none ∉ (writeEntries t es).code := by
  induction es generalizing t with
  | nil => exact h
  | cons e es ih => exact ih ⟨none_notMem_set_some h.1 _ _, none_notMem_set_some h.2 _ _⟩

/-- A build leaves every entry of the table written, drawn or assigned (40_huffman_builder R146). -/
theorem buildWith_written (k : Slot) (bits vals : List Byte) (s : State) :
    ¬ TableUnwritten (buildWith k bits vals s).state k := by
  have hwritten : ∀ t : HuffTable, none ∉ t.len ∧ none ∉ t.code → ∀ n, ¬ TableUnwritten (s.withHct k t n) k := by
    rintro t ⟨hl, hc⟩ n hu
    simp only [TableUnwritten, State.withHct, PerSlot.get_set_self] at hu
    exact hu.elim hl hc
  unfold buildWith
  split
  · exact hwritten _ (drawnTable_written _ _ _) _
  · exact hwritten _ (writeEntries_written (drawnTable_written _ _ _)) _

/-- All that `BUILD` on a slot does: one run of the builder on bytes that were read. -/
theorem buildSlot_some {k : Slot} {b : Built} (h : buildSlot k s = some b) : ∃ bits vals, b = buildWith k bits vals s := by
  unfold buildSlot at h
  split at h
  · cases h
  split at h
  · cases h; exact ⟨_, _, rfl⟩
  · obtain ⟨vals, -, rfl⟩ := Option.map_eq_some_iff.mp h
    exact ⟨_, _, rfl⟩

/-! ## The faults -/

/-- A programming or load command outside `Idle` (60_exceptions R302). -/
def OutsideIdle (s : State) (f : Fault) : Prop := s.fsm ≠ .idle ∧ f = .programmingOutsideIdle

@[simp] theorem returnOk_ne_fault {data : Word} {f : Fault} : returnOk data s ≠ .fault f := nofun

@[simp] theorem fault_ne_returnOk {data : Word} {f : Fault} : Host.Outcome.fault f ≠ returnOk data s := nofun

@[simp] theorem raiseError_ne_fault {e : ErrCode} {f : Fault} : raiseError e s ≠ .fault f := nofun

@[simp] theorem illegalCommand_ne_fault {f : Fault} : illegalCommand s ≠ .fault f := nofun

theorem execLdb_fault {file : LdbFile} {index : BitVec 8} {data : Byte} {f : Fault}
    (h : execLdb file index data s = .fault f) : OutsideIdle s f := by
  unfold execLdb at h
  split at h
  · cases h
  split at h
  · next hi => cases h; exact ⟨hi, rfl⟩
  · cases h

theorem execBuild_fault {k : Slot} {f : Fault} : execBuild k s = .fault f ↔
    OutsideIdle s f ∨ s.fsm = .idle ∧ f = .unwrittenOperand ∧ BuildReadsUnwritten s k := by
  unfold execBuild OutsideIdle
  by_cases hi : s.fsm = .idle
  · simp only [hi, ne_eq, not_true, if_false, false_and, false_or, true_and]
    cases hb : buildSlot k s with
    | none => simp [buildSlot_eq_none.mp hb, eq_comm (a := f)]
    | some b =>
      have hread : ¬ BuildReadsUnwritten s k := fun h => by simp [buildSlot_eq_none.mpr h] at hb
      cases he : b.error <;> simp [hread, he]
  · simp [hi, eq_comm (a := f)]

theorem programFrom_fault {r k : Slot} {f : Fault} : programFrom r k s = .fault f ↔
    f = .unwrittenOperand ∧
      if (s.hct.get k).valid = true then TableUnwritten s k else BuildReadsUnwritten s k := by
  unfold programFrom
  by_cases hv : (s.hct.get k).valid = true
  · simp only [hv, if_true]
    cases ht : readTable (s.hct.get k) with
    | none => simp [TableUnwritten, readTable_eq_none.mp ht, eq_comm (a := f)]
    | some t =>
      have hread : ¬ TableUnwritten s k := fun h => by simp [readTable_eq_none.mpr h] at ht
      simp [hread]
  · simp only [hv]
    cases hb : buildSlot k s with
    | none => simp [buildSlot_eq_none.mp hb, eq_comm (a := f)]
    | some b =>
      have hread : ¬ BuildReadsUnwritten s k := fun h => by simp [buildSlot_eq_none.mpr h] at hb
      obtain ⟨bits, vals, rfl⟩ := buildSlot_some hb
      cases he : (buildWith k bits vals s).error with
      | some e => simp [hread, he]
      | none =>
        cases ht : readTable ((buildWith k bits vals s).state.hct.get k) with
        | none => exact absurd (readTable_eq_none.mp ht) (buildWith_written k bits vals s)
        | some t => simp [hread, he, ht]

theorem execProgc_fault {addr : BitVec 16} {src : Option Slot} {f : Fault} : execProgc addr src s = .fault f ↔
    OutsideIdle s f ∨ s.fsm = .idle ∧ f = .unwrittenOperand ∧
      ∃ r k, target s.cfg addr = some r ∧ src = some k ∧ k.kind = r.kind ∧
        if (s.hct.get k).valid = true then TableUnwritten s k else BuildReadsUnwritten s k := by
  unfold execProgc OutsideIdle
  by_cases hi : s.fsm = .idle
  · simp only [hi, ne_eq, not_true, if_false, false_and, false_or, true_and]
    cases target s.cfg addr with
    | none => simp
    | some r =>
      cases src with
      | none => simp
      | some k =>
        by_cases hk : k.kind = r.kind
        · simp [hk, programFrom_fault]
        · simp [hk]
  · simp [hi, eq_comm (a := f)]

theorem execProgr_fault {mask : SlotSet} {f : Fault} : execProgr mask s = .fault f ↔
    OutsideIdle s f ∨ s.fsm = .idle ∧ f = .unwrittenOperand ∧ ∃ k, mask.has k = true ∧ SpecUnwritten s k := by
  unfold execProgr OutsideIdle
  by_cases hi : s.fsm = .idle
  · simp only [hi, ne_eq, not_true, if_false, false_and, false_or, true_and]
    have hnone := programSlots_eq_none (s := s.enterConfiguring) (mask := mask) (slots := rawOrder)
    simp only [mem_rawOrder, true_and, SpecUnwritten, State.enterConfiguring_hspec] at hnone
    simp only [SpecUnwritten, ← hnone]
    cases programSlots mask rawOrder s.enterConfiguring <;> simp [eq_comm (a := f)]
  · simp [hi, eq_comm (a := f)]

theorem qualityScale_eq_none {n : Nat} : qualityScale n = none ↔ n = 0 ∨ 100 < n := by
  unfold qualityScale
  split
  · simp; omega
  split
  · simp; omega
  · simp; omega

theorem execQgen_fault {q : BitVec 4} {quality : BitVec 8} {f : Fault} : execQgen q quality s = .fault f ↔
    q.toNat < s.cfg.nq ∧ (OutsideIdle s f ∨ s.fsm = .idle ∧ f = .unwrittenOperand ∧
      1 ≤ quality.toNat ∧ quality.toNat ≤ 100 ∧ none ∈ s.baselineOf q) := by
  unfold execQgen OutsideIdle
  by_cases hq : q.toNat < s.cfg.nq
  · by_cases hi : s.fsm = .idle
    · simp only [Instr.wellFormed, hq, hi, decide_true, Bool.not_true, Bool.false_eq_true, ne_eq, not_true, if_false,
        false_and, false_or, true_and]
      have hrange := qualityScale_eq_none (n := quality.toNat)
      cases hs : qualityScale quality.toNat with
      | none =>
        have := hrange.mp hs
        simp
        omega
      | some scale =>
        have : ¬ (quality.toNat = 0 ∨ 100 < quality.toNat) := fun h => by simp [hrange.mpr h] at hs
        have h1 : 1 ≤ quality.toNat := by omega
        have h2 : quality.toNat ≤ 100 := by omega
        rw [← readAll_eq_none]
        cases readAll (s.baselineOf q) <;> simp [h1, h2, eq_comm (a := f)]
    · simp [Instr.wellFormed, hq, hi, eq_comm (a := f)]
  · simp [Instr.wellFormed, hq]

theorem execQest_fault {q : BitVec 4} {f : Fault} : execQest q s = .fault f ↔
    q.toNat < s.cfg.nq ∧ (OutsideIdle s f ∨ s.fsm = .idle ∧
      (f = .unwrittenOperand ∧ none ∈ s.baselineOf q ∨
        f = .divideByZero ∧ ∃ base i, s.baselineOf q = base.map some ∧ i < 64 ∧ readBack s q i ≠ 1 ∧
          zigzagElem s.cfg base i = 0#8)) := by
  unfold execQest OutsideIdle
  by_cases hq : q.toNat < s.cfg.nq
  · by_cases hi : s.fsm = .idle
    · simp only [Instr.wellFormed, hq, hi, decide_true, Bool.not_true, Bool.false_eq_true, ne_eq, not_true, if_false,
        false_and, false_or, true_and, ← readAll_eq_none, ← readAll_eq_some]
      cases readAll (s.baselineOf q) with
      | none => simp [eq_comm (a := f)]
      | some base =>
        have hnone := estimate_eq_none (s := s) (q := q) (base := base)
        simp only [reduceCtorEq, and_false, false_or, Option.some.injEq, exists_and_left, exists_eq_left']
        rw [← hnone]
        cases estimate s q base <;> simp [eq_comm (a := f)]
    · simp [Instr.wellFormed, hq, hi, eq_comm (a := f)]
  · simp [Instr.wellFormed, hq]

/-- Settles O15: each command's fault lemma, read from right to left. -/
theorem operandFaults : Obligations.OperandFaults := by
  intro s hidle
  refine ⟨?_, ?_, ?_, ?_, ?_, ?_⟩
  · intro k hk
    exact execBuild_fault.mpr (.inr ⟨hidle, rfl, hk⟩)
  · intro addr r k ht hkind hv hk
    exact execProgc_fault.mpr (.inr ⟨hidle, rfl, r, k, ht, rfl, hkind, by rw [hv]; exact hk⟩)
  · intro mask k hm hk
    exact execProgr_fault.mpr (.inr ⟨hidle, rfl, k, hm, hk⟩)
  · intro q quality hq h1 h2 hb
    exact execQgen_fault.mpr ⟨hq, .inr ⟨hidle, rfl, h1, h2, hb⟩⟩
  · intro q hq hb
    exact execQest_fault.mpr ⟨hq, .inr ⟨hidle, .inl ⟨rfl, hb⟩⟩⟩
  · intro q base i hq hb hi hv hz
    exact execQest_fault.mpr ⟨hq, .inr ⟨hidle, .inr ⟨rfl, base, i, hb, hi, hv, hz⟩⟩⟩

/-! ## Reset -/

theorem reset_spec_unwritten (k : Slot) : (State.reset.hspec.get k).bits = List.replicate 16 none ∧
    (State.reset.hspec.get k).vals = List.replicate k.size none := by cases k <;> exact ⟨rfl, rfl⟩

theorem reset_baseline_unwritten {q : BitVec 4} (hq : q.toNat < State.reset.cfg.nq) :
    State.reset.baselineOf q = List.replicate 64 none := by
  change (List.replicate State.reset.cfg.nq (List.replicate 64 none)).getD q.toNat [] = _
  rw [List.getD_eq_getElem _ _ (by simpa using hq), List.getElem_replicate]

/-- Settles O6: the values by evaluation, the faults by O15. -/
theorem resetState : Obligations.ResetState := by
  obtain ⟨hbuild, -, hprogr, hqgen, hqest, -⟩ := operandFaults State.reset rfl
  have hbits : ∀ k : Slot, none ∈ (State.reset.hspec.get k).bits := fun k => by
    rw [(reset_spec_unwritten k).1]
    simp
  have hbase : ∀ q : BitVec 4, q.toNat < State.reset.cfg.nq → none ∈ State.reset.baselineOf q := fun q hq => by
    rw [reset_baseline_unwritten hq]
    simp
  refine ⟨rfl, rfl, by decide, rfl, by decide, rfl, rfl, rfl, rfl, rfl, by decide, by decide, ?_,
    fun q => reset_baseline_unwritten, ?_, ?_, rfl, rfl, rfl, rfl, fun a => rfl, fun q w => rfl, ?_, ?_, ?_⟩
  · intro k
    cases k <;> exact ⟨rfl, rfl, rfl, rfl, rfl, rfl, rfl⟩
  · intro d hd
    have hreset : d = Dma.reset := (List.mem_pair.mp hd).elim id id
    subst hreset
    decide
  · intro i
    cases i <;> exact ⟨rfl, rfl⟩
  · exact fun k => hbuild k (.inl (hbits k))
  · exact fun mask k hm => hprogr mask k hm (.inl (hbits k))
  · exact fun q hq => ⟨hqest q hq (hbase q hq), fun quality h1 h2 => hqgen q quality hq h1 h2 (hbase q hq)⟩

theorem reset_table_unwritten (k : Slot) : State.reset.hct.get k = HuffTable.reset k.size := by cases k <;> rfl

theorem reset_slotShape (k : Slot) : slotShape State.reset k = true := by
  simp [slotShape, reset_spec_unwritten, reset_table_unwritten, HuffTable.reset]

/-- Settles O7: each part of the invariant on the state after reset. -/
theorem resetInv : Obligations.ResetInv where
  params := by decide
  memory := State.reset_memory_wf
  modes := by constructor <;> decide
  enables := by constructor <;> decide
  fifos := by constructor <;> decide
  tables :=
    { dc0 := reset_slotShape .dc0, ac0 := reset_slotShape .ac0, dc1 := reset_slotShape .dc1
      ac1 := reset_slotShape .ac1, baselines := rfl
      baseline := by decide, cfg_huff := rfl, quality := by decide }
  buffers := by constructor <;> decide
  engines := by constructor <;> decide
  streams := ⟨by decide, by decide, nofun⟩

end Sys2Proof.Machine
end

section
/-! The condition of each event, said once as an equivalence, and from them which event runs (O41, 43_transfer_fsm R214). -/

namespace Sys2Proof.Machine

open Sys2Proof

-- One proof after the other: side by side they take more threads than the check's memory limit has room for.
set_option Elab.async false

variable {s : State}

/-! ## Methods -/

theorem fifoMethod_iff {c : Ctx} : c.fifoMethod = true ↔ c.method = some .poll ∨ c.method = some .interrupt := by
  unfold Ctx.fifoMethod
  split <;> simp [*]

theorem dmaMethod_iff {c : Ctx} : c.dmaMethod = true ↔ c.method = some .dma := by
  unfold Ctx.dmaMethod
  split <;> simp [*]

/-! ## Which event runs (43_transfer_fsm R214) -/

theorem eligible_err : eligible .err s = true ↔ s.ctx.method ≠ none ∧ s.cr.ieErr = true ∧
    (s.sr.errf = true ∨ s.din.err = true ∨ s.dout.err = true) := by
  simp [eligible, Option.isSome_iff_ne_none, or_assoc]

theorem eligible_hpd : eligible .hpd s = true ↔ s.ctx.method ≠ none ∧ s.cr.ieHpd = true ∧ s.sr.hpdf = true := by
  simp [eligible, Option.isSome_iff_ne_none]

theorem eligible_dmaInCplt : eligible .dmaInCplt s = true ↔ s.ctx.method = some .dma ∧ s.din.cplt = true := by
  simp only [eligible, Bool.and_eq_true, dmaMethod_iff, Option.isSome_iff_ne_none]
  exact ⟨fun h => h.2, fun h => ⟨by simp [h.1], h⟩⟩

theorem eligible_dmaOutCplt : eligible .dmaOutCplt s = true ↔ s.ctx.method = some .dma ∧ s.dout.cplt = true := by
  simp only [eligible, Bool.and_eq_true, dmaMethod_iff, Option.isSome_iff_ne_none]
  exact ⟨fun h => h.2, fun h => ⟨by simp [h.1], h⟩⟩

theorem method_ne_none_of_fifo {c : Ctx} (h : c.method = some .poll ∨ c.method = some .interrupt) : c.method ≠ none := by
  rcases h with h | h <;> simp [h]

theorem eligible_inp : eligible .inp s = true ↔ (s.ctx.method = some .poll ∨ s.ctx.method = some .interrupt) ∧
    s.cr.run = true ∧ s.ctx.pauseIn = false ∧
    ((s.cr.ieIft = true ∧ 8 ≤ s.cfg.fifoDepth - s.ififo.length) ∨
      (s.cr.ieIfnf = true ∧ s.ififo.length < s.cfg.fifoDepth)) := by
  simp only [eligible, iftf, ifnff, Bool.and_eq_true, Bool.or_eq_true, Bool.not_eq_true', decide_eq_true_eq,
    fifoMethod_iff, Option.isSome_iff_ne_none, and_assoc]
  exact ⟨fun h => h.2, fun h => ⟨method_ne_none_of_fifo h.1, h⟩⟩

theorem eligible_out : eligible .out s = true ↔ (s.ctx.method = some .poll ∨ s.ctx.method = some .interrupt) ∧
    s.cr.run = true ∧ s.ctx.pauseOut = false ∧
    ((s.cr.ieOft = true ∧ 8 ≤ s.ofifo.length) ∨ (s.cr.ieOfne = true ∧ 1 ≤ s.ofifo.length)) := by
  simp only [eligible, oftf, ofnef, Bool.and_eq_true, Bool.or_eq_true, Bool.not_eq_true', decide_eq_true_eq,
    fifoMethod_iff, Option.isSome_iff_ne_none, and_assoc]
  exact ⟨fun h => h.2, fun h => ⟨method_ne_none_of_fifo h.1, h⟩⟩

theorem eligible_eoc : eligible .eoc s = true ↔ s.ctx.method ≠ none ∧ s.cr.ieEoc = true ∧ s.sr.eocf = true ∧
    s.ctx.ending = false ∧ s.ctx.pauseOut = false := by
  simp [eligible, Option.isSome_iff_ne_none, and_assoc]

theorem eligible_dmaAbort : eligible .dmaAbort s = true ↔ s.ctx.method ≠ none ∧ s.ctx.ending = true ∧
    (s.din.aborted = true ∨ s.dout.aborted = true) := by
  simp [eligible, Option.isSome_iff_ne_none]

theorem not_eligible_of_no_method (h : s.ctx.method = none) (e : Event) : eligible e s = false := by
  simp [eligible, h]

theorem mem_eventOrder (e : Event) : e ∈ eventOrder := by cases e <;> decide

theorem irqEvent_eq_some {e : Event} : irqEvent s = some e ↔ s.ctx.method ≠ some .poll ∧
    ∃ before after, eventOrder = before ++ e :: after ∧ eligible e s = true ∧ ∀ e' ∈ before, eligible e' s = false := by
  unfold irqEvent
  by_cases hp : s.ctx.method = some .poll
  · simp [hp]
  · rw [if_neg hp, List.find?_eq_some_iff_append]
    simp [hp]
    tauto

theorem irqEvent_eq_none : irqEvent s = none ↔ s.ctx.method = some .poll ∨ ∀ e, eligible e s = false := by
  unfold irqEvent
  by_cases hp : s.ctx.method = some .poll
  · simp [hp]
  · rw [if_neg hp, List.find?_eq_none]
    simp [hp, mem_eventOrder]

theorem recordTaken_iff {e : Event} : recordTaken e s = true ↔ s.ctx.method ≠ some .poll ∧ eligible e s = true ∧
    (e = .eoc ∨ e = .dmaAbort → ¬ (s.ctx.method = some .dma ∧ s.dout.cplt = true)) := by
  rw [← eligible_dmaOutCplt]
  simp [recordTaken, and_assoc]
  tauto

/-- `EV_DMA_OUT_CPLT` stands before `EV_EOC` and `EV_DMA_ABORT` in the table, so what the interrupt context takes is taken as a
record too. -/
theorem recordTaken_of_irqEvent {e : Event} (h : irqEvent s = some e) : recordTaken e s = true := by
  obtain ⟨hp, before, after, horder, he, hbefore⟩ := irqEvent_eq_some.mp h
  refine recordTaken_iff.mpr ⟨hp, he, fun hlate hcplt => ?_⟩
  have hmem : Event.dmaOutCplt ∈ before ++ e :: after := horder ▸ mem_eventOrder .dmaOutCplt
  have hearlier : Event.dmaOutCplt ∈ before := by
    have hpos : eventOrder.idxOf e < eventOrder.length := List.idxOf_lt_length_of_mem (mem_eventOrder e)
    by_contra hnot
    have hidx : eventOrder.idxOf e ≤ eventOrder.idxOf Event.dmaOutCplt := by
      have hnd : e ∉ before := by
        have : eventOrder.Nodup := by decide
        rw [horder, List.nodup_append] at this
        exact fun hm => this.2.2 e hm e (by simp) rfl
      rw [horder, List.idxOf_append_of_notMem hnd, List.idxOf_append_of_notMem hnot]
      simp
    revert hidx
    rcases hlate with rfl | rfl <;> decide
  have := hbefore _ hearlier
  rw [eligible_dmaOutCplt.mpr hcplt] at this
  cases this

theorem takeEvent_refused {e : Event} {handler : State → Except Fault State} (h : recordTaken e s = false) :
    takeEvent e handler s = .next { s with lastEvent := .refused } :=
  takeEvent_next.mpr (.inl ⟨h, rfl⟩)

/-- The meaning of each event's instruction is its handler, run where the record is taken. -/
theorem exec_event (e : Event) (s : State) : ∃ handler, exec e.instr s = takeEvent e handler s := by
  cases e <;> exact ⟨_, rfl⟩

/-- Settles O41: the condition of each event, then the first eligible one in the order of the table. -/
theorem eventRules : Obligations.EventRules := by
  intro s
  refine ⟨eligible_err, eligible_hpd, eligible_dmaInCplt, eligible_dmaOutCplt, eligible_inp, eligible_out, eligible_eoc,
    eligible_dmaAbort, not_eligible_of_no_method, ?_, ?_, fun e => irqEvent_eq_some, irqEvent_eq_none,
    fun e => recordTaken_of_irqEvent, fun e => recordTaken_iff, ?_⟩
  · intro hp
    refine Bool.eq_false_iff.mpr fun he => ?_
    obtain ⟨-, -, hnot, -⟩ := eligible_inp.mp he
    simp [hp] at hnot
  · intro hp
    refine ⟨Bool.eq_false_iff.mpr fun he => ?_, Bool.eq_false_iff.mpr fun he => ?_⟩
    · obtain ⟨-, -, hnot, -⟩ := eligible_out.mp he
      simp [hp] at hnot
    · obtain ⟨-, -, -, -, hnot⟩ := eligible_eoc.mp he
      simp [hp] at hnot
  · intro e he
    obtain ⟨handler, hexec⟩ := exec_event e s
    rw [hexec]
    exact takeEvent_refused he

end Sys2Proof.Machine
end

section
/-! The invariant's parts, each with the fields it depends on: an update of other fields leaves it as it was. The phases of a job
read off the invariant (10_state R25, R45), and the invariant without what O9 keeps. -/

namespace Sys2Proof.Machine

open Sys2Proof

-- One proof after the other: side by side they take more threads than the check's memory limit has room for.
set_option Elab.async false

variable {s t : State}

/-! ## What each part depends on -/

theorem Modes.congr (h : Modes s) (hfsm : t.fsm = s.fsm := by rfl) (hctx : t.ctx = s.ctx := by rfl)
    (hrun : t.cr.run = s.cr.run := by rfl) : Modes t := by
  obtain ⟨h1, h2, h3, h4, h5, h6, h7, h8⟩ := h
  constructor <;> simp only [hfsm, hctx, hrun] <;> assumption

theorem Enables.congr (h : Enables s) (hfsm : t.fsm = s.fsm := by rfl) (hctx : t.ctx = s.ctx := by rfl)
    (hcr : t.cr = s.cr := by rfl) (heocf : t.sr.eocf = s.sr.eocf := by rfl) (hhpdf : t.sr.hpdf = s.sr.hpdf := by rfl) :
    Enables t := by
  obtain ⟨h1, h2, h3, h4, h5, h6⟩ := h
  constructor <;> simp only [hfsm, hctx, hcr, heocf, hhpdf] <;> assumption

theorem Fifos.congr (h : Fifos s) (hcfg : t.cfg = s.cfg := by rfl) (hin : t.ififo = s.ififo := by rfl)
    (hout : t.ofifo = s.ofifo := by rfl) : Fifos t := by
  obtain ⟨h1, h2⟩ := h
  constructor <;> simp only [hcfg, hin, hout] <;> assumption

theorem slotShape_congr {k : Slot} (hspec : t.hspec.get k = s.hspec.get k) (hhct : t.hct.get k = s.hct.get k) :
    slotShape t k = slotShape s k := by
  simp only [slotShape, hspec, hhct]

theorem Tables.congr (h : Tables s) (hspec : t.hspec = s.hspec := by rfl) (hhct : t.hct = s.hct := by rfl)
    (hbase : t.baseline = s.baseline := by rfl) (hcfg : t.cfg = s.cfg := by rfl)
    (hhuff : t.ctx.cfgHuff = s.ctx.cfgHuff := by rfl) (hraw : t.prgRaw = s.prgRaw := by rfl)
    (henc : t.prgEnc = s.prgEnc := by rfl) (hquality : t.info.quality = s.info.quality := by rfl) : Tables t := by
  obtain ⟨h1, h2, h3, h4, h5, h6, h7, h8⟩ := h
  have hshape : ∀ k, slotShape t k = slotShape s k := fun k => slotShape_congr (by rw [hspec]) (by rw [hhct])
  constructor <;> simp only [hshape, hbase, hcfg, hhuff, hraw, henc, hquality] <;> assumption

theorem Buffers.congr (h : Buffers s) (hdesc : t.desc = s.desc := by rfl) (hfsm : t.fsm = s.fsm := by rfl)
    (hcfg : t.cfg = s.cfg := by rfl) (hdma : t.ctx.dmaMethod = s.ctx.dmaMethod := by rfl) : Buffers t := by
  obtain ⟨h1, h2, h3, h4, h5, h6, h7, h8⟩ := h
  constructor <;> simp only [hdesc, hfsm, hcfg, hdma] <;> assumption

theorem Engines.congr (h : Engines s) (hdin : t.din = s.din := by rfl) (hdout : t.dout = s.dout := by rfl)
    (hinAddr : t.desc.inAddr = s.desc.inAddr := by rfl) (hinLen : t.desc.inLen = s.desc.inLen := by rfl)
    (hinOff : t.desc.inOff = s.desc.inOff := by rfl) (houtAddr : t.desc.outAddr = s.desc.outAddr := by rfl)
    (houtLen : t.desc.outLen = s.desc.outLen := by rfl) (hcfg : t.cfg = s.cfg := by rfl)
    (hdma : t.ctx.dmaMethod = s.ctx.dmaMethod := by rfl) (hen : t.cr.dmaInEn = s.cr.dmaInEn := by rfl) : Engines t := by
  obtain ⟨h1, h2, h3, h4, h5, h6, h7, h8, h9, h10⟩ := h
  constructor <;> simp only [hdin, hdout, hinAddr, hinLen, hinOff, houtAddr, houtLen, hcfg, hdma, hen] <;> assumption

theorem Streams.congr (h : Streams s) (h0 : t.sb.buf0.len = s.sb.buf0.len := by rfl)
    (h1 : t.sb.buf1.len = s.sb.buf1.len := by rfl) (hfill : t.sb.filling = s.sb.filling := by rfl)
    (hcfg : t.cfg = s.cfg := by rfl) : Streams t := by
  obtain ⟨hb0, hb1, hf⟩ := h
  have hlen : ∀ i, (t.sb.buf i).len = (s.sb.buf i).len := fun i => by cases i; exacts [h0, h1]
  constructor <;> simp only [h0, h1, hfill, hcfg, hlen] <;> assumption

/-! ## The invariant without the parameters and the memories -/

/-- The parts of the invariant that O9 does not keep. -/
structure Consistent (s : State) : Prop where
  modes : Modes s
  enables : Enables s
  fifos : Fifos s
  tables : Tables s
  buffers : Buffers s
  engines : Engines s
  streams : Streams s

theorem Inv.consistent (h : Inv s) : Consistent s :=
  ⟨h.modes, h.enables, h.fifos, h.tables, h.buffers, h.engines, h.streams⟩

/-- What `Consistent` is about: an update of other fields leaves it the same by definition. -/
def State.visible (s : State) :=
  (s.cfg, s.hspec, s.hct, s.baseline, s.fsm, s.ctx, s.cr, s.sr, s.desc, s.info, s.prgRaw, s.prgEnc, s.ififo, s.ofifo,
    s.din, s.dout, s.sb)

theorem Consistent.of_visible (h : Consistent s) (e : t.visible = s.visible) : Consistent t := by
  simp only [State.visible, Prod.mk.injEq] at e
  obtain ⟨hcfg, hspec, hhct, hbase, hfsm, hctx, hcr, hsr, hdesc, hinfo, hraw, henc, hin, hout, hdin, hdout, hsb⟩ := e
  exact
    { modes := h.modes.congr hfsm hctx (by rw [hcr])
      enables := h.enables.congr hfsm hctx hcr (by rw [hsr]) (by rw [hsr])
      fifos := h.fifos.congr hcfg hin hout
      tables := h.tables.congr hspec hhct hbase hcfg (by rw [hctx]) hraw henc (by rw [hinfo])
      buffers := h.buffers.congr hdesc hfsm hcfg (by rw [hctx])
      engines := h.engines.congr hdin hdout (by rw [hdesc]) (by rw [hdesc]) (by rw [hdesc]) (by rw [hdesc])
        (by rw [hdesc]) hcfg (by rw [hctx]) (by rw [hcr])
      streams := h.streams.congr (by rw [hsb]) (by rw [hsb]) (by rw [hsb]) hcfg }

/-! ## The phases of a job (10_state R25) -/

theorem Modes.of_idle (hfsm : s.fsm = .idle) (hop : s.ctx.op = none) (hm : s.ctx.method = none)
    (hin : s.ctx.pauseIn = false) (hout : s.ctx.pauseOut = false) (hend : s.ctx.ending = false)
    (hrun : s.cr.run = false) : Modes s := by
  constructor <;> simp [hfsm, hop, hm, hin, hout, hend, hrun]

theorem Modes.of_draining (hfsm : s.fsm = .draining) (hop : s.ctx.op ≠ none) (hm : s.ctx.method ≠ none)
    (hend : s.ctx.ending = true) (hrun : s.cr.run = false) : Modes s := by
  constructor <;> simp [hfsm, hop, hm, hend, hrun]

theorem Modes.of_running {m : Method} (hfsm : s.fsm = runningFsm m) (hop : s.ctx.op ≠ none) (hm : s.ctx.method = some m)
    (hend : s.ctx.ending = false) (hrun : s.cr.run = true) : Modes s := by
  constructor <;> cases m <;> simp [hfsm, runningFsm, hop, hm, hend, hrun]

/-- In a job the pauses decide nothing of the mode. -/
theorem Modes.of_job (h : Modes s) (hj : s.fsm ≠ .idle) (hfsm : t.fsm = s.fsm := by rfl)
    (hop : t.ctx.op = s.ctx.op := by rfl) (hm : t.ctx.method = s.ctx.method := by rfl)
    (hend : t.ctx.ending = s.ctx.ending := by rfl) (hrun : t.cr.run = s.cr.run := by rfl) : Modes t := by
  obtain ⟨-, h2, h3, h4, h5, h6, h7, h8⟩ := h
  refine ⟨by simp [hfsm, hop, hj, (h7 hj).1], ?_, ?_, ?_, ?_, ?_, ?_, ?_⟩ <;>
    simp only [hfsm, hop, hm, hend, hrun] <;> assumption

/-- A job that is not ending runs, in the mode of its method. -/
theorem Modes.running (h : Modes s) (hj : s.fsm ≠ .idle) (hend : s.ctx.ending = false) :
    s.cr.run = true ∧ ∃ m, s.fsm = runningFsm m ∧ s.ctx.method = some m := by
  cases hf : s.fsm with
  | idle => exact absurd hf hj
  | configuring => exact absurd hf h.not_configuring
  | polling =>
    obtain ⟨hrun, -, hm⟩ := h.polling_iff.mp hf
    exact ⟨hrun, .poll, rfl, hm⟩
  | interrupting =>
    obtain ⟨hrun, -, hm⟩ := h.interrupting_iff.mp hf
    exact ⟨hrun, .interrupt, rfl, hm⟩
  | dmaActive =>
    obtain ⟨hrun, -, hm⟩ := h.dmaActive_iff.mp hf
    exact ⟨hrun, .dma, rfl, hm⟩
  | draining => simp [h.draining_iff.mp hf] at hend

theorem Modes.of_run (h : Modes s) (hrun : s.cr.run = true) : s.fsm ≠ .idle ∧ s.fsm ≠ .draining := by
  constructor
  · intro hi
    obtain ⟨-, -, -, -, -, hstop⟩ := h.idle_iff.mp hi
    simp [hrun] at hstop
  · intro hd
    simp [h.draining_stopped (h.draining_iff.mp hd)] at hrun

theorem Modes.no_method (h : Modes s) (hi : s.fsm = .idle) : s.ctx.method = none := (h.idle_iff.mp hi).2.1

theorem Modes.not_dma_of_idle (h : Modes s) (hi : s.fsm = .idle) : s.ctx.dmaMethod = false := by
  simp [Ctx.dmaMethod, h.no_method hi]

/-- A method is in force in a job only. -/
theorem Modes.in_job_of_method (h : Modes s) (hm : s.ctx.method ≠ none) : s.fsm ≠ .idle :=
  fun hi => hm (h.no_method hi)

theorem Modes.in_job_of_dma (h : Modes s) (hd : s.ctx.dmaMethod = true) : s.fsm ≠ .idle :=
  h.in_job_of_method (by simp [dmaMethod_iff.mp hd])

theorem Modes.fifo_or_dma (h : Modes s) (hj : s.fsm ≠ .idle) : s.ctx.fifoMethod = true ∨ s.ctx.dmaMethod = true := by
  have hm := (h.in_job hj).2
  rw [fifoMethod_iff, dmaMethod_iff]
  cases hc : s.ctx.method with
  | none => exact absurd hc hm
  | some m => cases m <;> simp

/-- An enable is set while the job runs only (10_state R45). -/
theorem Enables.run_of_ne_reset (he : Enables s) (hm : Modes s) (h : s.cr ≠ .reset) : s.cr.run = true := by
  have hnot : ¬ (s.fsm = .idle ∨ s.fsm = .draining) := fun hf => h (he.stopped hf)
  obtain ⟨hi, hd⟩ := not_or.mp hnot
  exact (hm.running hi (Bool.eq_false_iff.mpr fun hend => hd (hm.draining_iff.mpr hend))).1

/-- The DMA enables are set in method DMA only. -/
theorem dma_of_enable (hm : Modes s) (he : Enables s) (hen : s.cr.dmaInEn = true ∨ s.cr.dmaOutEn = true) :
    s.ctx.dmaMethod = true := by
  have hrun := he.run_of_ne_reset hm fun hr => by simp [hr, Cr.reset] at hen
  refine (hm.fifo_or_dma (hm.of_run hrun).1).resolve_left fun hfifo => ?_
  obtain ⟨-, -, -, -, -, hin, hout⟩ := he.fifo hrun hfifo
  simp [hin, hout] at hen

end Sys2Proof.Machine
end

section
/-! What a step of an engine does, said once for each of its cases (43_transfer_fsm R232, R233; O57, O58). -/

namespace Sys2Proof.Machine

open Sys2Proof

-- One proof after the other: side by side they take more threads than the check's memory limit has room for.
set_option Elab.async false

variable {s : State}

/-! ## `DIN` (43_transfer_fsm R232) -/

/-- The input engine's trigger: room for a burst. -/
def DinTriggered (s : State) : Prop := match s.cfg.granIn with
  | .thirtyTwo => 8 ≤ s.cfg.fifoDepth - s.ififo.length
  | .four => s.ififo.length < s.cfg.fifoDepth

theorem dinTrigger_iff : dinTrigger s = true ↔ DinTriggered s := by
  unfold dinTrigger DinTriggered
  cases s.cfg.granIn <;> simp [iftf, ifnff]

theorem dinMoves_iff : dinMoves s = true ↔ s.din.busy = true ∧ s.din.abortReq = false ∧ s.cr.dmaInEn = true ∧
    DinTriggered s := by
  simp [dinMoves, dinTrigger_iff, and_assoc]

theorem dinMoves_eq_false : dinMoves s = false ↔ s.din.busy = false ∨ s.din.abortReq = true ∨ s.cr.dmaInEn = false ∨
    ¬ DinTriggered s := by
  rw [← Bool.not_eq_true, dinMoves_iff]
  simp only [not_and_or, Bool.not_eq_true, Bool.not_eq_false]

theorem dinStep_of_abort (hb : s.din.busy = true) (ha : s.din.abortReq = true) :
    dinStep s = .ok { s with din := s.din.abortDone } := by
  simp [dinStep, hb, ha]

theorem dinStep_of_moves (h : dinMoves s = true) :
    dinStep s = (dinWords (dinBurst s) s >>= fun t => pure { t with din := t.din.burstEnd }) := by
  obtain ⟨-, ha, -⟩ := dinMoves_iff.mp h
  simp [dinStep, ha, h]

theorem dinStep_of_still (ha : s.din.busy = false ∨ s.din.abortReq = false) (h : dinMoves s = false) :
    dinStep s = .ok s := by
  rcases ha with ha | ha <;> simp [dinStep, ha, h]

theorem gran_cases (g : Gran) : Gran.bytes g = 4 ∨ Gran.bytes g = 32 := by cases g <;> simp [Gran.bytes]

/-- The bytes of the block of `DIN` not yet moved. -/
def dinLeft (s : State) : Nat := s.din.len.toNat - s.din.done.toNat

/-- The bytes that a burst of `DIN` moves. -/
def dinBurstBytes (s : State) : Nat := min (Gran.bytes s.cfg.granIn) (dinLeft s)

/-- The words of a burst, the bytes they take, and whether the last is padded. -/
theorem dinBurst_eq (hd : s.din.done.toNat < s.din.len.toNat) :
    dinBurst s = (dinBurstBytes s + 3) / 4 ∧ 1 ≤ dinBurst s ∧ 4 * dinBurst s < dinLeft s + 4 ∧
      min (4 * dinBurst s) (dinLeft s) = dinBurstBytes s ∧
      (dinLeft s < 4 * dinBurst s ↔ dinLeft s ≤ Gran.bytes s.cfg.granIn ∧ dinLeft s % 4 ≠ 0) := by
  simp only [dinBurst, dinBurstBytes, dinLeft]
  rcases gran_cases s.cfg.granIn with hg | hg <;> rw [hg] <;> omega

/-- The state after a burst of `DIN`. -/
def dinBurstState (s : State) : State := { s with
  ififo := s.ififo ++ (List.range ((dinBurstBytes s + 3) / 4)).map (blockWord s)
  tailFed := decide (dinLeft s ≤ Gran.bytes s.cfg.granIn ∧ dinLeft s % 4 ≠ 0)
  din := Dma.burstEnd { s.din with done := BitVec.ofNat 32 (s.din.done.toNat + dinBurstBytes s) } }

theorem dinStep_burst (h : dinMoves s = true) (hd : s.din.done.toNat < s.din.len.toNat)
    (hspace : inHostSpace s.din.addr s.din.len = true) (ht : s.tailFed = false) : dinStep s = .ok (dinBurstState s) := by
  obtain ⟨hwords, -, hn, hbytes, hpad⟩ := dinBurst_eq hd
  have hdone : s.din.done + BitVec.ofNat 32 (dinBurstBytes s) = BitVec.ofNat 32 (s.din.done.toNat + dinBurstBytes s) := by
    rw [BitVec.ofNat_add, BitVec.ofNat_toNat, BitVec.setWidth_eq]
  unfold dinLeft at hn hbytes hpad
  rw [dinStep_of_moves h, dinWords_ok (of_decide_eq_true hspace) hn hd.le ht, hbytes, hdone, decide_eq_decide.mpr hpad, hwords]
  rfl

theorem dinStep_ragged (h : dinMoves s = true) (hd : s.din.done.toNat < s.din.len.toNat)
    (hspace : inHostSpace s.din.addr s.din.len = true) (ht : s.tailFed = true) :
    dinStep s = .error .raggedMidStream := by
  obtain ⟨-, hpos, -⟩ := dinBurst_eq hd
  rw [dinStep_of_moves h, ← Nat.sub_add_cancel hpos, dinWords_ragged (of_decide_eq_true hspace) hd.le ht]
  rfl

theorem dinErrorStep_of_moves (h : dinMoves s = true) :
    dinErrorStep s = { s with din := s.din.fail, sr := { s.sr with errf := true } } := if_pos h

theorem dinErrorStep_of_still (h : dinMoves s = false) : dinErrorStep s = s := if_neg (by simp [h])

theorem step_din {rest : List Stimulus} (h : s.inputs = .din :: rest) :
    step s = agentOutcome (dinStep { s with inputs := rest }) := by
  simp only [step, fetch, h]

theorem step_dinError {rest : List Stimulus} (h : s.inputs = .dinError :: rest) :
    step s = .next (dinErrorStep { s with inputs := rest }) := by
  simp only [step, fetch, h]

/-- Settles O57: the abort, the burst, the fault after a padded tail, and nothing; then the transfer error. -/
theorem dinStepResult : Obligations.DinStep := by
  intro s rest
  let u : State := { s with inputs := rest }
  refine ⟨fun hin => ?_, fun hin => ?_⟩
  · rw [step_din hin]
    refine ⟨fun hb ha => ?_, fun hi hb ha hen htr htail => ?_, fun hi hb ha hen htr htail => ?_, fun hnot => ?_⟩
    · rw [dinStep_of_abort (s := u) hb ha]
      rfl
    · rw [dinStep_burst (s := u) (dinMoves_iff.mpr ⟨hb, ha, hen, htr⟩) (hi.engines.din_left hb) (hi.engines.din_space hb)
        htail]
      rfl
    · rw [dinStep_ragged (s := u) (dinMoves_iff.mpr ⟨hb, ha, hen, htr⟩) (hi.engines.din_left hb) (hi.engines.din_space hb)
        htail]
      rfl
    · have hmoves : dinMoves u = false :=
        dinMoves_eq_false.mpr (hnot.imp id fun h => .inr (h.2.imp id id))
      rw [dinStep_of_still (s := u) (hnot.imp id And.left) hmoves]
      rfl
  · rw [step_dinError hin]
    refine ⟨fun hb ha hen htr => ?_, fun hnot => ?_⟩
    · rw [dinErrorStep_of_moves (s := u) (dinMoves_iff.mpr ⟨hb, ha, hen, htr⟩)]
      rfl
    · rw [dinErrorStep_of_still (s := u) (dinMoves_eq_false.mpr hnot)]

/-! ## `DOUT` (43_transfer_fsm R233) -/

/-- The output engine's trigger: the words of a burst. -/
def DoutTriggered (s : State) : Prop := match s.cfg.granOut with
  | .thirtyTwo => 8 ≤ s.ofifo.length
  | .four => 1 ≤ s.ofifo.length

theorem doutTrigger_iff : doutTrigger s = true ↔ DoutTriggered s := by
  unfold doutTrigger DoutTriggered
  cases s.cfg.granOut <;> simp [oftf, ofnef]

theorem doutMoves_iff : doutMoves s = true ↔ s.dout.busy = true ∧ s.dout.abortReq = false ∧ s.cr.dmaOutEn = true ∧
    DoutTriggered s := by
  simp [doutMoves, doutTrigger_iff, and_assoc]

theorem doutMoves_eq_false : doutMoves s = false ↔ s.dout.busy = false ∨ s.dout.abortReq = true ∨
    s.cr.dmaOutEn = false ∨ ¬ DoutTriggered s := by
  rw [← Bool.not_eq_true, doutMoves_iff]
  simp only [not_and_or, Bool.not_eq_true, Bool.not_eq_false]

theorem doutStep_of_abort (hb : s.dout.busy = true) (ha : s.dout.abortReq = true) :
    doutStep s = .ok { s with dout := s.dout.abortDone } := by
  simp [doutStep, hb, ha]

theorem doutStep_of_moves (h : doutMoves s = true) : doutStep s =
    (doutWords (Gran.bytes s.cfg.granOut / 4) s >>= fun t => pure { t with dout := t.dout.burstEnd }) := by
  obtain ⟨-, ha, -⟩ := doutMoves_iff.mp h
  simp [doutStep, ha, h]

theorem doutStep_of_still (ha : s.dout.busy = false ∨ s.dout.abortReq = false) (h : doutMoves s = false) :
    doutStep s = .ok s := by
  rcases ha with ha | ha <;> simp [doutStep, ha, h]

/-- The trigger sees the words of a burst in `OFIFO`. -/
theorem burst_le_ofifo (h : DoutTriggered s) : Gran.bytes s.cfg.granOut / 4 ≤ s.ofifo.length := by
  unfold DoutTriggered at h
  cases hg : s.cfg.granOut <;> simp only [hg] at h <;> simpa [Gran.bytes] using h

/-- The state after a burst of `DOUT`. -/
def doutBurstState (s : State) : State := { s with
  hmem := writeBytes s.hmem (s.dout.addr.toNat + s.dout.done.toNat)
    ((s.ofifo.take (Gran.bytes s.cfg.granOut / 4)).flatMap bytesOfWord)
  ofifo := s.ofifo.drop (Gran.bytes s.cfg.granOut / 4)
  dout := Dma.burstEnd { s.dout with done := s.dout.done + BitVec.ofNat 32 (Gran.bytes s.cfg.granOut) } }

/-- A block of `DOUT` in flight: a whole number of bursts is left of it, inside host memory. -/
structure DoutBlock (s : State) : Prop where
  room : s.dout.done.toNat + Gran.bytes s.cfg.granOut ≤ s.dout.len.toNat
  space : s.dout.addr.toNat + s.dout.len.toNat ≤ Config.hostSpace

theorem doutStep_burst (h : doutMoves s = true) (hblock : DoutBlock s) : doutStep s = .ok (doutBurstState s) := by
  obtain ⟨-, -, -, htr⟩ := doutMoves_iff.mp h
  have hg : 4 * (Gran.bytes s.cfg.granOut / 4) = Gran.bytes s.cfg.granOut := by
    rcases gran_cases s.cfg.granOut with h | h <;> rw [h]
  obtain ⟨hroom, hspace⟩ := hblock
  have hdone : s.dout.done.toNat + Gran.bytes s.cfg.granOut < Config.hostSpace := hroom.trans_lt s.dout.len.isLt
  rw [doutStep_of_moves h, doutWords_ok (by omega) (by rw [hg]; exact hdone) (burst_le_ofifo htr), hg]
  rfl

theorem doutErrorStep_of_moves (h : doutMoves s = true) :
    doutErrorStep s = { s with dout := s.dout.fail, sr := { s.sr with errf := true } } := if_pos h

theorem doutErrorStep_of_still (h : doutMoves s = false) : doutErrorStep s = s := if_neg (by simp [h])

/-- In method DMA a block in flight is part of the output buffer, in whole bursts (43_transfer_fsm R213). -/
theorem doutBlock_of_busy (h : Consistent s) (hdma : s.ctx.dmaMethod = true) (hb : s.dout.busy = true) : DoutBlock s := by
  obtain ⟨haddr, hlen, -⟩ := h.engines.dout_block hdma
  obtain ⟨-, hmod⟩ := h.engines.dout_done hdma
  have hlt := h.engines.dout_left hdma (h.engines.dout_one hdma hb)
  have hspace : s.desc.outAddr.toNat + s.desc.outLen.toNat ≤ Config.hostSpace := by
    simpa [inHostSpace] using h.buffers.out_space (h.modes.in_job_of_dma hdma)
  unfold roundDown at hlen
  constructor
  · rcases gran_cases s.cfg.granOut with hg | hg <;> rw [hg] at hlen hmod ⊢ <;> omega
  · rw [haddr]
    omega

theorem step_dout {rest : List Stimulus} (h : s.inputs = .dout :: rest) :
    step s = agentOutcome (doutStep { s with inputs := rest }) := by
  simp only [step, fetch, h]

theorem step_doutError {rest : List Stimulus} (h : s.inputs = .doutError :: rest) :
    step s = .next (doutErrorStep { s with inputs := rest }) := by
  simp only [step, fetch, h]

/-- Settles O58: the abort, the burst, and nothing; then the transfer error. -/
theorem doutStepResult : Obligations.DoutStep := by
  intro s rest
  let u : State := { s with inputs := rest }
  refine ⟨fun hin => ?_, fun hin => ?_⟩
  · rw [step_dout hin]
    refine ⟨fun hb ha => ?_, fun hi hb ha hen htr => ?_, fun hnot => ?_⟩
    · rw [doutStep_of_abort (s := u) hb ha]
      rfl
    · have hblock := doutBlock_of_busy hi.consistent (dma_of_enable hi.modes hi.enables (.inr hen)) hb
      rw [doutStep_burst (s := u) (doutMoves_iff.mpr ⟨hb, ha, hen, htr⟩) ⟨hblock.room, hblock.space⟩]
      rfl
    · have hmoves : doutMoves u = false :=
        doutMoves_eq_false.mpr (hnot.imp id fun h => .inr (h.2.imp id id))
      rw [doutStep_of_still (s := u) (hnot.imp id And.left) hmoves]
      rfl
  · rw [step_doutError hin]
    refine ⟨fun hb ha hen htr => ?_, fun hnot => ?_⟩
    · rw [doutErrorStep_of_moves (s := u) (doutMoves_iff.mpr ⟨hb, ha, hen, htr⟩)]
      rfl
    · rw [doutErrorStep_of_still (s := u) (doutMoves_eq_false.mpr hnot)]

end Sys2Proof.Machine
end

section
/-! The invariant under each elementary move of a job: pauses and resumptions, a new input buffer, the words of the two paths,
the priming and the bursts of the engines, the end of a job (10_state R45, 43_transfer_fsm R211 to R238). -/

namespace Sys2Proof.Machine

open Sys2Proof

-- One proof after the other: side by side they take more threads than the check's memory limit has room for.
set_option Elab.async false

variable {s t : State}

/-! ## Pauses (43_transfer_fsm R231) -/

/-- The FIFO sources of a running job, off in a direction that is paused (10_state R45). -/
def Cr.masked (c : Cr) (pauseIn pauseOut : Bool) : Cr :=
  { c with ieIft := !pauseIn, ieIfnf := !pauseIn, ieOft := !pauseOut, ieOfne := !pauseOut, ieEoc := !pauseOut }

/-- The two pauses set, and the sources of a running job of a FIFO method with them. -/
def State.setPauses (s : State) (pauseIn pauseOut : Bool) : State :=
  { s with
    ctx := { s.ctx with pauseIn := pauseIn, pauseOut := pauseOut }
    cr := if s.ctx.fifoMethod && s.cr.run then s.cr.masked pauseIn pauseOut else s.cr }

theorem State.setPauses_cr_of_stopped (hrun : s.cr.run = false) (i o : Bool) : (s.setPauses i o).cr = s.cr := by
  simp [State.setPauses, hrun]

theorem State.setPauses_cr_of_dma (hd : s.ctx.dmaMethod = true) (i o : Bool) : (s.setPauses i o).cr = s.cr := by
  simp [State.setPauses, not_fifo_of_dma hd]

theorem State.setPauses_cr_of_fifo (hrun : s.cr.run = true) (hf : s.ctx.fifoMethod = true) (i o : Bool) :
    (s.setPauses i o).cr = s.cr.masked i o := by
  simp [State.setPauses, hrun, hf]

theorem State.setPauses_others (s : State) (i o : Bool) : (s.setPauses i o).cr.run = s.cr.run ∧
    (s.setPauses i o).cr.ieErr = s.cr.ieErr ∧ (s.setPauses i o).cr.ieHpd = s.cr.ieHpd ∧
    (s.setPauses i o).cr.dmaInEn = s.cr.dmaInEn ∧ (s.setPauses i o).cr.dmaOutEn = s.cr.dmaOutEn := by
  unfold State.setPauses
  dsimp only
  split <;> exact ⟨rfl, rfl, rfl, rfl, rfl⟩

theorem Enables.setPauses (h : Enables s) (hj : s.fsm ≠ .idle) (i o : Bool) :
    Enables (s.setPauses i o) := by
  obtain ⟨hrun, herr, hhpd, hin, hout⟩ := s.setPauses_others i o
  constructor
  · intro hst
    have hr := h.stopped hst
    rw [State.setPauses_cr_of_stopped (by rw [hr]; rfl), hr]
  · rw [hrun, herr]
    exact h.err
  · intro hr hf
    rw [hrun] at hr
    obtain ⟨-, -, -, -, -, hdin, hdout⟩ := h.fifo hr hf
    rw [State.setPauses_cr_of_fifo hr hf]
    exact ⟨rfl, rfl, rfl, rfl, rfl, hdin, hdout⟩
  · intro hr hd
    rw [hrun] at hr
    change s.ctx.dmaMethod = true at hd
    rw [State.setPauses_cr_of_dma hd]
    exact h.dma hr hd
  · rw [hhpd]
    exact h.decode_only
  · exact fun hi => absurd hi hj

theorem Consistent.setPauses (h : Consistent s) (hj : s.fsm ≠ .idle) (i o : Bool) : Consistent (s.setPauses i o) := by
  obtain ⟨hrun, -, -, hin, -⟩ := s.setPauses_others i o
  exact
    { modes := h.modes.of_job hj (hrun := hrun)
      enables := h.enables.setPauses hj i o
      fifos := h.fifos.congr
      tables := h.tables.congr
      buffers := h.buffers.congr
      engines := h.engines.congr (hen := hin)
      streams := h.streams.congr }

theorem Consistent.cr_of_stopped (h : Consistent s) (hrun : s.cr.run = false) : s.cr = .reset := by
  by_contra hne
  simp [h.enables.run_of_ne_reset h.modes hne] at hrun

/-- In a running job of a FIFO method the sources are those of its pauses. -/
theorem Consistent.cr_masked (h : Consistent s) (hrun : s.cr.run = true) (hf : s.ctx.fifoMethod = true) :
    s.cr = s.cr.masked s.ctx.pauseIn s.ctx.pauseOut := by
  obtain ⟨h1, h2, h3, h4, h5, -, -⟩ := h.enables.fifo hrun hf
  rw [Cr.masked, ← h1, ← h3]
  cases hc : s.cr
  simp_all

theorem Consistent.pauseInput_eq (h : Consistent s) : s.pauseInput = s.setPauses true s.ctx.pauseOut := by
  unfold State.pauseInput State.setPauses
  congr 1
  by_cases hf : s.ctx.fifoMethod = true
  · by_cases hrun : s.cr.run = true
    · rw [h.cr_masked hrun hf]
      simp [hf, hrun, Cr.masked]
    · simp [hf, h.cr_of_stopped (by simpa using hrun), Cr.reset]
  · simp [hf]

theorem Consistent.pauseOutput_eq (h : Consistent s) : s.pauseOutput = s.setPauses s.ctx.pauseIn true := by
  unfold State.pauseOutput State.setPauses
  congr 1
  by_cases hf : s.ctx.fifoMethod = true
  · by_cases hrun : s.cr.run = true
    · rw [h.cr_masked hrun hf]
      simp [hf, hrun, Cr.masked]
    · simp [hf, h.cr_of_stopped (by simpa using hrun), Cr.reset]
  · simp [hf]

theorem Consistent.pauseInput (h : Consistent s) (hj : s.fsm ≠ .idle) : Consistent s.pauseInput := by
  rw [h.pauseInput_eq]
  exact h.setPauses hj _ _

theorem Consistent.pauseOutput (h : Consistent s) (hj : s.fsm ≠ .idle) : Consistent s.pauseOutput := by
  rw [h.pauseOutput_eq]
  exact h.setPauses hj _ _

/-- The input of a running job of a FIFO method resumed. -/
theorem Consistent.resumeFifoInput (h : Consistent s) (hj : s.fsm ≠ .idle) (hend : s.ctx.ending = false)
    (hf : s.ctx.fifoMethod = true) : Consistent { s with
      ctx := { s.ctx with pauseIn := false }
      cr := { s.cr with ieIft := true, ieIfnf := true } } := by
  have hrun := (h.modes.running hj hend).1
  have hcr : ({ s.cr with ieIft := true, ieIfnf := true } : Cr) = s.cr.masked false s.ctx.pauseOut := by
    rw [h.cr_masked hrun hf]
    rfl
  rw [hcr, ← State.setPauses_cr_of_fifo hrun hf]
  exact h.setPauses hj false s.ctx.pauseOut

/-- The output of a running job of a FIFO method resumed. -/
theorem Consistent.resumeFifoOutput (h : Consistent s) (hj : s.fsm ≠ .idle) (hend : s.ctx.ending = false)
    (hf : s.ctx.fifoMethod = true) : Consistent { s with
      ctx := { s.ctx with pauseOut := false }
      cr := { s.cr with ieOft := true, ieOfne := true, ieEoc := true } } := by
  have hrun := (h.modes.running hj hend).1
  have hcr : ({ s.cr with ieOft := true, ieOfne := true, ieEoc := true } : Cr) = s.cr.masked s.ctx.pauseIn false := by
    rw [h.cr_masked hrun hf]
    rfl
  rw [hcr, ← State.setPauses_cr_of_fifo hrun hf]
  exact h.setPauses hj s.ctx.pauseIn false

/-- In method DMA and while a job ends no source depends on the pauses. -/
theorem Consistent.setPauses_of_unmasked (h : Consistent s) (hj : s.fsm ≠ .idle)
    (hu : s.ctx.ending = true ∨ s.ctx.dmaMethod = true) (i o : Bool) :
    Consistent { s with ctx := { s.ctx with pauseIn := i, pauseOut := o } } := by
  have hcr : (s.setPauses i o).cr = s.cr := by
    rcases hu with hend | hd
    · exact State.setPauses_cr_of_stopped (h.modes.draining_stopped hend) i o
    · exact State.setPauses_cr_of_dma hd i o
  have := h.setPauses hj i o
  exact this.of_visible (by simp only [State.visible, hcr]; rfl)

/-! ## The input buffer (43_transfer_fsm R218, 20_memory R88) -/

/-- What a supplied or written input descriptor has passed. -/
theorem inputFault_eq_none : inputFault s = none ↔ inHostSpace s.desc.inAddr s.desc.inLen = true ∧
    (s.ctx.dmaMethod = true → wordAligned s.desc.inAddr = true) ∧ inOverlapsOut s.desc = false ∧
    inOverlapsSb s.cfg s.desc = false := by
  unfold inputFault
  by_cases h1 : inHostSpace s.desc.inAddr s.desc.inLen = true
  · by_cases h2 : s.ctx.dmaMethod = true → wordAligned s.desc.inAddr = true
    · have h2' : (s.ctx.dmaMethod && !wordAligned s.desc.inAddr) = false := by
        simpa using h2
      simp [h1, h2']
      exact fun _ _ => h2
    · have h2' : (s.ctx.dmaMethod && !wordAligned s.desc.inAddr) = true := by
        simpa using h2
      simp [h1, h2']
      exact fun h => absurd h h2
  · simp [h1]

/-- The input descriptor replaced from its start on. -/
def Desc.withInput (d : Desc) (addr len : Word) : Desc := { d with inAddr := addr, inLen := len, inOff := 0#32 }

/-- No block of `DIN` is in flight or unreported in method DMA. -/
def DinFree (s : State) : Prop := s.ctx.dmaMethod = true → s.din.busy = false ∧ s.din.cplt = false

/-- A buffer that passes the tests becomes the input buffer, where it is not taken away from under `DIN`. -/
theorem Consistent.newInput (h : Consistent s) (hfree : DinFree s) {addr len : Word}
    (hok : inputFault { s with desc := s.desc.withInput addr len } = none) :
    Consistent { s with desc := s.desc.withInput addr len } := by
  obtain ⟨hspace, halign, hout, -⟩ := inputFault_eq_none.mp hok
  refine
    { modes := h.modes.congr
      enables := h.enables.congr
      fifos := h.fifos.congr
      tables := h.tables.congr
      buffers := ?_
      engines := ?_
      streams := h.streams.congr }
  · exact ⟨Nat.zero_le _, fun _ => hspace, h.buffers.out_space, h.buffers.out_off, h.buffers.out_words, fun _ => hout,
      h.buffers.apart_sb, fun hd => ⟨halign hd, (h.buffers.aligned hd).2⟩⟩
  · obtain ⟨h1, h2, h3, h4, h5, h6, h7, -, -, h10⟩ := h.engines
    refine ⟨h1, h2, h3, h4, h5, h6, h7, fun hen hb => ?_, fun hd hflight => ?_, h10⟩
    · have := (hfree (dma_of_enable h.modes h.enables (.inl hen))).1
      simp_all
    · have := hfree hd
      simp_all

/-- An empty buffer at an aligned place passes every test. -/
theorem inputFault_empty (halign : s.ctx.dmaMethod = true → wordAligned s.desc.inAddr = true) :
    inputFault { s with desc := s.desc.withInput s.desc.inAddr 0#32 } = none := by
  refine inputFault_eq_none.mpr ⟨?_, halign, ?_, ?_⟩
  · have := s.desc.inAddr.isLt
    simp [inHostSpace, Desc.withInput, Config.hostSpace]
    omega
  · simp [inOverlapsOut, Desc.withInput, Config.disjoint]
  · simp [inOverlapsSb, inFitsSb, Desc.withInput, Config.disjoint]

/-- The descriptors are free in `Idle`. -/
theorem Consistent.setDesc_of_idle (h : Consistent s) (hi : s.fsm = .idle) {d : Desc}
    (hoff : d.inOff.toNat ≤ d.inLen.toNat) : Consistent { s with desc := d } := by
  have hd : s.ctx.dmaMethod = false := h.modes.not_dma_of_idle hi
  have hen : s.cr.dmaInEn = false := by rw [h.enables.stopped (.inl hi)]; rfl
  have hno : ∀ {p : Prop}, s.ctx.dmaMethod = true → p := fun hd' => by simp [hd] at hd'
  obtain ⟨h1, h2, h3, -, -, -, -, -, -, h10⟩ := h.engines
  exact
    { modes := h.modes.congr
      enables := h.enables.congr
      fifos := h.fifos.congr
      tables := h.tables.congr
      buffers := ⟨hoff, absurd hi, absurd hi, absurd hi, absurd hi, absurd hi, absurd hi, hno⟩
      engines := ⟨h1, h2, h3, hno, hno, hno, hno, fun hen' => by simp [hen] at hen', hno, h10⟩
      streams := h.streams.congr }

/-! ## The words of the two paths -/

/-- Words enter `IFIFO` while it has room, and the read offset moves inside the buffer, in a FIFO method. -/
theorem Consistent.fed (h : Consistent s) (hf : s.ctx.fifoMethod = true) {fifo : List Word} {off : Word}
    (hlen : fifo.length ≤ s.cfg.fifoDepth) (hoff : off.toNat ≤ s.desc.inLen.toNat) :
    Consistent { s with ififo := fifo, desc := { s.desc with inOff := off } } := by
  obtain ⟨-, b2, b3, b4, b5, b6, b7, b8⟩ := h.buffers
  obtain ⟨h1, h2, h3, h4, h5, h6, h7, h8, -, h10⟩ := h.engines
  exact
    { modes := h.modes.congr
      enables := h.enables.congr
      fifos := ⟨hlen, h.fifos.output⟩
      tables := h.tables.congr
      buffers := ⟨hoff, b2, b3, b4, b5, b6, b7, b8⟩
      engines := ⟨h1, h2, h3, h4, h5, h6, h7, h8, fun hd => by simp [not_dma_of_fifo hf] at hd, h10⟩
      streams := h.streams.congr }

theorem Consistent.outReady (h : Consistent s) (hj : s.fsm ≠ .idle) : OutReady s.desc where
  space := of_decide_eq_true (h.buffers.out_space hj)
  off := h.buffers.out_off hj
  words := h.buffers.out_words hj

/-- The fill offset of the output buffer stands on any word of it. -/
theorem Consistent.setOutOff (h : Consistent s) {off : Word} (hready : OutReady { s.desc with outOff := off }) :
    Consistent { s with desc := { s.desc with outOff := off } } := by
  obtain ⟨b1, b2, b3, -, -, b6, b7, b8⟩ := h.buffers
  exact
    { modes := h.modes.congr
      enables := h.enables.congr
      fifos := h.fifos.congr
      tables := h.tables.congr
      buffers := ⟨b1, b2, b3, fun _ => hready.off, fun _ => hready.words, b6, b7, b8⟩
      engines := h.engines.congr
      streams := h.streams.congr }

theorem Consistent.setFifos (h : Consistent s) {i o : List Word} (hi : i.length ≤ s.cfg.fifoDepth)
    (ho : o.length ≤ s.cfg.fifoDepth) : Consistent { s with ififo := i, ofifo := o } where
  modes := h.modes.congr
  enables := h.enables.congr
  fifos := ⟨hi, ho⟩
  tables := h.tables.congr
  buffers := h.buffers.congr
  engines := h.engines.congr
  streams := h.streams.congr

/-- The output drain path keeps the invariant of a job. -/
theorem Consistent.drained (h : Consistent s) (hj : s.fsm ≠ .idle) {ws : List Word} (hm : OutMoved s t ws) :
    Consistent t := by
  have hready := hm.ready (h.outReady hj)
  have hfifo : t.ofifo.length ≤ s.cfg.fifoDepth := by
    have := congrArg List.length hm.fifo
    have := h.fifos.output
    simp only [List.length_append] at *
    omega
  rw [hm.desc] at hready
  obtain ⟨hframe, hpause⟩ := hm.frame
  have hmoved := (h.setOutOff hready).setFifos h.fifos.input hfifo
  rcases hpause with ⟨hctx, hcr⟩ | ⟨hctx, hcr⟩
  · refine hmoved.of_visible ?_
    rw [hframe]
    simp only [State.visible, hctx, hcr]
  · refine (hmoved.pauseOutput hj).of_visible ?_
    rw [hframe]
    simp only [State.visible, hctx, hcr]
    rfl

/-! ## The engines (43_transfer_fsm R213, R232, R233) -/

/-- An update of `DIN` alone. -/
theorem Consistent.setDin (h : Consistent s) {d : Dma} (he : Engines { s with din := d }) : Consistent { s with din := d } where
  modes := h.modes.congr
  enables := h.enables.congr
  fifos := h.fifos.congr
  tables := h.tables.congr
  buffers := h.buffers.congr
  engines := he
  streams := h.streams.congr

/-- An update of `DOUT` alone. -/
theorem Consistent.setDout (h : Consistent s) {d : Dma} (he : Engines { s with dout := d }) :
    Consistent { s with dout := d } where
  modes := h.modes.congr
  enables := h.enables.congr
  fifos := h.fifos.congr
  tables := h.tables.congr
  buffers := h.buffers.congr
  engines := he
  streams := h.streams.congr

/-- The block that `PrimeIn` programs: what is left of the input buffer, or less, and not nothing. -/
theorem primeLen_le (r : Nat) (g : Gran) : primeLen r g ≤ r ∧ (0 < r → 0 < primeLen r g) := by
  unfold primeLen roundDown
  rcases gran_cases g with hg | hg <;> rw [hg] <;> split <;> omega

theorem primeIn_block {d : Desc} (g : Gran) (hoff : d.inOff.toNat < d.inLen.toNat)
    (hspace : inHostSpace d.inAddr d.inLen = true) :
    let addr := d.inAddr + d.inOff
    let len := BitVec.ofNat 32 (primeLen (d.inLen.toNat - d.inOff.toNat) g)
    0 < len.toNat ∧ d.inAddr.toNat ≤ addr.toNat ∧ addr.toNat + len.toNat ≤ d.inAddr.toNat + d.inLen.toNat := by
  have hlen := d.inLen.isLt
  have hs : d.inAddr.toNat + d.inLen.toNat ≤ Config.hostSpace := of_decide_eq_true hspace
  obtain ⟨hle, hpos⟩ := primeLen_le (d.inLen.toNat - d.inOff.toNat) g
  simp only [Config.hostSpace] at hs
  simp only [BitVec.toNat_add, BitVec.toNat_ofNat]
  omega

theorem primeOut_block {d : Desc} (g : Gran) (hlen : Gran.bytes g ≤ d.outLen.toNat) :
    (BitVec.ofNat 32 (roundDown d.outLen.toNat g)).toNat = roundDown d.outLen.toNat g ∧ 0 < roundDown d.outLen.toNat g := by
  have hlt := d.outLen.isLt
  unfold roundDown
  rw [BitVec.toNat_ofNat]
  rcases gran_cases g with hg | hg <;> rw [hg] at hlen ⊢ <;> omega

theorem Consistent.primeIn (h : Consistent s) (hd : s.ctx.dmaMethod = true) (hc : s.din.cplt = false)
    (hne : s.desc.inOff ≠ s.desc.inLen) : Consistent s.primeIn := by
  have hspace := h.buffers.in_space (h.modes.in_job_of_dma hd)
  have hlt : s.desc.inOff.toNat < s.desc.inLen.toNat :=
    lt_of_le_of_ne h.buffers.in_off fun he => hne (BitVec.eq_of_toNat_eq he)
  obtain ⟨hpos, hlo, hhi⟩ := primeIn_block s.cfg.granIn hlt hspace
  obtain ⟨-, -, -, h4, h5, h6, h7, -, -, h10⟩ := h.engines
  have hs : s.desc.inAddr.toNat + s.desc.inLen.toNat ≤ Config.hostSpace := of_decide_eq_true hspace
  exact h.setDin ⟨fun _ => hpos, fun _ => decide_eq_true (hhi.trans hs), fun _ => hc, h4, h5, h6, h7,
    fun _ _ => ⟨hlo, hhi⟩, fun _ _ => hne, h10⟩

theorem Consistent.primeOut (h : Consistent s) (hd : s.ctx.dmaMethod = true) (hc : s.dout.cplt = false) :
    Consistent s.primeOut := by
  obtain ⟨h1, h2, h3, h4, -, -, -, h8, h9, h10⟩ := h.engines
  obtain ⟨-, -, hg⟩ := h4 hd
  obtain ⟨hlen, hpos⟩ := primeOut_block s.cfg.granOut hg
  exact h.setDout ⟨h1, h2, h3, fun _ => ⟨rfl, hlen, hg⟩, fun _ => ⟨Nat.zero_le _, Nat.zero_mod _⟩,
    fun _ _ => hpos.trans_eq hlen.symm, fun _ _ => hc, h8, h9, h10⟩

end Sys2Proof.Machine
end

section
/-! The invariant under the steps of the agents that run no instruction (43_transfer_fsm R232, R233, R236), and where a job begins
and ends (R211, R220, R222, R226). -/

namespace Sys2Proof.Machine

open Sys2Proof

-- One proof after the other: side by side they take more threads than the check's memory limit has room for.
set_option Elab.async false

variable {s t : State}

/-! ## A step of `DIN` -/

theorem Consistent.setErrf (h : Consistent s) (b : Bool) : Consistent { s with sr := { s.sr with errf := b } } where
  modes := h.modes.congr
  enables := h.enables.congr
  fifos := h.fifos.congr
  tables := h.tables.congr
  buffers := h.buffers.congr
  engines := h.engines.congr
  streams := h.streams.congr

theorem Consistent.dinAbort (h : Consistent s) (hb : s.din.busy = true) (ha : s.din.abortReq = true) :
    Consistent { s with din := s.din.abortDone } := by
  obtain ⟨-, -, -, h4, h5, h6, h7, -, h9, h10⟩ := h.engines
  exact h.setDin ⟨nofun, nofun, nofun, h4, h5, h6, h7, fun _ => nofun,
    fun hd hflight => h9 hd (.inl hb), fun _ => h10 (.inl ha)⟩

theorem Consistent.dinFail (h : Consistent s) (hb : s.din.busy = true) : Consistent { s with din := s.din.fail } := by
  obtain ⟨-, -, -, h4, h5, h6, h7, -, h9, h10⟩ := h.engines
  exact h.setDin ⟨nofun, nofun, nofun, h4, h5, h6, h7, fun _ => nofun, fun hd _ => h9 hd (.inl hb), h10⟩

theorem Dma.burstEnd_cases (d : Dma) : (d.done = d.len ∧ d.burstEnd = { d with busy := false, cplt := true }) ∨
    (d.done ≠ d.len ∧ d.burstEnd = d) := by
  unfold Dma.burstEnd
  by_cases h : d.done = d.len
  · exact .inl ⟨h, if_pos h⟩
  · exact .inr ⟨h, if_neg h⟩

/-- The progress of a block of `DIN`, finished or not. -/
theorem Consistent.dinProgress (h : Consistent s) (hb : s.din.busy = true) {done : Word}
    (hle : done.toNat ≤ s.din.len.toNat) : Consistent { s with din := Dma.burstEnd { s.din with done := done } } := by
  obtain ⟨-, h2, h3, h4, h5, h6, h7, h8, h9, h10⟩ := h.engines
  rcases Dma.burstEnd_cases { s.din with done := done } with ⟨-, he⟩ | ⟨hne, he⟩ <;> rw [he]
  · exact h.setDin ⟨nofun, nofun, nofun, h4, h5, h6, h7, fun _ => nofun, fun hd _ => h9 hd (.inl hb), h10⟩
  · have hlt : done.toNat < s.din.len.toNat := lt_of_le_of_ne hle fun heq => hne (BitVec.eq_of_toNat_eq heq)
    exact h.setDin ⟨fun _ => hlt, h2, h3, h4, h5, h6, h7, h8, h9, h10⟩

theorem dinBurst_fits (h : DinTriggered s) (hlen : s.ififo.length ≤ s.cfg.fifoDepth) :
    s.ififo.length + (dinBurstBytes s + 3) / 4 ≤ s.cfg.fifoDepth := by
  unfold DinTriggered at h
  unfold dinBurstBytes
  cases hg : s.cfg.granIn <;> simp only [hg, Gran.bytes] at h ⊢ <;> omega

theorem Consistent.dinBurst (h : Consistent s) (hm : dinMoves s = true) : Consistent (dinBurstState s) := by
  obtain ⟨hb, -, -, htr⟩ := dinMoves_iff.mp hm
  have hleft := h.engines.din_left hb
  have hlt := s.din.len.isLt
  have hdone : (BitVec.ofNat 32 (s.din.done.toNat + dinBurstBytes s)).toNat ≤ s.din.len.toNat := by
    rw [BitVec.toNat_ofNat]
    unfold dinBurstBytes dinLeft
    omega
  have hfifo : (s.ififo ++ (List.range ((dinBurstBytes s + 3) / 4)).map (blockWord s)).length ≤ s.cfg.fifoDepth := by
    simpa using dinBurst_fits htr h.fifos.input
  exact ((h.dinProgress hb hdone).setFifos hfifo h.fifos.output).of_visible rfl

theorem Consistent.dinStep (h : Consistent s) (hs : dinStep s = .ok t) : Consistent t := by
  by_cases hab : s.din.busy = true ∧ s.din.abortReq = true
  · rw [dinStep_of_abort hab.1 hab.2] at hs
    cases hs
    exact h.dinAbort hab.1 hab.2
  by_cases hm : dinMoves s = true
  · obtain ⟨hb, -⟩ := dinMoves_iff.mp hm
    by_cases htail : s.tailFed = true
    · rw [dinStep_ragged hm (h.engines.din_left hb) (h.engines.din_space hb) htail] at hs
      cases hs
    · rw [dinStep_burst hm (h.engines.din_left hb) (h.engines.din_space hb) (by simpa using htail)] at hs
      cases hs
      exact h.dinBurst hm
  · rw [dinStep_of_still (by simpa [-not_and, not_and_or] using hab) (by simpa using hm)] at hs
    cases hs
    exact h

theorem Consistent.dinErrorStep (h : Consistent s) : Consistent (dinErrorStep s) := by
  by_cases hm : dinMoves s = true
  · rw [dinErrorStep_of_moves hm]
    exact (h.dinFail (dinMoves_iff.mp hm).1).setErrf true
  · rw [dinErrorStep_of_still (by simpa using hm)]
    exact h

/-! ## A step of `DOUT` -/

theorem Consistent.doutAbort (h : Consistent s) (ha : s.dout.abortReq = true) :
    Consistent { s with dout := s.dout.abortDone } := by
  obtain ⟨h1, h2, h3, h4, h5, h6, -, h8, h9, h10⟩ := h.engines
  exact h.setDout ⟨h1, h2, h3, h4, h5, h6, fun _ => nofun, h8, h9, fun _ => h10 (.inr (.inl ha))⟩

theorem Consistent.doutFail (h : Consistent s) : Consistent { s with dout := s.dout.fail } := by
  obtain ⟨h1, h2, h3, h4, h5, h6, -, h8, h9, h10⟩ := h.engines
  exact h.setDout ⟨h1, h2, h3, h4, h5, h6, fun _ => nofun, h8, h9, h10⟩

theorem Consistent.doutBurst (h : Consistent s) (hm : doutMoves s = true) : Consistent (doutBurstState s) := by
  obtain ⟨hb, -, hen, -⟩ := doutMoves_iff.mp hm
  have hdma := dma_of_enable h.modes h.enables (.inr hen)
  have hroom := (doutBlock_of_busy h hdma hb).room
  have hlt := s.dout.len.isLt
  have hdone : (s.dout.done + BitVec.ofNat 32 (Gran.bytes s.cfg.granOut)).toNat =
      s.dout.done.toNat + Gran.bytes s.cfg.granOut := by
    rw [BitVec.toNat_add, BitVec.toNat_ofNat]
    omega
  obtain ⟨h1, h2, h3, h4, h5, h6, h7, h8, h9, h10⟩ := h.engines
  have hle : (s.dout.done + BitVec.ofNat 32 (Gran.bytes s.cfg.granOut)).toNat ≤ s.dout.len.toNat ∧
      (s.dout.done + BitVec.ofNat 32 (Gran.bytes s.cfg.granOut)).toNat % Gran.bytes s.cfg.granOut = 0 := by
    rw [hdone, Nat.add_mod_right]
    exact ⟨hroom, (h5 hdma).2⟩
  have hofifo : (s.ofifo.drop (Gran.bytes s.cfg.granOut / 4)).length ≤ s.cfg.fifoDepth := by
    rw [List.length_drop]
    exact (Nat.sub_le _ _).trans h.fifos.output
  have hprogress : Consistent { s with dout := Dma.burstEnd { s.dout with
      done := s.dout.done + BitVec.ofNat 32 (Gran.bytes s.cfg.granOut) } } := by
    rcases Dma.burstEnd_cases { s.dout with done := s.dout.done + BitVec.ofNat 32 (Gran.bytes s.cfg.granOut) } with
      ⟨-, he⟩ | ⟨hne, he⟩ <;> rw [he]
    · exact h.setDout ⟨h1, h2, h3, h4, fun _ => hle, fun _ => nofun, fun _ => nofun, h8, h9, h10⟩
    · exact h.setDout ⟨h1, h2, h3, h4, fun _ => hle,
        fun _ _ => lt_of_le_of_ne hle.1 fun heq => hne (BitVec.eq_of_toNat_eq heq), h7, h8, h9, h10⟩
  exact (hprogress.setFifos h.fifos.input hofifo).of_visible rfl

theorem Consistent.doutStep (h : Consistent s) (hs : doutStep s = .ok t) : Consistent t := by
  by_cases hab : s.dout.busy = true ∧ s.dout.abortReq = true
  · rw [doutStep_of_abort hab.1 hab.2] at hs
    cases hs
    exact h.doutAbort hab.2
  by_cases hm : doutMoves s = true
  · obtain ⟨hb, -, hen, -⟩ := doutMoves_iff.mp hm
    rw [doutStep_burst hm (doutBlock_of_busy h (dma_of_enable h.modes h.enables (.inr hen)) hb)] at hs
    cases hs
    exact h.doutBurst hm
  · rw [doutStep_of_still (by simpa [-not_and, not_and_or] using hab) (by simpa using hm)] at hs
    cases hs
    exact h

theorem Consistent.doutErrorStep (h : Consistent s) : Consistent (doutErrorStep s) := by
  by_cases hm : doutMoves s = true
  · rw [doutErrorStep_of_moves hm]
    exact h.doutFail.setErrf true
  · rw [doutErrorStep_of_still (by simpa using hm)]
    exact h

/-! ## A step of `CORE` -/

/-- `CORE` raises a latched flag of a running job, `HPDF` of a decode. -/
theorem Consistent.setFlags (h : Consistent s) (hrun : s.cr.run = true) {f : Sr}
    (hhpd : f.hpdf = true → s.ctx.op = some .decode) : Consistent { s with sr := f } where
  modes := h.modes.congr
  enables := by
    obtain ⟨h1, h2, h3, h4, h5, -⟩ := h.enables
    exact ⟨h1, h2, h3, h4, fun hd => hd.elim (fun hi => h5 (.inl hi)) hhpd, fun hi => absurd hi (h.modes.of_run hrun).1⟩
  fifos := h.fifos.congr
  tables := h.tables.congr
  buffers := h.buffers.congr
  engines := h.engines.congr
  streams := h.streams.congr

theorem Consistent.coreDo (h : Consistent s) {a : CoreAct} (ha : coreAllowed a s = true) : Consistent (coreDo a s) := by
  simp only [coreAllowed, Bool.and_eq_true] at ha
  obtain ⟨hrun, ha⟩ := ha
  cases a with
  | pop =>
    have hlen : s.ififo.tail.length ≤ s.cfg.fifoDepth := by
      rw [List.length_tail]
      exact (Nat.sub_le _ _).trans h.fifos.input
    exact (h.setFifos hlen h.fifos.output).of_visible rfl
  | push w =>
    simp only [Bool.and_eq_true, decide_eq_true_eq] at ha
    exact (h.setFifos h.fifos.input (o := s.ofifo ++ [w]) (by simpa using ha.1)).of_visible rfl
  | header hdr =>
    simp only [Bool.and_eq_true, decide_eq_true_eq] at ha
    exact (h.setFlags hrun (f := { s.sr with hpdf := true }) fun _ => ha.1.1).of_visible rfl
  | endOfConversion => exact h.setFlags hrun fun hh => h.enables.decode_only (.inr hh)
  | error => exact h.setErrf true
  | writeQmem q w v => exact h.of_visible rfl

theorem Consistent.coreStep (h : Consistent s) (a : CoreAct) : Consistent (coreStep a s) := by
  unfold Machine.coreStep
  split
  · next ha => exact h.coreDo ha
  · exact h

/-! ## The end of a job -/

/-- The block is idle: what a stopped or completed job leaves of the control state. -/
theorem Consistent.toIdle (h : Consistent s) {din dout : Dma} {sr : Sr} {d : Desc} (hsr : sr.eocf = false ∧ sr.hpdf = false)
    (hd : d.inOff.toNat ≤ d.inLen.toNat)
    (hbusy : din.busy = true → din.done.toNat < din.len.toNat ∧ inHostSpace din.addr din.len = true ∧ din.cplt = false)
    (habort : din.abortReq = false ∧ dout.abortReq = false ∧ din.aborted = false ∧ dout.aborted = false) :
    Consistent { s with
      fsm := .idle, ctx := s.ctx.idleDefaults, cr := .reset, sr := sr, desc := d, din := din, dout := dout } where
  modes := .of_idle rfl rfl rfl rfl rfl rfl rfl
  enables := ⟨fun _ => rfl, nofun, nofun, nofun, by simp [Cr.reset, hsr.2], fun _ => hsr⟩
  fifos := h.fifos.congr
  tables := h.tables.congr
  buffers := ⟨hd, absurd rfl, absurd rfl, absurd rfl, absurd rfl, absurd rfl, absurd rfl, nofun⟩
  engines := ⟨fun hb => (hbusy hb).1, fun hb => (hbusy hb).2.1, fun hb => (hbusy hb).2.2, nofun, nofun, nofun, nofun, nofun,
    nofun, by simp [habort]⟩
  streams := h.streams.congr

theorem Consistent.stopAndReset (h : Consistent s) : Consistent s.stopAndReset :=
  (h.toIdle (din := s.din.stop) (dout := s.dout.stop) (sr := { s.sr with eocf := false, hpdf := false }) ⟨rfl, rfl⟩
    h.buffers.in_off nofun ⟨rfl, rfl, rfl, rfl⟩).of_visible rfl

theorem Consistent.takeTransferError (h : Consistent s) : Consistent s.takeTransferError :=
  ((h.setErrf false).stopAndReset).of_visible rfl

theorem Consistent.abortJob (h : Consistent s) : Consistent (abortJob s) := h.stopAndReset.setErrf false

/-- A job that is ending has every source off (43_transfer_fsm R220). -/
theorem Consistent.cr_of_ending (h : Consistent s) (hend : s.ctx.ending = true) : s.cr = .reset :=
  h.enables.stopped (.inr (h.modes.draining_iff.mpr hend))

theorem Consistent.complete (h : Consistent s) (hend : s.ctx.ending = true) (hc : complete s = .ok t) : Consistent t := by
  obtain ⟨h1, h2, -⟩ := h.engines
  have hidle := h.toIdle (din := s.din.complete) (dout := s.dout.complete)
    (sr := { s.sr with eocf := false, hpdf := false }) (d := { s.desc with outOff := 0#32 }) ⟨rfl, rfl⟩ h.buffers.in_off
    (fun hb => ⟨h1 hb, h2 hb, rfl⟩) ⟨rfl, rfl, rfl, rfl⟩
  refine hidle.of_visible ?_
  rw [complete_ok hc]
  simp only [State.visible, State.endJob, h.cr_of_ending hend]

theorem Consistent.storeWords (h : Consistent s) (hj : s.fsm ≠ .idle) {n : Nat} (hs : storeWords n s = .ok t) :
    Consistent t := by
  obtain ⟨m, -, hmoved, -⟩ := storeWords_ok (h.outReady hj) hs
  exact h.drained hj hmoved

theorem storeWords_ending {n : Nat} (h : Machine.storeWords n s = .ok t) : t.ctx.ending = s.ctx.ending := by
  obtain ⟨-, hp⟩ := storeWords_frame h
  rcases hp with ⟨hctx, -⟩ | ⟨hctx, -⟩ <;> rw [hctx]
  rfl

theorem Consistent.finish (h : Consistent s) (hend : s.ctx.ending = true) (hf : finish s = .ok t) : Consistent t := by
  have hj : s.fsm ≠ .idle := by simp [h.modes.draining_iff.mpr hend]
  obtain ⟨u, hu, hr⟩ := bind_eq_ok.mp hf
  have hu' := h.storeWords hj hu
  split at hr
  · exact hu'.complete (by rw [storeWords_ending hu, hend]) hr
  · cases hr
    exact hu'

/-- The job is ending: the sources off, and any engine that is busy asked to abort (43_transfer_fsm R220). -/
theorem Consistent.stopSources (h : Consistent s) (hj : s.fsm ≠ .idle) : Consistent s.stopSources where
  modes := .of_draining rfl (h.modes.in_job hj).1 (h.modes.in_job hj).2 rfl rfl
  enables := ⟨fun _ => rfl, nofun, nofun, nofun, fun hd => h.enables.decode_only (.inr (by simpa [Cr.reset] using hd)), nofun⟩
  fifos := h.fifos.congr
  tables := h.tables.congr
  buffers := by
    obtain ⟨b1, b2, b3, b4, b5, b6, b7, b8⟩ := h.buffers
    exact ⟨b1, fun _ => b2 hj, fun _ => b3 hj, fun _ => b4 hj, fun _ => b5 hj, fun _ => b6 hj, fun _ => b7 hj, b8⟩
  engines := by
    obtain ⟨h1, h2, h3, h4, h5, h6, h7, -, h9, h10⟩ := h.engines
    exact ⟨h1, h2, h3, h4, h5, h6, h7, nofun, h9, h10⟩
  streams := h.streams.congr

theorem Dma.requestAbort_others (d : Dma) : d.requestAbort.busy = d.busy ∧ d.requestAbort.addr = d.addr ∧
    d.requestAbort.len = d.len ∧ d.requestAbort.done = d.done ∧ d.requestAbort.cplt = d.cplt := by
  unfold Dma.requestAbort
  split <;> exact ⟨rfl, rfl, rfl, rfl, rfl⟩

/-- The engines of method DMA asked to abort, or their aborts taken: nothing of their blocks changes. -/
theorem Consistent.setAborts (h : Consistent s) (hd : s.ctx.dmaMethod = true) {din dout : Dma}
    (hin : din.busy = s.din.busy ∧ din.addr = s.din.addr ∧ din.len = s.din.len ∧ din.done = s.din.done ∧ din.cplt = s.din.cplt)
    (hout : dout.busy = s.dout.busy ∧ dout.addr = s.dout.addr ∧ dout.len = s.dout.len ∧ dout.done = s.dout.done ∧
      dout.cplt = s.dout.cplt) : Consistent { s with din := din, dout := dout } where
  modes := h.modes.congr
  enables := h.enables.congr
  fifos := h.fifos.congr
  tables := h.tables.congr
  buffers := h.buffers.congr
  engines := by
    obtain ⟨h1, h2, h3, h4, h5, h6, h7, h8, h9, -⟩ := h.engines
    obtain ⟨i1, i2, i3, i4, i5⟩ := hin
    obtain ⟨o1, o2, o3, o4, o5⟩ := hout
    refine ⟨?_, ?_, ?_, ?_, ?_, ?_, ?_, ?_, ?_, fun _ => hd⟩ <;>
      simp only [i1, i2, i3, i4, i5, o1, o2, o3, o4, o5] <;> assumption
  streams := h.streams.congr

/-- While the output block is not finished, the bytes `DOUT` moved are a fill offset inside the output buffer. -/
theorem Consistent.doutReady (h : Consistent s) (hd : s.ctx.dmaMethod = true) (hc : s.dout.cplt = false) :
    OutReady { s.desc with outOff := s.dout.done } := by
  have hready := h.outReady (h.modes.in_job_of_dma hd)
  have hlt := h.engines.dout_left hd hc
  obtain ⟨-, hmod⟩ := h.engines.dout_done hd
  obtain ⟨-, hlen, -⟩ := h.engines.dout_block hd
  refine ⟨hready.space, ?_, hready.words.1, ?_⟩
  · unfold roundDown at hlen
    change s.dout.done.toNat < s.desc.outLen.toNat
    omega
  · change s.dout.done.toNat % 4 = 0
    rcases gran_cases s.cfg.granOut with hg | hg <;> rw [hg] at hmod <;> omega

/-- Once neither engine is busy and the output block is not finished, the bytes `DOUT` moved count as the fill offset. -/
theorem Consistent.finishFromDma (h : Consistent s) (hd : s.ctx.dmaMethod = true) (hend : s.ctx.ending = true)
    (hc : s.dout.cplt = false) (hf : finishFromDma s = .ok t) : Consistent t :=
  (h.setOutOff (h.doutReady hd hc)).finish hend hf

/-! ## The start of a job (43_transfer_fsm R211) -/

theorem checkArgs_eq_true {c : Config} {d : Desc} {m : Method} (h : checkArgs c d m = true) :
    0 < d.inLen.toNat ∧ 0 < d.outLen.toNat ∧ d.outLen.toNat % 4 = 0 ∧ inHostSpace d.inAddr d.inLen = true ∧
      inHostSpace d.outAddr d.outLen = true ∧ (m = .dma → wordAligned d.inAddr = true ∧ wordAligned d.outAddr = true ∧
        Gran.bytes c.granIn ≤ d.inLen.toNat ∧ Gran.bytes c.granOut ≤ d.outLen.toNat) := by
  simp only [checkArgs, Bool.and_eq_true, bne_iff_ne, ne_eq, beq_iff_eq, ← BitVec.toNat_inj] at h
  obtain ⟨⟨⟨⟨⟨h1, h2⟩, h3⟩, h4⟩, h5⟩, h6⟩ := h
  refine ⟨Nat.pos_of_ne_zero h1, Nat.pos_of_ne_zero h2, h3, h4, h5, ?_⟩
  rintro rfl
  simpa [and_assoc] using h6

theorem startWith_fields (op : JobOp) (m : Method) (s : State) : (startWith op m s).visible =
    ({ startJob op m s with din := (startWith op m s).din, dout := (startWith op m s).dout } : State).visible := by
  unfold startWith
  split <;> rfl

theorem Consistent.startWith (h : Consistent s) {op : JobOp} {m : Method} (hargs : checkArgs s.cfg s.desc m = true)
    (hover : startOverlap s = false) : Consistent (startWith op m s) := by
  obtain ⟨hin, hout, hmod, hispace, hospace, hdma⟩ := checkArgs_eq_true hargs
  obtain ⟨hov, hsb⟩ : inOverlapsOut s.desc = false ∧ outOverlapsSb s.cfg s.desc = false := by
    simpa [startOverlap] using hover
  have hmethod : ∀ {c : Ctx}, c.method = some m → c.dmaMethod = true → m = .dma := fun hc hd => by
    rw [dmaMethod_iff, hc] at hd
    simpa using hd
  suffices hjob : Consistent { startJob op m s with
      din := (Machine.startWith op m s).din, dout := (Machine.startWith op m s).dout } from
    hjob.of_visible (startWith_fields op m s)
  refine
    { modes := .of_running (m := m) rfl nofun rfl rfl rfl
      enables := ?_
      fifos := ⟨Nat.zero_le _, Nat.zero_le _⟩
      tables := h.tables.congr
      buffers := ?_
      engines := ?_
      streams := h.streams.congr }
  · refine ⟨?_, fun _ => rfl, fun _ hf => ?_, fun _ hd => ?_, fun hd => ?_, fun _ => ⟨rfl, rfl⟩⟩
    · cases m <;> simp [runningFsm]
    · have hm : m ≠ .dma := by
        rintro rfl
        cases hf
      simp [startCr, hm]
    · obtain rfl := hmethod rfl hd
      exact ⟨rfl, rfl, rfl, rfl, rfl, rfl, rfl⟩
    · cases op with
      | decode => rfl
      | encode => rcases hd with hd | hd <;> cases hd
  · exact ⟨Nat.zero_le _, fun _ => hispace, fun _ => hospace, fun _ => hout, fun _ => ⟨hmod, rfl⟩, fun _ => hov,
      fun _ => hsb, fun hd => ⟨(hdma (hmethod rfl hd)).1, (hdma (hmethod rfl hd)).2.1⟩⟩
  · by_cases hm : m = .dma
    · subst hm
      obtain ⟨-, -, -, hgran⟩ := hdma rfl
      obtain ⟨hpos, hlo, hhi⟩ := primeIn_block (d := { s.desc with inOff := 0#32, outOff := 0#32 }) s.cfg.granIn hin hispace
      obtain ⟨hlen, hopos⟩ := primeOut_block s.cfg.granOut hgran
      have hoff : 0#32 ≠ s.desc.inLen := fun he => by simp [← he] at hin
      have hsum : s.desc.inAddr.toNat + s.desc.inLen.toNat ≤ Config.hostSpace := of_decide_eq_true hispace
      exact ⟨fun _ => hpos, fun _ => decide_eq_true (hhi.trans hsum), fun _ => rfl, fun _ => ⟨rfl, hlen, hgran⟩,
        fun _ => ⟨Nat.zero_le _, Nat.zero_mod _⟩, fun _ _ => hopos.trans_eq hlen.symm, fun _ _ => rfl,
        fun _ _ => ⟨hlo, hhi⟩, fun _ _ => hoff, fun _ => rfl⟩
    · have hno : ∀ {p : Prop}, (startJob op m s).ctx.dmaMethod = true → p := fun hd => absurd (hmethod rfl hd) hm
      have hen : (startCr op m).dmaInEn = false := by simp [startCr, hm]
      rw [Machine.startWith, if_neg hm]
      exact ⟨nofun, nofun, nofun, hno, hno, hno, hno, fun he => by simp [hen] at he, hno,
        by simp [Dma.stop]⟩

end Sys2Proof.Machine
end

section
/-! The invariant under the event handlers and the commands of the Transfer State Machine and of the Streaming Buffer Manager
(43_transfer_fsm R215 to R231, 44_stream_buffers R271 to R273). -/

namespace Sys2Proof.Machine

open Sys2Proof

-- One proof after the other: side by side they take more threads than the check's memory limit has room for.
set_option Elab.async false

variable {s t : State}

/-! ## The refill callback (43_transfer_fsm R218) -/

/-- What a buffer holds and which one is being filled does not change with the manager's reply. -/
theorem refillReply_streams (consumed : Word) (s : State) :
    (refillReply consumed s).2.sb.buf0.len = s.sb.buf0.len ∧ (refillReply consumed s).2.sb.buf1.len = s.sb.buf1.len ∧
      (refillReply consumed s).2.sb.filling = s.sb.filling := by
  unfold refillReply
  split
  · unfold managerRefill
    dsimp only
    split
    · exact ⟨rfl, rfl, rfl⟩
    · cases s.sb.rd <;> split <;> exact ⟨rfl, rfl, rfl⟩
  · unfold outsideRefill
    split <;> exact ⟨rfl, rfl, rfl⟩

/-- A refill ends in a checked buffer or an empty one; an empty one pauses the input. -/
theorem takeRefill_ok {r : RefillReply} (h : takeRefill r s = .ok t) : ∃ addr len,
    let u : State := { s with desc := s.desc.withInput addr len }
    (inputFault u = none ∨ addr = s.desc.inAddr ∧ len = 0#32) ∧ t = if len = 0#32 then u.pauseInput else u := by
  unfold takeRefill at h
  cases r with
  | supply addr len =>
    dsimp only at h
    split at h
    · cases h
    · next hnone =>
      cases h
      exact ⟨addr, len, .inl hnone, rfl⟩
  | pause =>
    cases h
    exact ⟨s.desc.inAddr, 0#32, .inr ⟨rfl, rfl⟩, rfl⟩
  | command => cases h

/-- A refill keeps the invariant wherever the read offset stood before it. -/
theorem Consistent.refill (h : Consistent s) (hj : s.fsm ≠ .idle) (hfree : DinFree s) {off : Word}
    (hr : refill { s with desc := { s.desc with inOff := off } } = .ok t) : Consistent t := by
  have hframe := refillReply_frame off (({ s with desc := { s.desc with inOff := off } } : State).emit (.refill off))
  obtain ⟨hb0, hb1, hfill⟩ := refillReply_streams off
    (({ s with desc := { s.desc with inOff := off } } : State).emit (.refill off))
  unfold Machine.refill at hr
  dsimp only at hr
  generalize refillReply off (({ s with desc := { s.desc with inOff := off } } : State).emit (.refill off)) = p at *
  obtain ⟨addr, len, hok, rfl⟩ := takeRefill_ok hr
  have hv : Consistent { s with sb := p.2.sb } :=
    { modes := h.modes.congr
      enables := h.enables.congr
      fifos := h.fifos.congr
      tables := h.tables.congr
      buffers := h.buffers.congr
      engines := h.engines.congr
      streams := h.streams.congr hb0 hb1 hfill }
  have hnone : inputFault { s with desc := s.desc.withInput addr len } = none := by
    rw [hframe] at hok
    rcases hok with hok | ⟨rfl, rfl⟩
    · exact hok
    · exact inputFault_empty fun hd => (h.buffers.aligned hd).1
  have hu : Consistent { p.2 with desc := p.2.desc.withInput addr len } := by
    refine (hv.newInput (addr := addr) (len := len) hfree hnone).of_visible ?_
    rw [hframe]
    rfl
  split
  · exact hu.pauseInput (by rw [hframe]; exact hj)
  · exact hu

/-- What a refill leaves as it was, and where it leaves the input buffer. -/
theorem refill_leaves (hr : refill s = .ok t) : t.din = s.din ∧ t.ctx.method = s.ctx.method ∧ t.ctx.ending = s.ctx.ending ∧
    t.cr.run = s.cr.run ∧ t.fsm = s.fsm ∧ t.cfg = s.cfg ∧ t.ififo = s.ififo ∧ t.desc.inOff = 0#32 ∧
    (t.ctx.pauseIn = false → t.desc.inLen ≠ 0#32) := by
  obtain ⟨sb, host, draws, addr, len, -, -, ht⟩ := refill_cases hr
  rcases ht with ⟨rfl, hlen, -⟩ | ⟨rfl, -⟩
  · exact ⟨rfl, rfl, rfl, rfl, rfl, rfl, rfl, rfl, fun _ => hlen⟩
  · refine ⟨rfl, rfl, rfl, ?_, rfl, rfl, rfl, rfl, nofun⟩
    simp only [State.pauseInput_cr]
    split <;> rfl

/-! ## `EV_IN` (43_transfer_fsm R217) -/

/-- All that `FeedWords` does: a refill where the buffer is used up, then words, unless the refill paused the input. -/
theorem feedWords_ok {n : Nat} : feedWords n s = .ok t ↔
    ∃ u, (if s.desc.inOff = s.desc.inLen then Machine.refill s = .ok u else u = s) ∧
      (if u.ctx.pauseIn then t = u else Machine.feedAvail n u = .ok t) := by
  have hrest : ∀ u : State, (if u.ctx.pauseIn then pure u else Machine.feedAvail n u) = Except.ok t ↔
      (if u.ctx.pauseIn then t = u else Machine.feedAvail n u = .ok t) := fun u => by
    split
    · rw [pure_eq_ok, eq_comm]
    · rfl
  unfold feedWords
  split
  · exact bind_eq_ok.trans (exists_congr fun u => and_congr_right fun _ => hrest u)
  · simpa using hrest s

/-- `EV_IN` asks for at least one word, and for no more than `IFIFO` has room for. -/
theorem inCount_fits (he : eligible .inp s = true) : 1 ≤ inCount s ∧ s.ififo.length + inCount s ≤ s.cfg.fifoDepth := by
  obtain ⟨-, -, -, hroom⟩ := eligible_inp.mp he
  unfold inCount
  by_cases ht : (s.cr.ieIft && iftf s) = true
  · simp only [Bool.and_eq_true, iftf, decide_eq_true_eq, Config.thWords] at ht
    simp only [ht, iftf, Config.thWords, decide_true, Bool.and_self, if_true]
    omega
  · rw [if_neg ht]
    simp only [Bool.and_eq_true, iftf, decide_eq_true_eq, Config.thWords] at ht
    rcases hroom with hroom | hroom
    · exact absurd hroom ht
    · omega

theorem Consistent.feedAvail (h : Consistent s) (hj : s.fsm ≠ .idle) (hf : s.ctx.fifoMethod = true) {n : Nat}
    (hn : 1 ≤ n) (hroom : s.ififo.length + n ≤ s.cfg.fifoDepth) (hlt : s.desc.inOff.toNat < s.desc.inLen.toNat)
    (hfeed : feedAvail n s = .ok t) : Consistent t := by
  have hspace : s.desc.inAddr.toNat + s.desc.inLen.toNat ≤ Config.hostSpace := of_decide_eq_true (h.buffers.in_space hj)
  by_cases htail : s.tailFed = true
  · rw [feedAvail_ragged htail hspace hlt] at hfeed
    cases hfeed
  · rw [feedAvail_ok hn (by simpa using htail) hspace hlt] at hfeed
    dsimp only at hfeed
    split at hfeed <;> cases hfeed
    · refine (h.fed hf (fifo := s.ififo ++ _) ?_ ?_).of_visible rfl
      · simp
        omega
      · have := s.desc.inLen.isLt
        rw [BitVec.toNat_add, BitVec.toNat_ofNat]
        omega
    · refine (h.fed hf (fifo := s.ififo ++ _) ?_ (le_refl _)).of_visible rfl
      simp
      omega

/-- Where `FeedWords` begins to feed: after the refill of a buffer that is used up. -/
theorem Consistent.feedStart (h : Consistent s) (he : eligible .inp s = true)
    (hu : if s.desc.inOff = s.desc.inLen then Machine.refill s = .ok t else t = s) :
    Consistent t ∧ t.fsm = s.fsm ∧ t.ctx.method = s.ctx.method ∧ t.cfg = s.cfg ∧ t.ififo = s.ififo ∧
      (t.ctx.pauseIn = false → t.desc.inOff.toNat < t.desc.inLen.toNat) := by
  obtain ⟨hf, -⟩ := eligible_inp.mp he
  have hj := h.modes.in_job_of_method (method_ne_none_of_fifo hf)
  split at hu
  · have hfree : DinFree s := fun hd => by simp [not_dma_of_fifo (fifoMethod_iff.mpr hf)] at hd
    obtain ⟨-, hm, -, -, hfsm, hcfg, hfifo, hzero, hlen⟩ := refill_leaves hu
    refine ⟨h.refill hj hfree (off := s.desc.inOff) hu, hfsm, hm, hcfg, hfifo, fun hp => ?_⟩
    rw [hzero]
    exact Nat.pos_of_ne_zero fun h0 => hlen hp (BitVec.eq_of_toNat_eq h0)
  · next hoff =>
    subst hu
    exact ⟨h, rfl, rfl, rfl, rfl, fun _ =>
      lt_of_le_of_ne h.buffers.in_off fun e => hoff (BitVec.eq_of_toNat_eq e)⟩

theorem Consistent.handleIn (h : Consistent s) (he : eligible .inp s = true) (hs : handleIn s = .ok t) : Consistent t := by
  obtain ⟨hf, -⟩ := eligible_inp.mp he
  have hj := h.modes.in_job_of_method (method_ne_none_of_fifo hf)
  rw [← fifoMethod_iff] at hf
  obtain ⟨hn, hroom⟩ := inCount_fits he
  obtain ⟨u, hu, hfeed⟩ := feedWords_ok.mp hs
  obtain ⟨hcu, hfsm, hm, hcfg, hfifo, hlt⟩ := h.feedStart he hu
  split at hfeed
  · rwa [hfeed]
  · next hp =>
    exact hcu.feedAvail (by rwa [hfsm]) (by rwa [fifoMethod_iff, hm, ← fifoMethod_iff]) hn (by rwa [hfifo, hcfg])
      (hlt (by simpa using hp)) hfeed

/-! ## The other handlers -/

theorem Consistent.notify (h : Consistent s) {e : Effect} (hn : notify e s = .ok t) : Consistent t := by
  obtain ⟨-, rfl⟩ := notify_ok.mp hn
  exact h.of_visible rfl

theorem Consistent.handleErr (h : Consistent s) (hs : handleErr s = .ok t) : Consistent t :=
  h.takeTransferError.notify hs

theorem Consistent.handleHpd (h : Consistent s) (he : eligible .hpd s = true) (hs : handleHpd s = .ok t) :
    Consistent t := by
  obtain ⟨hm, hen, -⟩ := eligible_hpd.mp he
  have hj := h.modes.in_job_of_method hm
  have hrun := h.enables.run_of_ne_reset h.modes fun hr => by simp [hr, Cr.reset] at hen
  refine Consistent.notify ?_ hs
  obtain ⟨h1, h2, h3, h4, h5, h6⟩ := h.enables
  obtain ⟨t1, t2, t3, t4, t5, t6, t7, -⟩ := h.tables
  exact
    { modes := h.modes.congr
      enables := ⟨fun hst => absurd hst (not_or.mpr (h.modes.of_run hrun)), h2, h3, h4, nofun, fun hi => absurd hi hj⟩
      fifos := h.fifos.congr
      tables := ⟨t1, t2, t3, t4, t5, t6, t7, Nat.zero_le _⟩
      buffers := h.buffers.congr
      engines := h.engines.congr
      streams := h.streams.congr }

theorem Consistent.handleOut (h : Consistent s) (he : eligible .out s = true) (hs : handleOut s = .ok t) :
    Consistent t :=
  h.storeWords (h.modes.in_job_of_method (method_ne_none_of_fifo (eligible_out.mp he).1)) hs

theorem Consistent.handleEoc (h : Consistent s) (he : eligible .eoc s = true)
    (hc : s.ctx.dmaMethod = true → s.dout.cplt = false) (hs : handleEoc s = .ok t) : Consistent t := by
  obtain ⟨hm, -⟩ := eligible_eoc.mp he
  have hstop := h.stopSources (h.modes.in_job_of_method hm)
  unfold Machine.handleEoc at hs
  dsimp only at hs
  split at hs
  · next hd =>
    have hasked := hstop.setAborts hd s.din.requestAbort_others s.dout.requestAbort_others
    split at hs
    · cases hs
      exact hasked
    · exact hasked.finishFromDma hd rfl (s.dout.requestAbort_others.2.2.2.2.trans (hc hd)) hs
  · exact hstop.finish rfl hs

theorem Consistent.handleDmaAbort (h : Consistent s) (he : eligible .dmaAbort s = true)
    (hc : s.ctx.dmaMethod = true → s.dout.cplt = false) (hs : handleDmaAbort s = .ok t) : Consistent t := by
  obtain ⟨-, hend, hab⟩ := eligible_dmaAbort.mp he
  have hd := h.engines.abort_dma (.inr (.inr hab))
  have htaken := h.setAborts hd (din := { s.din with aborted := false }) (dout := { s.dout with aborted := false })
    ⟨rfl, rfl, rfl, rfl, rfl⟩ ⟨rfl, rfl, rfl, rfl, rfl⟩
  unfold Machine.handleDmaAbort at hs
  dsimp only at hs
  split at hs
  · cases hs
    exact htaken
  · exact htaken.finishFromDma hd hend (hc hd) hs

/-- A block of `DIN` is reported. -/
theorem Consistent.dinReported (h : Consistent s) : Consistent { s with din := { s.din with cplt := false } } := by
  obtain ⟨h1, h2, -, h4, h5, h6, h7, h8, h9, h10⟩ := h.engines
  exact h.setDin ⟨h1, h2, fun _ => rfl, h4, h5, h6, h7, h8, fun hd hf => h9 hd (hf.imp id nofun), h10⟩

theorem Consistent.handleDmaInCplt (h : Consistent s) (he : eligible .dmaInCplt s = true)
    (hs : handleDmaInCplt s = .ok t) : Consistent t := by
  obtain ⟨hm, hc⟩ := eligible_dmaInCplt.mp he
  have hd := dmaMethod_iff.mpr hm
  have hfree : DinFree { s with din := { s.din with cplt := false } } := fun _ => by
    refine ⟨Bool.eq_false_iff.mpr fun hb => ?_, rfl⟩
    simp [h.engines.din_one hb] at hc
  obtain ⟨u, hu, hr⟩ := bind_eq_ok.mp hs
  have hcu := h.dinReported.refill (h.modes.in_job_of_dma hd) hfree hu
  obtain ⟨hdin, hmu, -, -, -, -, -, hzero, -⟩ := refill_leaves hu
  rw [pure_eq_ok] at hr
  subst hr
  split
  · next hgo =>
    simp only [Bool.and_eq_true, decide_eq_true_eq] at hgo
    have hne : u.desc.inOff ≠ u.desc.inLen := fun e => by
      rw [← e, hzero] at hgo
      simp at hgo
    exact hcu.primeIn (by rw [dmaMethod_iff, hmu]; exact hm) (by rw [hdin]) hne
  · exact hcu

/-- A block of `DOUT` is reported: the next one starts from the beginning. -/
theorem Consistent.doutReported (h : Consistent s) (hd : s.ctx.dmaMethod = true) : Consistent { s with
    dout := { s.dout with cplt := false, done := 0#32 }, desc := { s.desc with outOff := 0#32 } } := by
  obtain ⟨h1, h2, h3, h4, h5, h6, h7, h8, h9, h10⟩ := h.engines
  obtain ⟨-, hlen, hg⟩ := h4 hd
  have hpos := (primeOut_block s.cfg.granOut hg).2
  have hready := h.outReady (h.modes.in_job_of_dma hd)
  have hoff : OutReady { s.desc with outOff := 0#32 } :=
    ⟨hready.space, (Nat.zero_le _).trans_lt hready.off, hready.words.1, rfl⟩
  refine ((h.setOutOff hoff).setDout (d := { s.dout with cplt := false, done := 0#32 }) ?_).of_visible rfl
  exact ⟨h1, h2, h3, h4, fun _ => ⟨Nat.zero_le _, Nat.zero_mod _⟩, fun _ _ => hpos.trans_eq hlen.symm,
    fun _ _ => rfl, h8, h9, h10⟩

theorem Consistent.handleDmaOutCplt (h : Consistent s) (he : eligible .dmaOutCplt s = true)
    (hs : handleDmaOutCplt s = .ok t) : Consistent t := by
  have hd := dmaMethod_iff.mpr (eligible_dmaOutCplt.mp he).1
  obtain ⟨p, hp, hr⟩ := bind_eq_ok.mp hs
  simp only [pure_eq_ok] at hr
  subst hr
  have hframe := drain_frame hp
  have hreset : Consistent { p.2 with
      dout := { p.2.dout with done := 0#32 }, desc := { p.2.desc with outOff := 0#32 } } := by
    refine (h.doutReported hd).of_visible ?_
    rw [hframe]
    rfl
  have hprime : ∀ {v : State}, Consistent v → v.ctx.dmaMethod = true → v.dout.cplt = false →
      Consistent (if !v.ctx.pauseOut && !v.ctx.ending && v.cr.run then v.primeOut else v) := fun hv hdv hcv => by
    split
    · exact hv.primeOut hdv hcv
    · exact hv
  have hdma : p.2.ctx.dmaMethod = true := by rw [hframe]; exact hd
  have hcplt : p.2.dout.cplt = false := by rw [hframe]
  split
  · exact hprime (hreset.pauseOutput (hreset.modes.in_job_of_dma hdma)) hdma hcplt
  · exact hprime hreset hdma hcplt

/-! ## Taking an event and polling (43_transfer_fsm R214, R229) -/

/-- If the outcome is a next state, it is consistent. -/
def NextConsistent (r : Result) : Prop := ∀ t, r = .next t → Consistent t

theorem NextConsistent.next (h : Consistent s) : NextConsistent (.next s) := by
  rintro _ ⟨⟩
  exact h

theorem NextConsistent.fault {f : Fault} : NextConsistent (.fault f) := by
  rintro _ ⟨⟩

theorem NextConsistent.returnOk {data : Word} (h : Consistent s) : NextConsistent (returnOk data s) :=
  .next (h.of_visible rfl)

theorem NextConsistent.raiseError {e : ErrCode} (h : Consistent s) : NextConsistent (raiseError e s) :=
  .next (h.of_visible rfl)

theorem Consistent.takeEvent (h : Consistent s) {e : Event} {handler : State → Except Fault State}
    (hh : ∀ t, recordTaken e s = true → handler s = .ok t → Consistent t) : NextConsistent (takeEvent e handler s) := by
  intro t ht
  rcases takeEvent_next.mp ht with ⟨-, rfl⟩ | ⟨htaken, u, hu, rfl⟩
  · exact h.of_visible rfl
  · exact (hh u htaken hu).of_visible rfl

/-- A record of the end of conversion or of an abort is taken only once the output block is reported (log 11). -/
theorem dout_reported_of_taken {e : Event} (h : recordTaken e s = true) (he : e = .eoc ∨ e = .dmaAbort) :
    s.ctx.dmaMethod = true → s.dout.cplt = false := fun hd => by
  have := (recordTaken_iff.mp h).2.2 he
  simpa [dmaMethod_iff.mp hd] using this

/-- The meaning of an event record keeps the invariant. -/
theorem Consistent.execEvent (h : Consistent s) : ∀ e : Event, NextConsistent (exec e.instr s)
  | .err => h.takeEvent fun _ _ hs => h.handleErr hs
  | .hpd => h.takeEvent fun _ ht hs => h.handleHpd (eligible_of_taken ht) hs
  | .inp => h.takeEvent fun _ ht hs => h.handleIn (eligible_of_taken ht) hs
  | .out => h.takeEvent fun _ ht hs => h.handleOut (eligible_of_taken ht) hs
  | .eoc => h.takeEvent fun _ ht hs => h.handleEoc (eligible_of_taken ht) (dout_reported_of_taken ht (.inl rfl)) hs
  | .dmaInCplt => h.takeEvent fun _ ht hs => h.handleDmaInCplt (eligible_of_taken ht) hs
  | .dmaOutCplt => h.takeEvent fun _ ht hs => h.handleDmaOutCplt (eligible_of_taken ht) hs
  | .dmaAbort => h.takeEvent fun _ ht hs =>
    h.handleDmaAbort (eligible_of_taken ht) (dout_reported_of_taken ht (.inr rfl)) hs

/-- One event of a pass, and one that does not run. -/
theorem pollEvent_ok {e : Event} {handler : State → Except Fault State} {p r : Word × State}
    (h : pollEvent e handler p = .ok r) : r = p ∧ eligible e p.2 = false ∨ eligible e p.2 = true ∧ handler p.2 = .ok r.2 := by
  unfold pollEvent at h
  split at h
  · next he =>
    obtain ⟨u, hu, hr⟩ := bind_eq_ok.mp h
    cases hr
    exact .inr ⟨he, hu⟩
  · next he =>
    cases h
    exact .inl ⟨rfl, by simpa using he⟩

theorem handleErr_method (h : handleErr s = .ok t) : t.ctx.method = none := by
  obtain ⟨-, rfl⟩ := notify_ok.mp h
  rfl

theorem handleHpd_ctx (h : handleHpd s = .ok t) : t.ctx = s.ctx := by
  obtain ⟨-, rfl⟩ := notify_ok.mp h
  rfl

/-- All that the words of the input path may change. -/
theorem feedAvail_frame {n : Nat} (h : Machine.feedAvail n s = .ok t) : t = { s with
    ififo := t.ififo, tailFed := t.tailFed, desc := { s.desc with inOff := t.desc.inOff } } := by
  have hword : ∀ {m : Nat} {s t : State}, feedWord m s = .ok t → t = { s with
      ififo := t.ififo, tailFed := t.tailFed, desc := { s.desc with inOff := t.desc.inOff } } := fun hw => by
    obtain ⟨-, -, rfl⟩ := feedWord_ok.mp hw
    rfl
  have hwhole : ∀ {n : Nat} {s t : State}, feedWhole n s = .ok t → t = { s with
      ififo := t.ififo, tailFed := t.tailFed, desc := { s.desc with inOff := t.desc.inOff } } := fun {n} => by
    induction n with
    | zero => rintro s t ⟨⟩; rfl
    | succ n ih =>
      intro s t hw
      obtain ⟨u, hu, hr⟩ := bind_eq_ok.mp hw
      have h1 := hword hu
      have h2 := ih hr
      generalize u.ififo = fifo, u.tailFed = tail, u.desc.inOff = off at h1
      subst h1
      exact h2
  unfold Machine.feedAvail at h
  split at h
  · exact hwhole h
  · exact hword h

theorem handleIn_method (h : handleIn s = .ok t) : t.ctx.method = s.ctx.method := by
  obtain ⟨u, hu, hr⟩ := feedWords_ok.mp h
  have hum : u.ctx.method = s.ctx.method := by
    split at hu
    · exact (refill_leaves hu).2.1
    · rw [hu]
  rw [← hum]
  split at hr
  · rw [hr]
  · rw [feedAvail_frame hr]

theorem handleOut_method (h : handleOut s = .ok t) : t.ctx.method = s.ctx.method := by
  obtain ⟨-, hp⟩ := storeWords_frame h
  rcases hp with ⟨hctx, -⟩ | ⟨hctx, -⟩ <;> rw [hctx]
  rfl

/-- Where the handlers of a pass run: in method `Poll`, or after one of them has ended the job. -/
structure PollReady (s : State) : Prop where
  consistent : Consistent s
  no_dma : s.ctx.dmaMethod = false

theorem PollReady.start (h : Consistent s) (hm : s.ctx.method = some .poll) : PollReady s :=
  ⟨h, by simp [Ctx.dmaMethod, hm]⟩

theorem PollReady.step (h : PollReady s) (hm : t.ctx.method = s.ctx.method) (ht : Consistent t) : PollReady t := by
  refine ⟨ht, ?_⟩
  have hno := h.no_dma
  rw [← Bool.not_eq_true, dmaMethod_iff] at *
  rwa [hm]

/-- One event of a pass, given what its handler does. -/
theorem PollReady.event {e : Event} {handler : State → Except Fault State} {p r : Word × State} (h : PollReady p.2)
    (he : pollEvent e handler p = .ok r)
    (hrun : eligible e p.2 = true → handler p.2 = .ok r.2 → PollReady r.2) : PollReady r.2 := by
  rcases pollEvent_ok he with ⟨rfl, -⟩ | ⟨hel, hok⟩
  · exact h
  · exact hrun hel hok

theorem PollReady.err {p r : Word × State} (h : PollReady p.2) (he : pollEvent .err Machine.handleErr p = .ok r) :
    PollReady r.2 :=
  h.event he fun _ hs => ⟨h.consistent.handleErr hs, by simp [Ctx.dmaMethod, handleErr_method hs]⟩

theorem PollReady.hpd {p r : Word × State} (h : PollReady p.2) (he : pollEvent .hpd Machine.handleHpd p = .ok r) :
    PollReady r.2 :=
  h.event he fun hel hs => h.step (by rw [handleHpd_ctx hs]) (h.consistent.handleHpd hel hs)

theorem PollReady.inp {p r : Word × State} (h : PollReady p.2) (he : pollEvent .inp Machine.handleIn p = .ok r) :
    PollReady r.2 :=
  h.event he fun hel hs => h.step (handleIn_method hs) (h.consistent.handleIn hel hs)

theorem PollReady.out {p r : Word × State} (h : PollReady p.2) (he : pollEvent .out Machine.handleOut p = .ok r) :
    PollReady r.2 :=
  h.event he fun hel hs => h.step (handleOut_method hs) (h.consistent.handleOut hel hs)

/-- A pass of `POLL` runs its handlers in method `Poll`, until one of them ends the job. -/
theorem Consistent.pollPass (h : Consistent s) (hm : s.ctx.method = some .poll) {p : Word × State}
    (hp : pollPass s = .ok p) : Consistent p.2 := by
  obtain ⟨p1, h1, hp⟩ := bind_eq_ok.mp hp
  obtain ⟨p2, h2, hp⟩ := bind_eq_ok.mp hp
  obtain ⟨p3, h3, hp⟩ := bind_eq_ok.mp hp
  obtain ⟨p4, h4, h5⟩ := bind_eq_ok.mp hp
  have hready : PollReady p4.2 := ((((PollReady.start h hm).err h1).hpd h2).inp h3).out h4
  rcases pollEvent_ok h5 with ⟨rfl, -⟩ | ⟨he, hs⟩
  · exact hready.consistent
  · exact hready.consistent.handleEoc he (fun hd => by simp [hready.no_dma] at hd) hs

theorem Consistent.execPoll (h : Consistent s) : NextConsistent (execPoll s) := by
  unfold Machine.execPoll
  split
  · exact .returnOk h
  next hm =>
    split
    · next hp => exact .returnOk (h.pollPass (not_not.mp hm) hp)
    · exact .fault

/-! ## Pauses, resumptions, start and abort -/

theorem Consistent.pauseDirs (h : Consistent s) (hj : s.fsm ≠ .idle) (dir : DirSet) : Consistent (pauseDirs dir s) := by
  have hin : Consistent (if dir.input then s.pauseInput else s) ∧ (if dir.input then s.pauseInput else s).fsm ≠ .idle := by
    split
    · exact ⟨h.pauseInput hj, hj⟩
    · exact ⟨h, hj⟩
  unfold Machine.pauseDirs
  dsimp only
  split
  · exact hin.1.pauseOutput hin.2
  · exact hin.1

theorem Consistent.resumeInput (h : Consistent s) (hj : s.fsm ≠ .idle) (hr : resumeInput s = some t) : Consistent t := by
  unfold Machine.resumeInput at hr
  dsimp only at hr
  split at hr
  · cases hr; exact h
  split at hr
  · cases hr
  next hdata =>
    split at hr
    · next hend =>
      cases hr
      exact h.setPauses_of_unmasked hj (.inl hend) false s.ctx.pauseOut
    next hend =>
      have hend : s.ctx.ending = false := by simpa using hend
      split at hr
      · next hf =>
        cases hr
        exact h.resumeFifoInput hj hend hf
      next hf =>
        have hd : s.ctx.dmaMethod = true := (h.modes.fifo_or_dma hj).resolve_left hf
        have hun := h.setPauses_of_unmasked hj (.inr hd) false s.ctx.pauseOut
        split at hr
        · next hfree =>
          cases hr
          simp only [Bool.and_eq_true, Bool.not_eq_true'] at hfree
          have hne : s.desc.inOff ≠ s.desc.inLen := by simpa [hd, hend] using hdata
          exact hun.primeIn hd hfree.2 hne
        · cases hr
          exact hun

theorem Consistent.resumeOutput (h : Consistent s) (hj : s.fsm ≠ .idle) (hr : resumeOutput s = .ok t) : Consistent t := by
  unfold Machine.resumeOutput at hr
  dsimp only at hr
  split at hr
  · cases hr; exact h
  split at hr
  · next hend => exact (h.setPauses_of_unmasked hj (.inl hend) s.ctx.pauseIn false).finish hend hr
  next hend =>
    have hend : s.ctx.ending = false := by simpa using hend
    split at hr
    · next hf =>
      cases hr
      exact h.resumeFifoOutput hj hend hf
    next hf =>
      have hd : s.ctx.dmaMethod = true := (h.modes.fifo_or_dma hj).resolve_left hf
      have hun := h.setPauses_of_unmasked hj (.inr hd) s.ctx.pauseIn false
      split at hr
      · next hfree =>
        cases hr
        simp only [Bool.and_eq_true, Bool.not_eq_true'] at hfree
        exact hun.primeOut hd hfree.2
      · cases hr
        exact hun

theorem resumeInput_fsm (h : Machine.resumeInput s = some t) : t.fsm = s.fsm := by
  unfold Machine.resumeInput at h
  dsimp only at h
  split at h
  · cases h; rfl
  split at h
  · cases h
  split at h
  · cases h; rfl
  split at h
  · cases h; rfl
  split at h <;> cases h <;> rfl

theorem Consistent.execResume (h : Consistent s) (dir : DirSet) : NextConsistent (execResume dir s) := by
  unfold Machine.execResume
  split
  · exact .returnOk h
  next hj =>
    split
    · exact .raiseError h
    next u hin =>
      have hu : Consistent u ∧ u.fsm ≠ .idle := by
        split at hin
        · exact ⟨h.resumeInput hj hin, by rwa [resumeInput_fsm hin]⟩
        · cases hin; exact ⟨h, hj⟩
      split
      · next v hout =>
        refine .returnOk ?_
        split at hout
        · exact hu.1.resumeOutput hu.2 hout
        · cases hout; exact hu.1
      · exact .fault

theorem Consistent.execPause (h : Consistent s) (dir : DirSet) : NextConsistent (execPause dir s) := by
  unfold Machine.execPause
  split
  · exact .returnOk h
  · next hj => exact .returnOk (h.pauseDirs hj dir)

theorem Consistent.execStart (h : Consistent s) (op : JobOp) (m : Method) : NextConsistent (execStart op m s) := by
  unfold Machine.execStart
  split
  · exact .raiseError h
  split
  · exact .raiseError h
  next hargs =>
    split
    · exact .fault
    · next hover => exact .returnOk (h.startWith (by simpa using hargs) (by simpa using hover))

theorem Consistent.execAbort (h : Consistent s) : NextConsistent (execAbort s) := by
  unfold Machine.execAbort
  split
  · exact .returnOk h
  split
  · exact .raiseError h
  · exact .returnOk h.abortJob

/-! ## The input descriptor and the Streaming Buffer Manager -/

/-- Where the task context may write the input descriptor, no block of `DIN` stands on it. -/
theorem dinFree_of_writable (hj : s.fsm ≠ .idle) (hw : inputWritable s = true) : DinFree s := fun _ =>
  ((inputWritable_job hj).mp hw).2

theorem Consistent.writeInput (h : Consistent s) (hw : inputWritable s = true) (addr len : Word) :
    NextConsistent (finishInputWrite { s with desc := s.desc.withInput addr len }) := by
  unfold finishInputWrite
  split
  · next hi => exact .returnOk (h.setDesc_of_idle hi (Nat.zero_le _))
  next hj =>
    split
    · exact .fault
    · next hok => exact .returnOk (h.newInput (dinFree_of_writable hj hw) hok)

theorem Consistent.execWrd (h : Consistent s) (reg : DescReg) (value : Word) : NextConsistent (execWrd reg value s) := by
  cases reg with
  | inAddr =>
    unfold Machine.execWrd
    dsimp only
    split
    · next hw => exact h.writeInput hw value s.desc.inLen
    · exact .raiseError h
  | inLen =>
    unfold Machine.execWrd
    dsimp only
    split
    · next hw => exact h.writeInput hw s.desc.inAddr value
    · exact .raiseError h
  | outAddr =>
    unfold Machine.execWrd
    dsimp only
    split
    · next hi => exact .returnOk (h.setDesc_of_idle hi h.buffers.in_off)
    · exact .raiseError h
  | outLen =>
    unfold Machine.execWrd
    dsimp only
    split
    · next hi => exact .returnOk (h.setDesc_of_idle hi h.buffers.in_off)
    · exact .raiseError h

/-- An update of the manager's registers. -/
theorem Consistent.setSb (h : Consistent s) {b : StreamBuffers} (hb : Streams { s with sb := b }) :
    Consistent { s with sb := b } where
  modes := h.modes.congr
  enables := h.enables.congr
  fifos := h.fifos.congr
  tables := h.tables.congr
  buffers := h.buffers.congr
  engines := h.engines.congr
  streams := hb

/-- A command runs only between two `SBFILL`s, so `SBINIT` empties no buffer that one of them has filled. -/
theorem Consistent.execSbinit (h : Consistent s) (hf : s.sb.filling = none) : NextConsistent (execSbinit s) := by
  unfold Machine.execSbinit
  split
  · exact .raiseError h
  · refine .returnOk (h.setSb ⟨Nat.zero_le _, Nat.zero_le _, fun i hi => ?_⟩)
    simp [hf] at hi

/-- The state after the first step of an `SBFILL`. -/
theorem sbfillStep1_ok {len : Word} (h : sbfillStep1 len s = .ok t) : t.visible = ({ s with
    sb := { s.sb.setBuf s.sb.wr { full := true, len := len } with wr := s.sb.wr.flip, filling := some s.sb.wr } } :
      State).visible := by
  obtain ⟨u, hu, hr⟩ := bind_eq_ok.mp h
  obtain ⟨-, rfl⟩ := memWrite_ok.mp hu
  cases hr
  rfl

theorem Consistent.execSbfill (h : Consistent s) (len : Word) : NextConsistent (execSbfill len s) := by
  unfold Machine.execSbfill
  split
  · exact .raiseError h
  next hcap =>
    have hcap : len.toNat ≤ s.cfg.ibcap := Nat.le_of_not_lt hcap
    split
    · exact .returnOk h
    next hne =>
      split
      · exact .raiseError h
      split
      · next u hu =>
        refine .next (Consistent.of_visible (h.setSb ?_) (sbfillStep1_ok hu))
        cases hwr : s.sb.wr with
        | b0 =>
          refine ⟨hcap, h.streams.buf1, fun i hi => ?_⟩
          cases hi
          exact hne
        | b1 =>
          refine ⟨h.streams.buf0, hcap, fun i hi => ?_⟩
          cases hi
          exact hne
      · exact .fault

theorem Consistent.sbTakeBuffer (h : Consistent s) (hj : s.fsm ≠ .idle) {i : BufIdx} (ht : sbTakeBuffer i s = .ok t) :
    Consistent t ∧ t.fsm ≠ .idle := by
  have hwait : Consistent { s with sb := { s.sb with wait := false } } := h.setSb h.streams.congr
  unfold Machine.sbTakeBuffer at ht
  split at ht
  · next hw =>
    split at ht
    · cases ht
    · next hok =>
      cases ht
      exact ⟨hwait.newInput (dinFree_of_writable hj hw) hok, hj⟩
  · cases ht
    exact ⟨hwait, hj⟩

theorem Consistent.sbfillStep2 (h : Consistent s) (i : BufIdx) : NextConsistent (sbfillStep2 i s) := by
  have hdone : Consistent { s with sb := { s.sb with filling := none } } :=
    h.setSb ⟨h.streams.buf0, h.streams.buf1, nofun⟩
  unfold Machine.sbfillStep2
  dsimp only
  split
  · exact .returnOk hdone
  next hawaits =>
    have hj : s.fsm ≠ .idle := by
      simp only [sbAwaits, Bool.not_eq_true', Bool.not_eq_false, Bool.and_eq_true, decide_eq_true_eq] at hawaits
      exact hawaits.2
    split
    · exact .fault
    next u hu =>
      obtain ⟨hcu, huj⟩ := hdone.sbTakeBuffer hj hu
      split
      · next v hv => exact .returnOk (hcu.resumeInput huj hv)
      · exact .raiseError hdone

end Sys2Proof.Machine
end

section
/-! The invariant under the programming and load commands, and under every step (O8). -/

namespace Sys2Proof.Machine

open Sys2Proof

-- One proof after the other: side by side they take more threads than the check's memory limit has room for.
set_option Elab.async false

variable {s t : State}

/-! ## The operand registers (10_state R21 to R23) -/

theorem Tables.shape (h : Tables s) : ∀ k, slotShape s k = true
  | .dc0 => h.dc0
  | .ac0 => h.ac0
  | .dc1 => h.dc1
  | .ac1 => h.ac1

/-- The files of a slot: their lengths, and that a valid table is complete. -/
theorem slotShape_iff {k : Slot} : slotShape s k = true ↔
    (s.hspec.get k).bits.length = 16 ∧ (s.hspec.get k).vals.length = k.size ∧
    (s.hct.get k).len.length = k.size ∧ (s.hct.get k).code.length = k.size ∧
    ((s.hct.get k).valid = true → ¬ TableUnwritten s k) := by
  simp only [slotShape, Bool.and_eq_true, decide_eq_true_eq, and_assoc, Bool.or_eq_true, Bool.not_eq_true',
    TableUnwritten, ← readTable_eq_none, Option.isSome_iff_ne_none, ← Bool.not_eq_true, imp_iff_not_or]

/-- An update of the operand registers and of what follows from them. -/
structure TablesSet (s t : State) : Prop where
  shape : ∀ k, slotShape t k = true
  baselines : t.baseline.length = s.cfg.nq
  baseline : ∀ b ∈ t.baseline, b.length = 64
  cfg_huff : t.ctx.cfgHuff = (t.prgRaw.all && t.prgEnc.all)
  quality : t.info.quality.toNat ≤ 100
  others : t.visible = ({ s with
    hspec := t.hspec, hct := t.hct, baseline := t.baseline, prgRaw := t.prgRaw, prgEnc := t.prgEnc, info := t.info
    ctx := { s.ctx with cfgHuff := t.ctx.cfgHuff, cfgQuant := t.ctx.cfgQuant } } : State).visible

theorem Modes.setConfigDone (h : Modes s) (hfsm : t.fsm = s.fsm) {huff quant : Bool}
    (hctx : t.ctx = { s.ctx with cfgHuff := huff, cfgQuant := quant }) (hrun : t.cr.run = s.cr.run) : Modes t := by
  obtain ⟨h1, h2, h3, h4, h5, h6, h7, h8⟩ := h
  constructor <;> simp only [hfsm, hctx, hrun] <;> assumption

theorem Enables.setConfigDone (h : Enables s) (hfsm : t.fsm = s.fsm) {huff quant : Bool}
    (hctx : t.ctx = { s.ctx with cfgHuff := huff, cfgQuant := quant }) (hcr : t.cr = s.cr) (hsr : t.sr = s.sr) :
    Enables t := by
  obtain ⟨h1, h2, h3, h4, h5, h6⟩ := h
  constructor <;> simp only [hfsm, hctx, hcr, hsr] <;> assumption

theorem Consistent.setTables (h : Consistent s) (ht : TablesSet s t) : Consistent t := by
  suffices hu : Consistent { s with
      hspec := t.hspec, hct := t.hct, baseline := t.baseline, prgRaw := t.prgRaw, prgEnc := t.prgEnc, info := t.info
      ctx := { s.ctx with cfgHuff := t.ctx.cfgHuff, cfgQuant := t.ctx.cfgQuant } } from hu.of_visible ht.others
  have hshape := ht.shape
  exact
    { modes := h.modes.setConfigDone rfl rfl rfl
      enables := h.enables.setConfigDone rfl rfl rfl rfl
      fifos := h.fifos.congr
      tables := ⟨hshape .dc0, hshape .ac0, hshape .dc1, hshape .ac1, ht.baselines, ht.baseline, ht.cfg_huff, ht.quality⟩
      buffers := h.buffers.congr
      engines := h.engines.congr
      streams := h.streams.congr }

/-! ## `BUILD`, `PROGC`, `PROGR` -/

theorem Consistent.buildWith (h : Consistent s) (k : Slot) (bits vals : List Byte) :
    Consistent (buildWith k bits vals s).state := by
  obtain ⟨-, hlen, hcode⟩ := buildWith_table k bits vals s
  have hwritten := buildWith_written k bits vals s
  have hframe := buildWith_frame k bits vals s
  have hspec : (Machine.buildWith k bits vals s).state.hspec = s.hspec := by rw [hframe]
  refine h.setTables ⟨fun k' => ?_, ?_, ?_, ?_, ?_, ?_⟩
  · by_cases hk : k' = k
    · subst hk
      obtain ⟨hb, hv, -⟩ := slotShape_iff.mp (h.tables.shape k')
      exact slotShape_iff.mpr ⟨by rwa [hspec], by rwa [hspec], hlen, hcode, fun _ => hwritten⟩
    · have hhct : (Machine.buildWith k bits vals s).state.hct.get k' = s.hct.get k' := by
        rw [hframe]
        exact PerSlot.get_set_ne _ _ hk
      rw [slotShape_congr (by rw [hspec]) hhct]
      exact h.tables.shape k'
  · rw [hframe]; exact h.tables.baselines
  · rw [hframe]; exact h.tables.baseline
  · rw [hframe]; exact h.tables.cfg_huff
  · rw [hframe]; exact h.tables.quality
  · rw [hframe]; rfl

theorem Consistent.buildSlot (h : Consistent s) {k : Slot} {b : Built} (hb : buildSlot k s = some b) :
    Consistent b.state := by
  obtain ⟨bits, vals, rfl⟩ := buildSlot_some hb
  exact h.buildWith k bits vals

theorem Consistent.execBuild (h : Consistent s) (k : Slot) : NextConsistent (execBuild k s) := by
  unfold Machine.execBuild
  split
  · exact .fault
  split
  · exact .fault
  next hb =>
    split
    · exact .returnOk (h.buildSlot hb)
    · exact .raiseError (h.buildSlot hb)

/-- The programmed bits and the flag that follows from them. -/
theorem Consistent.setProgrammed (h : Consistent s) (raw enc : PerSlot Bool) :
    Consistent { s with prgRaw := raw, prgEnc := enc, ctx := { s.ctx with cfgHuff := raw.all && enc.all } } :=
  h.setTables ⟨h.tables.shape, h.tables.baselines, h.tables.baseline, rfl, h.tables.quality, rfl⟩

theorem programRegion_visible (hi : s.fsm = .idle) (r : Slot) (table : ReadTable) :
    (programRegion r table s).visible = ({ s with
      prgEnc := s.prgEnc.set r true
      ctx := { s.ctx with cfgHuff := s.prgRaw.all && (s.prgEnc.set r true).all } } : State).visible := by
  unfold programRegion
  dsimp only
  rw [tWriteAll_frame]
  simp only [State.visible, hi]
  rfl

theorem Consistent.programRegion (h : Consistent s) (hi : s.fsm = .idle) (r : Slot) (table : ReadTable) :
    Consistent (programRegion r table s) :=
  (h.setProgrammed s.prgRaw (s.prgEnc.set r true)).of_visible (programRegion_visible hi r table)

theorem buildSlot_fsm {k : Slot} {b : Built} (hb : Machine.buildSlot k s = some b) : b.state.fsm = s.fsm := by
  obtain ⟨bits, vals, rfl⟩ := buildSlot_some hb
  rw [buildWith_frame]

theorem Consistent.programFrom (h : Consistent s) (hi : s.fsm = .idle) (r k : Slot) :
    NextConsistent (programFrom r k s) := by
  unfold Machine.programFrom
  split
  · split
    · exact .fault
    · exact .returnOk (h.programRegion hi _ _)
  split
  · exact .fault
  next hb =>
    split
    · exact .raiseError (h.buildSlot hb)
    split
    · exact .fault
    · exact .returnOk ((h.buildSlot hb).programRegion (by rw [buildSlot_fsm hb, hi]) _ _)

theorem Consistent.execProgc (h : Consistent s) (addr : BitVec 16) (src : Option Slot) :
    NextConsistent (execProgc addr src s) := by
  unfold Machine.execProgc
  split
  · exact .fault
  next hi =>
    split
    · exact .raiseError h
    split
    · exact .returnOk h
    split
    · exact .raiseError h
    · exact h.programFrom (not_not.mp hi) _ _

/-- All that `PROGR` writes, but for `TMEM` and its history: the programmed bits. -/
theorem programSlots_visible {mask : SlotSet} {slots : List Slot} (h : programSlots mask slots s = some t) :
    t.visible = ({ s with prgRaw := t.prgRaw } : State).visible := by
  induction slots generalizing s with
  | nil => cases h; rfl
  | cons k rest ih =>
    rw [programSlots] at h
    split at h
    · split at h
      · cases h
      · next spec _ =>
        rw [ih h, programRaw_frame]
        rfl
    · exact ih h

theorem Consistent.execProgr (h : Consistent s) (mask : SlotSet) : NextConsistent (execProgr mask s) := by
  unfold Machine.execProgr
  split
  · exact .fault
  next hi =>
    split
    · exact .fault
    next u hu =>
      have hwritten := programSlots_visible hu
      refine .returnOk ((h.setProgrammed u.prgRaw s.prgEnc).of_visible ?_)
      simp only [State.visible, Prod.mk.injEq] at hwritten
      simp_all [State.visible]

/-! ## `LDB`, `QGEN`, `QEST` -/

theorem length_getD_of_forall {α : Type} {l : List (List α)} {n : Nat} (h : ∀ b ∈ l, b.length = n) {i : Nat}
    (hi : i < l.length) : (l.getD i []).length = n := by
  rw [List.getD_eq_getElem _ _ hi]
  exact h _ (List.getElem_mem hi)

/-- A load into an `HSPEC` file keeps the lengths and makes the slot's table invalid (45_register_access R280). -/
theorem Consistent.loadSpec (h : Consistent s) (k : Slot) {spec : HuffSpec}
    (hb : spec.bits.length = (s.hspec.get k).bits.length) (hv : spec.vals.length = (s.hspec.get k).vals.length) :
    Consistent (({ s with hspec := s.hspec.set k spec } : State).specChanged k) := by
  refine h.setTables ⟨fun k' => ?_, h.tables.baselines, h.tables.baseline, rfl, h.tables.quality, rfl⟩
  obtain ⟨hbits, hvals, hlen, hcode, hvalid⟩ := slotShape_iff.mp (h.tables.shape k')
  by_cases hk : k' = k
  · subst hk
    refine slotShape_iff.mpr ?_
    simp [State.specChanged, hb, hv, hbits, hvals, hlen, hcode]
  · rw [slotShape_congr (s := s) (PerSlot.get_set_ne _ _ hk) (PerSlot.get_set_ne _ _ hk)]
    exact h.tables.shape k'

theorem Consistent.loadByte (h : Consistent s) {file : LdbFile} {index : Nat} {data : Byte}
    (hq : ∀ q, file = .baseline q → q.toNat < s.cfg.nq) : Consistent (loadByte file index data s) := by
  cases file with
  | bits k => exact h.loadSpec k (by simp) rfl
  | vals k => exact h.loadSpec k rfl (by simp)
  | baseline q =>
    have hlen : (s.baselineOf q).length = 64 :=
      length_getD_of_forall h.tables.baseline (by rw [h.tables.baselines]; exact hq q rfl)
    refine h.setTables ⟨h.tables.shape, ?_, fun b hb => ?_, h.tables.cfg_huff, h.tables.quality, rfl⟩
    · simpa [Machine.loadByte] using h.tables.baselines
    · rcases List.mem_or_eq_of_mem_set hb with hold | rfl
      · exact h.tables.baseline b hold
      · simpa using hlen

theorem Consistent.execLdb (h : Consistent s) (file : LdbFile) (index : BitVec 8) (data : Byte) :
    NextConsistent (execLdb file index data s) := by
  unfold Machine.execLdb
  split
  · exact .raiseError h
  next hwf =>
    split
    · exact .fault
    · refine .returnOk (h.loadByte ?_)
      rintro q rfl
      simp only [Instr.wellFormed, LdbFile.indexOk, Bool.not_eq_true', Bool.not_eq_false, Bool.and_eq_true,
        decide_eq_true_eq] at hwf
      exact hwf.2

theorem Consistent.execQgen (h : Consistent s) (q : BitVec 4) (quality : BitVec 8) :
    NextConsistent (execQgen q quality s) := by
  unfold Machine.execQgen
  split
  · exact .raiseError h
  split
  · exact .fault
  next hi =>
    split
    · exact .raiseError h
    split
    · exact .fault
    · refine .returnOk (h.setTables (t := programQuant q _ _ s) ?_)
      rw [programQuant_frame]
      exact ⟨h.tables.shape, h.tables.baselines, h.tables.baseline, h.tables.cfg_huff, h.tables.quality,
        by simp only [State.visible, not_not.mp hi]⟩

theorem Consistent.execQest (h : Consistent s) (q : BitVec 4) : NextConsistent (execQest q s) := by
  unfold Machine.execQest
  split
  · exact .raiseError h
  split
  · exact .fault
  split
  · exact .fault
  split
  · exact .fault
  · next r hr =>
    have hle := estimate_le hr
    refine .returnOk (h.setTables ⟨h.tables.shape, h.tables.baselines, h.tables.baseline, h.tables.cfg_huff, ?_, rfl⟩)
    change (BitVec.ofNat 7 r).toNat ≤ 100
    rw [BitVec.toNat_ofNat]
    omega

/-! ## Every instruction and every step -/

/-- The state with the next input taken. -/
def State.inputTaken (s : State) : State := { s with inputs := s.inputs.tail }

/-- The ways a step answers (20_memory R80): an instruction that is fetched, the second step of an `SBFILL`, a word that is no
command, a step with nothing to do, and the steps of the agents that run no instruction. -/
inductive StepKind (s : State) : Result → Prop
  | run (i : Instr) (hf : fetch s = .run i s.inputTaken) (hsb : i.isEvent = false → s.sb.filling = none) :
      StepKind s (exec i s.inputTaken)
  | fill (k : BufIdx) (u : State) (hk : s.sb.filling = some k) (hu : u = { s with inputs := u.inputs })
      (hf : fetch s = .outcome (sbfillStep2 k u)) : StepKind s (sbfillStep2 k u)
  | illegal : StepKind s (illegalCommand s.inputTaken)
  | still (t : State) (ht : t = { s with inputs := t.inputs, lastEvent := t.lastEvent }) : StepKind s (.next t)
  | din (rest : List Stimulus) (hin : s.inputs = .din :: rest) : StepKind s (agentOutcome (dinStep s.inputTaken))
  | dinError : StepKind s (.next (dinErrorStep s.inputTaken))
  | dout : StepKind s (agentOutcome (doutStep s.inputTaken))
  | doutError : StepKind s (.next (doutErrorStep s.inputTaken))
  | core (a : CoreAct) (rest : List Stimulus) (hin : s.inputs = .core a :: rest) :
      StepKind s (.next (coreStep a s.inputTaken))
  | host (a : HostAct) (rest : List Stimulus) (hin : s.inputs = .host a :: rest) :
      StepKind s (agentOutcome (hostStep a s.inputTaken))

/-- A word that decodes as an event record is one of the eight. -/
theorem decodeEvent_isEvent {w : Word} {i : Instr} (h : decodeEvent w = some i) : i.isEvent = true := by
  unfold decodeEvent at h
  split_ifs at h <;> cases h <;> rfl

theorem Event.instr_isEvent (e : Event) : e.instr.isEvent = true := by cases e <;> rfl

theorem stepKind_taskIdle {u : State} (hu : u = { s with inputs := u.inputs }) (hfetch : fetch s = taskIdle u) :
    StepKind s (step s) := by
  have hsb : u.sb.filling = s.sb.filling := by rw [hu]
  unfold step
  cases hk : s.sb.filling with
  | some k =>
    have hf : fetch s = .outcome (sbfillStep2 k u) := by rw [hfetch, taskIdle, hsb, hk]
    rw [hf]
    exact .fill k u hk hu hf
  | none =>
    rw [hfetch, taskIdle, hsb, hk]
    exact .still u (by rw [hu])

theorem step_kind (s : State) : StepKind s (step s) := by
  have hrun : ∀ {i : Instr}, fetch s = .run i s.inputTaken → (i.isEvent = false → s.sb.filling = none) →
      StepKind s (step s) := fun {i} hf hsb => by
    unfold step
    rw [hf]
    exact .run i hf hsb
  have houtcome : ∀ {r : Result}, fetch s = .outcome r → StepKind s r → StepKind s (step s) := fun hf hk => by
    unfold step
    rwa [hf]
  cases hin : s.inputs with
  | nil => exact stepKind_taskIdle rfl (by rw [fetch, hin])
  | cons x rest =>
    have htaken : s.inputTaken = { s with inputs := rest } := by rw [State.inputTaken, hin]; rfl
    cases x with
    | command cmd arg =>
      cases hk : s.sb.filling with
      | some k =>
        have hf : fetch s = .outcome (sbfillStep2 k s) := by simp only [fetch, hin, hk]
        exact houtcome hf (.fill k s hk rfl hf)
      | none =>
        have hf : fetch s = fetchCommand cmd arg s.inputTaken := by simp only [fetch, hin, hk, htaken]
        cases hd : decodeCommand s.inputTaken.cfg.nq cmd arg with
        | some i => exact hrun (by rw [hf, fetchCommand, hd]) fun _ => hk
        | none => exact houtcome (by rw [hf, fetchCommand, hd]) .illegal
    | task => exact stepKind_taskIdle (u := s.inputTaken) rfl (by simp only [fetch, hin, htaken])
    | event evt =>
      have hf : fetch s = fetchEvent evt s.inputTaken := by simp only [fetch, hin, htaken]
      cases hd : decodeEvent evt with
      | some i => exact hrun (by rw [hf, fetchEvent, hd]) fun hi => by simp [decodeEvent_isEvent hd] at hi
      | none => exact houtcome (by rw [hf, fetchEvent, hd]) (.still _ rfl)
    | irq =>
      have hf : fetch s = fetchIrq s.inputTaken := by simp only [fetch, hin, htaken]
      cases hd : irqEvent s.inputTaken with
      | some e => exact hrun (by rw [hf, fetchIrq, hd]) fun hi => by simp [Event.instr_isEvent] at hi
      | none => exact houtcome (by rw [hf, fetchIrq, hd]) (.still _ rfl)
    | din => exact houtcome (by simp only [fetch, hin, htaken]) (.din rest hin)
    | dinError => exact houtcome (by simp only [fetch, hin, htaken]) .dinError
    | dout => exact houtcome (by simp only [fetch, hin, htaken]) .dout
    | doutError => exact houtcome (by simp only [fetch, hin, htaken]) .doutError
    | core a => exact houtcome (by simp only [fetch, hin, htaken]) (.core a rest hin)
    | host a => exact houtcome (by simp only [fetch, hin, htaken]) (.host a rest hin)

/-- What a command finds of an `SBFILL`: none between its steps (44_stream_buffers R273). -/
theorem Consistent.exec (h : Consistent s) : ∀ i : Instr, (i.isEvent = false → s.sb.filling = none) → NextConsistent (exec i s)
  | .ldb file index data, _ => h.execLdb file index data
  | .wrd reg value, _ => h.execWrd reg value
  | .build k, _ => h.execBuild k
  | .progc addr src, _ => h.execProgc addr src
  | .progr mask, _ => h.execProgr mask
  | .qgen q quality, _ => h.execQgen q quality
  | .qest q, _ => h.execQest q
  | .start op m, _ => h.execStart op m
  | .pause dir, _ => h.execPause dir
  | .resume dir, _ => h.execResume dir
  | .poll, _ => h.execPoll
  | .abort, _ => h.execAbort
  | .getinfo _, _ => .returnOk h
  | .getstate, _ => .returnOk h
  | .geterr, _ => .returnOk h
  | .sbfill len, _ => h.execSbfill len
  | .sbinit, hf => h.execSbinit (hf rfl)
  | .evErr, _ => h.execEvent .err
  | .evHpd, _ => h.execEvent .hpd
  | .evIn, _ => h.execEvent .inp
  | .evOut, _ => h.execEvent .out
  | .evEoc, _ => h.execEvent .eoc
  | .evDmaInCplt, _ => h.execEvent .dmaInCplt
  | .evDmaOutCplt, _ => h.execEvent .dmaOutCplt
  | .evDmaAbort, _ => h.execEvent .dmaAbort

theorem NextConsistent.agent {r : Except Fault State} (h : ∀ {t}, r = .ok t → Consistent t) :
    NextConsistent (agentOutcome r) := by
  cases r with
  | ok t => exact .next (h rfl)
  | error f => exact .fault

theorem Consistent.hostStep (h : Consistent s) {a : HostAct} (hs : hostStep a s = .ok t) : Consistent t := by
  cases a with
  | write addr b => cases hs; exact h.of_visible rfl
  | writeBlockState => cases hs

theorem Consistent.step (h : Consistent s) : NextConsistent (step s) := by
  have htaken : Consistent s.inputTaken := h.of_visible rfl
  have hkind := step_kind s
  generalize Machine.step s = r at hkind
  cases hkind with
  | run i _ hsb => exact htaken.exec i hsb
  | fill k u _ hu _ => exact Consistent.sbfillStep2 (h.of_visible (by rw [hu]; rfl)) k
  | illegal => exact .raiseError htaken
  | still t ht => exact .next (h.of_visible (by rw [ht]; rfl))
  | din => exact .agent htaken.dinStep
  | dinError => exact .next htaken.dinErrorStep
  | dout => exact .agent htaken.doutStep
  | doutError => exact .next htaken.doutErrorStep
  | core a => exact .next (htaken.coreStep a)
  | host a => exact .agent htaken.hostStep

/-- Settles O8: the parameters and the memories by O9, every other part by the moves a step is made of. -/
theorem stepKeepsInv : Obligations.StepKeepsInv := by
  intro s t hs hstep
  obtain ⟨hmem, hcfg, -⟩ := stepKeepsMemory s t hstep
  have ht := hs.consistent.step t hstep
  exact
    { params := by rw [hcfg]; exact hs.params
      memory := hmem hs.memory
      modes := ht.modes
      enables := ht.enables
      fifos := ht.fifos
      tables := ht.tables
      buffers := ht.buffers
      engines := ht.engines
      streams := ht.streams }

end Sys2Proof.Machine
end

section
/-! The operand registers and the table memories during a job (O11, 10_state R40, R42): what each operation of a job leaves of
them, and that a programming or load command then ends in a fault. -/

namespace Sys2Proof.Machine

open Sys2Proof

-- One proof after the other: side by side they take more threads than the check's memory limit has room for.
set_option Elab.async false

variable {s t u : State}

/-! ## The relation -/

/-- The operand registers, the table memories and the flags that follow from them. -/
def State.operands (s : State) :=
  (s.hspec, s.hct, s.baseline, s.tmem, s.qmem, s.prgRaw, s.prgEnc, s.ctx.cfgHuff, s.ctx.cfgQuant)

/-- If the outcome is a next state, the operands are those of `s`. -/
def NextKeepsOperands (s : State) (r : Result) : Prop := ∀ t, r = .next t → t.operands = s.operands

theorem NextKeepsOperands.next (h : t.operands = s.operands) : NextKeepsOperands s (.next t) := by
  rintro _ ⟨⟩
  exact h

theorem NextKeepsOperands.fault {f : Fault} : NextKeepsOperands s (.fault f) := by
  rintro _ ⟨⟩

theorem NextKeepsOperands.of_fault {r : Result} {f : Fault} (h : r = .fault f) : NextKeepsOperands s r := h ▸ .fault

theorem NextKeepsOperands.returnOk {data : Word} (h : t.operands = s.operands) : NextKeepsOperands s (returnOk data t) :=
  .next h

theorem NextKeepsOperands.raiseError {e : ErrCode} (h : t.operands = s.operands) : NextKeepsOperands s (raiseError e t) :=
  .next h

theorem NextKeepsOperands.agent {r : Except Fault State} (h : ∀ {t}, r = .ok t → t.operands = s.operands) :
    NextKeepsOperands s (agentOutcome r) := by
  cases r with
  | ok t => exact .next (h rfl)
  | error f => exact .fault

/-! ## The operations of a job -/

theorem notify_operands {e : Effect} (h : notify e s = .ok t) : t.operands = s.operands := by
  obtain ⟨-, rfl⟩ := notify_ok.mp h
  rfl

theorem refill_operands (h : refill s = .ok t) : t.operands = s.operands := by
  obtain ⟨sb, host, draws, addr, len, -, -, ht⟩ := refill_cases h
  rcases ht with ⟨rfl, -⟩ | ⟨rfl, -⟩ <;> rfl

theorem storeWords_operands {n : Nat} (h : storeWords n s = .ok t) : t.operands = s.operands := by
  obtain ⟨hframe, hp⟩ := storeWords_frame h
  have hflags : t.ctx.cfgHuff = s.ctx.cfgHuff ∧ t.ctx.cfgQuant = s.ctx.cfgQuant := by
    rcases hp with ⟨hctx, -⟩ | ⟨hctx, -⟩ <;> rw [hctx] <;> exact ⟨rfl, rfl⟩
  rw [hframe]
  simp only [State.operands, hflags]

theorem complete_operands (h : complete s = .ok t) : t.operands = s.operands := by
  rw [complete_ok h]
  rfl

theorem finish_operands (h : finish s = .ok t) : t.operands = s.operands := by
  obtain ⟨u, hu, hr⟩ := bind_eq_ok.mp h
  refine Eq.trans ?_ (storeWords_operands hu)
  split at hr
  · exact complete_operands hr
  · cases hr; rfl

theorem finishFromDma_operands (h : finishFromDma s = .ok t) : t.operands = s.operands :=
  (finish_operands h).trans rfl

theorem handleErr_operands (h : handleErr s = .ok t) : t.operands = s.operands :=
  (notify_operands h).trans rfl

theorem handleHpd_operands (h : handleHpd s = .ok t) : t.operands = s.operands :=
  (notify_operands h).trans rfl

theorem handleIn_operands (h : handleIn s = .ok t) : t.operands = s.operands := by
  obtain ⟨u, hu, hr⟩ := feedWords_ok.mp h
  have hstart : u.operands = s.operands := by
    split at hu
    · exact refill_operands hu
    · rw [hu]
  rw [← hstart]
  split at hr
  · rw [hr]
  · rw [feedAvail_frame hr]
    rfl

theorem handleOut_operands (h : handleOut s = .ok t) : t.operands = s.operands := storeWords_operands h

theorem handleEoc_operands (h : handleEoc s = .ok t) : t.operands = s.operands := by
  unfold handleEoc at h
  dsimp only at h
  split at h
  · split at h
    · cases h; rfl
    · exact (finishFromDma_operands h).trans rfl
  · exact (finish_operands h).trans rfl

theorem handleDmaAbort_operands (h : handleDmaAbort s = .ok t) : t.operands = s.operands := by
  unfold handleDmaAbort at h
  dsimp only at h
  split at h
  · cases h; rfl
  · exact (finishFromDma_operands h).trans rfl

theorem handleDmaInCplt_operands (h : handleDmaInCplt s = .ok t) : t.operands = s.operands := by
  obtain ⟨u, hu, hr⟩ := bind_eq_ok.mp h
  rw [pure_eq_ok] at hr
  subst hr
  refine Eq.trans ?_ ((refill_operands hu).trans rfl)
  split <;> rfl

theorem handleDmaOutCplt_operands (h : handleDmaOutCplt s = .ok t) : t.operands = s.operands := by
  obtain ⟨p, hp, hr⟩ := bind_eq_ok.mp h
  simp only [pure_eq_ok] at hr
  subst hr
  have hdrained : p.2.operands = s.operands := by
    rw [drain_frame hp]
    rfl
  refine Eq.trans ?_ hdrained
  split <;> split <;> rfl

theorem takeEvent_keepsOperands {e : Event} {handler : State → Except Fault State}
    (hh : ∀ {t}, handler s = .ok t → t.operands = s.operands) : NextKeepsOperands s (takeEvent e handler s) := by
  intro t ht
  rcases takeEvent_next.mp ht with ⟨-, rfl⟩ | ⟨-, u, hu, rfl⟩
  · rfl
  · exact (hh hu : u.operands = s.operands)

theorem pollEvent_operands {e : Event} {handler : State → Except Fault State} {p r : Word × State}
    (hh : ∀ {s t}, handler s = .ok t → t.operands = s.operands) (h : pollEvent e handler p = .ok r) :
    r.2.operands = p.2.operands := by
  rcases pollEvent_ok h with ⟨rfl, -⟩ | ⟨-, hok⟩
  · rfl
  · exact hh hok

theorem pollPass_operands {p : Word × State} (h : pollPass s = .ok p) : p.2.operands = s.operands := by
  obtain ⟨p1, h1, h⟩ := bind_eq_ok.mp h
  obtain ⟨p2, h2, h⟩ := bind_eq_ok.mp h
  obtain ⟨p3, h3, h⟩ := bind_eq_ok.mp h
  obtain ⟨p4, h4, h5⟩ := bind_eq_ok.mp h
  calc p.2.operands = p4.2.operands := pollEvent_operands handleEoc_operands h5
    _ = p3.2.operands := pollEvent_operands handleOut_operands h4
    _ = p2.2.operands := pollEvent_operands handleIn_operands h3
    _ = p1.2.operands := pollEvent_operands handleHpd_operands h2
    _ = s.operands := pollEvent_operands handleErr_operands h1

theorem pauseDirs_operands (dir : DirSet) (s : State) : (pauseDirs dir s).operands = s.operands := by
  unfold pauseDirs
  dsimp only
  split <;> split <;> rfl

theorem resumeInput_operands (h : resumeInput s = some t) : t.operands = s.operands := by
  unfold resumeInput at h
  dsimp only at h
  split at h
  · cases h; rfl
  split at h
  · cases h
  split at h
  · cases h; rfl
  split at h
  · cases h; rfl
  split at h <;> cases h <;> rfl

theorem resumeOutput_operands (h : resumeOutput s = .ok t) : t.operands = s.operands := by
  unfold resumeOutput at h
  dsimp only at h
  split at h
  · cases h; rfl
  split at h
  · exact (finish_operands h).trans rfl
  split at h
  · cases h; rfl
  split at h <;> cases h <;> rfl

theorem sbTakeBuffer_operands {i : BufIdx} (h : sbTakeBuffer i s = .ok t) : t.operands = s.operands := by
  unfold sbTakeBuffer at h
  split at h
  · split at h <;> cases h
    rfl
  · cases h; rfl

/-! ## The commands in a job -/

theorem execLdb_inJob (hj : s.fsm ≠ .idle) (file : LdbFile) (index : BitVec 8) (data : Byte) :
    NextKeepsOperands s (execLdb file index data s) := by
  unfold execLdb
  rw [if_pos hj]
  split
  · exact .raiseError rfl
  · exact .fault

theorem finishInputWrite_keepsOperands (s : State) : NextKeepsOperands s (finishInputWrite s) := by
  unfold finishInputWrite
  split
  · exact .returnOk rfl
  split
  · exact .fault
  · exact .returnOk rfl

theorem execWrd_keepsOperands (reg : DescReg) (value : Word) (s : State) : NextKeepsOperands s (execWrd reg value s) := by
  have hinput : ∀ d : Desc, NextKeepsOperands s
      (if inputWritable s then finishInputWrite { s with desc := d } else raiseError .busy s) := fun d => by
    split
    · exact finishInputWrite_keepsOperands { s with desc := d }
    · exact .raiseError rfl
  have houtput : ∀ d : Desc, NextKeepsOperands s
      (if s.fsm = .idle then returnOk 0#32 { s with desc := d } else raiseError .busy s) := fun d => by
    split
    · exact .returnOk rfl
    · exact .raiseError rfl
  cases reg with
  | inAddr => exact hinput _
  | inLen => exact hinput _
  | outAddr => exact houtput _
  | outLen => exact houtput _

theorem execQgen_inJob (hj : s.fsm ≠ .idle) (q : BitVec 4) (quality : BitVec 8) :
    NextKeepsOperands s (execQgen q quality s) := by
  by_cases hq : q.toNat < s.cfg.nq
  · exact .of_fault (execQgen_fault.mpr ⟨hq, .inl ⟨hj, rfl⟩⟩)
  · have hillegal : execQgen q quality s = illegalCommand s := by simp [execQgen, Instr.wellFormed, hq]
    rw [hillegal]
    exact .raiseError rfl

theorem execQest_inJob (hj : s.fsm ≠ .idle) (q : BitVec 4) : NextKeepsOperands s (execQest q s) := by
  by_cases hq : q.toNat < s.cfg.nq
  · exact .of_fault (execQest_fault.mpr ⟨hq, .inl ⟨hj, rfl⟩⟩)
  · have hillegal : execQest q s = illegalCommand s := by simp [execQest, Instr.wellFormed, hq]
    rw [hillegal]
    exact .raiseError rfl

theorem execStart_inJob (hj : s.fsm ≠ .idle) (op : JobOp) (m : Method) : NextKeepsOperands s (execStart op m s) := by
  rw [execStart, if_pos hj]
  exact .raiseError rfl

theorem execPause_keepsOperands (dir : DirSet) (s : State) : NextKeepsOperands s (execPause dir s) := by
  unfold execPause
  split
  · exact .returnOk rfl
  · exact .returnOk (pauseDirs_operands dir s)

theorem execResume_keepsOperands (dir : DirSet) (s : State) : NextKeepsOperands s (execResume dir s) := by
  unfold execResume
  split
  · exact .returnOk rfl
  split
  · exact .raiseError rfl
  next u hin =>
    have hin : u.operands = s.operands := by
      split at hin
      · exact resumeInput_operands hin
      · cases hin; rfl
    split
    · next v hout =>
      refine .returnOk (Eq.trans ?_ hin)
      split at hout
      · exact resumeOutput_operands hout
      · cases hout; rfl
    · exact .fault

theorem execPoll_keepsOperands (s : State) : NextKeepsOperands s (execPoll s) := by
  unfold execPoll
  split
  · exact .returnOk rfl
  split
  · next hp => exact .returnOk (pollPass_operands hp)
  · exact .fault

theorem execAbort_keepsOperands (s : State) : NextKeepsOperands s (execAbort s) := by
  unfold execAbort
  split
  · exact .returnOk rfl
  split
  · exact .raiseError rfl
  · exact .returnOk rfl

theorem execSbinit_keepsOperands (s : State) : NextKeepsOperands s (execSbinit s) := by
  unfold execSbinit
  split
  · exact .raiseError rfl
  · exact .returnOk rfl

theorem execSbfill_keepsOperands (len : Word) (s : State) : NextKeepsOperands s (execSbfill len s) := by
  unfold execSbfill
  split
  · exact .raiseError rfl
  split
  · exact .returnOk rfl
  split
  · exact .raiseError rfl
  split
  · next h =>
    obtain ⟨u, hu, hr⟩ := bind_eq_ok.mp h
    obtain ⟨-, rfl⟩ := memWrite_ok.mp hu
    cases hr
    exact .next rfl
  · exact .fault

theorem sbfillStep2_keepsOperands (i : BufIdx) (s : State) : NextKeepsOperands s (sbfillStep2 i s) := by
  unfold sbfillStep2
  dsimp only
  split
  · exact .returnOk rfl
  split
  · exact .fault
  next htake =>
    split
    · next hresume => exact .returnOk ((resumeInput_operands hresume).trans ((sbTakeBuffer_operands htake).trans rfl))
    · exact .raiseError rfl

theorem exec_inJob (hj : s.fsm ≠ .idle) : ∀ i : Instr, NextKeepsOperands s (exec i s)
  | .ldb file index data => execLdb_inJob hj file index data
  | .wrd reg value => execWrd_keepsOperands reg value s
  | .build _ => .of_fault (execBuild_fault.mpr (.inl ⟨hj, rfl⟩))
  | .progc _ _ => .of_fault (execProgc_fault.mpr (.inl ⟨hj, rfl⟩))
  | .progr _ => .of_fault (execProgr_fault.mpr (.inl ⟨hj, rfl⟩))
  | .qgen q quality => execQgen_inJob hj q quality
  | .qest q => execQest_inJob hj q
  | .start op m => execStart_inJob hj op m
  | .pause dir => execPause_keepsOperands dir s
  | .resume dir => execResume_keepsOperands dir s
  | .poll => execPoll_keepsOperands s
  | .abort => execAbort_keepsOperands s
  | .getinfo _ => .returnOk rfl
  | .getstate => .returnOk rfl
  | .geterr => .returnOk rfl
  | .sbfill len => execSbfill_keepsOperands len s
  | .sbinit => execSbinit_keepsOperands s
  | .evErr => takeEvent_keepsOperands handleErr_operands
  | .evHpd => takeEvent_keepsOperands handleHpd_operands
  | .evIn => takeEvent_keepsOperands handleIn_operands
  | .evOut => takeEvent_keepsOperands handleOut_operands
  | .evEoc => takeEvent_keepsOperands handleEoc_operands
  | .evDmaInCplt => takeEvent_keepsOperands handleDmaInCplt_operands
  | .evDmaOutCplt => takeEvent_keepsOperands handleDmaOutCplt_operands
  | .evDmaAbort => takeEvent_keepsOperands handleDmaAbort_operands

/-! ## The agents that run no instruction -/

theorem dinWords_operands {n : Nat} (h : dinWords n s = .ok t) : t.operands = s.operands := by
  induction n generalizing s with
  | zero => cases h; rfl
  | succ n ih =>
    obtain ⟨b, -, h⟩ := bind_eq_ok.mp h
    obtain ⟨u, hu, hr⟩ := bind_eq_ok.mp h
    obtain ⟨-, rfl⟩ := pushInput_ok.mp hu
    exact (ih hr).trans rfl

theorem dinStep_operands (h : dinStep s = .ok t) : t.operands = s.operands := by
  unfold dinStep at h
  split at h
  · cases h; rfl
  split at h
  · obtain ⟨u, hu, hr⟩ := bind_eq_ok.mp h
    cases hr
    exact (dinWords_operands hu : u.operands = s.operands)
  · cases h; rfl

theorem doutWords_operands {n : Nat} (h : doutWords n s = .ok t) : t.operands = s.operands := by
  induction n generalizing s with
  | zero => cases h; rfl
  | succ n ih =>
    rw [doutWords] at h
    split at h
    · cases h; rfl
    · obtain ⟨u, hu, hr⟩ := bind_eq_ok.mp h
      obtain ⟨-, rfl⟩ := memWrite_ok.mp hu
      exact (ih hr).trans rfl

theorem doutStep_operands (h : doutStep s = .ok t) : t.operands = s.operands := by
  unfold doutStep at h
  split at h
  · cases h; rfl
  split at h
  · obtain ⟨u, hu, hr⟩ := bind_eq_ok.mp h
    cases hr
    exact (doutWords_operands hu : u.operands = s.operands)
  · cases h; rfl

theorem dinErrorStep_operands (s : State) : (dinErrorStep s).operands = s.operands := by
  unfold dinErrorStep
  split <;> rfl

theorem doutErrorStep_operands (s : State) : (doutErrorStep s).operands = s.operands := by
  unfold doutErrorStep
  split <;> rfl

/-- `CORE` writes a word of `QMEM` in a decode, and no other operand (43_transfer_fsm R236). -/
theorem coreStep_operands (a : CoreAct) (s : State) :
    (coreStep a s).operands = ({ s with qmem := (coreStep a s).qmem } : State).operands ∧
      ((coreStep a s).qmem = s.qmem ∨
        s.ctx.op = some .decode ∧ s.cr.run = true ∧ ∃ q w v, a = .writeQmem q w v) := by
  unfold coreStep
  split
  · next ha =>
    cases a with
    | writeQmem q w v =>
      simp only [coreAllowed, Bool.and_eq_true, decide_eq_true_eq] at ha
      exact ⟨rfl, .inr ⟨ha.2.1, ha.1, q, w, v, rfl⟩⟩
    | pop => exact ⟨rfl, .inl rfl⟩
    | push w => exact ⟨rfl, .inl rfl⟩
    | header h => exact ⟨rfl, .inl rfl⟩
    | endOfConversion => exact ⟨rfl, .inl rfl⟩
    | error => exact ⟨rfl, .inl rfl⟩
  · exact ⟨rfl, .inl rfl⟩

theorem hostStep_operands {a : HostAct} (h : hostStep a s = .ok t) : t.operands = s.operands := by
  cases a with
  | write addr b => cases h; rfl
  | writeBlockState => cases h

/-- In a job a step keeps the operands, or it is one of `CORE`. -/
theorem step_operands (hj : s.fsm ≠ .idle) : NextKeepsOperands s (step s) ∨
    ∃ a rest, s.inputs = .core a :: rest ∧ step s = .next (coreStep a s.inputTaken) := by
  have hkind := step_kind s
  generalize step s = r at hkind
  cases hkind with
  | run i => exact .inl (exec_inJob (s := s.inputTaken) hj i)
  | fill k u _ hu =>
    have hsame : u.operands = s.operands := by rw [hu]; rfl
    exact .inl fun t ht => (sbfillStep2_keepsOperands k u t ht).trans hsame
  | illegal => exact .inl (.raiseError rfl)
  | still t ht => exact .inl (.next (by rw [ht]; rfl))
  | din => exact .inl (.agent fun h => (dinStep_operands h).trans rfl)
  | dinError => exact .inl (.next (dinErrorStep_operands s.inputTaken))
  | dout => exact .inl (.agent fun h => (doutStep_operands h).trans rfl)
  | doutError => exact .inl (.next (doutErrorStep_operands s.inputTaken))
  | core a rest hin => exact .inr ⟨a, rest, hin, rfl⟩
  | host a => exact .inl (.agent fun h => (hostStep_operands h).trans rfl)

/-- Settles O11: every step of a job keeps the operands but one of `CORE`, which writes `QMEM` alone. -/
theorem tablesReadOnlyInJob : Obligations.TablesReadOnlyInJob := by
  intro s t hj hstep
  rcases step_operands hj with hkeep | ⟨a, rest, hin, hcore⟩
  · have h := hkeep t hstep
    simp only [State.operands, Prod.mk.injEq] at h
    obtain ⟨hspec, hhct, hbase, htmem, hqmem, hraw, henc, hhuff, hquant⟩ := h
    exact ⟨hspec, hhct, hbase, htmem, hraw, henc, hhuff, hquant, .inl hqmem⟩
  · rw [hcore] at hstep
    cases hstep
    obtain ⟨h, hqmem⟩ := coreStep_operands a s.inputTaken
    simp only [State.operands, Prod.mk.injEq] at h
    obtain ⟨hspec, hhct, hbase, htmem, -, hraw, henc, hhuff, hquant⟩ := h
    refine ⟨hspec, hhct, hbase, htmem, hraw, henc, hhuff, hquant, hqmem.imp id ?_⟩
    rintro ⟨hop, hrun, q, w, v, rfl⟩
    exact ⟨hop, hrun, q, w, v, rest, hin⟩

end Sys2Proof.Machine
end

section
/-! The faults of the shared operations and of the event handlers, said once: where a callback is answered with a command, a
buffer breaks a test, a word follows a padded one, or an access leaves host memory (60_exceptions R304). -/

namespace Sys2Proof.Machine

open Sys2Proof

-- One proof after the other: side by side they take more threads than the check's memory limit has room for.
set_option Elab.async false

variable {s t u : State}

/-! ## Sequencing and memory -/

/-- A sequence fails where one of its parts does. -/
theorem bind_eq_error {α β : Type} {x : Except Fault α} {f : α → Except Fault β} {e : Fault} :
    (x >>= f) = .error e ↔ x = .error e ∨ ∃ a, x = .ok a ∧ f a = .error e := by
  cases x <;> simp [bind, Except.bind]

@[simp] theorem pure_ne_error {α : Type} {a : α} {e : Fault} : (pure a : Except Fault α) ≠ .error e := nofun

theorem memRead_error {a n : Nat} {f : Fault} (h : memRead a n s = .error f) : f = .hostAddress := by
  unfold memRead at h
  split at h <;> cases h
  rfl

theorem memWrite_error {a : Nat} {bs : List Byte} {f : Fault} (h : memWrite a bs s = .error f) :
    f = .hostAddress ∧ Config.hostSpace < a + bs.length := by
  unfold memWrite at h
  split at h <;> cases h
  exact ⟨rfl, by omega⟩

theorem pushInput_error {bs : List Byte} {f : Fault} (h : pushInput bs s = .error f) :
    f = .raggedMidStream ∧ s.tailFed = true := by
  unfold pushInput at h
  split at h <;> cases h
  exact ⟨rfl, ‹_›⟩

/-! ## The drains and their replies (43_transfer_fsm R219) -/

/-- The host outside the block answers a `DRAIN` with a command, after drains that it answers with `Continue`. -/
def DrainsCommand (s : State) : Prop := s.host.managed = false ∧
  ∃ k replies, s.host.drainReplies = List.replicate k .proceed ++ .command :: replies

theorem DrainsCommand.of_head (hm : s.host.managed = false) (hh : s.host.drainReplies.head? = some .command) :
    DrainsCommand s := by
  obtain ⟨replies, hr⟩ := List.head?_eq_some_iff.mp hh
  exact ⟨hm, 0, replies, hr⟩

theorem DrainsCommand.congr (h : DrainsCommand t) (hm : t.host.managed = s.host.managed)
    (hr : t.host.drainReplies = s.host.drainReplies) : DrainsCommand s := by
  unfold DrainsCommand at *
  rwa [← hm, ← hr]

/-- A `Continue` before it. -/
theorem DrainsCommand.cons (h : DrainsCommand t) (hm : t.host.managed = s.host.managed)
    (hr : s.host.drainReplies = .proceed :: t.host.drainReplies) : DrainsCommand s := by
  obtain ⟨hm', k, replies, hk⟩ := h
  exact ⟨hm ▸ hm', k + 1, replies, by rw [hr, hk, List.replicate_succ, List.cons_append]⟩

/-- Without a reply listed no command is. -/
theorem DrainsCommand.replies_ne_nil (h : DrainsCommand s) : s.host.drainReplies ≠ [] := by
  obtain ⟨-, k, replies, hk⟩ := h
  simp [hk]

/-- The three sources of a reply: the manager, the list, or a free choice, which is no command. -/
theorem drainReply_cases (s : State) :
    drainReply s = (.proceed, s) ∨
    s.host.managed = false ∧ (∃ r rs, s.host.drainReplies = r :: rs ∧
      drainReply s = (r, { s with host := { s.host with drainReplies := rs } })) ∨
    s.host.drainReplies = [] ∧ (drainReply s).1 ≠ .command ∧ (drainReply s).2 = s.drew 1 := by
  unfold drainReply
  split
  · exact .inl rfl
  next hm =>
    split
    next r rs hr => exact .inr (.inl ⟨by simpa using hm, r, rs, hr, rfl⟩)
    next hr => exact .inr (.inr ⟨hr, by dsimp only; split <;> nofun, rfl⟩)

/-- What `DRAIN` makes of the reply. -/
theorem drain_eq_error {addr len : Word} {f : Fault} (h : drain addr len s = .error f) : f = .commandInCallback ∧
    (drainReply (s.emit (.drain addr len (readBytes s.hmem addr.toNat len.toNat)))).1 = .command := by
  unfold drain at h
  dsimp only at h
  split at h <;> cases h
  exact ⟨rfl, ‹_›⟩

theorem drain_eq_proceed {addr len : Word} {p : Bool × State} (h : drain addr len s = .ok p) (hp : p.1 = false) :
    drainReply (s.emit (.drain addr len (readBytes s.hmem addr.toNat len.toNat))) = (.proceed, p.2) := by
  unfold drain at h
  dsimp only at h
  split at h
  · next hr => cases h; exact Prod.ext hr rfl
  · cases h; cases hp
  · cases h

theorem drain_error {addr len : Word} {f : Fault} (h : drain addr len s = .error f) :
    f = .commandInCallback ∧ s.host.managed = false ∧ s.host.drainReplies.head? = some .command := by
  obtain ⟨hf, hc⟩ := drain_eq_error h
  refine ⟨hf, ?_⟩
  rcases drainReply_cases (s.emit (.drain addr len (readBytes s.hmem addr.toNat len.toNat))) with
    heq | ⟨hm, r, rs, hr, heq⟩ | ⟨-, hne, -⟩
  · rw [heq] at hc
    cases hc
  · rw [heq] at hc
    exact ⟨hm, List.head?_eq_some_iff.mpr ⟨rs, hr.trans (congrArg (· :: rs) hc)⟩⟩
  · exact absurd hc hne

/-- After a drain answered with anything but `Pause`, a command is still to come only if one was before. -/
theorem drain_replies {addr len : Word} {p : Bool × State} (h : drain addr len s = .ok p) (hp : p.1 = false)
    (hc : DrainsCommand p.2) : DrainsCommand s := by
  have hreply := drain_eq_proceed h hp
  rcases drainReply_cases (s.emit (.drain addr len (readBytes s.hmem addr.toNat len.toNat))) with
    heq | ⟨hm, r, rs, hr, heq⟩ | ⟨hr, -, heq⟩
  · obtain ⟨-, hs⟩ := Prod.mk.inj (hreply.symm.trans heq)
    rw [hs] at hc
    exact hc.congr rfl rfl
  · obtain ⟨rfl, hs⟩ := Prod.mk.inj (hreply.symm.trans heq)
    rw [hs] at hc
    exact hc.cons rfl hr
  · rw [hreply] at heq
    refine absurd ?_ hc.replies_ne_nil
    rw [show p.2 = _ from heq]
    exact hr

/-- What the output drain path leaves of the replies: it ends where it began, or with a pause at an empty buffer, or with
nothing but `Continue`s answered. -/
structure RepliesLeft (s t : State) : Prop where
  paused : t.ctx.pauseOut = true → t = s ∨ t.desc.outOff = 0#32
  continued : t.ctx.pauseOut = false → DrainsCommand t → DrainsCommand s

theorem RepliesLeft.refl (s : State) : RepliesLeft s s := ⟨fun _ => .inl rfl, fun _ => id⟩

theorem drainFull_repliesLeft (h : drainFull s = .ok t) : t.desc.outOff = 0#32 ∧
    (t.ctx.pauseOut = false → DrainsCommand t → DrainsCommand s) := by
  obtain ⟨p, hp, hr⟩ := bind_eq_ok.mp h
  rw [pure_eq_ok] at hr
  cases hp1 : p.1 with
  | true =>
    simp only [hp1, if_true] at hr
    subst hr
    exact ⟨rfl, nofun⟩
  | false =>
    simp only [hp1] at hr
    subst hr
    exact ⟨rfl, fun _ hc => drain_replies hp hp1 (hc.congr rfl rfl)⟩

theorem drainFull_error {f : Fault} (h : drainFull s = .error f) : f = .commandInCallback ∧ DrainsCommand s := by
  rcases bind_eq_error.mp h with hd | ⟨p, -, hr⟩
  · obtain ⟨hf, hm, hh⟩ := drain_error hd
    exact ⟨hf, .of_head hm hh⟩
  · exact absurd hr pure_ne_error

theorem storeWord_error {w : Word} {f : Fault} (h : storeWord w s = .error f) :
    f = .hostAddress ∨ f = .commandInCallback ∧ DrainsCommand s := by
  rcases bind_eq_error.mp h with hw | ⟨v, hv, hr⟩
  · exact .inl (memWrite_error hw).1
  · obtain ⟨-, rfl⟩ := memWrite_ok.mp hv
    dsimp only at hr
    split at hr
    · obtain ⟨hf, hc⟩ := drainFull_error hr
      exact .inr ⟨hf, hc.congr rfl rfl⟩
    · exact absurd hr pure_ne_error

theorem storeWord_repliesLeft {w : Word} (hp : s.ctx.pauseOut = false) (h : storeWord w s = .ok t) :
    (t.ctx.pauseOut = true → t.desc.outOff = 0#32) ∧ (t.ctx.pauseOut = false → DrainsCommand t → DrainsCommand s) := by
  obtain ⟨v, hv, hr⟩ := bind_eq_ok.mp h
  obtain ⟨-, rfl⟩ := memWrite_ok.mp hv
  dsimp only at hr
  split at hr
  · obtain ⟨hoff, hc⟩ := drainFull_repliesLeft hr
    exact ⟨fun _ => hoff, fun hu hd => (hc hu hd).congr rfl rfl⟩
  · cases hr
    exact ⟨fun hu => by simp [hp] at hu, fun _ hd => hd.congr rfl rfl⟩

theorem storeWords_repliesLeft {n : Nat} (h : storeWords n s = .ok t) : RepliesLeft s t := by
  induction n generalizing s with
  | zero => cases h; exact .refl _
  | succ n ih =>
    rw [storeWords] at h
    split at h
    · cases h; exact .refl _
    next hp =>
      split at h
      · cases h; exact .refl _
      next w rest _ =>
        obtain ⟨v, hv, hr⟩ := bind_eq_ok.mp h
        obtain ⟨hpaused, hcont⟩ := storeWord_repliesLeft (s := { s with ofifo := rest }) (by simpa using hp) hv
        have hleft := ih hr
        refine ⟨fun ht => .inr ?_, fun ht hc => ?_⟩
        · rcases hleft.paused ht with rfl | hoff
          · exact hpaused ht
          · exact hoff
        · have hvp : v.ctx.pauseOut = false := by
            refine Bool.eq_false_iff.mpr fun hvp => ?_
            rw [storeWords_paused hvp] at hr
            cases hr
            simp [hvp] at ht
          exact (hcont hvp (hleft.continued ht hc)).congr rfl rfl

theorem storeWords_error {n : Nat} {f : Fault} (h : storeWords n s = .error f) :
    f = .hostAddress ∨ f = .commandInCallback ∧ DrainsCommand s := by
  induction n generalizing s with
  | zero => cases h
  | succ n ih =>
    rw [storeWords] at h
    split at h
    · cases h
    next hp =>
      split at h
      · cases h
      next w rest _ =>
        rcases bind_eq_error.mp h with hw | ⟨v, hv, hr⟩
        · exact (storeWord_error hw).imp id fun hc => ⟨hc.1, hc.2.congr rfl rfl⟩
        · have hvp : v.ctx.pauseOut = false := by
            refine Bool.eq_false_iff.mpr fun hvp => ?_
            rw [storeWords_paused hvp] at hr
            cases hr
          obtain ⟨-, hcont⟩ := storeWord_repliesLeft (s := { s with ofifo := rest }) (by simpa using hp) hv
          exact (ih hr).imp id fun hc => ⟨hc.1, (hcont hvp hc.2).congr rfl rfl⟩

/-! ## The end of a job (43_transfer_fsm R221, R222) -/

/-- What may stop the residual drain and the completion of a job. -/
def FinishFault (s : State) (f : Fault) : Prop :=
  f = .hostAddress ∨ f = .commandInCallback ∧ (s.host.notices.head? = some .command ∨ DrainsCommand s)

theorem complete_error {f : Fault} (h : complete s = .error f) : f = .commandInCallback ∧
    (s.host.notices.head? = some .command ∨ s.desc.outOff ≠ 0#32 ∧ DrainsCommand s) := by
  have hfinal : ∀ {v : State}, finalDrain s = .ok v → v.host.notices = s.host.notices := fun {v} hv => by
    unfold finalDrain at hv
    split at hv
    · cases hv; rfl
    · obtain ⟨p, hp, hr⟩ := bind_eq_ok.mp hv
      rw [pure_eq_ok] at hr
      subst hr
      rw [drain_frame hp]
  rcases bind_eq_error.mp h with hd | ⟨v, hv, hn⟩
  · unfold finalDrain at hd
    split at hd
    · cases hd
    next hoff =>
      rcases bind_eq_error.mp hd with hd | ⟨p, -, hr⟩
      · obtain ⟨hf, hm, hh⟩ := drain_error hd
        exact ⟨hf, .inr ⟨hoff, .of_head hm hh⟩⟩
      · exact absurd hr pure_ne_error
  · obtain ⟨hh, hf⟩ := notify_fault.mp hn
    refine ⟨hf, .inl ?_⟩
    rw [← hfinal hv]
    exact hh

theorem drainedFrame_notices (h : drainedFrame s t) : t.host.notices = s.host.notices := by rw [h.1]

theorem finish_error {f : Fault} (h : finish s = .error f) : FinishFault s f := by
  rcases bind_eq_error.mp h with hw | ⟨v, hv, hr⟩
  · exact (storeWords_error hw).imp id fun hc => ⟨hc.1, .inr hc.2⟩
  · split at hr
    · obtain ⟨hf, hc⟩ := complete_error hr
      refine .inr ⟨hf, hc.imp (fun hn => ?_) fun ⟨hoff, hd⟩ => ?_⟩
      · rw [← drainedFrame_notices (storeWords_frame hv)]
        exact hn
      · have hleft := storeWords_repliesLeft hv
        by_cases hp : v.ctx.pauseOut = true
        · rcases hleft.paused hp with rfl | hzero
          · exact hd
          · exact absurd hzero hoff
        · exact hleft.continued (by simpa using hp) hd
    · exact absurd hr pure_ne_error

theorem FinishFault.congr {f : Fault} (h : FinishFault t f) (hh : t.host = s.host) : FinishFault s f := by
  unfold FinishFault at *
  rw [hh] at h
  exact h.imp id fun hc => ⟨hc.1, hc.2.imp id fun hd => hd.congr (by rw [hh]) (by rw [hh])⟩

theorem finishFromDma_error {f : Fault} (h : finishFromDma s = .error f) : FinishFault s f :=
  (finish_error h).congr rfl

theorem handleEoc_error {f : Fault} (h : handleEoc s = .error f) : FinishFault s f := by
  unfold handleEoc at h
  dsimp only at h
  split at h
  · split at h
    · cases h
    · exact (finishFromDma_error h).congr rfl
  · exact (finish_error h).congr rfl

theorem handleDmaAbort_error {f : Fault} (h : handleDmaAbort s = .error f) : FinishFault s f := by
  unfold handleDmaAbort at h
  dsimp only at h
  split at h
  · cases h
  · exact (finishFromDma_error h).congr rfl

theorem resumeOutput_error {f : Fault} (h : resumeOutput s = .error f) :
    s.ctx.pauseOut = true ∧ s.ctx.ending = true ∧ FinishFault s f := by
  unfold resumeOutput at h
  dsimp only at h
  split at h
  · cases h
  next hp =>
    split at h
    · next hend => exact ⟨by simpa using hp, hend, (finish_error h).congr rfl⟩
    split at h
    · cases h
    split at h <;> cases h

/-! ## The refill callback (43_transfer_fsm R218) -/

/-- The reply stands on the parameters, the manager, the replies listed and the draw counter. -/
theorem refillReply_eq {consumed : Word} (hc : t.cfg = s.cfg) (hb : t.sb = s.sb) (hm : t.host.managed = s.host.managed)
    (hr : t.host.refillReplies = s.host.refillReplies) (hd : t.draws = s.draws) :
    (refillReply consumed t).1 = (refillReply consumed s).1 := by
  unfold refillReply managerRefill outsideRefill
  simp only [hc, hb, hm, hr, hd, apply_ite Prod.fst]
  congr 1
  cases s.host.refillReplies <;> rfl

theorem managerRefill_ne_command (consumed : Word) (s : State) : (managerRefill consumed s).1 ≠ .command := by
  unfold managerRefill
  dsimp only
  split
  · nofun
  · split <;> nofun

theorem refillReply_command {consumed : Word} (h : (refillReply consumed s).1 = .command) :
    s.host.managed = false ∧ s.host.refillReplies.head? = some .command := by
  unfold refillReply at h
  split at h
  · exact absurd h (managerRefill_ne_command _ _)
  next hm =>
    refine ⟨by simpa using hm, ?_⟩
    unfold outsideRefill at h
    split at h
    · next hr =>
      rw [hr]
      exact congrArg some h
    · dsimp only at h
      split at h <;> cases h

/-- A reply to `REFILL(consumed)` that is a fault: a command, or a buffer that breaks a test. -/
def RefillFault (s : State) (consumed : Word) (f : Fault) : Prop :=
  (f = .commandInCallback ∧ s.host.managed = false ∧ s.host.refillReplies.head? = some .command) ∨
    ∃ addr len, (refillReply consumed s).1 = .supply addr len ∧
      inputFault { s with desc := s.desc.withInput addr len } = some f

theorem inputFault_some {f : Fault} (h : inputFault s = some f) : f = .badBuffer ∨ f = .bufferOverlap := by
  unfold inputFault at h
  split at h
  · cases h; exact .inl rfl
  split at h
  · cases h; exact .inl rfl
  split at h <;> cases h
  exact .inr rfl

/-- The tests see the descriptors, the method and the parameters. -/
theorem inputFault_congr (hd : t.desc = s.desc) (hm : t.ctx.dmaMethod = s.ctx.dmaMethod) (hc : t.cfg = s.cfg) :
    inputFault t = inputFault s := by
  simp only [inputFault, hd, hm, hc]

theorem refill_error {f : Fault} (h : refill s = .error f) : RefillFault s s.desc.inOff f := by
  have hframe := refillReply_frame s.desc.inOff (s.emit (.refill s.desc.inOff))
  have hreply : (refillReply s.desc.inOff (s.emit (.refill s.desc.inOff))).1 = (refillReply s.desc.inOff s).1 :=
    refillReply_congr rfl rfl rfl rfl
  unfold refill takeRefill at h
  dsimp only at h
  split at h
  · next addr len hsupply =>
    rw [hreply] at hsupply
    split at h
    · next f' hf =>
      cases h
      refine .inr ⟨addr, len, hsupply, ?_⟩
      rw [← hf]
      refine inputFault_congr ?_ ?_ ?_ <;> rw [hframe] <;> rfl
    · cases h
  · cases h
  · next hcommand =>
    cases h
    rw [hreply] at hcommand
    obtain ⟨hm, hh⟩ := refillReply_command hcommand
    exact .inl ⟨rfl, hm, hh⟩

/-- A reply to the same `REFILL` in a state that differs in nothing the reply or the tests see. -/
theorem RefillFault.congr {consumed : Word} {f : Fault} (h : RefillFault t consumed f) (hc : t.cfg = s.cfg)
    (hb : t.sb = s.sb) (hm : t.host.managed = s.host.managed) (hr : t.host.refillReplies = s.host.refillReplies)
    (hd : t.draws = s.draws) (hout : ∀ addr len, t.desc.withInput addr len = s.desc.withInput addr len)
    (hdma : t.ctx.dmaMethod = s.ctx.dmaMethod) : RefillFault s consumed f := by
  rcases h with ⟨hf, hm', hr'⟩ | ⟨addr, len, hsupply, hbad⟩
  · exact .inl ⟨hf, hm ▸ hm', hr ▸ hr'⟩
  · refine .inr ⟨addr, len, ?_, ?_⟩
    · rw [← hsupply]
      exact (refillReply_eq hc hb hm hr hd).symm
    · rw [← hbad]
      exact inputFault_congr (hout addr len).symm hdma.symm hc.symm

/-! ## The input pump path (43_transfer_fsm R238) -/

theorem feedWord_error {m : Nat} {f : Fault} (h : feedWord m s = .error f) :
    f = .hostAddress ∨ f = .raggedMidStream ∧ s.tailFed = true := by
  rcases bind_eq_error.mp h with hr | ⟨b, -, hp⟩
  · exact .inl (memRead_error hr)
  rcases bind_eq_error.mp hp with hp | ⟨v, -, hr⟩
  · exact .inr (pushInput_error hp)
  · exact absurd hr pure_ne_error

/-- A whole word is not padded, so only the first word can follow a padded one. -/
theorem feedWhole_error {n : Nat} {f : Fault} (h : feedWhole n s = .error f) :
    f = .hostAddress ∨ f = .raggedMidStream ∧ s.tailFed = true := by
  induction n generalizing s with
  | zero => cases h
  | succ n ih =>
    rcases bind_eq_error.mp h with hw | ⟨v, hv, hr⟩
    · exact feedWord_error hw
    · refine (ih hr).imp id fun hc => ?_
      obtain ⟨-, -, rfl⟩ := feedWord_ok.mp hv
      simp at hc

theorem feedAvail_error {n : Nat} {f : Fault} (h : feedAvail n s = .error f) :
    f = .hostAddress ∨ f = .raggedMidStream ∧ s.tailFed = true := by
  unfold feedAvail at h
  split at h
  · exact feedWhole_error h
  · exact feedWord_error h

theorem feedWords_error {n : Nat} {f : Fault} (h : feedWords n s = .error f) :
    s.desc.inOff = s.desc.inLen ∧ refill s = .error f ∨
      ∃ u, (if s.desc.inOff = s.desc.inLen then refill s = .ok u else u = s) ∧ u.ctx.pauseIn = false ∧
        feedAvail n u = .error f := by
  have hrest : ∀ {u : State}, (if u.ctx.pauseIn then pure u else feedAvail n u) = Except.error f →
      u.ctx.pauseIn = false ∧ feedAvail n u = .error f := fun hu => by
    split at hu
    · exact absurd hu pure_ne_error
    · next hp => exact ⟨by simpa using hp, hu⟩
  unfold feedWords at h
  dsimp only at h
  split at h
  · next hoff =>
    rcases bind_eq_error.mp h with hr | ⟨u, hu, hr⟩
    · exact .inl ⟨hoff, hr⟩
    · exact .inr ⟨u, by rwa [if_pos hoff], hrest hr⟩
  · next hoff => exact .inr ⟨s, by rw [if_neg hoff], hrest h⟩

theorem refill_tailFed (h : refill s = .ok t) : t.tailFed = s.tailFed := by
  obtain ⟨sb, host, draws, addr, len, -, -, ht⟩ := refill_cases h
  rcases ht with ⟨rfl, -⟩ | ⟨rfl, -⟩ <;> rfl

theorem handleIn_error {f : Fault} (h : handleIn s = .error f) : f = .hostAddress ∨
    f = .raggedMidStream ∧ s.tailFed = true ∨ s.desc.inOff = s.desc.inLen ∧ RefillFault s s.desc.inOff f := by
  rcases feedWords_error h with ⟨hoff, hr⟩ | ⟨u, hu, -, hfeed⟩
  · exact .inr (.inr ⟨hoff, refill_error hr⟩)
  · have htail : u.tailFed = s.tailFed := by
      split at hu
      · exact refill_tailFed hu
      · rw [hu]
    rw [← htail]
    exact (feedAvail_error hfeed).imp id .inl

theorem handleDmaInCplt_error {f : Fault} (h : handleDmaInCplt s = .error f) :
    RefillFault s (s.desc.inOff + s.din.len) f := by
  rcases bind_eq_error.mp h with hr | ⟨u, -, hr⟩
  · exact (refill_error hr).congr rfl rfl rfl rfl rfl (fun _ _ => rfl) rfl
  · exact absurd hr pure_ne_error

theorem handleDmaOutCplt_error {f : Fault} (h : handleDmaOutCplt s = .error f) :
    f = .commandInCallback ∧ s.host.managed = false ∧ s.host.drainReplies.head? = some .command := by
  rcases bind_eq_error.mp h with hd | ⟨p, -, hr⟩
  · obtain ⟨hf, hm, hh⟩ := drain_error hd
    exact ⟨hf, hm, hh⟩
  · exact absurd hr pure_ne_error

/-! ## A burst of `DIN` (43_transfer_fsm R232) -/

/-- Only the last word of a burst may be padded, so only the first can follow a padded one. -/
theorem dinWords_error {n : Nat} {f : Fault} (hd : s.din.done.toNat ≤ s.din.len.toNat) (hn : 4 * n < dinLeft s + 4)
    (h : dinWords n s = .error f) : f = .hostAddress ∨ f = .raggedMidStream ∧ s.tailFed = true := by
  unfold dinLeft at hn
  induction n generalizing s with
  | zero => cases h
  | succ n ih =>
    rcases bind_eq_error.mp h with hr | ⟨b, hb, h⟩
    · exact .inl (memRead_error hr)
    rcases bind_eq_error.mp h with hp | ⟨v, hv, hr⟩
    · exact .inr (pushInput_error hp)
    · obtain ⟨-, rfl⟩ := memRead_ok.mp hb
      obtain ⟨-, rfl⟩ := pushInput_ok.mp hv
      cases n with
      | zero => cases hr
      | succ n =>
        have hlen := s.din.len.isLt
        have h4 : min 4 (s.din.len.toNat - s.din.done.toNat) = 4 := by omega
        have hdone : (s.din.done + BitVec.ofNat 32 4).toNat = s.din.done.toNat + 4 := by
          rw [BitVec.toNat_add, BitVec.toNat_ofNat]
          omega
        rw [h4] at hr
        refine (ih ?_ ?_ hr).imp id fun hc => ?_
        · simp only [hdone]
          omega
        · simp only [hdone]
          omega
        · simp at hc

theorem dinStep_error {f : Fault} (h : dinStep s = .error f) :
    f = .hostAddress ∨ f = .raggedMidStream ∧ s.tailFed = true ∧ dinMoves s = true := by
  unfold dinStep at h
  split at h
  · cases h
  split at h
  · next hm =>
    rcases bind_eq_error.mp h with hw | ⟨u, -, hr⟩
    · by_cases hd : s.din.done.toNat < s.din.len.toNat
      · obtain ⟨-, -, hn, -⟩ := dinBurst_eq hd
        exact (dinWords_error hd.le hn hw).imp id fun hc => ⟨hc.1, hc.2, hm⟩
      · have hzero : dinBurst s = 0 := by
          unfold dinBurst
          omega
        rw [hzero] at hw
        cases hw
    · exact absurd hr pure_ne_error
  · cases h

theorem doutWords_error {n : Nat} {f : Fault} (h : doutWords n s = .error f) : f = .hostAddress := by
  induction n generalizing s with
  | zero => cases h
  | succ n ih =>
    rw [doutWords] at h
    split at h
    · cases h
    · rcases bind_eq_error.mp h with hw | ⟨v, -, hr⟩
      · exact (memWrite_error hw).1
      · exact ih hr

theorem doutStep_error {f : Fault} (h : doutStep s = .error f) : f = .hostAddress := by
  unfold doutStep at h
  split at h
  · cases h
  split at h
  · rcases bind_eq_error.mp h with hw | ⟨u, -, hr⟩
    · exact doutWords_error hw
    · exact absurd hr pure_ne_error
  · cases h

end Sys2Proof.Machine
end

section
/-! No step reaches an address outside host memory while the invariant holds, and no step refuses (60_exceptions R304, log 32). -/

namespace Sys2Proof.Machine

open Sys2Proof

-- One proof after the other: side by side they take more threads than the check's memory limit has room for.
set_option Elab.async false

variable {s t u : State}

/-! ## The output drain path -/

theorem storeWord_in_memory {w : Word} {rest : List Word} (hr : OutReady s.desc) :
    storeWord w { s with ofifo := rest } ≠ .error .hostAddress := by
  intro h
  rw [storeWord_eq hr] at h
  dsimp only at h
  split at h
  · cases (drainFull_error h).1
  · cases h

theorem storeWords_in_memory {n : Nat} (hr : OutReady s.desc) : storeWords n s ≠ .error .hostAddress := by
  induction n generalizing s with
  | zero => nofun
  | succ n ih =>
    intro h
    rw [storeWords] at h
    split at h
    · cases h
    split at h
    · cases h
    next w rest hf =>
      rcases bind_eq_error.mp h with hw | ⟨v, hv, hrest⟩
      · exact storeWord_in_memory hr hw
      · exact ih ((storeWord_ok hr hf hv).ready hr) hrest

theorem finish_in_memory (hr : OutReady s.desc) : finish s ≠ .error .hostAddress := by
  intro h
  rcases bind_eq_error.mp h with hw | ⟨v, -, hrest⟩
  · exact storeWords_in_memory hr hw
  · split at hrest
    · cases (complete_error hrest).1
    · exact pure_ne_error hrest

theorem Consistent.handleOut_in_memory (h : Consistent s) (he : eligible .out s = true) :
    Machine.handleOut s ≠ .error .hostAddress :=
  storeWords_in_memory (h.outReady (h.modes.in_job_of_method (method_ne_none_of_fifo (eligible_out.mp he).1)))

theorem Consistent.handleEoc_in_memory (h : Consistent s) (he : eligible .eoc s = true)
    (hc : s.ctx.dmaMethod = true → s.dout.cplt = false) : Machine.handleEoc s ≠ .error .hostAddress := by
  intro hs
  unfold Machine.handleEoc at hs
  dsimp only at hs
  split at hs
  · next hd =>
    split at hs
    · cases hs
    · refine finish_in_memory ?_ hs
      have hready := h.doutReady hd (hc hd)
      rwa [← s.dout.requestAbort_others.2.2.2.1] at hready
  · exact finish_in_memory (s := s.stopSources) (h.outReady (h.modes.in_job_of_method (eligible_eoc.mp he).1)) hs

theorem Consistent.handleDmaAbort_in_memory (h : Consistent s) (he : eligible .dmaAbort s = true)
    (hc : s.ctx.dmaMethod = true → s.dout.cplt = false) : Machine.handleDmaAbort s ≠ .error .hostAddress := by
  obtain ⟨-, -, hab⟩ := eligible_dmaAbort.mp he
  have hd := h.engines.abort_dma (.inr (.inr hab))
  intro hs
  unfold Machine.handleDmaAbort at hs
  dsimp only at hs
  split at hs
  · cases hs
  · exact finish_in_memory (h.doutReady hd (hc hd)) hs

theorem Consistent.resumeOutput_in_memory (h : Consistent s) (hj : s.fsm ≠ .idle) :
    Machine.resumeOutput s ≠ .error .hostAddress := by
  intro hs
  have hready := h.outReady hj
  unfold Machine.resumeOutput at hs
  dsimp only at hs
  split at hs
  · cases hs
  split at hs
  · refine finish_in_memory ?_ hs
    exact hready
  split at hs
  · cases hs
  split at hs <;> cases hs

/-! ## The input pump path -/

theorem refill_in_memory : refill s ≠ .error .hostAddress := by
  intro h
  rcases refill_error h with ⟨hf, -⟩ | ⟨addr, len, -, hbad⟩
  · cases hf
  · rcases inputFault_some hbad with hf | hf <;> cases hf

theorem Consistent.handleIn_in_memory (h : Consistent s) (he : eligible .inp s = true) :
    Machine.handleIn s ≠ .error .hostAddress := by
  intro hs
  obtain ⟨hf, -⟩ := eligible_inp.mp he
  rcases feedWords_error hs with ⟨-, hr⟩ | ⟨u, hu, hp, hfeed⟩
  · exact refill_in_memory hr
  · obtain ⟨hcu, hfsm, -, -, -, hlt⟩ := h.feedStart he hu
    have hj : u.fsm ≠ .idle := hfsm ▸ h.modes.in_job_of_method (method_ne_none_of_fifo hf)
    have hspace : u.desc.inAddr.toNat + u.desc.inLen.toNat ≤ Config.hostSpace :=
      of_decide_eq_true (hcu.buffers.in_space hj)
    by_cases htail : u.tailFed = true
    · rw [feedAvail_ragged htail hspace (hlt hp)] at hfeed
      cases hfeed
    · rw [feedAvail_ok (inCount_fits he).1 (by simpa using htail) hspace (hlt hp)] at hfeed
      cases hfeed

theorem handleDmaInCplt_in_memory : handleDmaInCplt s ≠ .error .hostAddress := by
  intro h
  rcases bind_eq_error.mp h with hr | ⟨u, -, hr⟩
  · exact refill_in_memory hr
  · exact pure_ne_error hr

/-! ## The other handlers and commands -/

theorem notify_in_memory {e : Effect} : notify e s ≠ .error .hostAddress := fun h => by cases (notify_fault.mp h).2

theorem handleDmaOutCplt_in_memory : handleDmaOutCplt s ≠ .error .hostAddress := fun h => by
  cases (handleDmaOutCplt_error h).1

/-- The handler of a record that is taken. -/
theorem Consistent.execEvent_in_memory (h : Consistent s) : ∀ e : Event, Machine.exec e.instr s ≠ .fault .hostAddress
  | .err => fun hs => notify_in_memory (takeEvent_fault.mp hs).2
  | .hpd => fun hs => notify_in_memory (takeEvent_fault.mp hs).2
  | .inp => fun hs => have ⟨ht, hf⟩ := takeEvent_fault.mp hs
    h.handleIn_in_memory (eligible_of_taken ht) hf
  | .out => fun hs => have ⟨ht, hf⟩ := takeEvent_fault.mp hs
    h.handleOut_in_memory (eligible_of_taken ht) hf
  | .eoc => fun hs => have ⟨ht, hf⟩ := takeEvent_fault.mp hs
    h.handleEoc_in_memory (eligible_of_taken ht) (dout_reported_of_taken ht (.inl rfl)) hf
  | .dmaInCplt => fun hs => handleDmaInCplt_in_memory (takeEvent_fault.mp hs).2
  | .dmaOutCplt => fun hs => handleDmaOutCplt_in_memory (takeEvent_fault.mp hs).2
  | .dmaAbort => fun hs => have ⟨ht, hf⟩ := takeEvent_fault.mp hs
    h.handleDmaAbort_in_memory (eligible_of_taken ht) (dout_reported_of_taken ht (.inr rfl)) hf

/-- An event of a pass fails where its handler does. -/
theorem pollEvent_error {e : Event} {handler : State → Except Fault State} {p : Word × State} {f : Fault}
    (h : pollEvent e handler p = .error f) : eligible e p.2 = true ∧ handler p.2 = .error f := by
  unfold pollEvent at h
  split at h
  · next he =>
    rcases bind_eq_error.mp h with hh | ⟨u, -, hr⟩
    · exact ⟨he, hh⟩
    · exact absurd hr pure_ne_error
  · cases h

theorem Consistent.pollPass_in_memory (h : Consistent s) (hm : s.ctx.method = some .poll) :
    Machine.pollPass s ≠ .error .hostAddress := by
  intro hp
  rcases bind_eq_error.mp hp with hf | ⟨p1, h1, hp⟩
  · exact notify_in_memory (pollEvent_error hf).2
  have c1 := (PollReady.start h hm).err h1
  rcases bind_eq_error.mp hp with hf | ⟨p2, h2, hp⟩
  · exact notify_in_memory (pollEvent_error hf).2
  have c2 := c1.hpd h2
  rcases bind_eq_error.mp hp with hf | ⟨p3, h3, hp⟩
  · obtain ⟨he, hs⟩ := pollEvent_error hf
    exact c2.consistent.handleIn_in_memory he hs
  have c3 := c2.inp h3
  rcases bind_eq_error.mp hp with hf | ⟨p4, h4, hf⟩
  · obtain ⟨he, hs⟩ := pollEvent_error hf
    exact c3.consistent.handleOut_in_memory he hs
  · have c4 := c3.out h4
    obtain ⟨he, hs⟩ := pollEvent_error hf
    exact c4.consistent.handleEoc_in_memory he (fun hd => by simp [c4.no_dma] at hd) hs

theorem execPoll_fault {f : Fault} (h : execPoll s = .fault f) : s.ctx.method = some .poll ∧ pollPass s = .error f := by
  unfold execPoll at h
  split at h
  · exact absurd h returnOk_ne_fault
  next hm =>
    split at h
    · exact absurd h returnOk_ne_fault
    · next hp => cases h; exact ⟨not_not.mp hm, hp⟩

/-- `RESUME` fails where the resumed output does, after the input is resumed. -/
theorem execResume_fault {dir : DirSet} {f : Fault} (h : execResume dir s = .fault f) : s.fsm ≠ .idle ∧
    dir.output = true ∧ ∃ u, (if dir.input then resumeInput s else some s) = some u ∧ resumeOutput u = .error f := by
  unfold execResume at h
  split at h
  · exact absurd h returnOk_ne_fault
  next hj =>
    split at h
    · exact absurd h raiseError_ne_fault
    next u hu =>
      split at h
      · exact absurd h returnOk_ne_fault
      next f' hf =>
        cases h
        split at hf
        · next hout => exact ⟨hj, hout, u, hu, hf⟩
        · cases hf

theorem Consistent.execResume_in_memory (h : Consistent s) (dir : DirSet) : Machine.execResume dir s ≠ .fault .hostAddress := by
  intro hs
  obtain ⟨hj, -, u, hu, hf⟩ := execResume_fault hs
  split at hu
  · exact (h.resumeInput hj hu).resumeOutput_in_memory (by rwa [resumeInput_fsm hu]) hf
  · cases hu
    exact h.resumeOutput_in_memory hj hf

theorem execPause_ne_fault {dir : DirSet} {f : Fault} : execPause dir s ≠ .fault f := by
  unfold execPause
  split <;> exact returnOk_ne_fault

theorem execAbort_ne_fault {f : Fault} : execAbort s ≠ .fault f := by
  unfold execAbort
  split
  · exact returnOk_ne_fault
  split
  · exact raiseError_ne_fault
  · exact returnOk_ne_fault

theorem execSbinit_ne_fault {f : Fault} : execSbinit s ≠ .fault f := by
  unfold execSbinit
  split
  · exact raiseError_ne_fault
  · exact returnOk_ne_fault

theorem execStart_fault {op : JobOp} {m : Method} {f : Fault} (h : execStart op m s = .fault f) :
    f = .bufferOverlap ∧ s.fsm = .idle ∧ startOverlap s = true := by
  unfold execStart at h
  split at h
  · exact absurd h raiseError_ne_fault
  next hi =>
    split at h
    · exact absurd h raiseError_ne_fault
    split at h
    · next hover => cases h; exact ⟨rfl, not_not.mp hi, hover⟩
    · exact absurd h returnOk_ne_fault

theorem finishInputWrite_fault {f : Fault} (h : finishInputWrite s = .fault f) :
    s.fsm ≠ .idle ∧ inputFault s = some f := by
  unfold finishInputWrite at h
  split at h
  · exact absurd h returnOk_ne_fault
  next hj =>
    split at h
    · next hf => cases h; exact ⟨hj, hf⟩
    · exact absurd h returnOk_ne_fault

/-- A `WRD` fails on the input descriptor of a paused job. -/
theorem execWrd_fault {reg : DescReg} {v : Word} {f : Fault} (h : execWrd reg v s = .fault f) :
    s.fsm ≠ .idle ∧ inputWritable s = true ∧
      (reg = .inAddr ∧ inputFault { s with desc := s.desc.withInput v s.desc.inLen } = some f ∨
        reg = .inLen ∧ inputFault { s with desc := s.desc.withInput s.desc.inAddr v } = some f) := by
  unfold execWrd at h
  cases reg with
  | inAddr =>
    dsimp only at h
    split at h
    · next hw =>
      obtain ⟨hj, hf⟩ := finishInputWrite_fault h
      exact ⟨hj, hw, .inl ⟨rfl, hf⟩⟩
    · exact absurd h raiseError_ne_fault
  | inLen =>
    dsimp only at h
    split at h
    · next hw =>
      obtain ⟨hj, hf⟩ := finishInputWrite_fault h
      exact ⟨hj, hw, .inr ⟨rfl, hf⟩⟩
    · exact absurd h raiseError_ne_fault
  | outAddr =>
    dsimp only at h
    split at h
    · exact absurd h returnOk_ne_fault
    · exact absurd h raiseError_ne_fault
  | outLen =>
    dsimp only at h
    split at h
    · exact absurd h returnOk_ne_fault
    · exact absurd h raiseError_ne_fault

/-- The first step of an `SBFILL` fails only outside host memory. -/
theorem execSbfill_fault {len : Word} {f : Fault} (h : execSbfill len s = .fault f) : f = .hostAddress ∧
    len.toNat ≤ s.cfg.ibcap ∧ Config.hostSpace < (sbAddr s.cfg s.sb.wr).toNat + len.toNat := by
  unfold execSbfill at h
  split at h
  · exact absurd h raiseError_ne_fault
  next hcap =>
    split at h
    · exact absurd h returnOk_ne_fault
    split at h
    · exact absurd h raiseError_ne_fault
    split at h
    · cases h
    next f' hf =>
      cases h
      rcases bind_eq_error.mp hf with hw | ⟨u, -, hr⟩
      · obtain ⟨hfault, hspace⟩ := memWrite_error hw
        exact ⟨hfault, Nat.le_of_not_lt hcap, by simpa [sourceBytes] using hspace⟩
      · exact absurd hr pure_ne_error

theorem execSbfill_in_memory (hi : Inv s) (len : Word) : execSbfill len s ≠ .fault .hostAddress := by
  intro h
  obtain ⟨-, hcap, hspace⟩ := execSbfill_fault h
  obtain ⟨hsb, -⟩ := streamBuffer_space hi s.sb.wr
  omega

/-- The second step of an `SBFILL` fails on the buffer it hands over (44_stream_buffers R273). -/
theorem sbfillStep2_fault {k : BufIdx} {f : Fault} (h : sbfillStep2 k s = .fault f) :
    sbAwaits k s = true ∧ inputWritable s = true ∧
      inputFault { s with desc := s.desc.withInput (sbAddr s.cfg k) (s.sb.buf k).len } = some f := by
  unfold sbfillStep2 at h
  dsimp only at h
  split at h
  · exact absurd h returnOk_ne_fault
  next haw =>
    split at h
    · next f' hf =>
      cases h
      unfold sbTakeBuffer at hf
      split at hf
      · next hw =>
        split at hf
        · next hbad =>
          cases hf
          rw [Bool.not_eq_true', Bool.not_eq_false] at haw
          exact ⟨haw, hw, hbad⟩
        · cases hf
      · cases hf
    · split at h
      · exact absurd h returnOk_ne_fault
      · exact absurd h raiseError_ne_fault

/-! ## The agents -/

theorem Consistent.dinStep_in_memory (h : Consistent s) : Machine.dinStep s ≠ .error .hostAddress := by
  intro hs
  by_cases hab : s.din.busy = true ∧ s.din.abortReq = true
  · rw [dinStep_of_abort hab.1 hab.2] at hs
    cases hs
  by_cases hm : dinMoves s = true
  · obtain ⟨hb, -⟩ := dinMoves_iff.mp hm
    by_cases htail : s.tailFed = true
    · rw [dinStep_ragged hm (h.engines.din_left hb) (h.engines.din_space hb) htail] at hs
      cases hs
    · rw [dinStep_burst hm (h.engines.din_left hb) (h.engines.din_space hb) (by simpa using htail)] at hs
      cases hs
  · rw [dinStep_of_still (by simpa [-not_and, not_and_or] using hab) (by simpa using hm)] at hs
    cases hs

theorem Consistent.doutStep_in_memory (h : Consistent s) : Machine.doutStep s ≠ .error .hostAddress := by
  intro hs
  by_cases hab : s.dout.busy = true ∧ s.dout.abortReq = true
  · rw [doutStep_of_abort hab.1 hab.2] at hs
    cases hs
  by_cases hm : doutMoves s = true
  · obtain ⟨hb, -, hen, -⟩ := doutMoves_iff.mp hm
    rw [doutStep_burst hm (doutBlock_of_busy h (dma_of_enable h.modes h.enables (.inr hen)) hb)] at hs
    cases hs
  · rw [doutStep_of_still (by simpa [-not_and, not_and_or] using hab) (by simpa using hm)] at hs
    cases hs

theorem agentOutcome_fault {r : Except Fault State} {f : Fault} : agentOutcome r = .fault f ↔ r = .error f := by
  cases r <;> simp [agentOutcome]

theorem hostStep_error {a : HostAct} {f : Fault} (h : hostStep a s = .error f) : a = .writeBlockState ∧ f = .singleWriter := by
  cases a with
  | write addr b => cases h
  | writeBlockState => cases h; exact ⟨rfl, rfl⟩

/-! ## Every instruction and every step -/

theorem execProgc_in_memory {addr : BitVec 16} {src : Option Slot} : execProgc addr src s ≠ .fault .hostAddress := fun h => by
  rcases execProgc_fault.mp h with ⟨-, hf⟩ | ⟨-, hf, -⟩ <;> cases hf

/-- No instruction reaches an address outside host memory. -/
theorem exec_in_memory (hi : Inv s) : ∀ i : Instr, exec i s ≠ .fault .hostAddress
  | .ldb _ _ _ => fun h => by cases (execLdb_fault h).2
  | .wrd _ _ => fun h => by
    obtain ⟨-, -, ⟨-, hbad⟩ | ⟨-, hbad⟩⟩ := execWrd_fault h <;> rcases inputFault_some hbad with hf | hf <;> cases hf
  | .build _ => fun h => by rcases execBuild_fault.mp h with ⟨-, hf⟩ | ⟨-, hf, -⟩ <;> cases hf
  | .progc _ _ => execProgc_in_memory
  | .progr _ => fun h => by rcases execProgr_fault.mp h with ⟨-, hf⟩ | ⟨-, hf, -⟩ <;> cases hf
  | .qgen _ _ => fun h => by obtain ⟨-, ⟨-, hf⟩ | ⟨-, hf, -⟩⟩ := execQgen_fault.mp h <;> cases hf
  | .qest _ => fun h => by obtain ⟨-, ⟨-, hf⟩ | ⟨-, ⟨hf, -⟩ | ⟨hf, -⟩⟩⟩ := execQest_fault.mp h <;> cases hf
  | .start _ _ => fun h => by cases (execStart_fault h).1
  | .pause _ => execPause_ne_fault
  | .resume dir => hi.consistent.execResume_in_memory dir
  | .poll => fun h => have ⟨hm, hp⟩ := execPoll_fault h
    hi.consistent.pollPass_in_memory hm hp
  | .abort => execAbort_ne_fault
  | .getinfo _ | .getstate | .geterr => returnOk_ne_fault
  | .sbfill len => execSbfill_in_memory hi len
  | .sbinit => execSbinit_ne_fault
  | .evErr => hi.consistent.execEvent_in_memory .err
  | .evHpd => hi.consistent.execEvent_in_memory .hpd
  | .evIn => hi.consistent.execEvent_in_memory .inp
  | .evOut => hi.consistent.execEvent_in_memory .out
  | .evEoc => hi.consistent.execEvent_in_memory .eoc
  | .evDmaInCplt => hi.consistent.execEvent_in_memory .dmaInCplt
  | .evDmaOutCplt => hi.consistent.execEvent_in_memory .dmaOutCplt
  | .evDmaAbort => hi.consistent.execEvent_in_memory .dmaAbort

/-- Taking an input is no part of the invariant. -/
theorem Inv.inputTaken (h : Inv s) : Inv s.inputTaken := by
  have hc : Consistent s.inputTaken := h.consistent.of_visible rfl
  exact
    { params := h.params, memory := h.memory, modes := hc.modes, enables := hc.enables, fifos := hc.fifos
      tables := hc.tables, buffers := hc.buffers, engines := hc.engines, streams := hc.streams }

theorem step_in_memory (hi : Inv s) : step s ≠ .fault .hostAddress := by
  have htaken := hi.inputTaken
  have hkind := step_kind s
  generalize step s = r at hkind
  cases hkind with
  | run i => exact exec_in_memory htaken i
  | fill k u =>
    intro h
    obtain ⟨-, -, hbad⟩ := sbfillStep2_fault h
    rcases inputFault_some hbad with hf | hf <;> cases hf
  | illegal => exact illegalCommand_ne_fault
  | still => nofun
  | din => exact fun h => htaken.consistent.dinStep_in_memory (agentOutcome_fault.mp h)
  | dinError => nofun
  | dout => exact fun h => htaken.consistent.doutStep_in_memory (agentOutcome_fault.mp h)
  | doutError => nofun
  | core => nofun
  | host a => exact fun h => by cases (hostStep_error (agentOutcome_fault.mp h)).2

/-! ## Nothing is refused -/

/-- A next state or a fault. -/
def Answers (r : Result) : Prop := ∀ x, r ≠ .refused x

theorem Answers.next : Answers (.next s) := nofun

theorem Answers.fault {f : Fault} : Answers (.fault f) := nofun

theorem Answers.returnOk {data : Word} : Answers (returnOk data s) := nofun

theorem Answers.raiseError {e : ErrCode} : Answers (raiseError e s) := nofun

theorem Answers.illegalCommand : Answers (illegalCommand s) := nofun

theorem Answers.ite {p : Prop} [Decidable p] {a b : Result} (ha : Answers a) (hb : Answers b) :
    Answers (if p then a else b) := by
  split <;> assumption

theorem Answers.agent {r : Except Fault State} : Answers (agentOutcome r) := by
  cases r with
  | ok => exact .next
  | error => exact .fault

theorem programFrom_answers {r k : Slot} : Answers (programFrom r k s) := by
  unfold programFrom
  refine .ite ?_ ?_ <;> split
  · exact .fault
  · exact .returnOk
  · exact .fault
  · split
    · exact .raiseError
    · split
      · exact .fault
      · exact .returnOk

theorem execProgc_answers {addr : BitVec 16} {src : Option Slot} : Answers (execProgc addr src s) := by
  refine .ite .fault ?_
  split
  · exact .raiseError
  · split
    · exact .returnOk
    · exact .ite .raiseError programFrom_answers

theorem execBuild_answers {k : Slot} : Answers (execBuild k s) := by
  refine .ite .fault ?_
  split
  · exact .fault
  · split
    · exact .returnOk
    · exact .raiseError

theorem execProgr_answers {mask : SlotSet} : Answers (execProgr mask s) := by
  refine .ite .fault ?_
  split
  · exact .fault
  · exact .returnOk

theorem execQgen_answers {q : BitVec 4} {quality : BitVec 8} : Answers (execQgen q quality s) := by
  refine .ite .illegalCommand (.ite .fault ?_)
  split
  · exact .raiseError
  · split
    · exact .fault
    · exact .returnOk

theorem execQest_answers {q : BitVec 4} : Answers (execQest q s) := by
  refine .ite .illegalCommand (.ite .fault ?_)
  split
  · exact .fault
  · split
    · exact .fault
    · exact .returnOk

theorem finishInputWrite_answers : Answers (finishInputWrite s) := by
  refine .ite .returnOk ?_
  split
  · exact .fault
  · exact .returnOk

theorem execWrd_answers : ∀ {reg : DescReg} {v : Word}, Answers (execWrd reg v s)
  | .inAddr, _ | .inLen, _ => .ite finishInputWrite_answers .raiseError
  | .outAddr, _ | .outLen, _ => .ite .returnOk .raiseError

theorem execResume_answers {dir : DirSet} : Answers (execResume dir s) := by
  refine .ite .returnOk ?_
  split
  · exact .raiseError
  · split
    · exact .returnOk
    · exact .fault

theorem execPoll_answers : Answers (execPoll s) := by
  refine .ite .returnOk ?_
  split
  · exact .returnOk
  · exact .fault

theorem execSbfill_answers {len : Word} : Answers (execSbfill len s) := by
  refine .ite .raiseError (.ite .returnOk (.ite .raiseError ?_))
  split
  · exact .next
  · exact .fault

theorem sbfillStep2_answers {k : BufIdx} : Answers (sbfillStep2 k s) := by
  refine .ite .returnOk ?_
  split
  · exact .fault
  · split
    · exact .returnOk
    · exact .raiseError

theorem takeEvent_answers {e : Event} {handler : State → Except Fault State} : Answers (takeEvent e handler s) := by
  refine .ite ?_ .next
  split
  · exact .next
  · exact .fault

theorem exec_answers : ∀ i : Instr, Answers (exec i s)
  | .ldb _ _ _ => .ite .illegalCommand (.ite .fault .returnOk)
  | .wrd _ _ => execWrd_answers
  | .build _ => execBuild_answers
  | .progc _ _ => execProgc_answers
  | .progr _ => execProgr_answers
  | .qgen _ _ => execQgen_answers
  | .qest _ => execQest_answers
  | .start _ _ => .ite .raiseError (.ite .raiseError (.ite .fault .returnOk))
  | .pause _ => .ite .returnOk .returnOk
  | .resume _ => execResume_answers
  | .poll => execPoll_answers
  | .abort => .ite .returnOk (.ite .raiseError .returnOk)
  | .getinfo _ | .getstate | .geterr => .returnOk
  | .sbfill _ => execSbfill_answers
  | .sbinit => .ite .raiseError .returnOk
  | .evErr | .evHpd | .evIn | .evOut | .evEoc | .evDmaInCplt | .evDmaOutCplt | .evDmaAbort => takeEvent_answers

theorem step_answers : Answers (step s) := by
  have hkind := step_kind s
  generalize step s = r at hkind
  cases hkind with
  | run i => exact exec_answers i
  | fill => exact sbfillStep2_answers
  | illegal => exact .illegalCommand
  | still | dinError | doutError | core => exact .next
  | din | dout | host => exact .agent

end Sys2Proof.Machine
end

section
/-! The cause of every fault of a step (O12, 60_exceptions R304). -/

namespace Sys2Proof.Machine

open Sys2Proof

-- One proof after the other: side by side they take more threads than the check's memory limit has room for.
set_option Elab.async false

variable {s t : State} {f : Fault}

/-! ## What one event of a pass leaves for the next (43_transfer_fsm R229) -/

/-- All that the events of the output and the drains see, but for the memory and the descriptor. -/
def State.outputView (s : State) :=
  (s.ctx.method, s.ctx.ending, s.ctx.pauseOut, s.cr.run, s.cr.ieOft, s.cr.ieOfne, s.cr.ieEoc, s.sr.eocf, s.ofifo,
    s.host.managed, s.host.drainReplies)

theorem eligible_out_congr (h : t.outputView = s.outputView) : eligible .out t = eligible .out s := by
  simp only [State.outputView, Prod.mk.injEq] at h
  rw [Bool.eq_iff_iff, eligible_out, eligible_out]
  simp only [h]

theorem eligible_eoc_congr (h : t.outputView = s.outputView) : eligible .eoc t = eligible .eoc s := by
  simp only [State.outputView, Prod.mk.injEq] at h
  rw [Bool.eq_iff_iff, eligible_eoc, eligible_eoc]
  simp only [h]

theorem DrainsCommand.of_view (hc : DrainsCommand t) (h : t.outputView = s.outputView) : DrainsCommand s := by
  simp only [State.outputView, Prod.mk.injEq] at h
  obtain ⟨-, -, -, -, -, -, -, -, -, hm, hr⟩ := h
  exact hc.congr hm hr

theorem method_of_view (h : t.outputView = s.outputView) : t.ctx.method = s.ctx.method := congrArg Prod.fst h

/-- What `EV_HPD` may change, and that it answers one callback. -/
structure HpdLeaves (s t : State) : Prop where
  frame : t = { s with
    info := t.info, trace := t.trace, cr := { s.cr with ieHpd := t.cr.ieHpd }, sr := { s.sr with hpdf := t.sr.hpdf }
    host := { s.host with notices := t.host.notices } }
  notices : t.host.notices = s.host.notices ∨ eligible .hpd s = true ∧ t.host.notices = s.host.notices.tail

theorem HpdLeaves.refl (s : State) : HpdLeaves s s := ⟨rfl, .inl rfl⟩

theorem handleHpd_leaves (he : eligible .hpd s = true) (h : handleHpd s = .ok t) : HpdLeaves s t := by
  obtain ⟨-, rfl⟩ := notify_ok.mp h
  exact ⟨rfl, .inr ⟨he, rfl⟩⟩

theorem HpdLeaves.view (h : HpdLeaves s t) : t.outputView = s.outputView := by
  rw [h.frame]
  rfl

theorem HpdLeaves.inp (h : HpdLeaves s t) : eligible .inp t = eligible .inp s := by
  rw [h.frame]
  rfl

/-- What `EV_IN` leaves to the output. -/
structure InLeaves (s t : State) : Prop where
  view : t.outputView = s.outputView
  notices : t.host.notices = s.host.notices

theorem InLeaves.refl (s : State) : InLeaves s s := ⟨rfl, rfl⟩

theorem refill_inLeaves (h : refill s = .ok t) : InLeaves s t := by
  obtain ⟨sb, host, draws, addr, len, hhost, -, ht⟩ := refill_cases h
  rcases ht with ⟨rfl, -⟩ | ⟨rfl, -⟩
  · rw [hhost]
    exact ⟨rfl, rfl⟩
  · rw [hhost]
    refine ⟨?_, rfl⟩
    simp only [State.outputView, State.pauseInput_cr]
    split <;> rfl

theorem feedAvail_inLeaves {n : Nat} (h : feedAvail n s = .ok t) : InLeaves s t := by
  rw [feedAvail_frame h]
  exact ⟨rfl, rfl⟩

theorem handleIn_leaves (h : handleIn s = .ok t) : InLeaves s t := by
  obtain ⟨u, hu, hr⟩ := feedWords_ok.mp h
  have hfirst : InLeaves s u := by
    split at hu
    · exact refill_inLeaves hu
    · rw [hu]; exact .refl s
  split at hr
  · rwa [hr]
  · have hrest := feedAvail_inLeaves hr
    exact ⟨hrest.view.trans hfirst.view, hrest.notices.trans hfirst.notices⟩

/-- What `EV_OUT` leaves to `EV_EOC`: it runs where no `DRAIN` was answered with a pause. -/
structure OutLeaves (s t : State) : Prop where
  method : t.ctx.method = s.ctx.method
  notices : t.host.notices = s.host.notices
  eoc : eligible .eoc t = true → eligible .eoc s = true
  drains : eligible .eoc t = true → DrainsCommand t → DrainsCommand s

theorem OutLeaves.refl (s : State) : OutLeaves s s := ⟨rfl, rfl, id, fun _ => id⟩

theorem handleOut_leaves (h : handleOut s = .ok t) : OutLeaves s t := by
  obtain ⟨hframe, hpause⟩ := storeWords_frame h
  have hsr : t.sr = s.sr := by rw [hframe]
  refine ⟨handleOut_method h, drainedFrame_notices (storeWords_frame h), fun he => ?_, fun he => ?_⟩
  · rw [eligible_eoc] at he ⊢
    rcases hpause with ⟨hctx, hcr⟩ | ⟨hctx, -⟩
    · rwa [hctx, hcr, hsr] at he
    · rw [hctx] at he
      simp at he
  · exact (storeWords_repliesLeft h).continued (eligible_eoc.mp he).2.2.2.2

/-! ## The faults of a pass -/

/-- What stops `EV_IN`. -/
def FeedFault (s : State) (f : Fault) : Prop :=
  f = .hostAddress ∨ f = .raggedMidStream ∧ s.tailFed = true ∨ s.desc.inOff = s.desc.inLen ∧ RefillFault s s.desc.inOff f

/-- What stops `EV_OUT`. -/
def StoreFault (s : State) (f : Fault) : Prop := f = .hostAddress ∨ f = .commandInCallback ∧ DrainsCommand s

theorem FeedFault.of_hpd (h : FeedFault t f) (hl : HpdLeaves s t) : FeedFault s f := by
  have hframe := hl.frame
  generalize t.info = a, t.trace = b, t.cr.ieHpd = c, t.sr.hpdf = d, t.host.notices = e at hframe
  subst hframe
  exact h.imp id (.imp id fun hr => ⟨hr.1, hr.2.congr rfl rfl rfl rfl rfl (fun _ _ => rfl) rfl⟩)

/-- Why a pass stops: an event that was eligible before the pass, and the host's answers as they stood then; `DONE` may come
after `INFO_READY`. -/
inductive PassFault (s : State) (f : Fault) : Prop
  | notice (he : eligible .err s = true ∨ eligible .hpd s = true) (hf : f = .commandInCallback)
      (hn : s.host.notices.head? = some .command)
  | feed (he : eligible .inp s = true) (h : FeedFault s f)
  | store (he : eligible .out s = true) (h : StoreFault s f)
  | finish (he : eligible .eoc s = true) (h : FinishFault s f)
  | done (he : eligible .hpd s = true) (hc : eligible .eoc s = true) (hf : f = .commandInCallback)
      (hn : s.host.notices.tail.head? = some .command)

/-- A relation of the states before and after an event, run or not. -/
theorem pollEvent_rel {e : Event} {handler : State → Except Fault State} {p r : Word × State} {R : State → State → Prop}
    (h : pollEvent e handler p = .ok r) (hrefl : R p.2 p.2)
    (hrun : eligible e p.2 = true → handler p.2 = .ok r.2 → R p.2 r.2) : R p.2 r.2 := by
  rcases pollEvent_ok h with ⟨rfl, -⟩ | ⟨he, hok⟩
  · exact hrefl
  · exact hrun he hok

theorem method_of_eligible_ne {e : Event} (h : eligible e s = true) : s.ctx.method ≠ none := fun hm => by
  rw [not_eligible_of_no_method hm] at h
  cases h

theorem pollPass_error (h : pollPass s = .error f) : PassFault s f := by
  rcases bind_eq_error.mp h with hf | ⟨p1, h1, h⟩
  · obtain ⟨he, hs⟩ := pollEvent_error hf
    obtain ⟨hn, hf⟩ := notify_fault.mp hs
    exact .notice (.inl he) hf hn
  -- `EV_ERR` ends the job: after it nothing is eligible.
  have herr : p1.2.ctx.method ≠ none → p1.2 = s := fun hm => by
    rcases pollEvent_ok h1 with ⟨rfl, -⟩ | ⟨-, hs⟩
    · rfl
    · exact absurd (handleErr_method hs) hm
  rcases bind_eq_error.mp h with hf | ⟨p2, h2, h⟩
  · obtain ⟨he, hs⟩ := pollEvent_error hf
    have hp1 := herr (method_of_eligible_ne he)
    rw [hp1] at he hs
    obtain ⟨hn, hf⟩ := notify_fault.mp hs
    exact .notice (.inr he) hf hn
  have hhpd : p2.2.ctx.method ≠ none → HpdLeaves s p2.2 := fun hm => by
    have hl : HpdLeaves p1.2 p2.2 := pollEvent_rel h2 (.refl _) handleHpd_leaves
    rwa [herr (by rwa [← method_of_view hl.view])] at hl
  rcases bind_eq_error.mp h with hf | ⟨p3, h3, h⟩
  · obtain ⟨he, hs⟩ := pollEvent_error hf
    have hl := hhpd (method_of_eligible_ne he)
    exact .feed (hl.inp ▸ he) (FeedFault.of_hpd (handleIn_error hs) hl)
  have hin : InLeaves p2.2 p3.2 := pollEvent_rel h3 (.refl _) fun _ => handleIn_leaves
  have hhpd : p3.2.ctx.method ≠ none → HpdLeaves s p2.2 := fun hm => hhpd (by rwa [← method_of_view hin.view])
  rcases bind_eq_error.mp h with hf | ⟨p4, h4, hf⟩
  · obtain ⟨he, hs⟩ := pollEvent_error hf
    have hview := hin.view.trans (hhpd (method_of_eligible_ne he)).view
    refine .store (eligible_out_congr hview ▸ he) ((storeWords_error hs).imp id fun hc => ⟨hc.1, hc.2.of_view hview⟩)
  have hout : OutLeaves p3.2 p4.2 := pollEvent_rel h4 (.refl _) fun _ => handleOut_leaves
  obtain ⟨he, hs⟩ := pollEvent_error hf
  have hl := hhpd (hout.method ▸ method_of_eligible_ne he)
  have hview := hin.view.trans hl.view
  have heoc : eligible .eoc s = true := eligible_eoc_congr hview ▸ hout.eoc he
  have hnotices : p4.2.host.notices = p2.2.host.notices := hout.notices.trans hin.notices
  rcases handleEoc_error hs with hf | ⟨hf, hn | hd⟩
  · exact .finish heoc (.inl hf)
  · rw [hnotices] at hn
    rcases hl.notices with hsame | ⟨hhpd, htail⟩
    · exact .finish heoc (.inr ⟨hf, .inl (hsame ▸ hn)⟩)
    · exact .done hhpd heoc hf (htail ▸ hn)
  · exact .finish heoc (.inr ⟨hf, .inr ((hout.drains he hd).of_view hview)⟩)

/-! ## Resuming -/

/-- `DoResume(Input)` answers no callback and leaves the output's pause. -/
theorem resumeInput_leaves (h : resumeInput s = some t) : t.host = s.host ∧ t.ctx.pauseOut = s.ctx.pauseOut ∧
    t.ctx.ending = s.ctx.ending := by
  unfold resumeInput at h
  dsimp only at h
  split at h
  · cases h; exact ⟨rfl, rfl, rfl⟩
  split at h
  · cases h
  split at h
  · cases h; exact ⟨rfl, rfl, rfl⟩
  split at h
  · cases h; exact ⟨rfl, rfl, rfl⟩
  split at h <;> cases h <;> exact ⟨rfl, rfl, rfl⟩

theorem execResume_error {dir : DirSet} (h : execResume dir s = .fault f) :
    dir.output = true ∧ s.ctx.ending = true ∧ s.ctx.pauseOut = true ∧ FinishFault s f := by
  obtain ⟨-, hout, u, hu, hr⟩ := execResume_fault h
  obtain ⟨hp, hend, hf⟩ := resumeOutput_error hr
  split at hu
  · obtain ⟨hhost, hpause, hending⟩ := resumeInput_leaves hu
    exact ⟨hout, hending ▸ hend, hpause ▸ hp, hf.congr hhost⟩
  · cases hu
    exact ⟨hout, hend, hp, hf⟩

/-! ## The causes -/

/-- The step runs this instruction. -/
def Runs (s : State) (i : Instr) : Prop := fetch s = .run i s.inputTaken

/-- The step takes this event's record. -/
def Took (s : State) (e : Event) : Prop := Runs s e.instr ∧ recordTaken e s = true

/-- The step is a pass of `POLL` before which this event is eligible. -/
def Polled (s : State) (e : Event) : Prop := Runs s .poll ∧ s.ctx.method = some .poll ∧ eligible e s = true

/-- The step runs the event's handler, from a record or in a pass. -/
def Handled (s : State) (e : Event) : Prop := Took s e ∨ Polled s e

/-- The step resumes the output of a job that is ending. -/
def Resumed (s : State) : Prop :=
  ∃ dir, Runs s (.resume dir) ∧ dir.output = true ∧ s.ctx.ending = true ∧ s.ctx.pauseOut = true

/-- This buffer as the input breaks a test. -/
def BadInput (s : State) (f : Fault) (addr len : Word) : Prop :=
  inputFault { s with desc := s.desc.withInput addr len } = some f

/-- The reply to `REFILL(consumed)` breaks a test. -/
def BadReply (s : State) (f : Fault) (consumed : Word) : Prop :=
  ∃ addr len, (refillReply consumed s).1 = .supply addr len ∧ BadInput s f addr len

/-- Where an input buffer that breaks a test comes from. -/
inductive InputCause (s : State) (f : Fault) : Prop
  | wrdAddr (v : Word) (hj : s.fsm ≠ .idle) (hw : inputWritable s = true) (hr : Runs s (.wrd .inAddr v))
      (hb : BadInput s f v s.desc.inLen)
  | wrdLen (v : Word) (hj : s.fsm ≠ .idle) (hw : inputWritable s = true) (hr : Runs s (.wrd .inLen v))
      (hb : BadInput s f s.desc.inAddr v)
  | handOver (k : BufIdx) (hj : s.fsm ≠ .idle) (hw : inputWritable s = true) (hk : s.sb.filling = some k)
      (hwait : s.sb.wait = true) (hrd : s.sb.rd = k) (hf : ∃ t, fetch s = .outcome (sbfillStep2 k t))
      (hb : BadInput s f (sbAddr s.cfg k) (s.sb.buf k).len)
  | feed (he : Handled s .inp) (hoff : s.desc.inOff = s.desc.inLen) (hb : BadReply s f s.desc.inOff)
  | cplt (he : Took s .dmaInCplt) (hb : BadReply s f (s.desc.inOff + s.din.len))

/-- The programming and load commands. -/
def LoadCommand (i : Instr) : Prop :=
  (∃ file index data, i = .ldb file index data) ∨ (∃ k, i = .build k) ∨ (∃ addr src, i = .progc addr src) ∨
    (∃ mask, i = .progr mask) ∨ (∃ q quality, i = .qgen q quality) ∨ ∃ q, i = .qest q

/-- Why a step faults, by the fault. -/
inductive StepCause (s : State) : Fault → Prop
  | outside (i : Instr) (hr : Runs s i) (hj : s.fsm ≠ .idle) (hi : LoadCommand i) : StepCause s .programmingOutsideIdle
  | singleWriter (rest : List Stimulus) (h : s.inputs = .host .writeBlockState :: rest) : StepCause s .singleWriter
  | build (k : Slot) (hi : s.fsm = .idle) (hr : Runs s (.build k)) (h : BuildReadsUnwritten s k) :
      StepCause s .unwrittenOperand
  | progc (addr : BitVec 16) (k : Slot) (hi : s.fsm = .idle) (hr : Runs s (.progc addr (some k)))
      (h : if (s.hct.get k).valid = true then TableUnwritten s k else BuildReadsUnwritten s k) :
      StepCause s .unwrittenOperand
  | progr (mask : SlotSet) (k : Slot) (hi : s.fsm = .idle) (hr : Runs s (.progr mask)) (hk : mask.has k = true)
      (h : SpecUnwritten s k) : StepCause s .unwrittenOperand
  | baseline (q : BitVec 4) (hi : s.fsm = .idle) (hr : Runs s (.qest q) ∨ ∃ quality, Runs s (.qgen q quality))
      (h : none ∈ s.baselineOf q) : StepCause s .unwrittenOperand
  | zero (q : BitVec 4) (base : List Byte) (i : Nat) (hi : s.fsm = .idle) (hr : Runs s (.qest q))
      (h : s.baselineOf q = base.map some ∧ i < 64 ∧ readBack s q i ≠ 1 ∧ zigzagElem s.cfg base i = 0#8) :
      StepCause s .divideByZero
  | badBuffer (h : InputCause s .badBuffer) : StepCause s .badBuffer
  | overlap (h : InputCause s .bufferOverlap) : StepCause s .bufferOverlap
  | startOverlap (op : JobOp) (m : Method) (hi : s.fsm = .idle) (hr : Runs s (.start op m)) (h : startOverlap s = true) :
      StepCause s .bufferOverlap
  | notice (hn : s.host.notices.head? = some .command)
      (hw : Handled s .hpd ∨ Handled s .err ∨ Handled s .eoc ∨ Took s .dmaAbort ∨ Resumed s) :
      StepCause s .commandInCallback
  | secondNotice (hn : s.host.notices.tail.head? = some .command) (hh : Polled s .hpd) (he : Polled s .eoc) :
      StepCause s .commandInCallback
  | refill (hm : s.host.managed = false) (hr : s.host.refillReplies.head? = some .command)
      (hw : Handled s .inp ∧ s.desc.inOff = s.desc.inLen ∨ Took s .dmaInCplt) : StepCause s .commandInCallback
  | drain (hm : s.host.managed = false) (hr : s.host.drainReplies.head? = some .command) (hw : Took s .dmaOutCplt) :
      StepCause s .commandInCallback
  | drains (h : DrainsCommand s) (hw : Handled s .out ∨ Handled s .eoc ∨ Took s .dmaAbort ∨ Resumed s) :
      StepCause s .commandInCallback
  | ragged (h : s.tailFed = true)
      (hw : Handled s .inp ∨ (∃ rest, s.inputs = .din :: rest) ∧ dinMoves s = true) : StepCause s .raggedMidStream
  | address : StepCause s .hostAddress

theorem BadInput.fault {addr len : Word} (h : BadInput s f addr len) : f = .badBuffer ∨ f = .bufferOverlap := inputFault_some h

theorem BadReply.fault {consumed : Word} (h : BadReply s f consumed) : f = .badBuffer ∨ f = .bufferOverlap := by
  obtain ⟨addr, len, -, hb⟩ := h
  exact hb.fault

theorem InputCause.fault (h : InputCause s f) : f = .badBuffer ∨ f = .bufferOverlap := by
  cases h with
  | wrdAddr v hj hw hr hb => exact hb.fault
  | wrdLen v hj hw hr hb => exact hb.fault
  | handOver k hj hw hk hwait hrd hf hb => exact hb.fault
  | feed he hoff hb => exact hb.fault
  | cplt he hb => exact hb.fault

theorem InputCause.stepCause (h : InputCause s f) : StepCause s f := by
  rcases h.fault with rfl | rfl
  · exact .badBuffer h
  · exact .overlap h

/-! ## From the faults of the handlers to their causes -/

/-- The reply does not see the inputs. -/
theorem RefillFault.of_inputTaken {consumed : Word} (h : RefillFault s.inputTaken consumed f) : RefillFault s consumed f :=
  h.congr rfl rfl rfl rfl rfl (fun _ _ => rfl) rfl

theorem FeedFault.cause (h : FeedFault s.inputTaken f) (he : Handled s .inp) : StepCause s f := by
  rcases h with rfl | ⟨rfl, htail⟩ | ⟨hoff, hr⟩
  · exact .address
  · exact .ragged htail (.inl he)
  · rcases hr.of_inputTaken with ⟨rfl, hm, hh⟩ | ⟨addr, len, hs, hb⟩
    · exact .refill hm hh (.inl ⟨he, hoff⟩)
    · exact (InputCause.feed he hoff ⟨addr, len, hs, hb⟩).stepCause

theorem StoreFault.cause (h : StoreFault s.inputTaken f) (he : Handled s .out) : StepCause s f := by
  rcases h with rfl | ⟨rfl, hd⟩
  · exact .address
  · exact .drains hd (.inl he)

theorem FinishFault.cause (h : FinishFault s.inputTaken f) (hw : Handled s .eoc ∨ Took s .dmaAbort ∨ Resumed s) :
    StepCause s f := by
  rcases h with rfl | ⟨rfl, hn | hd⟩
  · exact .address
  · exact .notice hn (.inr (.inr hw))
  · exact .drains hd (.inr hw)

theorem notify_cause {e : Effect} (h : notify e t = .error f) (ht : t.host.notices = s.host.notices)
    (hw : Handled s .hpd ∨ Handled s .err) : StepCause s f := by
  obtain ⟨hn, rfl⟩ := notify_fault.mp h
  exact .notice (ht ▸ hn) (hw.imp id .inl)

/-- An event's record. -/
theorem execEvent_cause (e : Event) (hr : Runs s e.instr) (h : exec e.instr s.inputTaken = .fault f) : StepCause s f := by
  have htook : recordTaken e s.inputTaken = true → Took s e := fun ht => ⟨hr, ht⟩
  cases e with
  | err =>
    obtain ⟨ht, hf⟩ := takeEvent_fault.mp h
    exact notify_cause hf rfl (.inr (.inl (htook ht)))
  | hpd =>
    obtain ⟨ht, hf⟩ := takeEvent_fault.mp h
    exact notify_cause hf rfl (.inl (.inl (htook ht)))
  | inp =>
    obtain ⟨ht, hf⟩ := takeEvent_fault.mp h
    exact FeedFault.cause (handleIn_error hf) (.inl (htook ht))
  | out =>
    obtain ⟨ht, hf⟩ := takeEvent_fault.mp h
    exact StoreFault.cause (storeWords_error hf) (.inl (htook ht))
  | eoc =>
    obtain ⟨ht, hf⟩ := takeEvent_fault.mp h
    exact (handleEoc_error hf).cause (.inl (.inl (htook ht)))
  | dmaInCplt =>
    obtain ⟨ht, hf⟩ := takeEvent_fault.mp h
    rcases (handleDmaInCplt_error hf).of_inputTaken with ⟨rfl, hm, hh⟩ | ⟨addr, len, hs, hb⟩
    · exact .refill hm hh (.inr (htook ht))
    · exact (InputCause.cplt (htook ht) ⟨addr, len, hs, hb⟩).stepCause
  | dmaOutCplt =>
    obtain ⟨ht, hf⟩ := takeEvent_fault.mp h
    obtain ⟨rfl, hm, hh⟩ := handleDmaOutCplt_error hf
    exact .drain hm hh (htook ht)
  | dmaAbort =>
    obtain ⟨ht, hf⟩ := takeEvent_fault.mp h
    exact (handleDmaAbort_error hf).cause (.inr (.inl (htook ht)))

theorem execPoll_cause (hr : Runs s .poll) (h : execPoll s.inputTaken = .fault f) : StepCause s f := by
  obtain ⟨hm, hp⟩ := execPoll_fault h
  have hpolled : ∀ {e}, eligible e s.inputTaken = true → Polled s e := fun he => ⟨hr, hm, he⟩
  cases pollPass_error hp with
  | notice he hf hn =>
    subst hf
    exact .notice hn (he.elim (fun he => .inr (.inl (.inr (hpolled he)))) fun he => .inl (.inr (hpolled he)))
  | feed he hf => exact hf.cause (.inr (hpolled he))
  | store he hf => exact hf.cause (.inr (hpolled he))
  | finish he hf => exact hf.cause (.inl (.inr (hpolled he)))
  | done he hc hf hn =>
    subst hf
    exact .secondNotice hn (hpolled he) (hpolled hc)

/-! ## From the faults of the commands to their causes -/

theorem OutsideIdle.cause {i : Instr} (h : OutsideIdle s.inputTaken f) (hr : Runs s i) (hi : LoadCommand i) :
    StepCause s f := by
  obtain ⟨hj, rfl⟩ := h
  exact .outside i hr hj hi

theorem execWrd_cause {reg : DescReg} {v : Word} (hr : Runs s (.wrd reg v)) (h : execWrd reg v s.inputTaken = .fault f) :
    StepCause s f := by
  obtain ⟨hj, hw, ⟨rfl, hb⟩ | ⟨rfl, hb⟩⟩ := execWrd_fault h
  · exact (InputCause.wrdAddr (s := s) v hj hw hr hb).stepCause
  · exact (InputCause.wrdLen (s := s) v hj hw hr hb).stepCause

theorem execBuild_cause {k : Slot} (hr : Runs s (.build k)) (h : execBuild k s.inputTaken = .fault f) : StepCause s f := by
  rcases execBuild_fault.mp h with hout | ⟨hi, rfl, hread⟩
  · exact hout.cause hr (.inr (.inl ⟨k, rfl⟩))
  · exact .build k hi hr hread

theorem execProgc_cause {addr : BitVec 16} {src : Option Slot} (hr : Runs s (.progc addr src))
    (h : execProgc addr src s.inputTaken = .fault f) : StepCause s f := by
  rcases execProgc_fault.mp h with hout | ⟨hi, rfl, r, k, -, rfl, -, hread⟩
  · exact hout.cause hr (.inr (.inr (.inl ⟨addr, src, rfl⟩)))
  · exact .progc addr k hi hr hread

theorem execProgr_cause {mask : SlotSet} (hr : Runs s (.progr mask)) (h : execProgr mask s.inputTaken = .fault f) :
    StepCause s f := by
  rcases execProgr_fault.mp h with hout | ⟨hi, rfl, k, hk, hread⟩
  · exact hout.cause hr (.inr (.inr (.inr (.inl ⟨mask, rfl⟩))))
  · exact .progr mask k hi hr hk hread

theorem execQgen_cause {q : BitVec 4} {quality : BitVec 8} (hr : Runs s (.qgen q quality))
    (h : execQgen q quality s.inputTaken = .fault f) : StepCause s f := by
  obtain ⟨-, hout | ⟨hi, rfl, -, -, hb⟩⟩ := execQgen_fault.mp h
  · exact hout.cause hr (.inr (.inr (.inr (.inr (.inl ⟨q, quality, rfl⟩)))))
  · exact .baseline q hi (.inr ⟨quality, hr⟩) hb

theorem execQest_cause {q : BitVec 4} (hr : Runs s (.qest q)) (h : execQest q s.inputTaken = .fault f) : StepCause s f := by
  obtain ⟨-, hout | ⟨hi, ⟨rfl, hb⟩ | ⟨rfl, base, i, hzero⟩⟩⟩ := execQest_fault.mp h
  · exact hout.cause hr (.inr (.inr (.inr (.inr (.inr ⟨q, rfl⟩)))))
  · exact .baseline q hi (.inl hr) hb
  · exact .zero q base i hi hr hzero

theorem exec_cause {i : Instr} (h : exec i s.inputTaken = .fault f) (hr : Runs s i) : StepCause s f := by
  cases i with
  | ldb file index data => exact (execLdb_fault h).cause hr (.inl ⟨file, index, data, rfl⟩)
  | wrd reg v => exact execWrd_cause hr h
  | build k => exact execBuild_cause hr h
  | progc addr src => exact execProgc_cause hr h
  | progr mask => exact execProgr_cause hr h
  | qgen q quality => exact execQgen_cause hr h
  | qest q => exact execQest_cause hr h
  | start op m =>
    obtain ⟨rfl, hi, hover⟩ := execStart_fault h
    exact .startOverlap op m hi hr hover
  | pause dir => exact absurd h execPause_ne_fault
  | resume dir =>
    obtain ⟨hout, hend, hp, hf⟩ := execResume_error h
    exact hf.cause (.inr (.inr ⟨dir, hr, hout, hend, hp⟩))
  | poll => exact execPoll_cause hr h
  | abort => exact absurd h execAbort_ne_fault
  | getinfo | getstate | geterr => exact absurd h returnOk_ne_fault
  | sbfill len =>
    obtain ⟨rfl, -⟩ := execSbfill_fault h
    exact .address
  | sbinit => exact absurd h execSbinit_ne_fault
  | evErr => exact execEvent_cause .err hr h
  | evHpd => exact execEvent_cause .hpd hr h
  | evIn => exact execEvent_cause .inp hr h
  | evOut => exact execEvent_cause .out hr h
  | evEoc => exact execEvent_cause .eoc hr h
  | evDmaInCplt => exact execEvent_cause .dmaInCplt hr h
  | evDmaOutCplt => exact execEvent_cause .dmaOutCplt hr h
  | evDmaAbort => exact execEvent_cause .dmaAbort hr h

/-- Every fault of a step has a cause. -/
theorem step_cause (h : step s = .fault f) : StepCause s f := by
  have hkind := step_kind s
  generalize step s = r at hkind h
  cases hkind with
  | run i hr => exact exec_cause h hr
  | fill k u hk hu hf =>
    obtain ⟨haw, hw, hb⟩ := sbfillStep2_fault h
    rw [hu] at haw hw hb
    simp only [sbAwaits, Bool.and_eq_true, decide_eq_true_eq] at haw
    obtain ⟨⟨hwait, hrd⟩, hj⟩ := haw
    exact (InputCause.handOver k hj hw hk hwait hrd ⟨u, hf⟩ hb).stepCause
  | illegal => exact absurd h illegalCommand_ne_fault
  | still | dinError | doutError | core => cases h
  | din rest hin =>
    rcases dinStep_error (agentOutcome_fault.mp h) with rfl | ⟨rfl, htail, hm⟩
    · exact .address
    · exact .ragged htail (.inr ⟨⟨rest, hin⟩, hm⟩)
  | dout =>
    rw [doutStep_error (agentOutcome_fault.mp h)]
    exact .address
  | host a rest hin =>
    obtain ⟨rfl, rfl⟩ := hostStep_error (agentOutcome_fault.mp h)
    exact .singleWriter rest hin

/-- Settles O12: no step refuses, the invariant keeps every access inside host memory, and each fault has its cause. -/
theorem faultsHaveCauses : Obligations.FaultsHaveCauses := by
  intro s runs took polled resumed spec buildReads table badInput badReply inputCause
  have hinput : ∀ {f}, InputCause s f → inputCause f := fun {f} h => by
    cases h with
    | wrdAddr v hj hw hr hb => exact .inl ⟨v, hj, hw, hr, hb⟩
    | wrdLen v hj hw hr hb => exact .inr (.inl ⟨v, hj, hw, hr, hb⟩)
    | handOver k hj hw hk hwait hrd hf hb => exact .inr (.inr (.inl ⟨k, hj, hw, hk, hwait, hrd, hf, hb⟩))
    | feed he hoff hb => exact .inr (.inr (.inr (.inl ⟨he, hoff, hb⟩)))
    | cplt he hb => exact .inr (.inr (.inr (.inr ⟨he, hb⟩)))
  refine ⟨step_answers, step_in_memory, fun h => ?_, fun h => ?_, fun h => ?_, fun h => ?_, fun h => ?_, fun h => ?_,
    fun h => ?_, fun h => ?_⟩
  · cases step_cause h with
    | outside i hr hj hi => exact ⟨hj, i, hr, hi⟩
  · cases step_cause h with
    | singleWriter rest hin => exact ⟨rest, hin⟩
  · cases step_cause h with
    | build k hi hr hread => exact ⟨hi, .inl ⟨k, hr, hread⟩⟩
    | progc addr k hi hr hread => exact ⟨hi, .inr (.inl ⟨addr, k, hr, hread⟩)⟩
    | progr mask k hi hr hk hread => exact ⟨hi, .inr (.inr (.inl ⟨mask, k, hr, hk, hread⟩))⟩
    | baseline q hi hr hb => exact ⟨hi, .inr (.inr (.inr ⟨q, hr, hb⟩))⟩
  · cases step_cause h with
    | zero q base i hi hr hzero => exact ⟨hi, q, base, i, hr, hzero⟩
  · cases step_cause h with
    | badBuffer hc => exact hinput hc
  · cases step_cause h with
    | overlap hc => exact .inl (hinput hc)
    | startOverlap op m hi hr hover => exact .inr ⟨hi, hover, op, m, hr⟩
  · cases step_cause h with
    | notice hn hw =>
      rw [List.head?_eq_getElem?] at hn
      simp only [Handled, or_assoc] at hw
      exact .inl ⟨hn, hw⟩
    | secondNotice hn hh he =>
      rw [List.head?_tail] at hn
      exact .inr (.inl ⟨hn, hh, he⟩)
    | refill hm hr hw => exact .inr (.inr (.inl ⟨hm, hr, hw⟩))
    | drain hm hr hw => exact .inr (.inr (.inr (.inl ⟨hm, hr, hw⟩)))
    | drains hd hw =>
      obtain ⟨hm, hr⟩ := hd
      simp only [Handled, or_assoc] at hw
      exact .inr (.inr (.inr (.inr ⟨hm, hr, hw⟩)))
  · cases step_cause h with
    | ragged htail hw =>
      simp only [Handled, or_assoc] at hw
      exact ⟨htail, hw⟩

end Sys2Proof.Machine
end

section
/-! Which bytes of host memory a step writes (O10, 20_memory R88): the output drain path and `DOUT` write the output buffer of a
job, an `SBFILL` the streaming buffer it fills, the host one byte, and every other operation none. -/

namespace Sys2Proof.Machine

open Sys2Proof

-- One proof after the other: side by side they take more threads than the check's memory limit has room for.
set_option Elab.async false

variable {s t u : State}

/-! ## The relations -/

/-- If the outcome is a next state, every byte of host memory at an address not in `P` reads there as in `s`. -/
def NextWrites (P : Nat → Prop) (s : State) (r : Result) : Prop :=
  ∀ t, r = .next t → ∀ a, ¬ P a → readByte t.hmem a = readByte s.hmem a

variable {P : Nat → Prop}

theorem NextWrites.next (h : ∀ a, ¬ P a → readByte t.hmem a = readByte s.hmem a) : NextWrites P s (.next t) := by
  rintro _ ⟨⟩
  exact h

theorem NextWrites.fault {f : Fault} : NextWrites P s (.fault f) := by
  rintro _ ⟨⟩

theorem NextWrites.mono {Q : Nat → Prop} {r : Result} (h : NextWrites P s r) (hq : ∀ a, P a → Q a) : NextWrites Q s r :=
  fun t ht a ha => h t ht a fun hp => ha (hq a hp)

theorem NextWrites.agent {r : Except Fault State}
    (h : ∀ {t}, r = .ok t → ∀ a, ¬ P a → readByte t.hmem a = readByte s.hmem a) : NextWrites P s (agentOutcome r) := by
  cases r with
  | ok t => exact .next (h rfl)
  | error f => exact .fault

/-- If the outcome is a next state, host memory is that of `s`. -/
def NextKeepsHmem (s : State) (r : Result) : Prop := ∀ t, r = .next t → t.hmem = s.hmem

theorem NextKeepsHmem.next (h : t.hmem = s.hmem) : NextKeepsHmem s (.next t) := by
  rintro _ ⟨⟩
  exact h

theorem NextKeepsHmem.fault {f : Fault} : NextKeepsHmem s (.fault f) := by
  rintro _ ⟨⟩

theorem NextKeepsHmem.returnOk {data : Word} (h : t.hmem = s.hmem) : NextKeepsHmem s (returnOk data t) := .next h

theorem NextKeepsHmem.raiseError {e : ErrCode} (h : t.hmem = s.hmem) : NextKeepsHmem s (raiseError e t) := .next h

theorem NextKeepsHmem.writes {r : Result} (h : NextKeepsHmem s r) : NextWrites P s r :=
  fun t ht a _ => by rw [h t ht]

/-- From `s` to `t` the output buffer stays where it is, and no byte outside it changes. -/
structure OutputOnly (s t : State) : Prop where
  addr : t.desc.outAddr = s.desc.outAddr
  len : t.desc.outLen = s.desc.outLen
  outside : ∀ a, a < s.desc.outAddr.toNat ∨ s.desc.outAddr.toNat + s.desc.outLen.toNat ≤ a →
    readByte t.hmem a = readByte s.hmem a

theorem OutputOnly.of_eq (hmem : t.hmem = s.hmem) (addr : t.desc.outAddr = s.desc.outAddr := by rfl)
    (len : t.desc.outLen = s.desc.outLen := by rfl) : OutputOnly s t :=
  ⟨addr, len, fun _ _ => by rw [hmem]⟩

theorem OutputOnly.refl (s : State) : OutputOnly s s := .of_eq rfl

theorem OutputOnly.trans (h : OutputOnly s t) (h' : OutputOnly t u) : OutputOnly s u where
  addr := h'.addr.trans h.addr
  len := h'.len.trans h.len
  outside a ha := (h'.outside a (by rwa [h.addr, h.len])).trans (h.outside a ha)

/-- An update that leaves host memory and the output buffer comes first. -/
theorem OutputOnly.after (h : OutputOnly t u) (hmem : t.hmem = s.hmem) (addr : t.desc.outAddr = s.desc.outAddr := by rfl)
    (len : t.desc.outLen = s.desc.outLen := by rfl) : OutputOnly s u :=
  (OutputOnly.of_eq hmem addr len).trans h

/-- In a job this is to write the output buffer of the job alone. -/
theorem OutputOnly.writes (h : OutputOnly s t) (hj : s.fsm ≠ .idle) (a : Nat) (ha : ¬ inOutputBuffer s a) :
    readByte t.hmem a = readByte s.hmem a := by
  refine h.outside a (Nat.lt_or_ge a s.desc.outAddr.toNat |>.imp id fun hlo => ?_)
  exact Nat.le_of_not_lt fun hhi => ha ⟨hj, hlo, hhi⟩

/-! ## The transfer paths (43_transfer_fsm R218 to R222, R237, R238) -/

theorem notify_outputOnly {e : Effect} (h : notify e s = .ok t) : OutputOnly s t := by
  obtain ⟨-, rfl⟩ := notify_ok.mp h
  exact .of_eq rfl

theorem refill_outputOnly (h : refill s = .ok t) : OutputOnly s t := by
  obtain ⟨sb, host, draws, addr, len, -, -, ht⟩ := refill_cases h
  rcases ht with ⟨rfl, -⟩ | ⟨rfl, -⟩ <;> exact .of_eq rfl

theorem storeWords_outputOnly {n : Nat} (hr : OutReady s.desc) (h : storeWords n s = .ok t) : OutputOnly s t := by
  obtain ⟨m, -, hmoved, -⟩ := storeWords_ok hr h
  exact ⟨by rw [hmoved.desc], by rw [hmoved.desc], hmoved.outside⟩

theorem finish_outputOnly (hr : OutReady s.desc) (h : finish s = .ok t) : OutputOnly s t := by
  obtain ⟨u, hu, hrest⟩ := bind_eq_ok.mp h
  refine (storeWords_outputOnly hr hu).trans ?_
  split at hrest
  · rw [complete_ok hrest]
    exact .of_eq rfl
  · cases hrest
    exact .refl _

theorem finishFromDma_outputOnly (hr : OutReady { s.desc with outOff := s.dout.done }) (h : finishFromDma s = .ok t) :
    OutputOnly s t := by
  exact (finish_outputOnly hr h).after rfl

theorem resumeInput_outputOnly (h : resumeInput s = some t) : OutputOnly s t ∧ t.hmem = s.hmem := by
  have hkept : ∀ {v : State}, v.hmem = s.hmem → v.desc = s.desc → OutputOnly s v ∧ v.hmem = s.hmem :=
    fun hm hd => ⟨.of_eq hm (by rw [hd]) (by rw [hd]), hm⟩
  unfold resumeInput at h
  dsimp only at h
  split at h
  · cases h; exact hkept rfl rfl
  split at h
  · cases h
  split at h
  · cases h; exact hkept rfl rfl
  split at h
  · cases h; exact hkept rfl rfl
  split at h <;> cases h <;> exact hkept rfl rfl

theorem Consistent.resumeOutput_outputOnly (hs : Consistent s) (hj : s.fsm ≠ .idle) (h : Machine.resumeOutput s = .ok t) :
    OutputOnly s t := by
  unfold Machine.resumeOutput at h
  dsimp only at h
  split at h
  · cases h; exact .refl _
  split at h
  · have hready : OutReady ({ s with ctx := { s.ctx with pauseOut := false } } : State).desc := hs.outReady hj
    exact (finish_outputOnly hready h).after rfl
  split at h
  · cases h; exact .of_eq rfl
  split at h <;> cases h <;> exact .of_eq rfl

/-! ## The event handlers (43_transfer_fsm R215 to R226) -/

theorem handleErr_outputOnly (h : handleErr s = .ok t) : OutputOnly s t :=
  (notify_outputOnly h).after rfl

theorem handleHpd_outputOnly (h : handleHpd s = .ok t) : OutputOnly s t := by
  obtain ⟨-, rfl⟩ := notify_ok.mp h
  exact .of_eq rfl

theorem handleIn_outputOnly (h : handleIn s = .ok t) : OutputOnly s t := by
  obtain ⟨u, hu, hr⟩ := feedWords_ok.mp h
  have hstart : OutputOnly s u := by
    split at hu
    · exact refill_outputOnly hu
    · rw [hu]; exact .refl s
  refine hstart.trans ?_
  split at hr
  · rw [hr]; exact .refl u
  · rw [feedAvail_frame hr]; exact .of_eq rfl

theorem Consistent.handleOut_outputOnly (hs : Consistent s) (he : eligible .out s = true)
    (h : Machine.handleOut s = .ok t) : OutputOnly s t :=
  storeWords_outputOnly (hs.outReady (hs.modes.in_job_of_method (method_ne_none_of_fifo (eligible_out.mp he).1))) h

theorem Consistent.handleEoc_outputOnly (hs : Consistent s) (he : eligible .eoc s = true)
    (hc : s.ctx.dmaMethod = true → s.dout.cplt = false) (h : Machine.handleEoc s = .ok t) : OutputOnly s t := by
  have hready := hs.outReady (hs.modes.in_job_of_method (eligible_eoc.mp he).1)
  unfold Machine.handleEoc at h
  dsimp only at h
  split at h
  · next hd =>
    split at h
    · cases h; exact .of_eq rfl
    · have hasked : OutReady { s.desc with outOff := s.dout.requestAbort.done } := by
        rw [s.dout.requestAbort_others.2.2.2.1]
        exact hs.doutReady hd (hc hd)
      refine (finishFromDma_outputOnly ?_ h).after rfl
      exact hasked
  · exact (finish_outputOnly (s := s.stopSources) hready h).after rfl

theorem Consistent.handleDmaAbort_outputOnly (hs : Consistent s) (he : eligible .dmaAbort s = true)
    (hc : s.ctx.dmaMethod = true → s.dout.cplt = false) (h : Machine.handleDmaAbort s = .ok t) : OutputOnly s t := by
  obtain ⟨-, -, hab⟩ := eligible_dmaAbort.mp he
  have hd := hs.engines.abort_dma (.inr (.inr hab))
  unfold Machine.handleDmaAbort at h
  dsimp only at h
  split at h
  · cases h; exact .of_eq rfl
  · refine (finishFromDma_outputOnly ?_ h).after rfl
    exact hs.doutReady hd (hc hd)

theorem handleDmaInCplt_outputOnly (h : handleDmaInCplt s = .ok t) : OutputOnly s t := by
  obtain ⟨u, hu, hr⟩ := bind_eq_ok.mp h
  have hrefill : OutputOnly s u := (refill_outputOnly hu).after rfl
  rw [pure_eq_ok] at hr
  subst hr
  refine hrefill.trans ?_
  split <;> exact .of_eq rfl

theorem handleDmaOutCplt_outputOnly (h : handleDmaOutCplt s = .ok t) : OutputOnly s t := by
  obtain ⟨p, hp, hr⟩ := bind_eq_ok.mp h
  have hdrain : OutputOnly s p.2 := by rw [drain_frame hp]; exact .of_eq rfl
  simp only [pure_eq_ok] at hr
  subst hr
  refine hdrain.trans ?_
  split <;> split <;> exact .of_eq rfl

/-- An event whose handler writes the output buffer alone does so as a whole. -/
theorem Consistent.takeEvent_writes (hs : Consistent s) {e : Event} {handler : State → Except Fault State}
    (hh : ∀ {t}, recordTaken e s = true → handler s = .ok t → OutputOnly s t) :
    NextWrites (inOutputBuffer s) s (Machine.takeEvent e handler s) := by
  intro t ht a ha
  rcases takeEvent_next.mp ht with ⟨-, rfl⟩ | ⟨htaken, u, hu, rfl⟩
  · rfl
  · have hm := method_of_eligible (eligible_of_taken htaken)
    exact (hh htaken hu).writes (hs.modes.in_job_of_method (by simpa [Option.isSome_iff_ne_none] using hm)) a ha

theorem Consistent.execEvent_writes (hs : Consistent s) :
    ∀ e : Event, NextWrites (inOutputBuffer s) s (Machine.exec e.instr s)
  | .err => hs.takeEvent_writes fun _ h => handleErr_outputOnly h
  | .hpd => hs.takeEvent_writes fun _ h => handleHpd_outputOnly h
  | .inp => hs.takeEvent_writes fun _ h => handleIn_outputOnly h
  | .out => hs.takeEvent_writes fun ht h => hs.handleOut_outputOnly (eligible_of_taken ht) h
  | .eoc => hs.takeEvent_writes fun ht h =>
    hs.handleEoc_outputOnly (eligible_of_taken ht) (dout_reported_of_taken ht (.inl rfl)) h
  | .dmaInCplt => hs.takeEvent_writes fun _ h => handleDmaInCplt_outputOnly h
  | .dmaOutCplt => hs.takeEvent_writes fun _ h => handleDmaOutCplt_outputOnly h
  | .dmaAbort => hs.takeEvent_writes fun ht h =>
    hs.handleDmaAbort_outputOnly (eligible_of_taken ht) (dout_reported_of_taken ht (.inr rfl)) h

/-! ## The commands of a job -/

/-- One event of a pass, given what its handler writes. -/
theorem pollEvent_outputOnly {e : Event} {handler : State → Except Fault State} {p r : Word × State}
    (hh : eligible e p.2 = true → handler p.2 = .ok r.2 → OutputOnly p.2 r.2) (h : pollEvent e handler p = .ok r) :
    OutputOnly p.2 r.2 := by
  rcases pollEvent_ok h with ⟨rfl, -⟩ | ⟨he, hok⟩
  · exact .refl _
  · exact hh he hok

theorem Consistent.pollPass_outputOnly (hs : Consistent s) (hm : s.ctx.method = some .poll) {p : Word × State}
    (h : Machine.pollPass s = .ok p) : OutputOnly s p.2 := by
  obtain ⟨p1, h1, h⟩ := bind_eq_ok.mp h
  obtain ⟨p2, h2, h⟩ := bind_eq_ok.mp h
  obtain ⟨p3, h3, h⟩ := bind_eq_ok.mp h
  obtain ⟨p4, h4, h5⟩ := bind_eq_ok.mp h
  have ready3 : PollReady p3.2 := (((PollReady.start hs hm).err h1).hpd h2).inp h3
  have ready4 : PollReady p4.2 := ready3.out h4
  have herr : OutputOnly s p1.2 := pollEvent_outputOnly (p := (0#32, s)) (fun _ => handleErr_outputOnly) h1
  have hhpd : OutputOnly p1.2 p2.2 := pollEvent_outputOnly (fun _ => handleHpd_outputOnly) h2
  have hin : OutputOnly p2.2 p3.2 := pollEvent_outputOnly (fun _ => handleIn_outputOnly) h3
  have hout : OutputOnly p3.2 p4.2 := pollEvent_outputOnly ready3.consistent.handleOut_outputOnly h4
  have heoc : OutputOnly p4.2 p.2 := pollEvent_outputOnly
    (fun he => ready4.consistent.handleEoc_outputOnly he fun hd => by simp [ready4.no_dma] at hd) h5
  exact herr.trans (hhpd.trans (hin.trans (hout.trans heoc)))

theorem Consistent.execPoll_writes (hs : Consistent s) : NextWrites (inOutputBuffer s) s (Machine.execPoll s) := by
  unfold Machine.execPoll
  split
  · exact .next fun _ _ => rfl
  next hm =>
    split
    · next hp =>
      have hm := not_not.mp hm
      exact .next ((hs.pollPass_outputOnly hm hp).writes (hs.modes.in_job_of_method (by simp [hm])))
    · exact .fault

theorem Consistent.execResume_writes (hs : Consistent s) (dir : DirSet) :
    NextWrites (inOutputBuffer s) s (Machine.execResume dir s) := by
  unfold Machine.execResume
  split
  · exact .next fun _ _ => rfl
  next hj =>
    split
    · exact .next fun _ _ => rfl
    next u hin =>
      have hu : OutputOnly s u ∧ Consistent u ∧ u.fsm ≠ .idle := by
        split at hin
        · exact ⟨(resumeInput_outputOnly hin).1, hs.resumeInput hj hin, by rwa [resumeInput_fsm hin]⟩
        · cases hin; exact ⟨.refl s, hs, hj⟩
      split
      · next v hout =>
        have hv : OutputOnly u v := by
          split at hout
          · exact hu.2.1.resumeOutput_outputOnly hu.2.2 hout
          · cases hout; exact .refl u
        exact .next ((hu.1.trans hv).writes hj)
      · exact .fault

theorem pauseDirs_hmem (dir : DirSet) (s : State) : (pauseDirs dir s).hmem = s.hmem := by
  unfold pauseDirs
  dsimp only
  split <;> split <;> rfl

theorem execPause_keepsHmem (dir : DirSet) (s : State) : NextKeepsHmem s (execPause dir s) := by
  unfold execPause
  split
  · exact .returnOk rfl
  · exact .returnOk (pauseDirs_hmem dir s)

theorem execStart_keepsHmem (op : JobOp) (m : Method) (s : State) : NextKeepsHmem s (execStart op m s) := by
  have hstart : (startWith op m s).hmem = s.hmem := by unfold startWith; split <;> rfl
  unfold execStart
  split
  · exact .raiseError rfl
  split
  · exact .raiseError rfl
  split
  · exact .fault
  · exact .returnOk hstart

theorem execAbort_keepsHmem (s : State) : NextKeepsHmem s (execAbort s) := by
  unfold execAbort
  split
  · exact .returnOk rfl
  split
  · exact .raiseError rfl
  · exact .returnOk rfl

theorem finishInputWrite_keepsHmem (s : State) : NextKeepsHmem s (finishInputWrite s) := by
  unfold finishInputWrite
  split
  · exact .returnOk rfl
  split
  · exact .fault
  · exact .returnOk rfl

theorem execWrd_keepsHmem (reg : DescReg) (value : Word) (s : State) : NextKeepsHmem s (execWrd reg value s) := by
  have hinput : ∀ d : Desc, NextKeepsHmem s
      (if inputWritable s then finishInputWrite { s with desc := d } else raiseError .busy s) := fun d => by
    split
    · exact finishInputWrite_keepsHmem { s with desc := d }
    · exact .raiseError rfl
  have houtput : ∀ d : Desc, NextKeepsHmem s
      (if s.fsm = .idle then returnOk 0#32 { s with desc := d } else raiseError .busy s) := fun d => by
    split
    · exact .returnOk rfl
    · exact .raiseError rfl
  cases reg with
  | inAddr => exact hinput _
  | inLen => exact hinput _
  | outAddr => exact houtput _
  | outLen => exact houtput _

/-! ## The programming and load commands -/

theorem buildSlot_hmem {k : Slot} {b : Built} (h : buildSlot k s = some b) : b.state.hmem = s.hmem := by
  obtain ⟨bits, vals, rfl⟩ := buildSlot_some h
  rw [buildWith_frame]

theorem programRegion_hmem (r : Slot) (table : ReadTable) (s : State) : (programRegion r table s).hmem = s.hmem := by
  rw [programRegion_frame]

theorem programSlots_hmem {mask : SlotSet} {slots : List Slot} (h : programSlots mask slots s = some t) :
    t.hmem = s.hmem := by
  induction slots generalizing s with
  | nil => cases h; rfl
  | cons slot rest ih =>
    rw [programSlots] at h
    split at h
    · split at h
      · cases h
      · rw [ih h, programRaw_frame]
    · exact ih h

theorem execLdb_keepsHmem (file : LdbFile) (index : BitVec 8) (data : Byte) (s : State) :
    NextKeepsHmem s (execLdb file index data s) := by
  have hload : (loadByte file index.toNat data s).hmem = s.hmem := by cases file <;> rfl
  unfold execLdb
  split
  · exact .raiseError rfl
  split
  · exact .fault
  · exact .returnOk hload

theorem execBuild_keepsHmem (k : Slot) (s : State) : NextKeepsHmem s (execBuild k s) := by
  unfold execBuild
  split
  · exact .fault
  split
  · exact .fault
  next hb =>
    split
    · exact .returnOk (buildSlot_hmem hb)
    · exact .raiseError (buildSlot_hmem hb)

theorem programFrom_keepsHmem (r src : Slot) (s : State) : NextKeepsHmem s (programFrom r src s) := by
  unfold programFrom
  split
  · split
    · exact .fault
    · exact .returnOk (programRegion_hmem _ _ _)
  split
  · exact .fault
  next hb =>
    split
    · exact .raiseError (buildSlot_hmem hb)
    split
    · exact .fault
    · exact .returnOk ((programRegion_hmem _ _ _).trans (buildSlot_hmem hb))

theorem execProgc_keepsHmem (addr : BitVec 16) (src : Option Slot) (s : State) :
    NextKeepsHmem s (execProgc addr src s) := by
  unfold execProgc
  split
  · exact .fault
  split
  · exact .raiseError rfl
  split
  · exact .returnOk rfl
  split
  · exact .raiseError rfl
  · exact programFrom_keepsHmem _ _ s

theorem execProgr_keepsHmem (mask : SlotSet) (s : State) : NextKeepsHmem s (execProgr mask s) := by
  unfold execProgr
  split
  · exact .fault
  split
  · exact .fault
  · next hslots => exact .returnOk (programSlots_hmem hslots : _ = s.enterConfiguring.hmem)

theorem execQgen_keepsHmem (q : BitVec 4) (quality : BitVec 8) (s : State) : NextKeepsHmem s (execQgen q quality s) := by
  have hprogram : ∀ base scale, (programQuant q base scale s).hmem = s.hmem := fun base scale => by
    unfold programQuant
    dsimp only
    rw [qWriteAll_frame]
    rfl
  unfold execQgen
  split
  · exact .raiseError rfl
  split
  · exact .fault
  split
  · exact .raiseError rfl
  split
  · exact .fault
  · exact .returnOk (hprogram _ _)

theorem execQest_keepsHmem (q : BitVec 4) (s : State) : NextKeepsHmem s (execQest q s) := by
  unfold execQest
  split
  · exact .raiseError rfl
  split
  · exact .fault
  split
  · exact .fault
  split
  · exact .fault
  · exact .returnOk rfl

/-! ## The Streaming Buffer Manager (44_stream_buffers R271, R273) -/

theorem execSbinit_keepsHmem (s : State) : NextKeepsHmem s (execSbinit s) := by
  unfold execSbinit
  split
  · exact .raiseError rfl
  · exact .returnOk rfl

/-- `a` lies in the streaming buffer that an `SBFILL` would fill, which is empty. -/
def inNextFill (s : State) (a : Nat) : Prop :=
  (s.sb.buf s.sb.wr).full = false ∧
  (sbAddr s.cfg s.sb.wr).toNat ≤ a ∧ a < (sbAddr s.cfg s.sb.wr).toNat + s.cfg.ibcap

theorem sbfillStep1_hmem {len : Word} (h : sbfillStep1 len s = .ok t) :
    t.hmem = writeBytes s.hmem (sbAddr s.cfg s.sb.wr).toNat (sourceBytes s len.toNat) := by
  obtain ⟨u, hu, hr⟩ := bind_eq_ok.mp h
  obtain ⟨-, rfl⟩ := memWrite_ok.mp hu
  cases hr
  rfl

theorem execSbfill_writes (len : Word) (s : State) : NextWrites (inNextFill s) s (execSbfill len s) := by
  unfold execSbfill
  split
  · exact .next fun _ _ => rfl
  next hcap =>
    split
    · exact .next fun _ _ => rfl
    split
    · exact .next fun _ _ => rfl
    next hfull =>
      split
      · next t hstep =>
        refine .next fun a ha => ?_
        have hlen : (sourceBytes s len.toNat).length = len.toNat := by simp [sourceBytes]
        rw [sbfillStep1_hmem hstep]
        refine readByte_writeBytes_outside (Nat.lt_or_ge a _ |>.imp id fun hlo => Nat.le_of_not_lt fun hhi => ?_)
        exact ha ⟨by simpa using hfull, hlo, by omega⟩
      · exact .fault

theorem sbTakeBuffer_hmem {i : BufIdx} (h : sbTakeBuffer i s = .ok t) : t.hmem = s.hmem := by
  unfold sbTakeBuffer at h
  split at h
  · split at h <;> cases h
    rfl
  · cases h; rfl

theorem sbfillStep2_keepsHmem (i : BufIdx) (s : State) : NextKeepsHmem s (sbfillStep2 i s) := by
  unfold sbfillStep2
  dsimp only
  split
  · exact .returnOk rfl
  split
  · exact .fault
  next htake =>
    split
    · next hresume => exact .returnOk ((resumeInput_outputOnly hresume).2.trans ((sbTakeBuffer_hmem htake).trans rfl))
    · exact .raiseError rfl

/-! ## Every instruction and every agent -/

/-- An instruction writes the output buffer of a job, or, if it is an `SBFILL`, the streaming buffer it fills. -/
theorem Consistent.exec_writes (hs : Consistent s) : ∀ i : Instr,
    NextWrites (fun a => inOutputBuffer s a ∨ (∃ len, i = .sbfill len) ∧ inNextFill s a) s (Machine.exec i s)
  | .ldb file index data => (execLdb_keepsHmem file index data s).writes
  | .wrd reg value => (execWrd_keepsHmem reg value s).writes
  | .build k => (execBuild_keepsHmem k s).writes
  | .progc addr src => (execProgc_keepsHmem addr src s).writes
  | .progr mask => (execProgr_keepsHmem mask s).writes
  | .qgen q quality => (execQgen_keepsHmem q quality s).writes
  | .qest q => (execQest_keepsHmem q s).writes
  | .start op m => (execStart_keepsHmem op m s).writes
  | .pause dir => (execPause_keepsHmem dir s).writes
  | .resume dir => (hs.execResume_writes dir).mono fun _ => .inl
  | .poll => hs.execPoll_writes.mono fun _ => .inl
  | .abort => (execAbort_keepsHmem s).writes
  | .getinfo _ => .next fun _ _ => rfl
  | .getstate => .next fun _ _ => rfl
  | .geterr => .next fun _ _ => rfl
  | .sbfill len => (execSbfill_writes len s).mono fun _ ha => .inr ⟨⟨len, rfl⟩, ha⟩
  | .sbinit => (execSbinit_keepsHmem s).writes
  | .evErr => (hs.execEvent_writes .err).mono fun _ => .inl
  | .evHpd => (hs.execEvent_writes .hpd).mono fun _ => .inl
  | .evIn => (hs.execEvent_writes .inp).mono fun _ => .inl
  | .evOut => (hs.execEvent_writes .out).mono fun _ => .inl
  | .evEoc => (hs.execEvent_writes .eoc).mono fun _ => .inl
  | .evDmaInCplt => (hs.execEvent_writes .dmaInCplt).mono fun _ => .inl
  | .evDmaOutCplt => (hs.execEvent_writes .dmaOutCplt).mono fun _ => .inl
  | .evDmaAbort => (hs.execEvent_writes .dmaAbort).mono fun _ => .inl

theorem dinWords_hmem {n : Nat} (h : dinWords n s = .ok t) : t.hmem = s.hmem := by
  induction n generalizing s with
  | zero => cases h; rfl
  | succ n ih =>
    obtain ⟨b, -, h⟩ := bind_eq_ok.mp h
    obtain ⟨u, hu, hr⟩ := bind_eq_ok.mp h
    obtain ⟨-, rfl⟩ := pushInput_ok.mp hu
    exact (ih hr).trans rfl

theorem dinStep_hmem (h : dinStep s = .ok t) : t.hmem = s.hmem := by
  unfold dinStep at h
  split at h
  · cases h; rfl
  split at h
  · obtain ⟨u, hu, hr⟩ := bind_eq_ok.mp h
    cases hr
    exact (dinWords_hmem hu : u.hmem = s.hmem)
  · cases h; rfl

/-- A burst of `DOUT` goes to the block that is left, which is the output buffer's. -/
theorem Consistent.doutStep_writes (hs : Consistent s) (h : Machine.doutStep s = .ok t) (a : Nat)
    (ha : ¬ inOutputBuffer s a) : readByte t.hmem a = readByte s.hmem a := by
  by_cases hab : s.dout.busy = true ∧ s.dout.abortReq = true
  · rw [doutStep_of_abort hab.1 hab.2] at h
    cases h; rfl
  by_cases hm : doutMoves s = true
  · obtain ⟨hb, -, hen, htr⟩ := doutMoves_iff.mp hm
    have hdma := dma_of_enable hs.modes hs.enables (.inr hen)
    have hblock := doutBlock_of_busy hs hdma hb
    obtain ⟨haddr, hlen, -⟩ := hs.engines.dout_block hdma
    have haddr := congrArg BitVec.toNat haddr
    have hroom := hblock.room
    rw [doutStep_burst hm hblock] at h
    cases h
    have hbytes : ((s.ofifo.take (Gran.bytes s.cfg.granOut / 4)).flatMap bytesOfWord).length ≤ Gran.bytes s.cfg.granOut := by
      simp
      omega
    have hinside : s.dout.len.toNat ≤ s.desc.outLen.toNat := by rw [hlen, roundDown]; omega
    refine readByte_writeBytes_outside (Nat.lt_or_ge a _ |>.imp id fun hlo => Nat.le_of_not_lt fun hhi => ?_)
    exact ha ⟨hs.modes.in_job_of_dma hdma, by omega, by omega⟩
  · rw [doutStep_of_still (by simpa [-not_and, not_and_or] using hab) (by simpa using hm)] at h
    cases h; rfl

/-- A command on the port is the only instruction that is no event. -/
theorem command_of_fetch {i : Instr} (hf : fetch s = .run i u) (hi : i.isEvent = false) :
    ∃ cmd arg rest, s.inputs = .command cmd arg :: rest ∧ decodeCommand s.cfg.nq cmd arg = some i := by
  have hidle : ∀ v : State, taskIdle v ≠ .run i u := fun v h => by
    unfold taskIdle at h
    split at h <;> cases h
  cases hin : s.inputs with
  | nil => simp only [fetch, hin, hidle] at hf
  | cons x rest =>
    cases x with
    | command cmd arg =>
      simp only [fetch, hin] at hf
      split at hf
      · cases hf
      · unfold fetchCommand at hf
        split at hf
        · next hdec =>
          cases hf
          exact ⟨cmd, arg, rest, rfl, hdec⟩
        · cases hf
    | event evt =>
      simp only [fetch, hin, fetchEvent] at hf
      split at hf
      · next hdec =>
        cases hf
        simp [decodeEvent_isEvent hdec] at hi
      · cases hf
    | irq =>
      simp only [fetch, hin, fetchIrq] at hf
      split at hf
      · cases hf
        simp [Event.instr_isEvent] at hi
      · cases hf
    | task => simp only [fetch, hin, hidle] at hf
    | _ => simp only [fetch, hin] at hf; cases hf

theorem Consistent.step_writes (hs : Consistent s) : NextWrites (mayWrite s) s (Machine.step s) := by
  have htaken : Consistent s.inputTaken := hs.of_visible rfl
  have hkind := step_kind s
  generalize Machine.step s = r at hkind
  cases hkind with
  | run i hf _ =>
    refine NextWrites.mono (htaken.exec_writes i) fun a ha => ?_
    rcases ha with hout | ⟨⟨len, rfl⟩, hfull, hlo, hhi⟩
    · exact .inl hout
    · obtain ⟨cmd, arg, rest, hin, hdec⟩ := command_of_fetch hf rfl
      exact .inr (.inl ⟨⟨cmd, arg, rest, hin, len, hdec⟩, hfull, hlo, hhi⟩)
  | fill k u _ hu _ =>
    have hsame : u.hmem = s.hmem := by rw [hu]
    intro t ht a _
    rw [sbfillStep2_keepsHmem k u t ht, hsame]
  | illegal => exact .next fun _ _ => rfl
  | still t ht => exact .next fun _ _ => by rw [ht]
  | din => exact .agent fun h _ _ => by rw [dinStep_hmem h]; rfl
  | dinError =>
    refine .next fun _ _ => ?_
    unfold Machine.dinErrorStep
    split <;> rfl
  | dout => exact .agent fun h a ha => htaken.doutStep_writes h a fun hout => ha (.inl hout)
  | doutError =>
    refine .next fun _ _ => ?_
    unfold Machine.doutErrorStep
    split <;> rfl
  | core a =>
    refine .next fun _ _ => ?_
    unfold Machine.coreStep
    split
    · cases a <;> rfl
    · rfl
  | host act rest hin =>
    refine .agent fun h a ha => ?_
    cases act with
    | write addr b =>
      cases h
      rw [readByte_put, if_neg fun he => ha (.inr (.inr ⟨addr, b, rest, hin, he⟩))]
      rfl
    | writeBlockState => cases h

/-- Settles O10: the output buffer by the transfer paths and `DOUT`, the streaming buffer by `SBFILL`, the byte of the host's. -/
theorem stepWritesOwnBuffers : Obligations.StepWritesOwnBuffers :=
  fun _ t hs hstep a ha => hs.consistent.step_writes t hstep a ha

end Sys2Proof.Machine
end

section
/-! `EV_IN` (43_transfer_fsm R217, R218, R238): the words it feeds from the input buffer, and what the reply to its `REFILL` leads
to, from a host outside the block and from the Streaming Buffer Manager (44_stream_buffers R272, R276). -/

namespace Sys2Proof.Machine

open Sys2Proof

-- One proof after the other: side by side they take more threads than the check's memory limit has room for.
set_option Elab.async false

variable {s t u v : State}

/-! ## A record that is taken -/

theorem takeEvent_of_ok {e : Event} {handler : State → Except Fault State} (ht : recordTaken e s = true)
    (h : handler s = .ok u) : takeEvent e handler s = .next { u with lastEvent := .taken e } :=
  takeEvent_next.mpr (.inr ⟨ht, u, h, rfl⟩)

theorem takeEvent_of_error {e : Event} {handler : State → Except Fault State} {f : Fault} (ht : recordTaken e s = true)
    (h : handler s = .error f) : takeEvent e handler s = .fault f :=
  takeEvent_fault.mpr ⟨ht, h⟩

/-! ## `FeedWords` (43_transfer_fsm R238) -/

theorem inCount_eq (s : State) :
    inCount s = if s.cr.ieIft = true ∧ 8 ≤ s.cfg.fifoDepth - s.ififo.length then 8 else 1 := by
  simp [inCount, iftf, Config.thWords]

theorem feedWords_of_data {n : Nat} (hoff : s.desc.inOff ≠ s.desc.inLen) (hp : s.ctx.pauseIn = false) :
    feedWords n s = feedAvail n s := by
  simp [feedWords, hoff, hp, pure, Except.pure, bind, Except.bind]

theorem feedWords_of_refill {n : Nat} (hoff : s.desc.inOff = s.desc.inLen) (hr : refill s = .ok u) :
    feedWords n s = if u.ctx.pauseIn then .ok u else feedAvail n u := by
  simp [feedWords, hoff, hr, pure, Except.pure, bind, Except.bind]

theorem feedWords_of_bad {n : Nat} {f : Fault} (hoff : s.desc.inOff = s.desc.inLen) (hr : refill s = .error f) :
    feedWords n s = .error f := by
  simp [feedWords, hoff, hr, bind, Except.bind]

theorem execEvIn_of_ok (ht : recordTaken .inp s = true) (h : feedWords (inCount s) s = .ok u) :
    execEvIn s = .next { u with lastEvent := .taken .inp } := takeEvent_of_ok (handler := handleIn) ht h

theorem execEvIn_of_error {f : Fault} (ht : recordTaken .inp s = true) (h : feedWords (inCount s) s = .error f) :
    execEvIn s = .fault f := takeEvent_of_error (handler := handleIn) ht h

/-- In a job the bytes left in the input buffer lie in host memory. -/
theorem Consistent.inputLeft (hs : Consistent s) (he : eligible .inp s = true) (hoff : s.desc.inOff ≠ s.desc.inLen) :
    s.desc.inAddr.toNat + s.desc.inLen.toNat ≤ Config.hostSpace ∧ s.desc.inOff.toNat < s.desc.inLen.toNat := by
  have hj := hs.modes.in_job_of_method (method_ne_none_of_fifo (eligible_inp.mp he).1)
  exact ⟨of_decide_eq_true (hs.buffers.in_space hj),
    lt_of_le_of_ne hs.buffers.in_off fun e => hoff (BitVec.eq_of_toNat_eq e)⟩

/-- Settles O44: no refill is made, and the words are those that `FeedWords` takes from the buffer. -/
theorem evInFeeds : Obligations.EvInFeeds := by
  intro s hi ht hoff from' left n
  have he := eligible_of_taken ht
  obtain ⟨hspace, hlt⟩ := hi.consistent.inputLeft he hoff
  have hfeed : feedWords (inCount s) s = feedAvail (inCount s) s := feedWords_of_data hoff (eligible_inp.mp he).2.2.1
  have hok := fun htail => hfeed.trans (feedAvail_ok (inCount_fits he).1 htail hspace hlt)
  refine ⟨fun htail => ?_, fun htail h4 => ?_, fun htail h4 => ?_⟩
  · exact execEvIn_of_error ht (hfeed.trans (feedAvail_ragged htail hspace hlt))
  · have h := execEvIn_of_ok ht ((hok htail).trans (congrArg _ (if_pos h4)))
    rwa [inCount_eq] at h
  · exact execEvIn_of_ok ht ((hok htail).trans (congrArg _ (if_neg (Nat.not_le.mpr h4))))

/-! ## After the reply to `REFILL` (43_transfer_fsm R218) -/

/-- The `REFILL` is made, and the manager and the host's answers are as the reply leaves them. -/
def refillAsked (s : State) (sb : StreamBuffers) (replies : List RefillReply) : State := { s with
  trace := s.trace ++ [.refill s.desc.inOff]
  sb := sb
  host := { s.host with refillReplies := replies } }

/-- `EV_IN` ends in a pause of the input with an empty buffer at `addr`. -/
def evInPaused (s : State) (addr : Word) (sb : StreamBuffers) (replies : List RefillReply) : Result :=
  .next { refillAsked s sb replies with
    desc := s.desc.withInput addr 0#32
    ctx := { s.ctx with pauseIn := true }
    cr := { s.cr with ieIft := false, ieIfnf := false }
    lastEvent := .taken .inp }

/-- `EV_IN` ends with the new buffer and words of it fed. -/
def evInFed (s : State) (addr len : Word) (sb : StreamBuffers) (replies : List RefillReply) (words : List Word) (off : Nat)
    (tail : Bool) : Result :=
  .next { refillAsked s sb replies with
    desc := { s.desc with inAddr := addr, inLen := len, inOff := BitVec.ofNat 32 off }
    ififo := s.ififo ++ words
    tailFed := tail
    lastEvent := .taken .inp }

/-- `EV_IN` feeds the first words of the new buffer, or its tail, or faults after a padded word. -/
def evInSupplied (s : State) (addr len : Word) (sb : StreamBuffers) (replies : List RefillReply) : Result :=
  let n := min (inCount s) (len.toNat / 4)
  if s.tailFed = true then .fault .raggedMidStream
  else if 4 ≤ len.toNat then
    evInFed s addr len sb replies ((List.range n).map fun j => wordOfBytes (readBytes s.hmem (addr.toNat + 4 * j) 4)) (4 * n)
      false
  else evInFed s addr len sb replies [wordOfBytes (readBytes s.hmem addr.toNat len.toNat)] len.toNat true

/-- The host's reply to the `REFILL` of this event. -/
def refillAnswer (s : State) : RefillReply × State := refillReply s.desc.inOff (s.emit (.refill s.desc.inOff))

variable {addr len : Word} {sb : StreamBuffers} {replies : List RefillReply}

/-- A `Pause`: the buffer is left empty where it stands. -/
theorem execEvIn_pause (ht : recordTaken .inp s = true) (hoff : s.desc.inOff = s.desc.inLen)
    (hr : refillAnswer s = (.pause, refillAsked s sb replies)) : execEvIn s = evInPaused s s.desc.inAddr sb replies := by
  have hf := fifoMethod_iff.mpr (eligible_inp.mp (eligible_of_taken ht)).1
  refine (execEvIn_of_ok ht ((feedWords_of_refill hoff (refill_of_pause hr)).trans (if_pos rfl))).trans ?_
  simp [State.pauseInput, evInPaused, refillAsked, Desc.withInput, hf]

/-- A `Supply` of a buffer that breaks R218 or overlaps. -/
theorem execEvIn_bad {f : Fault} (ht : recordTaken .inp s = true) (hoff : s.desc.inOff = s.desc.inLen)
    (hr : refillAnswer s = (.supply addr len, refillAsked s sb replies))
    (hf : inputFault { s with desc := s.desc.withInput addr len } = some f) : execEvIn s = .fault f :=
  execEvIn_of_error ht (feedWords_of_bad hoff (refill_of_bad hr hf))

/-- A `Supply` that passes the tests: of length 0 it is a pause, else its words are fed. -/
theorem execEvIn_supply (ht : recordTaken .inp s = true) (hoff : s.desc.inOff = s.desc.inLen)
    (hr : refillAnswer s = (.supply addr len, refillAsked s sb replies))
    (hp : inputFault { s with desc := s.desc.withInput addr len } = none) :
    execEvIn s = if len = 0#32 then evInPaused s addr sb replies else evInSupplied s addr len sb replies := by
  have he := eligible_of_taken ht
  obtain ⟨hm, -, hpause, -⟩ := eligible_inp.mp he
  have hn := (inCount_fits he).1
  have hsupply := feedWords_of_refill (n := inCount s) hoff (refill_of_supply hr hp)
  dsimp only at hsupply
  by_cases hl : len = 0#32
  · have hf := fifoMethod_iff.mpr hm
    rw [if_pos hl] at hsupply ⊢
    refine (execEvIn_of_ok ht (hsupply.trans (if_pos rfl))).trans ?_
    simp [State.pauseInput, evInPaused, refillAsked, Desc.withInput, hf, hl]
  · have hspace : addr.toNat + len.toNat ≤ Config.hostSpace := of_decide_eq_true (inputFault_eq_none.mp hp).1
    have hpos : 0 < len.toNat := Nat.pos_of_ne_zero fun h => hl (BitVec.eq_of_toNat_eq h)
    rw [if_neg hl] at hsupply ⊢
    replace hsupply := hsupply.trans (if_neg (by simpa [refillAsked] using hpause))
    unfold evInSupplied
    by_cases htail : s.tailFed = true
    · rw [if_pos htail]
      exact execEvIn_of_error ht (hsupply.trans (feedAvail_ragged htail hspace hpos))
    · have htail' : s.tailFed = false := by simpa using htail
      rw [if_neg htail]
      replace hsupply := hsupply.trans (feedAvail_ok hn htail' hspace hpos)
      dsimp only at hsupply
      by_cases h4 : 4 ≤ len.toNat
      · rw [if_pos (by simpa using h4)] at hsupply
        rw [if_pos h4, execEvIn_of_ok ht hsupply]
        simp [evInFed, refillAsked, inputWord, htail']
      · rw [if_neg (by simpa using h4)] at hsupply
        rw [if_neg h4, execEvIn_of_ok ht hsupply]
        simp [evInFed, refillAsked]

/-! ## Who answers (44_stream_buffers R272) -/

theorem refillAnswer_outside {r : RefillReply} (hm : s.host.managed = false) (hr : s.host.refillReplies = r :: replies) :
    refillAnswer s = (r, refillAsked s s.sb replies) := by
  simp [refillAnswer, refillReply, outsideRefill, hm, hr, refillAsked, State.emit]

/-- The manager with the buffer it was reading empty, and the other one in its place. -/
def StreamBuffers.flipped (b : StreamBuffers) : StreamBuffers :=
  { b.setBuf b.rd { b.buf b.rd with full := false } with off := 0#32, rd := b.rd.flip }

theorem StreamBuffers.flipped_buf (b : StreamBuffers) : b.flipped.buf b.rd.flip = b.buf b.rd.flip := by
  unfold StreamBuffers.flipped
  cases b.rd <;> rfl

theorem refillAnswer_managed (hm : s.host.managed = true) :
    refillAnswer s = managerRefill s.desc.inOff (s.emit (.refill s.desc.inOff)) := if_pos hm

/-- The rest of a partly taken buffer (44_stream_buffers R276). -/
theorem refillAnswer_rest (hm : s.host.managed = true)
    (hlt : (s.sb.off + s.desc.inOff).toNat < (s.sb.buf s.sb.rd).len.toNat) : refillAnswer s =
      (.supply (sbAddr s.cfg s.sb.rd + (s.sb.off + s.desc.inOff)) ((s.sb.buf s.sb.rd).len - (s.sb.off + s.desc.inOff)),
        refillAsked s { s.sb with off := s.sb.off + s.desc.inOff } s.host.refillReplies) := by
  rw [refillAnswer_managed hm]
  unfold managerRefill
  exact if_pos hlt

/-- The other buffer, which is full. -/
theorem refillAnswer_other (hm : s.host.managed = true)
    (hlt : ¬ (s.sb.off + s.desc.inOff).toNat < (s.sb.buf s.sb.rd).len.toNat) (hfull : (s.sb.buf s.sb.rd.flip).full = true) :
    refillAnswer s = (.supply (sbAddr s.cfg s.sb.rd.flip) (s.sb.buf s.sb.rd.flip).len,
      refillAsked s s.sb.flipped s.host.refillReplies) := by
  rw [← s.sb.flipped_buf] at hfull ⊢
  rw [refillAnswer_managed hm]
  unfold managerRefill
  exact (if_neg hlt).trans (if_pos hfull)

/-- Both are empty: the manager waits. -/
theorem refillAnswer_wait (hm : s.host.managed = true)
    (hlt : ¬ (s.sb.off + s.desc.inOff).toNat < (s.sb.buf s.sb.rd).len.toNat) (hfull : (s.sb.buf s.sb.rd.flip).full = false) :
    refillAnswer s = (.pause, refillAsked s { s.sb.flipped with wait := true } s.host.refillReplies) := by
  rw [← s.sb.flipped_buf] at hfull
  rw [refillAnswer_managed hm]
  unfold managerRefill
  exact (if_neg hlt).trans (if_neg (by rw [Bool.not_eq_true]; exact hfull))

/-- What the manager supplies to `EV_IN` passes the tests of R218. -/
theorem managed_supply_passes (hi : Inv s) (ht : recordTaken .inp s = true) (hm : s.host.managed = true)
    (hr : refillAnswer s = (.supply addr len, v)) : inputFault { s with desc := s.desc.withInput addr len } = none := by
  have he := eligible_of_taken ht
  have hno := not_dma_of_fifo (fifoMethod_iff.mpr (eligible_inp.mp he).1)
  obtain ⟨-, hgood⟩ := managerRefill_good hi (running_of_eligible hi he) hno s.desc.inOff
    (t := s.emit (.refill s.desc.inOff)) rfl rfl
  rw [← refillAnswer_managed hm, hr] at hgood
  rcases hgood with h | ⟨_, _, h, -, hnone⟩
  · cases h
  · cases h
    exact hnone _ rfl rfl rfl

/-- Settles O45: each reply of the host, and each case of the manager, by what `EV_IN` does with it. -/
theorem evInRefills : Obligations.EvInRefills := by
  intro s hi ht hoff asked paused fed
  have hfed : ∀ addr len sb replies, evInSupplied s addr len sb replies = fed addr len sb replies := fun addr len sb replies => by
    unfold evInSupplied
    rw [inCount_eq]
    rfl
  refine ⟨fun replies hm hr => ?_, fun replies addr len hm hr => ?_, fun hm => ?_⟩
  · exact execEvIn_pause ht hoff (refillAnswer_outside hm hr)
  · have hans := refillAnswer_outside hm hr
    split
    · next f hf => exact execEvIn_bad ht hoff hans hf
    · next hp =>
      rw [← hfed]
      exact execEvIn_supply ht hoff hans hp
  · intro taken rd cur other flipped
    have hsupply : ∀ {addr len sb}, refillAnswer s = (.supply addr len, refillAsked s sb s.host.refillReplies) →
        execEvIn s = if len = 0#32 then paused addr sb s.host.refillReplies else fed addr len sb s.host.refillReplies :=
      fun {addr len sb} hr => by
        rw [← hfed]
        exact execEvIn_supply ht hoff hr (managed_supply_passes hi ht hm hr)
    by_cases hlt : taken.toNat < cur.len.toNat
    · have hne : cur.len - taken ≠ 0#32 := fun h0 => by
        rw [sub_eq_zero.mp h0] at hlt
        exact Nat.lt_irrefl _ hlt
      rw [if_pos hlt]
      exact (hsupply (refillAnswer_rest hm hlt)).trans (if_neg hne)
    · rw [if_neg hlt]
      by_cases hfull : other.full = false
      · rw [if_pos hfull]
        exact execEvIn_pause ht hoff (refillAnswer_wait hm hlt hfull)
      · rw [if_neg hfull]
        exact hsupply (refillAnswer_other hm hlt (by simpa using hfull))

end Sys2Proof.Machine
end

section
/-! `EV_OUT` (43_transfer_fsm R216, R219, R237): the words it moves, the drains they bring about, and the bytes they leave. -/

namespace Sys2Proof.Machine

open Sys2Proof

-- One proof after the other: side by side they take more threads than the check's memory limit has room for.
set_option Elab.async false

variable {s : State}

theorem outCount_eq (s : State) : outCount s = if s.cr.ieOft = true ∧ 8 ≤ s.ofifo.length then 8 else 1 := by
  simp [outCount, oftf, Config.thWords]

/-- `EV_OUT` asks for no more words than `OFIFO` holds. -/
theorem outCount_le (he : eligible .out s = true) : outCount s ≤ s.ofifo.length := by
  obtain ⟨-, -, -, hwords⟩ := eligible_out.mp he
  rw [outCount_eq]
  by_cases ht : s.cr.ieOft = true ∧ 8 ≤ s.ofifo.length
  · rw [if_pos ht]
    exact ht.2
  · rw [if_neg ht]
    exact (hwords.resolve_left ht).2

/-- The bytes of the output buffer with `n` words of `OFIFO` after them. -/
theorem outBytes_length {n : Nat} (hn : n ≤ s.ofifo.length) :
    (readBytes s.hmem s.desc.outAddr.toNat s.desc.outOff.toNat ++ (s.ofifo.take n).flatMap bytesOfWord).length =
      s.desc.outOff.toNat + 4 * n := by
  simp [Nat.min_eq_left hn, Nat.mul_comm]

/-- Settles O47: `StoreWords` whose `DRAIN`s are answered with `Continue`. -/
theorem evOutResult : Obligations.EvOutResult := by
  intro s hi ht n bytes host hcont
  have he := eligible_of_taken ht
  have hj := running_of_eligible hi he
  have hcount : outCount s = n := outCount_eq s
  have hn : n ≤ s.ofifo.length := hcount ▸ outCount_le he
  have hlen : bytes.length = s.desc.outOff.toNat + 4 * n := outBytes_length hn
  have hc : s.host.continues ((s.desc.outOff.toNat + 4 * min n s.ofifo.length) / s.desc.outLen.toNat) host := by
    rw [Nat.min_eq_left hn, ← hlen]
    simpa [fullDrains] using hcont
  obtain ⟨u, hu, hmoved, hans⟩ := storeWords_continues (.inl (eligible_out.mp he).2.2.1) (outReady_of_inv hi hj) hc
  have hout : handleOut s = .ok u := by rw [handleOut, hcount]; exact hu
  refine ⟨_, takeEvent_of_ok ht hout, ?_, hmoved.effects, hmoved.left, ?_, ?_, ?_⟩
  · have hfifo := hmoved.fifo
    conv_lhs at hfifo => rw [← List.take_append_drop n s.ofifo]
    exact (List.append_cancel_left hfifo).symm
  · have hoff := hmoved.off
    rwa [List.length_take, Nat.min_eq_left hn] at hoff
  · exact OutputOnly.writes ⟨by rw [hmoved.desc], by rw [hmoved.desc], hmoved.outside⟩ hj
  · exact congrArg (fun v : State => { v with lastEvent := .taken .out }) hans

end Sys2Proof.Machine
end

section
/-! The instruction a step runs (O5, 20_memory R80), the write of a descriptor register (O17, 45_register_access R281), and how
`START` arms a job or is turned away (O33, O34, 43_transfer_fsm R211 to R213). -/

namespace Sys2Proof.Machine

open Sys2Proof

-- One proof after the other: side by side they take more threads than the check's memory limit has room for.
set_option Elab.async false

variable {s : State}

/-! ## The step -/

theorem step_of_run {i : Instr} {t : State} (hf : fetch s = .run i t) : step s = exec i t := by rw [step, hf]

theorem step_of_outcome {r : Result} (hf : fetch s = .outcome r) : step s = r := by rw [step, hf]

/-- Settles O5: what `fetch` finds in each case. -/
theorem stepRunsInstruction : Obligations.StepRunsInstruction := by
  intro s rest
  refine ⟨fun cmd arg i hin hfill hdec => ?_, fun evt i hin hdec => ?_, fun e hin hirq => ?_, fun cmd arg k hin hfill => ?_⟩
  · exact step_of_run (by simp only [fetch, hin, hfill, fetchCommand, hdec])
  · exact step_of_run (by simp only [fetch, hin, fetchEvent, hdec])
  · have hirq' : irqEvent { s with inputs := rest } = some e := hirq
    exact step_of_run (by simp only [fetch, hin, fetchIrq, hirq'])
  · exact step_of_outcome (by simp only [fetch, hin, hfill])

/-! ## Buffers that share no byte (20_memory R74) -/

/-- `a` is an address of the buffer of `n` bytes at `base`. -/
def inRange (a base n : Nat) : Prop := base ≤ a ∧ a < base + n

theorem not_inRange {a base n : Nat} : ¬ inRange a base n ↔ a < base ∨ base + n ≤ a := by
  unfold inRange
  omega

theorem disjoint_iff {a n b m : Nat} : Config.disjoint a n b m = true ↔ ∀ x, inRange x a n → ¬ inRange x b m := by
  simp only [Config.disjoint, Bool.or_eq_true, beq_iff_eq, decide_eq_true_eq, inRange]
  constructor
  · intro h x hx hx'
    omega
  · intro h
    have hmax := h (max a b)
    omega

theorem inOverlapsOut_eq_false {d : Desc} : inOverlapsOut d = false ↔
    ∀ x, inRange x d.inAddr.toNat d.inLen.toNat → ¬ inRange x d.outAddr.toNat d.outLen.toNat := by
  rw [← disjoint_iff, inOverlapsOut, Bool.not_eq_false']

theorem inFitsSb_iff {c : Config} {d : Desc} {base : Word} : inFitsSb c d base = true ↔
    (∀ x, inRange x d.inAddr.toNat d.inLen.toNat → x < base.toNat ∨ base.toNat + c.ibcap ≤ x) ∨
      base.toNat ≤ d.inAddr.toNat ∧ d.inAddr.toNat + d.inLen.toNat ≤ base.toNat + c.ibcap := by
  rw [inFitsSb, Bool.or_eq_true, decide_eq_true_eq, disjoint_iff]
  simp only [not_inRange]

theorem inOverlapsSb_eq_false {c : Config} {d : Desc} :
    inOverlapsSb c d = false ↔ ∀ i, inFitsSb c d (sbAddr c i) = true := by
  rw [inOverlapsSb, Bool.not_eq_false', Bool.and_eq_true]
  exact ⟨fun h i => by cases i; exacts [h.1, h.2], fun h => ⟨h .b0, h .b1⟩⟩

theorem outOverlapsSb_eq_false {c : Config} {d : Desc} : outOverlapsSb c d = false ↔
    ∀ i x, inRange x d.outAddr.toNat d.outLen.toNat → ¬ inRange x (sbAddr c i).toNat c.ibcap := by
  rw [outOverlapsSb, Bool.not_eq_false', Bool.and_eq_true, disjoint_iff, disjoint_iff]
  exact ⟨fun h i => by cases i; exacts [h.1, h.2], fun h => ⟨h .b0, h .b1⟩⟩

/-! ## `WRD` (45_register_access R281) -/

theorem inputWritable_idle (hi : s.fsm = .idle) : inputWritable s = true := by simp [inputWritable, hi]

theorem finishInputWrite_idle (hi : s.fsm = .idle) : finishInputWrite s = returnOk 0#32 s := if_pos hi

theorem finishInputWrite_passes (hj : s.fsm ≠ .idle) (hp : inputFault s = none) : finishInputWrite s = returnOk 0#32 s := by
  rw [finishInputWrite, if_neg hj, hp]

theorem finishInputWrite_bad {f : Fault} (hj : s.fsm ≠ .idle) (hf : inputFault s = some f) :
    finishInputWrite s = .fault f := by
  rw [finishInputWrite, if_neg hj, hf]

/-- Exactly when a buffer of a job passes the tests of R218 and overlaps no other. -/
theorem inputFault_eq_none_iff : inputFault s = none ↔
    s.desc.inAddr.toNat + s.desc.inLen.toNat ≤ 2 ^ 32 ∧ (s.ctx.dmaMethod = true → s.desc.inAddr.toNat % 4 = 0) ∧
    (∀ x, inRange x s.desc.inAddr.toNat s.desc.inLen.toNat → ¬ inRange x s.desc.outAddr.toNat s.desc.outLen.toNat) ∧
    ∀ i, (∀ x, inRange x s.desc.inAddr.toNat s.desc.inLen.toNat →
        x < (sbAddr s.cfg i).toNat ∨ (sbAddr s.cfg i).toNat + s.cfg.ibcap ≤ x) ∨
      (sbAddr s.cfg i).toNat ≤ s.desc.inAddr.toNat ∧
        s.desc.inAddr.toNat + s.desc.inLen.toNat ≤ (sbAddr s.cfg i).toNat + s.cfg.ibcap := by
  rw [inputFault_eq_none, inOverlapsOut_eq_false, inOverlapsSb_eq_false]
  simp only [inFitsSb_iff, inHostSpace, wordAligned, Config.hostSpace, decide_eq_true_eq, beq_iff_eq]
  rfl

/-- Settles O17: each register by its own test, and the test of the input buffer byte by byte. -/
theorem wrdResult : Obligations.WrdResult := by
  intro s v ok busy quiet addrSet lenSet
  refine ⟨fun hi => ?_, fun hj => ?_, fun hj hq => ?_, fun hj hq hp => ?_, fun hj hq hp => ?_, fun f hj hq hf => ?_,
    fun f hj hq hf => ?_, ?_⟩
  · exact ⟨(if_pos (inputWritable_idle hi)).trans (finishInputWrite_idle hi),
      (if_pos (inputWritable_idle hi)).trans (finishInputWrite_idle hi), if_pos hi, if_pos hi⟩
  · exact ⟨if_neg hj, if_neg hj⟩
  · have hw : ¬ inputWritable s = true := mt (inputWritable_job hj).mp hq
    exact ⟨if_neg hw, if_neg hw⟩
  · exact (if_pos ((inputWritable_job hj).mpr hq)).trans (finishInputWrite_passes hj hp)
  · exact (if_pos ((inputWritable_job hj).mpr hq)).trans (finishInputWrite_passes hj hp)
  · exact (if_pos ((inputWritable_job hj).mpr hq)).trans (finishInputWrite_bad hj hf)
  · exact (if_pos ((inputWritable_job hj).mpr hq)).trans (finishInputWrite_bad hj hf)
  · exact inputFault_eq_none_iff

/-! ## `START` (43_transfer_fsm R211 to R213) -/

/-- A block that holds a whole transfer is rounded down to whole transfers. -/
theorem primeLen_of_le {r : Nat} {g : Gran} (h : Gran.bytes g ≤ r) : primeLen r g = r - r % Gran.bytes g := if_pos h

/-- In method DMA `START` primes each engine with the whole transfers of its buffer. -/
theorem startWith_dma (op : JobOp) (hgran : Gran.bytes s.cfg.granIn ≤ s.desc.inLen.toNat) :
    startWith op .dma s = { startJob op .dma s with
      din := { s.din.stop with
        addr := s.desc.inAddr
        len := BitVec.ofNat 32 (s.desc.inLen.toNat - s.desc.inLen.toNat % Gran.bytes s.cfg.granIn)
        done := 0#32
        busy := true }
      dout := { s.dout.stop with
        addr := s.desc.outAddr
        len := BitVec.ofNat 32 (s.desc.outLen.toNat - s.desc.outLen.toNat % Gran.bytes s.cfg.granOut)
        done := 0#32
        busy := true } } := by
  simp [startWith, startJob, State.primeIn, State.primeOut, primeLen_of_le hgran, roundDown]

theorem execStart_ok {op : JobOp} {m : Method} (hi : s.fsm = .idle) (ha : checkArgs s.cfg s.desc m = true)
    (ho : startOverlap s = false) : execStart op m s = returnOk 0#32 (startWith op m s) := by
  simp [execStart, hi, ha, ho]

/-- Settles O33: method by method; in method DMA the engines are primed with the whole transfers of their buffers. -/
theorem startResult : Obligations.StartResult := by
  intro s op m hi ha ho fifo
  refine (execStart_ok hi ha ho).trans ?_
  cases m with
  | poll => rfl
  | interrupt => rfl
  | dma =>
    obtain ⟨-, -, -, -, -, hdma⟩ := checkArgs_eq_true ha
    obtain ⟨-, -, hgran, -⟩ := hdma rfl
    rw [startWith_dma op hgran]
    rfl

/-- The arguments that `START` refuses (43_transfer_fsm R212 (a) to (f)). -/
theorem checkArgs_iff {c : Config} {d : Desc} {m : Method} : checkArgs c d m = true ↔
    ¬ (d.inLen.toNat = 0 ∨ d.outLen.toNat = 0 ∨ d.outLen.toNat % 4 ≠ 0 ∨
      2 ^ 32 < d.inAddr.toNat + d.inLen.toNat ∨ 2 ^ 32 < d.outAddr.toNat + d.outLen.toNat ∨
      (m = .dma ∧ (d.inAddr.toNat % 4 ≠ 0 ∨ d.outAddr.toNat % 4 ≠ 0 ∨
        d.inLen.toNat < Gran.bytes c.granIn ∨ d.outLen.toNat < Gran.bytes c.granOut))) := by
  cases m <;> simp [checkArgs, inHostSpace, wordAligned, Config.hostSpace, ← BitVec.toNat_inj, and_assoc]

/-- Settles O34: each test of `START` in its order. -/
theorem startRejects : Obligations.StartRejects := by
  intro s op m d bad
  refine ⟨fun hj => if_pos hj, fun hi hbad => ?_, fun hi hok => ?_⟩
  · have ha : ¬ checkArgs s.cfg s.desc m = true := fun h => checkArgs_iff.mp h hbad
    exact (if_neg (not_not.mpr hi)).trans (if_pos (by simpa using ha))
  · have ha : checkArgs s.cfg d m = true := checkArgs_iff.mpr hok
    refine ⟨ha, ?_⟩
    rintro ⟨a, hlo, hhi, hshared⟩
    have ho : startOverlap s = true := by
      by_contra hno
      rw [Bool.not_eq_true, startOverlap, Bool.or_eq_false_iff, inOverlapsOut_eq_false, outOverlapsSb_eq_false] at hno
      rcases hshared with hin | ⟨i, hsb⟩
      · exact hno.1 a hin ⟨hlo, hhi⟩
      · exact hno.2 i a ⟨hlo, hhi⟩ hsb
    refine (if_neg (not_not.mpr hi)).trans ((if_neg ?_).trans (if_pos ho))
    rw [show checkArgs s.cfg s.desc m = true from ha]
    decide

end Sys2Proof.Machine
end

section
/-! The encoding of commands and event records (30_encoding R100 to R107): a word is an instruction's exactly where its fields
are that instruction's, so the decoder and the encoder say the same of every word (O1, O2); the words the spec writes out
(O3), and the step of a word that does not decode (O4). -/

namespace Sys2Proof.Machine

open Sys2Proof
open Sys2Proof.Laws

-- One proof after the other, for the check's memory limit.
set_option Elab.async false

/-! ## The fields of a word -/

/-- A word is two fields joined exactly where each field stands in its place. -/
theorem append_eq_iff {m n : Nat} {a : BitVec m} {b : BitVec n} {w : BitVec (m + n)} :
    a ++ b = w ↔ w.extractLsb' n m = a ∧ w.extractLsb' 0 n = b := by
  constructor
  · rintro rfl
    exact ⟨BitVec.extractLsb'_append_eq_left, BitVec.extractLsb'_append_eq_right⟩
  · rintro ⟨rfl, rfl⟩
    exact BitVec.extractLsb'_append_extractLsb'

/-- The same for three fields. -/
theorem append₃_eq_iff {k m n : Nat} {z : BitVec k} {a : BitVec m} {b : BitVec n} {w : BitVec (k + (m + n))} :
    z ++ (a ++ b) = w ↔ w.extractLsb' (m + n) k = z ∧ w.extractLsb' n m = a ∧ w.extractLsb' 0 n = b := by
  rw [append_eq_iff, eq_comm (b := a ++ b), append_eq_iff, BitVec.extractLsb'_extractLsb'_of_le (by omega),
    BitVec.extractLsb'_extractLsb'_of_le (by omega)]

/-- The same for four fields. -/
theorem append₄_eq_iff {j k m n : Nat} {y : BitVec j} {z : BitVec k} {a : BitVec m} {b : BitVec n}
    {w : BitVec (j + (k + (m + n)))} : y ++ (z ++ (a ++ b)) = w ↔ w.extractLsb' (k + (m + n)) j = y ∧
      w.extractLsb' (m + n) k = z ∧ w.extractLsb' n m = a ∧ w.extractLsb' 0 n = b := by
  rw [append_eq_iff, eq_comm (b := z ++ (a ++ b)), append₃_eq_iff, BitVec.extractLsb'_extractLsb'_of_le (by omega),
    BitVec.extractLsb'_extractLsb'_of_le (by omega), BitVec.extractLsb'_extractLsb'_of_le (by omega)]

/-! ## Operand fields (30_encoding R103) -/

theorem decodeSlot_eq_iff {b : BitVec 2} {k : Slot} : decodeSlot b = k ↔ b = encodeSlot k := by
  revert b
  cases k <;> decide

theorem decodeSrc_eq_some {b : BitVec 3} {src : Option Slot} : decodeSrc b = some src ↔ b = encodeSrc src := by
  revert b
  rcases src with _ | k
  · decide
  · cases k <;> decide

theorem decodeReg_eq_some {b : BitVec 4} {r : DescReg} : decodeReg b = some r ↔ b = encodeReg r := by
  revert b
  cases r <;> decide

theorem decodeMask_eq_iff {b : BitVec 4} {m : SlotSet} : decodeMask b = m ↔ b = encodeMask m := by
  obtain ⟨dc0, ac0, dc1, ac1⟩ := m
  revert b dc0 ac0 dc1 ac1
  decide

theorem decodeOp_eq_iff {b : BitVec 1} {op : JobOp} : decodeOp b = op ↔ b = encodeOp op := by
  revert b
  cases op <;> decide

theorem decodeMethod_eq_some {b : BitVec 2} {m : Method} : decodeMethod b = some m ↔ b = encodeMethod m := by
  revert b
  cases m <;> decide

theorem decodeDir_eq_iff {b : BitVec 2} {d : DirSet} : decodeDir b = d ↔ b = encodeDir d := by
  obtain ⟨input, output⟩ := d
  revert b input output
  decide

theorem decodeSel_eq_iff {b : BitVec 1} {sel : InfoSel} : decodeSel b = sel ↔ b = encodeSel sel := by
  revert b
  cases sel <;> decide

theorem encodeFile_bits_iff {b : BitVec 8} {k : Slot} : encodeFile (.bits k) = b ↔
    b.extractLsb' 2 6 = 0#6 ∧ b.extractLsb' 0 2 = encodeSlot k := append_eq_iff

theorem encodeFile_vals_iff {b : BitVec 8} {k : Slot} : encodeFile (.vals k) = b ↔
    b.extractLsb' 2 6 = 1#6 ∧ b.extractLsb' 0 2 = encodeSlot k := append_eq_iff

theorem encodeFile_baseline_iff {b : BitVec 8} {q : BitVec 4} : encodeFile (.baseline q) = b ↔
    b.extractLsb' 4 4 = 1#4 ∧ b.extractLsb' 0 4 = q := append_eq_iff

/-- The numbers from 16 on are none of the eight below. -/
theorem file_ranges_disjoint : ∀ b : BitVec 8, b.extractLsb' 4 4 = 1#4 →
    b.extractLsb' 2 6 ≠ 0#6 ∧ b.extractLsb' 2 6 ≠ 1#6 := by decide

theorem decodeFile_eq_some {b : BitVec 8} {f : LdbFile} : decodeFile b = some f ↔ b = encodeFile f := by
  constructor
  · intro h
    unfold decodeFile at h
    split_ifs at h with hbits hvals hbase <;> cases h
    · exact (encodeFile_bits_iff.mpr ⟨hbits, decodeSlot_eq_iff.mp rfl⟩).symm
    · exact (encodeFile_vals_iff.mpr ⟨hvals, decodeSlot_eq_iff.mp rfl⟩).symm
    · exact (encodeFile_baseline_iff.mpr ⟨hbase, rfl⟩).symm
  · intro h
    unfold decodeFile
    cases f with
    | bits k =>
      obtain ⟨hhi, hlo⟩ := encodeFile_bits_iff.mp h.symm
      simp [hhi, decodeSlot_eq_iff.mpr hlo]
    | vals k =>
      obtain ⟨hhi, hlo⟩ := encodeFile_vals_iff.mp h.symm
      simp [hhi, decodeSlot_eq_iff.mpr hlo]
    | baseline q =>
      obtain ⟨hhi, hlo⟩ := encodeFile_baseline_iff.mp h.symm
      obtain ⟨hbits, hvals⟩ := file_ranges_disjoint b hhi
      simp [hbits, hvals, hhi, hlo]

/-! ## The fields of each command (30_encoding R101, R104)

A constant word such as that of `POLL` is its opcode above 24 zero bits. -/

section

variable {cmd : Word}

theorem encodeCmd_ldb_iff {f : LdbFile} {index : BitVec 8} {data : Byte} : encodeCmd (.ldb f index data) = cmd ↔
    cmd.extractLsb' 24 8 = 0x01#8 ∧ cmd.extractLsb' 16 8 = encodeFile f ∧ cmd.extractLsb' 8 8 = index ∧
      cmd.extractLsb' 0 8 = data := append₄_eq_iff

theorem encodeCmd_wrd_iff {r : DescReg} {value : Word} : encodeCmd (.wrd r value) = cmd ↔
    cmd.extractLsb' 24 8 = 0x02#8 ∧ cmd.extractLsb' 4 20 = 0#20 ∧ cmd.extractLsb' 0 4 = encodeReg r := append₃_eq_iff

theorem encodeCmd_build_iff {k : Slot} : encodeCmd (.build k) = cmd ↔
    cmd.extractLsb' 24 8 = 0x10#8 ∧ cmd.extractLsb' 2 22 = 0#22 ∧ cmd.extractLsb' 0 2 = encodeSlot k := append₃_eq_iff

theorem encodeCmd_progc_iff {addr : BitVec 16} {src : Option Slot} : encodeCmd (.progc addr src) = cmd ↔
    cmd.extractLsb' 24 8 = 0x11#8 ∧ cmd.extractLsb' 19 5 = 0#5 ∧ cmd.extractLsb' 16 3 = encodeSrc src ∧
      cmd.extractLsb' 0 16 = addr := append₄_eq_iff

theorem encodeCmd_progr_iff {m : SlotSet} : encodeCmd (.progr m) = cmd ↔
    cmd.extractLsb' 24 8 = 0x12#8 ∧ cmd.extractLsb' 4 20 = 0#20 ∧ cmd.extractLsb' 0 4 = encodeMask m := append₃_eq_iff

theorem encodeCmd_qgen_iff {q : BitVec 4} {quality : BitVec 8} : encodeCmd (.qgen q quality) = cmd ↔
    cmd.extractLsb' 24 8 = 0x13#8 ∧ cmd.extractLsb' 12 12 = 0#12 ∧ cmd.extractLsb' 8 4 = q ∧
      cmd.extractLsb' 0 8 = quality := append₄_eq_iff

theorem encodeCmd_qest_iff {q : BitVec 4} : encodeCmd (.qest q) = cmd ↔
    cmd.extractLsb' 24 8 = 0x14#8 ∧ cmd.extractLsb' 12 12 = 0#12 ∧ cmd.extractLsb' 8 4 = q ∧
      cmd.extractLsb' 0 8 = 0#8 := append₄_eq_iff

theorem encodeCmd_start_iff {op : JobOp} {m : Method} : encodeCmd (.start op m) = cmd ↔
    cmd.extractLsb' 24 8 = 0x20#8 ∧ cmd.extractLsb' 3 21 = 0#21 ∧ cmd.extractLsb' 1 2 = encodeMethod m ∧
      cmd.extractLsb' 0 1 = encodeOp op := append₄_eq_iff

theorem encodeCmd_pause_iff {d : DirSet} : encodeCmd (.pause d) = cmd ↔
    cmd.extractLsb' 24 8 = 0x21#8 ∧ cmd.extractLsb' 2 22 = 0#22 ∧ cmd.extractLsb' 0 2 = encodeDir d := append₃_eq_iff

theorem encodeCmd_resume_iff {d : DirSet} : encodeCmd (.resume d) = cmd ↔
    cmd.extractLsb' 24 8 = 0x22#8 ∧ cmd.extractLsb' 2 22 = 0#22 ∧ cmd.extractLsb' 0 2 = encodeDir d := append₃_eq_iff

theorem encodeCmd_poll_iff : encodeCmd .poll = cmd ↔ cmd.extractLsb' 24 8 = 0x23#8 ∧ cmd.extractLsb' 0 24 = 0#24 :=
  append_eq_iff (a := 0x23#8) (b := 0#24)

theorem encodeCmd_abort_iff : encodeCmd .abort = cmd ↔ cmd.extractLsb' 24 8 = 0x24#8 ∧ cmd.extractLsb' 0 24 = 0#24 :=
  append_eq_iff (a := 0x24#8) (b := 0#24)

theorem encodeCmd_getinfo_iff {sel : InfoSel} : encodeCmd (.getinfo sel) = cmd ↔
    cmd.extractLsb' 24 8 = 0x30#8 ∧ cmd.extractLsb' 1 23 = 0#23 ∧ cmd.extractLsb' 0 1 = encodeSel sel := append₃_eq_iff

theorem encodeCmd_getstate_iff : encodeCmd .getstate = cmd ↔
    cmd.extractLsb' 24 8 = 0x31#8 ∧ cmd.extractLsb' 0 24 = 0#24 := append_eq_iff (a := 0x31#8) (b := 0#24)

theorem encodeCmd_geterr_iff : encodeCmd .geterr = cmd ↔
    cmd.extractLsb' 24 8 = 0x32#8 ∧ cmd.extractLsb' 0 24 = 0#24 := append_eq_iff (a := 0x32#8) (b := 0#24)

theorem encodeCmd_sbfill_iff {len : Word} : encodeCmd (.sbfill len) = cmd ↔
    cmd.extractLsb' 24 8 = 0x40#8 ∧ cmd.extractLsb' 0 24 = 0#24 := append_eq_iff (a := 0x40#8) (b := 0#24)

theorem encodeCmd_sbinit_iff : encodeCmd .sbinit = cmd ↔
    cmd.extractLsb' 24 8 = 0x41#8 ∧ cmd.extractLsb' 0 24 = 0#24 := append_eq_iff (a := 0x41#8) (b := 0#24)

end

/-! ## The decoder of the command port -/

/-- What `ARG` must be for an operation: the value of `WRD`, the length of `SBFILL`; any word for the others
(30_encoding R100). -/
def ArgFits (arg : Word) : Instr → Prop
  | .wrd _ value => value = arg
  | .sbfill len => len = arg
  | _ => True

theorem argFits_encodeArg (i : Instr) : ArgFits (encodeArg i) i := by
  cases i <;> first | exact rfl | exact trivial

/-- `ARG` counts in `WRD` and `SBFILL` only. -/
theorem ArgFits.counts {arg : Word} {i : Instr} (h : ArgFits arg i) :
    (∃ r, i = .wrd r arg) ∨ i = .sbfill arg ∨ ∀ arg', ArgFits arg' i := by
  cases i with
  | wrd r value => cases h; exact .inl ⟨r, rfl⟩
  | sbfill len => cases h; exact .inr (.inl rfl)
  | _ => exact .inr (.inr fun _ => trivial)

/-- What the decoder reads on the command port is a command whose encoding is the word it read. -/
theorem encodeCmd_of_parseCommand {cmd arg : Word} {i : Instr} (h : parseCommand cmd arg = some i) :
    i.isEvent = false ∧ encodeCmd i = cmd ∧ ArgFits arg i := by
  unfold parseCommand at h
  extract_lets opc at h
  obtain ⟨hop, h⟩ | ⟨-, h⟩ := ite_eq_iff.mp h
  · obtain ⟨f, hf, rfl⟩ := Option.map_eq_some_iff.mp h
    exact ⟨rfl, encodeCmd_ldb_iff.mpr ⟨hop, decodeFile_eq_some.mp hf, rfl, rfl⟩, trivial⟩
  obtain ⟨hop, h⟩ | ⟨-, h⟩ := ite_eq_iff.mp h
  · obtain ⟨hz, h⟩ := Option.ite_none_right_eq_some.mp h
    obtain ⟨r, hr, rfl⟩ := Option.map_eq_some_iff.mp h
    exact ⟨rfl, encodeCmd_wrd_iff.mpr ⟨hop, hz, decodeReg_eq_some.mp hr⟩, rfl⟩
  obtain ⟨hop, h⟩ | ⟨-, h⟩ := ite_eq_iff.mp h
  · obtain ⟨hz, ⟨⟩⟩ := Option.ite_none_right_eq_some.mp h
    exact ⟨rfl, encodeCmd_build_iff.mpr ⟨hop, hz, decodeSlot_eq_iff.mp rfl⟩, trivial⟩
  obtain ⟨hop, h⟩ | ⟨-, h⟩ := ite_eq_iff.mp h
  · obtain ⟨hz, h⟩ := Option.ite_none_right_eq_some.mp h
    obtain ⟨src, hsrc, rfl⟩ := Option.map_eq_some_iff.mp h
    exact ⟨rfl, encodeCmd_progc_iff.mpr ⟨hop, hz, decodeSrc_eq_some.mp hsrc, rfl⟩, trivial⟩
  obtain ⟨hop, h⟩ | ⟨-, h⟩ := ite_eq_iff.mp h
  · obtain ⟨hz, ⟨⟩⟩ := Option.ite_none_right_eq_some.mp h
    exact ⟨rfl, encodeCmd_progr_iff.mpr ⟨hop, hz, decodeMask_eq_iff.mp rfl⟩, trivial⟩
  obtain ⟨hop, h⟩ | ⟨-, h⟩ := ite_eq_iff.mp h
  · obtain ⟨hz, ⟨⟩⟩ := Option.ite_none_right_eq_some.mp h
    exact ⟨rfl, encodeCmd_qgen_iff.mpr ⟨hop, hz, rfl, rfl⟩, trivial⟩
  obtain ⟨hop, h⟩ | ⟨-, h⟩ := ite_eq_iff.mp h
  · obtain ⟨⟨hz, hlow⟩, ⟨⟩⟩ := Option.ite_none_right_eq_some.mp h
    exact ⟨rfl, encodeCmd_qest_iff.mpr ⟨hop, hz, rfl, hlow⟩, trivial⟩
  obtain ⟨hop, h⟩ | ⟨-, h⟩ := ite_eq_iff.mp h
  · obtain ⟨hz, h⟩ := Option.ite_none_right_eq_some.mp h
    obtain ⟨m, hm, rfl⟩ := Option.map_eq_some_iff.mp h
    exact ⟨rfl, encodeCmd_start_iff.mpr ⟨hop, hz, decodeMethod_eq_some.mp hm, decodeOp_eq_iff.mp rfl⟩, trivial⟩
  obtain ⟨hop, h⟩ | ⟨-, h⟩ := ite_eq_iff.mp h
  · obtain ⟨hz, ⟨⟩⟩ := Option.ite_none_right_eq_some.mp h
    exact ⟨rfl, encodeCmd_pause_iff.mpr ⟨hop, hz, decodeDir_eq_iff.mp rfl⟩, trivial⟩
  obtain ⟨hop, h⟩ | ⟨-, h⟩ := ite_eq_iff.mp h
  · obtain ⟨hz, ⟨⟩⟩ := Option.ite_none_right_eq_some.mp h
    exact ⟨rfl, encodeCmd_resume_iff.mpr ⟨hop, hz, decodeDir_eq_iff.mp rfl⟩, trivial⟩
  obtain ⟨hop, h⟩ | ⟨-, h⟩ := ite_eq_iff.mp h
  · obtain ⟨hz, ⟨⟩⟩ := Option.ite_none_right_eq_some.mp h
    exact ⟨rfl, encodeCmd_poll_iff.mpr ⟨hop, hz⟩, trivial⟩
  obtain ⟨hop, h⟩ | ⟨-, h⟩ := ite_eq_iff.mp h
  · obtain ⟨hz, ⟨⟩⟩ := Option.ite_none_right_eq_some.mp h
    exact ⟨rfl, encodeCmd_abort_iff.mpr ⟨hop, hz⟩, trivial⟩
  obtain ⟨hop, h⟩ | ⟨-, h⟩ := ite_eq_iff.mp h
  · obtain ⟨hz, ⟨⟩⟩ := Option.ite_none_right_eq_some.mp h
    exact ⟨rfl, encodeCmd_getinfo_iff.mpr ⟨hop, hz, decodeSel_eq_iff.mp rfl⟩, trivial⟩
  obtain ⟨hop, h⟩ | ⟨-, h⟩ := ite_eq_iff.mp h
  · obtain ⟨hz, ⟨⟩⟩ := Option.ite_none_right_eq_some.mp h
    exact ⟨rfl, encodeCmd_getstate_iff.mpr ⟨hop, hz⟩, trivial⟩
  obtain ⟨hop, h⟩ | ⟨-, h⟩ := ite_eq_iff.mp h
  · obtain ⟨hz, ⟨⟩⟩ := Option.ite_none_right_eq_some.mp h
    exact ⟨rfl, encodeCmd_geterr_iff.mpr ⟨hop, hz⟩, trivial⟩
  obtain ⟨hop, h⟩ | ⟨-, h⟩ := ite_eq_iff.mp h
  · obtain ⟨hz, ⟨⟩⟩ := Option.ite_none_right_eq_some.mp h
    exact ⟨rfl, encodeCmd_sbfill_iff.mpr ⟨hop, hz⟩, rfl⟩
  obtain ⟨hop, h⟩ | ⟨-, h⟩ := ite_eq_iff.mp h
  · obtain ⟨hz, ⟨⟩⟩ := Option.ite_none_right_eq_some.mp h
    exact ⟨rfl, encodeCmd_sbinit_iff.mpr ⟨hop, hz⟩, trivial⟩
  cases h

/-- Every command is read back from its word. -/
theorem parseCommand_of_encodeCmd {cmd arg : Word} {i : Instr} (hi : i.isEvent = false) (hc : encodeCmd i = cmd)
    (ha : ArgFits arg i) : parseCommand cmd arg = some i := by
  cases i with
  | ldb f index data =>
    obtain ⟨hop, hf, rfl, rfl⟩ := encodeCmd_ldb_iff.mp hc
    simp [parseCommand, hop, decodeFile_eq_some.mpr hf]
  | wrd r value =>
    obtain ⟨hop, hz, hr⟩ := encodeCmd_wrd_iff.mp hc
    simp [parseCommand, hop, hz, decodeReg_eq_some.mpr hr, show value = arg from ha]
  | build k =>
    obtain ⟨hop, hz, hk⟩ := encodeCmd_build_iff.mp hc
    simp [parseCommand, hop, hz, decodeSlot_eq_iff.mpr hk]
  | progc addr src =>
    obtain ⟨hop, hz, hsrc, rfl⟩ := encodeCmd_progc_iff.mp hc
    simp [parseCommand, hop, hz, decodeSrc_eq_some.mpr hsrc]
  | progr m =>
    obtain ⟨hop, hz, hm⟩ := encodeCmd_progr_iff.mp hc
    simp [parseCommand, hop, hz, decodeMask_eq_iff.mpr hm]
  | qgen q quality =>
    obtain ⟨hop, hz, rfl, rfl⟩ := encodeCmd_qgen_iff.mp hc
    simp [parseCommand, hop, hz]
  | qest q =>
    obtain ⟨hop, hz, rfl, hlow⟩ := encodeCmd_qest_iff.mp hc
    simp [parseCommand, hop, hz, hlow]
  | start op m =>
    obtain ⟨hop, hz, hm, hop'⟩ := encodeCmd_start_iff.mp hc
    simp [parseCommand, hop, hz, decodeMethod_eq_some.mpr hm, decodeOp_eq_iff.mpr hop']
  | pause d =>
    obtain ⟨hop, hz, hd⟩ := encodeCmd_pause_iff.mp hc
    simp [parseCommand, hop, hz, decodeDir_eq_iff.mpr hd]
  | resume d =>
    obtain ⟨hop, hz, hd⟩ := encodeCmd_resume_iff.mp hc
    simp [parseCommand, hop, hz, decodeDir_eq_iff.mpr hd]
  | poll =>
    obtain ⟨hop, hz⟩ := encodeCmd_poll_iff.mp hc
    simp [parseCommand, hop, hz]
  | abort =>
    obtain ⟨hop, hz⟩ := encodeCmd_abort_iff.mp hc
    simp [parseCommand, hop, hz]
  | getinfo sel =>
    obtain ⟨hop, hz, hsel⟩ := encodeCmd_getinfo_iff.mp hc
    simp [parseCommand, hop, hz, decodeSel_eq_iff.mpr hsel]
  | getstate =>
    obtain ⟨hop, hz⟩ := encodeCmd_getstate_iff.mp hc
    simp [parseCommand, hop, hz]
  | geterr =>
    obtain ⟨hop, hz⟩ := encodeCmd_geterr_iff.mp hc
    simp [parseCommand, hop, hz]
  | sbfill len =>
    obtain ⟨hop, hz⟩ := encodeCmd_sbfill_iff.mp hc
    simp [parseCommand, hop, hz, show len = arg from ha]
  | sbinit =>
    obtain ⟨hop, hz⟩ := encodeCmd_sbinit_iff.mp hc
    simp [parseCommand, hop, hz]
  | _ => cases hi

theorem parseCommand_eq_some {cmd arg : Word} {i : Instr} :
    parseCommand cmd arg = some i ↔ i.isEvent = false ∧ encodeCmd i = cmd ∧ ArgFits arg i :=
  ⟨encodeCmd_of_parseCommand, fun ⟨hi, hc, ha⟩ => parseCommand_of_encodeCmd hi hc ha⟩

/-! ## The decoder of event records (30_encoding R105) -/

theorem decodeEvent_eq_some {evt : Word} {i : Instr} :
    decodeEvent evt = some i ↔ i.isEvent = true ∧ encodeCmd i = evt := by
  constructor
  · intro h
    refine ⟨decodeEvent_isEvent h, ?_⟩
    unfold decodeEvent at h
    split_ifs at h with hevt hevt hevt hevt hevt hevt hevt hevt <;> cases h <;> exact hevt.symm
  · rintro ⟨hi, rfl⟩
    cases i <;> cases hi <;> rfl

/-! ## The two ports -/

/-- The top byte of an encoded operation (30_encoding R104, R105). -/
theorem encodeCmd_opcode : ∀ i : Instr, (encodeCmd i).extractLsb' 24 8 = opcodeOf i
  | .ldb f index data => Opcode.ldb f index data
  | .wrd r value => Opcode.wrd r value
  | .build k => Opcode.build k
  | .progc addr src => Opcode.progc addr src
  | .progr m => Opcode.progr m
  | .qgen q quality => Opcode.qgen q quality
  | .qest q => Opcode.qest q
  | .start op m => Opcode.start op m
  | .pause d => Opcode.pause d
  | .resume d => Opcode.resume d
  | .poll => Opcode.poll
  | .abort => Opcode.abort
  | .getinfo sel => Opcode.getinfo sel
  | .getstate => Opcode.getstate
  | .geterr => Opcode.geterr
  | .sbfill len => Opcode.sbfill len
  | .sbinit => Opcode.sbinit
  | .evErr => Opcode.evErr
  | .evHpd => Opcode.evHpd
  | .evIn => Opcode.evIn
  | .evOut => Opcode.evOut
  | .evEoc => Opcode.evEoc
  | .evDmaInCplt => Opcode.evDmaInCplt
  | .evDmaOutCplt => Opcode.evDmaOutCplt
  | .evDmaAbort => Opcode.evDmaAbort

/-- The opcodes of event records are those from `0x80` on (30_encoding R107). -/
theorem opcodeOf_bit7 (i : Instr) : (opcodeOf i).getLsbD 7 = i.isEvent := by
  cases i <;> simp [opcodeOf, Instr.isEvent]

/-- An operation is encoded for the port it belongs to. -/
theorem isEventWord_encodeCmd (i : Instr) : isEventWord (encodeCmd i) = i.isEvent := by
  rw [← opcodeOf_bit7, ← encodeCmd_opcode, BitVec.getLsbD_extractLsb']
  rfl

/-- Every event record's operands are legal: it has none. -/
theorem wellFormed_of_isEvent {i : Instr} (hi : i.isEvent = true) (nq : Nat) : i.wellFormed nq = true := by
  cases i <;> cases hi <;> rfl

/-- An event record has no `ARG`. -/
theorem argFits_of_isEvent {i : Instr} (hi : i.isEvent = true) (arg : Word) : ArgFits arg i := by
  cases i <;> cases hi <;> trivial

theorem decodeCommand_eq_some {nq : Nat} {cmd arg : Word} {i : Instr} : decodeCommand nq cmd arg = some i ↔
    (i.isEvent = false ∧ encodeCmd i = cmd ∧ ArgFits arg i) ∧ i.wellFormed nq = true := by
  rw [decodeCommand, Option.filter_eq_some_iff, parseCommand_eq_some]

/-- A pair of words stands for an operation exactly where it is the operation's encoding, but for an `ARG` that the
operation does not use, and the operands are legal. -/
theorem decode_eq_some {nq : Nat} {cmd arg : Word} {i : Instr} : decode nq cmd arg = some i ↔
    encodeCmd i = cmd ∧ i.wellFormed nq = true ∧ ArgFits arg i := by
  unfold decode
  split
  · next hport =>
    rw [decodeEvent_eq_some]
    constructor
    · rintro ⟨hi, hc⟩
      exact ⟨hc, wellFormed_of_isEvent hi nq, argFits_of_isEvent hi arg⟩
    · rintro ⟨rfl, -, -⟩
      exact ⟨(isEventWord_encodeCmd i).symm.trans hport, rfl⟩
  · next hport =>
    rw [decodeCommand_eq_some]
    constructor
    · rintro ⟨⟨-, hc, harg⟩, hwf⟩
      exact ⟨hc, hwf, harg⟩
    · rintro ⟨rfl, hwf, harg⟩
      rw [isEventWord_encodeCmd, Bool.not_eq_true] at hport
      exact ⟨⟨hport, rfl, harg⟩, hwf⟩

/-- Settles O1: the encoded words are the operation's, and `ARG` is its own. -/
theorem decodeEncode : Obligations.DecodeEncode :=
  fun _ i hwf => decode_eq_some.mpr ⟨rfl, hwf, argFits_encodeArg i⟩

/-- Settles O2: a word that decodes is the encoding of what it decodes to, with any `ARG` that fits. -/
theorem decodeExact : Obligations.DecodeExact := by
  intro nq cmd arg i h
  obtain ⟨hc, hwf, harg⟩ := decode_eq_some.mp h
  refine ⟨hc, hwf, harg.counts.imp_right (Or.imp_right fun hany arg' => ?_)⟩
  exact decode_eq_some.mpr ⟨hc, hwf, hany arg'⟩

/-- Settles O3: a finite set of words, by evaluation. -/
theorem decodeSpecWords : Obligations.DecodeSpecWords := by
  unfold Obligations.DecodeSpecWords
  decide

/-- Settles O4: `fetch` answers with the illegal command, whose two writes are the ones named (30_encoding R107). -/
theorem illegalCommandStep : Obligations.IllegalCommandStep := by
  intro s cmd arg rest hin hfill hdec
  refine (step_of_outcome (r := illegalCommand { s with inputs := rest }) ?_).trans rfl
  simp only [fetch, hin, hfill, fetchCommand, hdec]

end Sys2Proof.Machine
end

section
/-! What `QGEN` (O29, 42_quantization R190 to R194), `PROGC` of a valid table (O26, 41_table_programmer R160 to R165) and
`PROGR` (O28, 41_table_programmer R166 to R168) leave in the table memories, and in which order they access them. -/

namespace Sys2Proof.Machine

open Sys2Proof

-- One proof after the other, for the check's memory limit.
set_option Elab.async false

variable {s : State}

/-! ## Answering leaves the table memories -/

@[simp] theorem readQmem_respond (s : State) (status : BitVec 8) (data : Word) (q w : BitVec 4) :
    readQmem (s.respond status data) q w = readQmem s q w := readQmem_congr rfl q w

@[simp] theorem readTmem_respond (s : State) (status : BitVec 8) (data : Word) (a : BitVec 16) :
    readTmem (s.respond status data) a = readTmem s a := readTmem_congr rfl a

/-! ## `QGEN` -/

/-- `Scale(quality)` inside its range (42_quantization R191). -/
theorem qualityScale_eq_some {n : Nat} (h1 : 1 ≤ n) (h2 : n ≤ 100) :
    qualityScale n = some (if 50 ≤ n then 200 - 2 * n else 5000 / n) := by
  unfold qualityScale
  by_cases h : 50 ≤ n
  · rw [if_pos ⟨h, h2⟩, if_pos h]
  · rw [if_neg (fun hr => h hr.1), if_pos ⟨h1, by omega⟩, if_neg h]

/-- A value of a quantization table, clamped (42_quantization R193). -/
theorem quantValue_eq (b scale : Nat) :
    quantValue b scale = BitVec.ofNat 8 (max 1 (min 255 ((b * scale + 50) / 100))) := by
  rw [quantValue, clampValue_eq]

/-- A word of a quantization table, lane by lane (30_encoding R111). -/
theorem quantWord_eq {v : Nat → Byte} {c : Config} {base : List Byte} {scale : Nat}
    (hv : ∀ i, quantValue (zigzagElem c base i).toNat scale = v i) (w : Nat) :
    quantWord c base scale w = v (4 * w + 3) ++ (v (4 * w + 2) ++ (v (4 * w + 1) ++ v (4 * w))) := by
  have hrange : List.range 4 = [0, 1, 2, 3] := rfl
  simp only [quantWord, hrange, hv]
  rfl

theorem execQgen_ok {q : BitVec 4} {quality : BitVec 8} {base : List Byte} {scale : Nat} (hi : s.fsm = .idle)
    (hq : q.toNat < s.cfg.nq) (hscale : qualityScale quality.toNat = some scale) (hbase : s.baselineOf q = base.map some) :
    execQgen q quality s = returnOk 0#32 (programQuant q base scale s) := by
  simp [execQgen, Instr.wellFormed, hq, hi, hscale, readAll_eq_some.mpr hbase]

/-- Settles O29: the sixteen words of the scaled table, each read back as written. -/
theorem qgenResult : Obligations.QgenResult := by
  intro s q quality base hi hq h1 h2 hbase scale v
  have hword : ∀ w, w < 16 → readQmem (programQuant q base scale s) q (BitVec.ofNat 4 w) =
      v (4 * w + 3) ++ (v (4 * w + 2) ++ (v (4 * w + 1) ++ v (4 * w))) := fun w hw =>
    (readQmem_programQuant q base scale s hw).trans (quantWord_eq (fun i => quantValue_eq _ scale) w)
  have hhist : (quantWords s.cfg base scale).map (fun p => TableAccess.qwrite q.toNat p.1.toNat p.2) =
      (List.range 16).map
        (fun w => .qwrite q.toNat w (readQmem (programQuant q base scale s) q (BitVec.ofNat 4 w))) := by
    rw [quantWords, List.map_map]
    refine List.map_congr_left fun w hw => ?_
    have hw' := List.mem_range.mp hw
    simp [readQmem_programQuant q base scale s hw', Nat.mod_eq_of_lt hw']
  refine ⟨(programQuant q base scale s).respond 0#8 0#32, execQgen_ok hi hq (qualityScale_eq_some h1 h2) hbase, ?_, ?_, ?_⟩
  · simpa only [readQmem_respond] using hword
  · simpa only [readQmem_respond] using fun q' w hne => readQmem_programQuant_other base scale s w hne
  · simp only [readQmem_respond]
    conv_lhs => rw [programQuant_frame, hhist]
    simp only [State.respond, ← hi]

/-! ## `PROGC` of a valid table -/

/-- The address of a code-table region is its base (41_table_programmer R161). -/
theorem target_eq_some {c : Config} {addr : BitVec 16} {r : Slot} (h : target c addr = some r) : addr = encBase c r := by
  unfold target at h
  split_ifs at h with hbase hbase hbase hbase <;> cases h <;> exact hbase

theorem execProgc_valid {addr : BitVec 16} {r k : Slot} {tab : ReadTable} (hi : s.fsm = .idle)
    (ht : target s.cfg addr = some r) (hk : k.kind = r.kind) (hv : (s.hct.get k).valid = true)
    (htab : readTable (s.hct.get k) = some tab) :
    execProgc addr (some k) s = returnOk 0#32 (programRegion r tab s) := by
  simp [execProgc, programFrom, hi, ht, hk, hv, htab]

/-- A word that programming a region writes. -/
theorem readTmem_programRegion_mem {r : Slot} {tab : ReadTable} {a : BitVec 16} {v : Word}
    (h : (a, v) ∈ regionWrites s.cfg r.kind (encBase s.cfg r) tab) : readTmem (programRegion r tab s) a = v := by
  rw [programRegion_frame, ← readTmem_tWriteAll_mem (s := s) (regionWrites_nodup _ _ _ _) h]
  rfl

theorem readTmem_programRegion_data {r : Slot} {tab : ReadTable} {w : Nat} (hw : w < dataWords r.kind) :
    readTmem (programRegion r tab s) (encBase s.cfg r + BitVec.ofNat 16 w) = tab.word w := by
  apply readTmem_programRegion_mem
  rw [regionWrites_eq]
  exact List.mem_append_right _ (List.mem_map.mpr ⟨w, by simpa using hw, rfl⟩)

theorem readTmem_programRegion_sentinel {r : Slot} {tab : ReadTable} {j : Nat} (hj : j < (sentinels s.cfg r.kind).length) :
    readTmem (programRegion r tab s) (encBase s.cfg r + BitVec.ofNat 16 (dataWords r.kind + j)) =
      (sentinels s.cfg r.kind).getD j 0#32 := by
  apply readTmem_programRegion_mem
  rw [regionWrites_eq]
  exact List.mem_append_left _ (List.mem_map.mpr ⟨j, List.mem_range.mpr hj, rfl⟩)

/-- A word outside the region reads as before. -/
theorem readTmem_programRegion_outside {r : Slot} {tab : ReadTable} {a : BitVec 16}
    (h : ∀ w, w < dataWords r.kind + (sentinels s.cfg r.kind).length → a ≠ encBase s.cfg r + BitVec.ofNat 16 w) :
    readTmem (programRegion r tab s) a = readTmem s a := by
  rw [programRegion_frame, ← readTmem_tWriteAll_outside (s := s) (l := regionWrites s.cfg r.kind (encBase s.cfg r) tab)]
  · rfl
  · rw [regionWrites_eq]
    intro p hp
    rcases List.mem_append.mp hp with hp | hp
    · obtain ⟨j, hj, rfl⟩ := List.mem_map.mp hp
      exact (h _ (by have := List.mem_range.mp hj; omega)).symm
    · obtain ⟨w, hw, rfl⟩ := List.mem_map.mp hp
      exact (h _ (by simp only [List.mem_reverse, List.mem_range] at hw; omega)).symm

/-- The recorded writes of a region, each with the word that stands there afterwards (41_table_programmer R165). -/
theorem regionWrites_recorded (r : Slot) (tab : ReadTable) (s : State) :
    let written (w : Nat) : TableAccess := .twrite (encBase s.cfg r + BitVec.ofNat 16 w)
      (readTmem (programRegion r tab s) (encBase s.cfg r + BitVec.ofNat 16 w))
    (regionWrites s.cfg r.kind (encBase s.cfg r) tab).map (fun p => TableAccess.twrite p.1 p.2) =
      (List.range (sentinels s.cfg r.kind).length).map (fun j => written (dataWords r.kind + j)) ++
        (List.range (dataWords r.kind)).reverse.map written := by
  rw [regionWrites_eq, List.map_append, List.map_map, List.map_map]
  congr 1
  · refine List.map_congr_left fun j hj => ?_
    exact congrArg (TableAccess.twrite _) (readTmem_programRegion_sentinel (List.mem_range.mp hj)).symm
  · refine List.map_congr_left fun w hw => ?_
    exact congrArg (TableAccess.twrite _) (readTmem_programRegion_data (by simpa using hw)).symm

/-- Settles O26: the region's data words and sentinels, each read back as written. -/
theorem progcWritesRegion : Obligations.ProgcWritesRegion := by
  intro s addr r slot tab hi hres ht hk hv htab at' words data
  have haddr : addr = encBase s.cfg r := target_eq_some ht
  have hdata : data = dataWords r.kind := by
    change (if r.kind = .dc then 6 else 81) = _
    cases r.kind <;> rfl
  have hwords : words = dataWords r.kind + (sentinels s.cfg r.kind).length := by
    change (if r.kind = .dc then 8 else 88) = _
    cases r.kind <;> simp [sentinels, dataWords, hres]
  subst haddr
  refine ⟨(programRegion r tab s).respond 0#8 0#32, execProgc_valid hi ht hk hv htab, ?_, ?_, ?_, ?_, ?_⟩
  all_goals simp only [readTmem_respond]
  · intro w hw
    exact readTmem_programRegion_data (hdata ▸ hw)
  · intro hdc
    have hword := fun j (hj : j < (sentinels s.cfg r.kind).length) => readTmem_programRegion_sentinel (tab := tab) hj
    rw [hdc] at hword
    exact ⟨hword 0 (by simp [sentinels]), hword 1 (by simp [sentinels])⟩
  · intro hac j hj
    have hword := readTmem_programRegion_sentinel (s := s) (r := r) (tab := tab) (j := j)
    have htake : s.cfg.acReserved.take 7 = s.cfg.acReserved := List.take_of_length_le hres.le
    simp only [hac, sentinels, htake, hres] at hword
    exact hword hj
  · intro a ha
    exact readTmem_programRegion_outside fun w hw => ha w (hwords ▸ hw)
  · have htmem : (programRegion r tab s).tmem = (s.tWriteAll (regionWrites s.cfg r.kind (encBase s.cfg r) tab)).tmem := by
      rw [programRegion_frame]
    conv_lhs => rw [programRegion_frame, regionWrites_recorded, ← htmem]
    rw [hwords, hdata, Nat.add_sub_cancel_left]
    simp only [State.respond, ← hi]
    rfl

/-! ## `PROGR` -/

/-- The bytes of a slot's raw specification stand in their lanes (30_encoding R110). -/
structure RawStands (k : Slot) (h : RawSpec) (s : State) : Prop where
  bits : ∀ j, j < 16 → rawByte s (offBits k + j) = h.bits.getD j 0#8
  vals : ∀ j, j < k.size → rawByte s (offVals k + j) = h.vals.getD j 0#8

/-- The raw specification has a byte for every element of the slot. -/
def RawSpec.fits (h : RawSpec) (k : Slot) : Prop := h.bits.length = 16 ∧ h.vals.length = k.size

theorem programRaw_stands {k : Slot} {h : RawSpec} (hf : h.fits k) (s : State) : RawStands k h (programRaw k h s) := by
  obtain ⟨hoff, hend, -⟩ := off_bounds k
  constructor
  · intro j hj
    rw [rawByte_programRaw s hf.1 hf.2 (by omega), if_pos (by omega), Nat.add_sub_cancel_left]
  · intro j hj
    rw [rawByte_programRaw s hf.1 hf.2 (by omega), if_neg (by omega), if_pos (by omega), Nat.add_sub_cancel_left]

/-- A byte outside a slot's two sub-regions. -/
theorem rawByte_programRaw_outside {k : Slot} {h : RawSpec} (hf : h.fits k) (s : State) {b : Nat} (hb : b < 412)
    (hout : b < offBits k ∨ offVals k + k.size ≤ b) : rawByte (programRaw k h s) b = rawByte s b := by
  obtain ⟨hoff, -, -⟩ := off_bounds k
  rw [rawByte_programRaw s hf.1 hf.2 hb, if_neg (by omega), if_neg (by omega)]

/-- The slots do not disturb one another. -/
theorem RawStands.programRaw_other {k k' : Slot} {h h' : RawSpec} (hs : RawStands k h s) (hne : k' ≠ k) (hf : h'.fits k') :
    RawStands k h (programRaw k' h' s) := by
  obtain ⟨hoff, hend, -⟩ := off_bounds k
  have hdisj := off_disjoint hne
  constructor
  · intro j hj
    rw [rawByte_programRaw_outside hf s (by omega) (by omega), hs.bits j hj]
  · intro j hj
    rw [rawByte_programRaw_outside hf s (by omega) (by omega), hs.vals j hj]

/-- One slot of `PROGR`, its specification read: programmed if it is selected. -/
def programIfSelected (mask : SlotSet) (spec : Slot → RawSpec) (k : Slot) (s : State) : State :=
  if mask.has k then programRaw k (spec k) s else s

/-- The state after the selected slots of a list have been programmed. `programSlots_eq_some` ties it to the model. -/
def programSelected (mask : SlotSet) (spec : Slot → RawSpec) : List Slot → State → State
  | [], s => s
  | k :: rest, s => programSelected mask spec rest (programIfSelected mask spec k s)

section

variable {mask : SlotSet} {spec : Slot → RawSpec} {slots : List Slot}

theorem programIfSelected_pos {k : Slot} (hm : mask.has k = true) (s : State) :
    programIfSelected mask spec k s = programRaw k (spec k) s := if_pos hm

theorem programIfSelected_neg {k : Slot} (hm : ¬ mask.has k = true) (s : State) :
    programIfSelected mask spec k s = s := if_neg hm

/-- A slot changes `TMEM`, its history and the programmed bits at most. -/
theorem programIfSelected_frame (k : Slot) (s : State) : programIfSelected mask spec k s = { s with
    tmem := (programIfSelected mask spec k s).tmem
    history := (programIfSelected mask spec k s).history
    prgRaw := (programIfSelected mask spec k s).prgRaw } := by
  by_cases hm : mask.has k = true
  · rw [programIfSelected_pos hm, programRaw_frame]
  · rw [programIfSelected_neg hm]

theorem programSelected_frame (slots : List Slot) (s : State) : programSelected mask spec slots s = { s with
    tmem := (programSelected mask spec slots s).tmem
    history := (programSelected mask spec slots s).history
    prgRaw := (programSelected mask spec slots s).prgRaw } := by
  induction slots generalizing s with
  | nil => rfl
  | cons k rest ih =>
    rw [programSelected, ih, programIfSelected_frame]

/-- `PROGR` on a list of slots, where every selected one has been written. -/
theorem programSlots_eq_some (hread : ∀ k, mask.has k = true → readSpec (s.hspec.get k) = some (spec k)) :
    programSlots mask slots s = some (programSelected mask spec slots s) := by
  induction slots generalizing s with
  | nil => rfl
  | cons k rest ih =>
    rw [programSlots, programSelected]
    by_cases hm : mask.has k = true
    · simp only [programIfSelected_pos hm, hm, if_true, hread k hm]
      exact ih (by rw [programRaw_hspec]; exact hread)
    · rw [programIfSelected_neg hm, if_neg hm]
      exact ih hread

theorem programSelected_prgRaw (k : Slot) (slots : List Slot) (s : State) :
    (programSelected mask spec slots s).prgRaw.get k = (decide (k ∈ slots) && mask.has k || s.prgRaw.get k) := by
  induction slots generalizing s with
  | nil => simp [programSelected]
  | cons k' rest ih =>
    rw [programSelected, ih]
    by_cases hm : mask.has k' = true
    · have hset : (programRaw k' (spec k') s).prgRaw = s.prgRaw.set k' true := by rw [programRaw_frame]
      by_cases hk : k = k'
      · subst hk
        simp [programIfSelected_pos hm, hm, hset]
      · simp [programIfSelected_pos hm, hset, hk, PerSlot.get_set_ne _ _ hk]
    · rw [programIfSelected_neg hm]
      by_cases hk : k = k'
      · subst hk
        simp [hm]
      · simp [hk]

section

variable (hfits : ∀ k, mask.has k = true → (spec k).fits k)
include hfits

/-- A byte outside the selected slots reads as before. -/
theorem rawByte_programSelected_outside {b : Nat} (hb : b < 412)
    (hout : ∀ k, mask.has k = true → b < offBits k ∨ offVals k + k.size ≤ b) :
    rawByte (programSelected mask spec slots s) b = rawByte s b := by
  induction slots generalizing s with
  | nil => rfl
  | cons k rest ih =>
    rw [programSelected, ih]
    by_cases hm : mask.has k = true
    · rw [programIfSelected_pos hm]
      exact rawByte_programRaw_outside (hfits k hm) s hb (hout k hm)
    · rw [programIfSelected_neg hm]

/-- The bytes of a selected slot stay once they stand. -/
theorem RawStands.programSelected {k : Slot} (hs : RawStands k (spec k) s) :
    RawStands k (spec k) (programSelected mask spec slots s) := by
  induction slots generalizing s with
  | nil => exact hs
  | cons k' rest ih =>
    refine ih ?_
    by_cases hm : mask.has k' = true
    · rw [programIfSelected_pos hm]
      by_cases hk : k' = k
      · subst hk
        exact programRaw_stands (hfits k' hm) s
      · exact hs.programRaw_other hk (hfits k' hm)
    · rwa [programIfSelected_neg hm]

/-- The bytes of every selected slot of the list stand in their lanes. -/
theorem programSelected_stands {k : Slot} (hm : mask.has k = true) (hk : k ∈ slots) (s : State) :
    RawStands k (spec k) (programSelected mask spec slots s) := by
  induction slots generalizing s with
  | nil => cases hk
  | cons k' rest ih =>
    rcases List.mem_cons.mp hk with rfl | hrest
    · rw [Machine.programSelected, programIfSelected_pos hm]
      exact (programRaw_stands (hfits k hm) s).programSelected hfits
    · exact ih hrest _

/-- A word outside the raw-spec region reads as before. -/
theorem readTmem_programSelected {x : BitVec 16} (hx : ∀ w, w < 103 → x ≠ s.cfg.rawBase + BitVec.ofNat 16 w) :
    readTmem (programSelected mask spec slots s) x = readTmem s x := by
  induction slots generalizing s with
  | nil => rfl
  | cons k rest ih =>
    rw [programSelected, ih (by rw [programIfSelected_frame]; exact hx)]
    by_cases hm : mask.has k = true
    · obtain ⟨hbits, hvals⟩ := hfits k hm
      rw [programIfSelected_pos hm, readTmem_programRaw hbits hvals hx]
    · rw [programIfSelected_neg hm]

/-- The accesses are those of the selected slots, in the order of the list (41_table_programmer R166, R168). -/
theorem programSelected_accessed (slots : List Slot) (s : State) : Accessed s (programSelected mask spec slots s)
    (slots.flatMap fun k =>
      if mask.has k then subAccesses s.cfg (offBits k) 16 ++ subAccesses s.cfg (offVals k) k.size else []) := by
  induction slots generalizing s with
  | nil => exact ⟨⟨[], by simp [programSelected], rfl, rfl⟩, rfl, rfl⟩
  | cons k rest ih =>
    rw [programSelected, List.flatMap_cons]
    by_cases hm : mask.has k = true
    · rw [programIfSelected_pos hm, if_pos hm]
      obtain ⟨hbits, hvals⟩ := hfits k hm
      have hfirst := programRaw_accessed k (spec k) s
      rw [hbits, hvals] at hfirst
      have hrest := ih (programRaw k (spec k) s)
      rw [hfirst.cfg] at hrest
      exact hfirst.trans hrest
    · rw [programIfSelected_neg hm, if_neg hm]
      exact ih s

end

end

theorem execProgr_ok {mask : SlotSet} {spec : Slot → RawSpec} (hi : s.fsm = .idle)
    (hread : ∀ k, mask.has k = true → readSpec (s.hspec.get k) = some (spec k)) : execProgr mask s =
      returnOk 0#32 (programSelected mask spec rawOrder s.enterConfiguring).refreshCfgHuff.leaveConfiguring := by
  simp only [execProgr, hi, ne_eq, not_true, if_false, programSlots_eq_some (s := s.enterConfiguring) hread]

theorem readSpec_eq_some {h : HuffSpec} {r : RawSpec} : readSpec h = some r ↔
    h.bits = r.bits.map some ∧ h.vals = r.vals.map some := by
  rw [readSpec, ← readAll_eq_some, ← readAll_eq_some]
  obtain ⟨bits, vals⟩ := r
  cases readAll h.bits <;> simp [and_comm]

/-- Settles O28: slot by slot, the bytes that stand afterwards and the accesses that put them there. -/
theorem progrWritesRaw : Obligations.ProgrWritesRaw := by
  intro s mask spec hi hspec accesses shape effect
  have hread : ∀ k, mask.has k = true → readSpec (s.hspec.get k) = some (spec k) := fun k hm => by
    obtain ⟨hbits, hvals, -, -⟩ := hspec k hm
    exact readSpec_eq_some.mpr ⟨hbits, hvals⟩
  have hfits : ∀ k, mask.has k = true → (spec k).fits k := fun k hm => by
    obtain ⟨-, -, hbits, hvals⟩ := hspec k hm
    exact ⟨hbits, hvals⟩
  have hshape : shape = TableAccess.shape := by funext x; cases x <;> rfl
  have heffect : effect = TableAccess.effect := by funext m x; cases x <;> rfl
  obtain ⟨⟨h, hhist, hmap, htmem⟩, -, -⟩ := programSelected_accessed hfits rawOrder s.enterConfiguring
  have hframe := programSelected_frame (mask := mask) (spec := spec) rawOrder s.enterConfiguring
  refine ⟨(programSelected mask spec rawOrder s.enterConfiguring).refreshCfgHuff.leaveConfiguring.respond 0#8 0#32, h,
    execProgr_ok hi hread, ?_, ?_, ?_, ?_, ?_, ?_, ?_, ?_⟩
  · intro k j hm hj
    exact (programSelected_stands hfits hm (mem_rawOrder k) s.enterConfiguring).bits j hj
  · intro k j hm hj
    exact (programSelected_stands hfits hm (mem_rawOrder k) s.enterConfiguring).vals j hj
  · intro b hb hout
    exact rawByte_programSelected_outside (s := s.enterConfiguring) hfits hb hout
  · intro a ha
    exact readTmem_programSelected (s := s.enterConfiguring) hfits ha
  · rw [hshape]
    exact hmap
  · rw [heffect]
    exact htmem
  · intro k
    have hset := programSelected_prgRaw (mask := mask) (spec := spec) k rawOrder s.enterConfiguring
    simpa [mem_rawOrder] using hset
  · conv_lhs => rw [hframe, hhist]
    simp only [State.respond, State.refreshCfgHuff, State.leaveConfiguring, ← hi]
    rfl

end Sys2Proof.Machine
end

section
/-! The pure part of the Huffman Table Builder (40_huffman_builder R142, R144, R148): the codes it assigns are canonical
(O22), a code overflow is one in a class that has symbols (O23), and where the remapping puts each symbol (O24). -/

namespace Sys2Proof.Machine

open Sys2Proof

-- One proof after the other, for the check's memory limit.
set_option Elab.async false

/-! ## Code assignment -/

/-- Settles O22: the class-by-class law of the assignment, from length 1 and code 0. -/
theorem canonicalCodes : Obligations.CanonicalCodes := by
  intro bits cs hlen h
  refine ⟨assignCodes_length h, assignCodes_nodup h, fun p hp => ?_, fun l j _ hj => ?_⟩
  · obtain ⟨hlo, hhi, hcode⟩ := assignCodes_mem h hp
    exact ⟨hlo, by omega, hcode⟩
  · rw [assignCodes_get h hj, classStart_zero, Nat.add_comm 1 l]

/-- Step 2 tests empty classes too (40_huffman_builder R142), but an overrun found there comes from an earlier class with
symbols: the shift into an empty class doubles the code and the bound alike. -/
theorem exists_nonempty_overrun {bits : List Byte} {l : Nat}
    (h : 2 ^ (l + 1) ≤ firstCode bits l + (bits.getD l 0#8).toNat) :
    ∃ m, m ≤ l ∧ 0 < (bits.getD m 0#8).toNat ∧ 2 ^ (m + 1) ≤ firstCode bits m + (bits.getD m 0#8).toNat := by
  induction l with
  | zero =>
    have hfirst : firstCode bits 0 = 0 := rfl
    exact ⟨0, Nat.le_refl 0, by omega, h⟩
  | succ l ih =>
    by_cases hempty : (bits.getD (l + 1) 0#8).toNat = 0
    · have hprev : 2 ^ (l + 1) ≤ firstCode bits l + (bits.getD l 0#8).toNat := by
        rw [hempty, firstCode] at h
        omega
      obtain ⟨m, hm, hover⟩ := ih hprev
      exact ⟨m, by omega, hover⟩
    · exact ⟨l + 1, Nat.le_refl _, by omega, h⟩

/-- Settles O23: of the classes that overrun, the first one has symbols. -/
theorem codeOverflowRule : Obligations.CodeOverflowRule := by
  intro bits hlen
  simp only [assignCodes_eq_none, classStart_zero, hlen, Nat.add_comm 1]
  constructor
  · rintro ⟨l, hl, hover⟩
    obtain ⟨m, hm, hne, hover⟩ := exists_nonempty_overrun hover
    exact ⟨m, by omega, hne, by omega⟩
  · rintro ⟨l, hl, hne, hover⟩
    exact ⟨l, hl, by omega⟩

/-! ## The remapping of symbols -/

/-- An `AC` symbol's index by its run and its size, the two symbols with an index of their own aside
(40_huffman_builder R144). -/
theorem symbolIndex_ac {v : Byte} {run size : Nat} (hv : v.toNat = 16 * run + size) (hsize : size < 16)
    (hEob : v ≠ 0x00#8) (hZrl : v ≠ 0xF0#8) : symbolIndex .ac v + 1 = 10 * run + size := by
  have hpos : v.toNat ≠ 0 := fun h => hEob (BitVec.eq_of_toNat_eq h)
  rw [symbolIndex, if_neg hEob, if_neg hZrl]
  omega

/-- The eight bits of a symbol: run above size. -/
theorem toNat_run_append_size (run size : BitVec 4) : (run ++ size).toNat = 16 * run.toNat + size.toNat := by
  rw [BitVec.toNat_append, ← Nat.shiftLeft_add_eq_or_of_lt size.isLt, Nat.shiftLeft_eq, Nat.mul_comm]

theorem symbolIndex_ac_outOfRange (v : Byte) : 162 ≤ symbolIndex .ac v ↔ v = 0xFD#8 ∨ v = 0xFE#8 ∨ v = 0xFF#8 := by
  by_cases hEob : v = 0x00#8
  · subst hEob; decide
  by_cases hZrl : v = 0xF0#8
  · subst hZrl; decide
  have hindex := symbolIndex_ac (v := v) (run := v.toNat / 16) (size := v.toNat % 16) (by omega) (by omega) hEob hZrl
  simp only [BitVec.toNat_eq, BitVec.toNat_ofNat]
  omega

/-- Every index below 160 is that of the symbol with run `i / 10` and size `i % 10 + 1`. -/
theorem symbolIndex_ac_onto {i : Nat} (hi : i < 160) :
    symbolIndex .ac (BitVec.ofNat 8 (16 * (i / 10) + (i % 10 + 1))) = i := by
  have hv : (BitVec.ofNat 8 (16 * (i / 10) + (i % 10 + 1))).toNat = 16 * (i / 10) + (i % 10 + 1) := by
    rw [BitVec.toNat_ofNat]; omega
  have hindex := symbolIndex_ac hv (by omega)
    (by simp only [ne_eq, BitVec.toNat_eq, hv, BitVec.toNat_ofNat]; omega)
    (by simp only [ne_eq, BitVec.toNat_eq, hv, BitVec.toNat_ofNat]; omega)
  omega

/-- Settles O24: the two symbols of their own, and every other by its run and size. -/
theorem symbolIndexRule : Obligations.SymbolIndexRule := by
  refine ⟨fun _ => rfl, rfl, rfl, fun run size => ?_, symbolIndex_ac_outOfRange, fun i hi => ?_⟩
  · exact symbolIndex_ac (toNat_run_append_size run size) size.isLt
  · exact ⟨i / 10, i % 10 + 1, by omega, by omega, by omega, symbolIndex_ac_onto hi⟩

end Sys2Proof.Machine
end

section
/-! `BUILD` (40_huffman_builder R140 to R147): what the pure function answers in each case, the table and the response that a
build leaves (O20, O21), and the build that `PROGC` of a table that is not valid does first (O27, 41_table_programmer
R160). -/

namespace Sys2Proof.Machine

open Sys2Proof

-- One proof after the other, for the check's memory limit.
set_option Elab.async false

/-! ## `BuildTable`, case by case (40_huffman_builder R141 to R144, R147) -/

/-- A table's size is within the limit on all symbols, so of the two bounds of R141 the table's decides. -/
theorem kind_size_le_sizeLimit (k : Kind) : k.size ≤ Config.sizeLimit := by cases k <;> decide

section

variable {k : Kind} {bits vs : List Byte} {cs : List (Nat × Nat)}

theorem assignEntries_get_symbol (hlen : vs.length ≤ cs.length) {j : Nat} {e : Assigned}
    (he : (assignEntries k vs cs)[j]? = some e) : ∃ v, vs[j]? = some v ∧ symbolIndex k v = e.index := by
  have hj : ((assignEntries k vs cs).map (·.index))[j]? = some e.index := by rw [List.getElem?_map, he]; rfl
  rw [assignEntries_index k vs cs hlen, List.getElem?_map] at hj
  exact Option.map_eq_some_iff.mp hj

/-- The entries keep a property of the index exactly when the symbols do. -/
theorem forall_assignEntries_index {P : Nat → Prop} (hlen : vs.length ≤ cs.length) :
    (∀ e ∈ assignEntries k vs cs, P e.index) ↔ ∀ v ∈ vs, P (symbolIndex k v) := by
  calc (∀ e ∈ assignEntries k vs cs, P e.index)
    _ ↔ ∀ i ∈ (assignEntries k vs cs).map (·.index), P i := List.forall_mem_map.symm
    _ ↔ ∀ i ∈ vs.map (symbolIndex k), P i := by rw [assignEntries_index k vs cs hlen]
    _ ↔ ∀ v ∈ vs, P (symbolIndex k v) := List.forall_mem_map

theorem buildTable_tableOverflow (h : k.size < symbolCount bits) : buildTable k bits vs = .error .tableOverflow :=
  if_pos (.inr h)

theorem buildTable_codeOverflow (h : symbolCount bits ≤ k.size) (hcodes : assignCodes bits 1 0 = none) :
    buildTable k bits vs = .error .codeOverflow := by
  have hlimit := kind_size_le_sizeLimit k
  rw [buildTable, if_neg (by omega), hcodes]

/-- With the codes assigned, the range test decides. -/
theorem buildTable_of_codes (h : symbolCount bits ≤ k.size) (hcodes : assignCodes bits 1 0 = some cs)
    (hlen : vs.length = symbolCount bits) : buildTable k bits vs =
      if ∀ v ∈ vs, symbolIndex k v < k.size then .ok (assignEntries k vs cs) else .error .symbolOutOfRange := by
  have hlimit := kind_size_le_sizeLimit k
  have hcount := assignCodes_length hcodes
  rw [buildTable, if_neg (by omega), hcodes]
  simp only [List.all_eq_true, decide_eq_true_eq,
    forall_assignEntries_index (P := (· < k.size)) (show vs.length ≤ cs.length by omega)]

end

/-! ## The table of a successful build (40_huffman_builder R145, R146) -/

section

variable {k : Kind} {vs : List Byte} {cs : List (Nat × Nat)} {d : Nat}

/-- The table that a build of symbols `vs` with codes `cs` leaves, its draws from number `d`. -/
def builtTable (k : Kind) (vs : List Byte) (cs : List (Nat × Nat)) (d : Nat) : HuffTable :=
  writeEntries (drawnTable true d k.size) (assignEntries k vs cs)

theorem drawnTable_get (valid : Bool) (d : Nat) {i n : Nat} (hi : i < n) :
    (drawnTable valid d n).len[i]? = some (some (Config.drawLen (d + i))) ∧
    (drawnTable valid d n).code[i]? = some (some (Config.drawCode (d + i))) := by
  simp [drawnTable, hi]

theorem builtTable_shape : (builtTable k vs cs d).valid = true ∧ (builtTable k vs cs d).len.length = k.size ∧
    (builtTable k vs cs d).code.length = k.size := by
  simp [builtTable, drawnTable]

/-- The last symbol of an index has the entry. -/
theorem builtTable_symbol (hlen : vs.length ≤ cs.length) {i : Nat} {v : Byte} {p : Nat × Nat} (hv : vs[i]? = some v)
    (hp : cs[i]? = some p) (hrange : symbolIndex k v < k.size)
    (hlast : ∀ j v', i < j → vs[j]? = some v' → symbolIndex k v' ≠ symbolIndex k v) :
    (builtTable k vs cs d).len[symbolIndex k v]? = some (some (BitVec.ofNat 5 p.1)) ∧
    (builtTable k vs cs d).code[symbolIndex k v]? = some (some (BitVec.ofNat 16 p.2)) := by
  refine writeEntries_last (assignEntries_get hv hp) (fun j e hj he => ?_) ?_ ?_
  · obtain ⟨v', hv', hindex⟩ := assignEntries_get_symbol hlen he
    exact hindex ▸ hlast j v' hj hv'
  · simpa [drawnTable] using hrange
  · simpa [drawnTable] using hrange

/-- An index of no symbol is drawn. -/
theorem builtTable_drawn (hlen : vs.length ≤ cs.length) {i : Nat} (hi : i < k.size)
    (hno : ∀ v ∈ vs, symbolIndex k v ≠ i) :
    (builtTable k vs cs d).len[i]? = some (some (Config.drawLen (d + i))) ∧
    (builtTable k vs cs d).code[i]? = some (some (Config.drawCode (d + i))) := by
  obtain ⟨hl, hc⟩ := writeEntries_other (t := drawnTable true d k.size)
    ((forall_assignEntries_index (P := (· ≠ i)) hlen).mpr hno)
  rw [builtTable, hl, hc]
  exact drawnTable_get true d hi

end

/-! ## `BUILD` on a slot -/

section

variable {s u : State} {slot : Slot} {bits vs : List Byte} {b : Built}

theorem buildWith_error {e : ErrCode} (h : buildTable slot.kind bits vs = .error e) : buildWith slot bits vs s =
    { state := s.withHct slot (drawnTable false s.draws slot.size) slot.size, error := some e } := by
  rw [buildWith, h]

theorem buildWith_ok {es : List Assigned} (h : buildTable slot.kind bits vs = .ok es) : buildWith slot bits vs s =
    { state := s.withHct slot (writeEntries (drawnTable true s.draws slot.size) es) slot.size, error := none } := by
  rw [buildWith, h]

/-- Too many symbols: the Values are not read (log 17). -/
theorem buildSlot_of_many (hbits : (s.hspec.get slot).bits = bits.map some) (h : slot.size < symbolCount bits) :
    buildSlot slot s = some (buildWith slot bits [] s) := by
  rw [buildSlot, readAll_eq_some.mpr hbits]
  exact if_pos h

theorem buildSlot_of_read (hbits : (s.hspec.get slot).bits = bits.map some) (h : symbolCount bits ≤ slot.size)
    (hvals : (s.hspec.get slot).vals.take (symbolCount bits) = vs.map some) :
    buildSlot slot s = some (buildWith slot bits vs s) := by
  rw [buildSlot, readAll_eq_some.mpr hbits]
  refine (if_neg (Nat.not_lt.mpr h)).trans ?_
  rw [readAll_eq_some.mpr hvals, Option.map_some]

theorem execBuild_ok (hi : s.fsm = .idle) (hb : buildSlot slot s = some b) (he : b.error = none) :
    execBuild slot s = returnOk 0#32 b.state := by
  rw [execBuild, if_neg (not_not.mpr hi), hb]
  simp only [he]

theorem execBuild_error {e : ErrCode} (hi : s.fsm = .idle) (hb : buildSlot slot s = some b) (he : b.error = some e) :
    execBuild slot s = raiseError e b.state := by
  rw [execBuild, if_neg (not_not.mpr hi), hb]
  simp only [he]

/-- A `BUILD` that ends in a next state has run the builder. -/
theorem execBuild_next (hi : s.fsm = .idle) (h : execBuild slot s = .next u) : ∃ b, buildSlot slot s = some b := by
  cases hb : buildSlot slot s with
  | some b => exact ⟨b, rfl⟩
  | none => rw [execBuild_fault.mpr (.inr ⟨hi, rfl, buildSlot_eq_none.mp hb⟩)] at h; cases h

/-- Settles O20: the builder answers with the entries of the symbols, which stand over the drawn table. -/
theorem buildResult : Obligations.BuildResult := by
  intro s slot bits vs cs hi hbits hvals hlen hcount hcodes hrange
  have hcs : vs.length ≤ cs.length := by rw [assignCodes_length hcodes, hlen]
  have hbuild : buildTable slot.kind bits vs = .ok (assignEntries slot.kind vs cs) :=
    (buildTable_of_codes hcount hcodes hlen).trans (if_pos hrange)
  have hrun := execBuild_ok hi (buildSlot_of_read hbits hcount hvals) (by rw [buildWith_ok hbuild])
  rw [buildWith_ok hbuild] at hrun
  obtain ⟨hvalid, hl, hc⟩ := builtTable_shape (k := slot.kind) (vs := vs) (cs := cs) (d := s.draws)
  refine ⟨builtTable slot.kind vs cs s.draws, hrun, hvalid, hl, hc, fun i v p hv hp hlast => ?_, fun i hlt hno => ?_⟩
  · exact builtTable_symbol hcs hv hp (hrange v (List.mem_of_getElem? hv)) hlast
  · exact builtTable_drawn hcs hlt hno

/-- `BUILD` where the builder answers with an error (40_huffman_builder R145, 60_exceptions R292). -/
theorem execBuild_of_table_error {e : ErrCode} (hi : s.fsm = .idle)
    (hb : buildSlot slot s = some (buildWith slot bits vs s)) (h : buildTable slot.kind bits vs = .error e) :
    execBuild slot s = raiseError e (s.withHct slot (drawnTable false s.draws slot.size) slot.size) := by
  rw [buildWith_error h] at hb
  exact execBuild_error hi hb rfl

/-- Settles O21: each error is the builder's answer in its case. -/
theorem buildErrors : Obligations.BuildErrors := by
  intro s slot bits vs hi hbits failed
  refine ⟨fun hmany => ?_, fun hcount hvals hcodes => ?_, fun hcount hvals hlen hcodes hout => ?_⟩
  · exact execBuild_of_table_error hi (buildSlot_of_many hbits hmany) (buildTable_tableOverflow hmany)
  · exact execBuild_of_table_error hi (buildSlot_of_read hbits hcount hvals) (buildTable_codeOverflow hcount hcodes)
  · obtain ⟨cs, hcodes⟩ := Option.ne_none_iff_exists'.mp hcodes
    obtain ⟨v, hv, hv'⟩ := hout
    have hrange : ¬ ∀ v ∈ vs, symbolIndex slot.kind v < slot.kind.size := fun h => Nat.not_lt.mpr hv' (h v hv)
    exact execBuild_of_table_error hi (buildSlot_of_read hbits hcount hvals)
      ((buildTable_of_codes hcount hcodes hlen).trans (if_neg hrange))

/-! ## The build that `PROGC` does first (41_table_programmer R160) -/

theorem ErrCode.code_ne_ok (e : ErrCode) : e.code ≠ 0#8 := by cases e <;> decide

theorem tWriteAll_respond (l : List (BitVec 16 × Word)) (s : State) (status : BitVec 8) (data : Word) :
    (s.respond status data).tWriteAll l = (s.tWriteAll l).respond status data := by
  induction l generalizing s with
  | nil => rfl
  | cons p l ih => exact ih (s.tWrite p.1 p.2)

/-- Programming a region neither reads nor writes the response. -/
theorem programRegion_respond (r : Slot) (tab : ReadTable) (s : State) (status : BitVec 8) (data : Word) :
    programRegion r tab (s.respond status data) = (programRegion r tab s).respond status data := by
  have hwrites := tWriteAll_respond (regionWrites s.cfg r.kind (encBase s.cfg r) tab) s.enterConfiguring status data
  exact congrArg (fun v : State => ({ v with prgEnc := v.prgEnc.set r true } : State).refreshCfgHuff.leaveConfiguring)
    hwrites

theorem execProgc_accepted {addr : BitVec 16} {r : Slot} (hi : s.fsm = .idle) (ht : target s.cfg addr = some r)
    (hk : slot.kind = r.kind) : execProgc addr (some slot) s = programFrom r slot s := by
  simp only [execProgc, hi, ht, hk, ne_eq, not_true, if_false]

theorem programFrom_build_fails {r : Slot} {e : ErrCode} (hv : (s.hct.get slot).valid = false)
    (hb : buildSlot slot s = some b) (he : b.error = some e) : programFrom r slot s = raiseError e b.state := by
  simp only [programFrom, hv, hb, he, Bool.false_eq_true, if_false]

/-- A successful build leaves a valid table with every entry written, so it can be programmed. -/
theorem buildSlot_readable (hb : buildSlot slot s = some b) (he : b.error = none) :
    (b.state.hct.get slot).valid = true ∧ ∃ tab, readTable (b.state.hct.get slot) = some tab := by
  obtain ⟨bits, vals, rfl⟩ := buildSlot_some hb
  obtain ⟨hvalid, -, -⟩ := buildWith_table slot bits vals s
  refine ⟨by rw [hvalid, he]; rfl, Option.ne_none_iff_exists'.mp fun hread => ?_⟩
  exact buildWith_written slot bits vals s (readTable_eq_none.mp hread)

theorem programFrom_builds {r : Slot} {tab : ReadTable} (hv : (s.hct.get slot).valid = false)
    (hb : buildSlot slot s = some b) (he : b.error = none) (htab : readTable (b.state.hct.get slot) = some tab) :
    programFrom r slot s = returnOk 0#32 (programRegion r tab b.state) := by
  simp only [programFrom, hv, hb, he, htab, Bool.false_eq_true, if_false]

theorem buildSlot_cfg (hb : buildSlot slot s = some b) : b.state.cfg = s.cfg := by
  obtain ⟨bits, vals, rfl⟩ := buildSlot_some hb
  rw [buildWith_frame]

theorem buildSlot_tmem (hb : buildSlot slot s = some b) : b.state.tmem = s.tmem := by
  obtain ⟨bits, vals, rfl⟩ := buildSlot_some hb
  rw [buildWith_frame]

/-- Settles O27: `PROGC` runs the same builder as `BUILD`, and the region it writes does not depend on the response that
`BUILD` gave. -/
theorem progcBuildsFirst : Obligations.ProgcBuildsFirst := by
  intro s u addr r slot hi ht hk hv hbuild
  obtain ⟨b, hb⟩ := execBuild_next hi hbuild
  have hprogc : execProgc addr (some slot) s = programFrom r slot s := execProgc_accepted hi ht hk
  cases he : b.error with
  | some e =>
    cases (execBuild_error hi hb he).symm.trans hbuild
    refine ⟨fun hok => ?_, fun _ => ⟨hprogc.trans (programFrom_build_fails hv hb he), buildSlot_tmem hb⟩⟩
    exact absurd (congrArg Response.status (Option.some.inj hok)) e.code_ne_ok
  | none =>
    cases (execBuild_ok hi hb he).symm.trans hbuild
    refine ⟨fun _ => ?_, fun hne => absurd rfl hne⟩
    obtain ⟨hvalid, tab, htab⟩ := buildSlot_readable hb he
    have hagain : execProgc addr (some slot) (b.state.respond 0#8 0#32) =
        returnOk 0#32 (programRegion r tab (b.state.respond 0#8 0#32)) :=
      execProgc_valid ((buildSlot_fsm hb).trans hi) ((congrArg (target · addr) (buildSlot_cfg hb)).trans ht) hk hvalid htab
    calc execProgc addr (some slot) s
      _ = programFrom r slot s := hprogc
      _ = returnOk 0#32 (programRegion r tab b.state) := programFrom_builds hv hb he htab
      _ = returnOk 0#32 (programRegion r tab (b.state.respond 0#8 0#32)) := by rw [programRegion_respond]; rfl
      _ = execProgc addr (some slot) (b.state.respond 0#8 0#32) := hagain.symm

end

end Sys2Proof.Machine
end

section
/-! `PROGC` turned away, or with a null source (O25, 41_table_programmer R160, R161): the address is tested first, then the null
source, then the kind of the table, and none of the three reaches the writes of a region. -/

namespace Sys2Proof.Machine

open Sys2Proof

variable {s : State} {addr : BitVec 16}

/-- `Target` knows the four bases only (41_table_programmer R161). -/
theorem target_eq_none {c : Config} (hac0 : addr ≠ c.encAc0Base) (hac1 : addr ≠ c.encAc1Base)
    (hdc0 : addr ≠ c.encDc0Base) (hdc1 : addr ≠ c.encDc1Base) : target c addr = none := by
  rw [target, if_neg hac0, if_neg hac1, if_neg hdc0, if_neg hdc1]

/-- An unknown address is an error whatever the source is, the null source included (41_table_programmer R161). -/
theorem execProgc_unknown (hi : s.fsm = .idle) (ht : target s.cfg addr = none) (src : Option Slot) :
    execProgc addr src s = raiseError .invalidTableTarget s := by
  simp only [execProgc, hi, ht, ne_eq, not_true, if_false]

theorem execProgc_null {r : Slot} (hi : s.fsm = .idle) (ht : target s.cfg addr = some r) :
    execProgc addr none s = returnOk 0#32 s := by
  simp only [execProgc, hi, ht, ne_eq, not_true, if_false]

/-- The kind is tested before the table is: no implied build runs (41_table_programmer R160). -/
theorem execProgc_otherKind {r slot : Slot} (hi : s.fsm = .idle) (ht : target s.cfg addr = some r)
    (hk : slot.kind ≠ r.kind) : execProgc addr (some slot) s = raiseError .invalidTableTarget s := by
  simp only [execProgc, hi, ht, ne_eq, not_true, if_false, if_pos hk]

/-- Settles O25: the three tests of `PROGC` in their order; an error and the empty success leave all but the answer. -/
theorem progcRejects : Obligations.ProgcRejects := by
  intro s addr hi invalid
  refine ⟨fun hac0 hac1 hdc0 hdc1 src => ?_, fun r ht => ⟨?_, fun slot hk => ?_⟩⟩
  · exact execProgc_unknown hi (target_eq_none hac0 hac1 hdc0 hdc1) src
  · exact execProgc_null hi ht
  · exact execProgc_otherKind hi ht hk

end Sys2Proof.Machine
end

section
/-! What `QEST` estimates (O31, 42_quantization R195), that a table of quality 100 is estimated at 100 (O32, 42_quantization
R199), and when `QGEN` is turned away (O30, 42_quantization R191, R196). -/

namespace Sys2Proof.Machine

open Sys2Proof

-- One proof after the other, for the check's memory limit.
set_option Elab.async false

variable {s : State} {q : BitVec 4}

/-! ## `QEST` -/

/-- The estimate from the 64 contributions (42_quantization R195). -/
theorem estimate_of_contributions {base : List Byte} {part : Nat → Nat}
    (h : ∀ i, i < 64 → contribution (readBack s q i) (zigzagElem s.cfg base i).toNat = some (part i)) :
    estimate s q base = some (((List.range 64).map part).sum / 64) := by
  rw [estimate, contributionSum_some fun i hi => h i (List.mem_range.mp hi), Option.map_some]

/-- The seven bits of `INFO.QUALITY` hold every estimate. -/
theorem estimate_setWidth {base : List Byte} {r : Nat} (h : estimate s q base = some r) :
    (BitVec.ofNat 7 r).setWidth 32 = BitVec.ofNat 32 r := by
  have hle := estimate_le h
  exact BitVec.setWidth_ofNat_of_le_of_lt (by decide) (by omega)

theorem execQest_ok {base : List Byte} {r : Nat} (hi : s.fsm = .idle) (hq : q.toNat < s.cfg.nq)
    (hbase : s.baselineOf q = base.map some) (hr : estimate s q base = some r) :
    execQest q s = returnOk (BitVec.ofNat 32 r) { s with info := { s.info with quality := BitVec.ofNat 7 r } } := by
  rw [← estimate_setWidth hr]
  simp [execQest, Instr.wellFormed, hq, hi, readAll_eq_some.mpr hbase, hr]

/-- Settles O31: every contribution exists, so their sum does, and the estimate is within its bound. -/
theorem qestResult : Obligations.QestResult := by
  intro s q base hi hq hbase hdefined part r
  have hpart : ∀ i, i < 64 → contribution (readBack s q i) (zigzagElem s.cfg base i).toNat = some (part i) := fun i hlt =>
    contribution_some ((hdefined i hlt).imp_right fun hne hzero => hne (BitVec.eq_of_toNat_eq hzero))
  have hr : estimate s q base = some r := estimate_of_contributions hpart
  exact ⟨estimate_le hr, execQest_ok hi hq hbase hr⟩

/-! ## `QGEN` at quality 100, then `QEST` -/

/-- What `QEST` reads of the state besides the table is as before `QGEN`. -/
theorem programQuant_reads (q : BitVec 4) (base : List Byte) (scale : Nat) (s : State) :
    (programQuant q base scale s).fsm = .idle ∧ (programQuant q base scale s).cfg = s.cfg ∧
      (programQuant q base scale s).baseline = s.baseline := by
  rw [programQuant_frame]
  exact ⟨rfl, rfl, rfl⟩

/-- Scale 0, that of quality 100, clamps every element to 1 (42_quantization R193, R199). -/
theorem readBack_programQuant_zero (base : List Byte) {i : Nat} (hi : i < 64) :
    readBack (programQuant q base 0 s) q i = 1 := by
  rw [readBack_programQuant q base 0 s hi, Nat.mul_zero]
  rfl

/-- `QGEN q, 100` succeeds and leaves a table of ones, ready for `QEST q`. -/
theorem execQgen_max {base : List Byte} (hi : s.fsm = .idle) (hq : q.toNat < s.cfg.nq)
    (hbase : s.baselineOf q = base.map some) :
    ∃ t, execQgen q 100#8 s = .next t ∧ t.fsm = .idle ∧ t.cfg = s.cfg ∧ t.baseline = s.baseline ∧
      ∀ i, i < 64 → readBack t q i = 1 := by
  have hscale : qualityScale (100#8).toNat = some 0 := by decide
  obtain ⟨hidle, hcfg, hbaseline⟩ := programQuant_reads q base 0 s
  refine ⟨_, execQgen_ok hi hq hscale hbase, ?_, ?_, ?_, fun i hlt => ?_⟩
  · rw [State.respond_fsm, hidle]
  · rw [State.respond_cfg, hcfg]
  · rw [State.respond_baseline, hbaseline]
  · rw [readBack_congr (State.respond_qmem _ _ _), readBack_programQuant_zero base hlt]

/-- A table of ones is estimated at 100, over any baseline (42_quantization R195, R199). -/
theorem estimate_of_ones {base : List Byte} (h : ∀ i, i < 64 → readBack s q i = 1) : estimate s q base = some 100 :=
  estimate_of_contributions (part := fun _ => 100) fun i hi => by rw [h i hi]; rfl

/-- Settles O32: `QGEN` leaves a table of ones and the baseline that `QEST` then reads. -/
theorem qgenMaxThenQest : Obligations.QgenMaxThenQest := by
  intro s q base hi hq hbase
  obtain ⟨t, hqgen, hidle, hcfg, hbaseline, hones⟩ := execQgen_max hi hq hbase
  have hq' : q.toNat < t.cfg.nq := hcfg ▸ hq
  have hbase' : t.baselineOf q = base.map some := by rw [State.baselineOf, hbaseline, ← hbase, State.baselineOf]
  exact ⟨t, _, hqgen, execQest_ok hidle hq' hbase' (estimate_of_ones hones), rfl, rfl⟩

/-! ## `QGEN` turned away -/

/-- The quality is tested before the baseline is read: an unwritten one does not matter (log 18). -/
theorem execQgen_badQuality {quality : BitVec 8} (hi : s.fsm = .idle) (hq : q.toNat < s.cfg.nq)
    (h : quality.toNat = 0 ∨ 100 < quality.toNat) : execQgen q quality s = raiseError .invalidArgument s := by
  simp [execQgen, Instr.wellFormed, hq, hi, qualityScale_eq_none.mpr h]

/-- A `q` outside `0..NQ-1` is an illegal command, whatever the quality is (42_quantization R196 (f)). -/
theorem execQgen_noTable (hq : s.cfg.nq ≤ q.toNat) (quality : BitVec 8) : execQgen q quality s = illegalCommand s := by
  simp [execQgen, Instr.wellFormed, Nat.not_lt.mpr hq]

/-- Settles O30: the two refusals, each an error answer that writes nothing. -/
theorem qgenRejects : Obligations.QgenRejects := by
  intro s q quality hi
  refine ⟨fun hq hbad => ?_, fun hq => ?_⟩
  · exact execQgen_badQuality hi hq hbad
  · exact execQgen_noTable hq quality

end Sys2Proof.Machine
end

section
/-! The output stream of a FIFO method (O13, 43_transfer_fsm R234 (b)): every operation of a job leaves the bytes drained, then
those in the output buffer, then those in `OFIFO`, as they were, whatever the host answers; `CORE` adds the word it pushes. -/

namespace Sys2Proof.Machine

open Sys2Proof

-- One proof after the other: side by side they take more threads than the check's memory limit has room for.
set_option Elab.async false

variable {s t u : State}

/-! ## The relation -/

/-- The fields that the output stream is read from: an update of others leaves it the same by definition. -/
def State.outputParts (s : State) := (s.trace, s.hmem, s.desc.outAddr, s.desc.outOff, s.ofifo)

theorem outputStream_congr (h : t.outputParts = s.outputParts) : outputStream t = outputStream s := by
  simp only [State.outputParts, Prod.mk.injEq] at h
  obtain ⟨htrace, hmem, haddr, hoff, hfifo⟩ := h
  simp only [outputStream, htrace, hmem, haddr, hoff, hfifo]

/-- An effect that is no `DRAIN` carries no byte of the output. -/
theorem outputStream_effect {e : Effect} (he : drainBytes [e] = [])
    (h : t.outputParts = ({ s with trace := s.trace ++ [e] } : State).outputParts) : outputStream t = outputStream s := by
  rw [outputStream_congr h]
  simp only [outputStream, drainBytes_append, he, List.append_nil]

/-- If the outcome is a next state, its output stream is that of `s`. -/
def NextKeepsStream (s : State) (r : Result) : Prop := ∀ t, r = .next t → outputStream t = outputStream s

theorem NextKeepsStream.next (h : outputStream t = outputStream s) : NextKeepsStream s (.next t) := by
  rintro _ ⟨⟩
  exact h

theorem NextKeepsStream.fault {f : Fault} : NextKeepsStream s (.fault f) := by
  rintro _ ⟨⟩

theorem NextKeepsStream.of_fault {r : Result} {f : Fault} (h : r = .fault f) : NextKeepsStream s r := h ▸ .fault

theorem NextKeepsStream.returnOk {data : Word} (h : outputStream t = outputStream s) : NextKeepsStream s (returnOk data t) :=
  .next h

theorem NextKeepsStream.raiseError {e : ErrCode} (h : outputStream t = outputStream s) :
    NextKeepsStream s (raiseError e t) := .next h

theorem NextKeepsStream.agent {r : Except Fault State} (h : ∀ {t}, r = .ok t → outputStream t = outputStream s) :
    NextKeepsStream s (agentOutcome r) := by
  cases r with
  | ok t => exact .next (h rfl)
  | error f => exact .fault

/-! ## The transfer paths (43_transfer_fsm R218 to R222, R237, R238) -/

theorem refill_outputStream (h : refill s = .ok t) : outputStream t = outputStream s := by
  obtain ⟨sb, host, draws, addr, len, -, -, ht⟩ := refill_cases h
  rcases ht with ⟨rfl, -⟩ | ⟨rfl, -⟩ <;> exact outputStream_effect (e := .refill s.desc.inOff) rfl rfl

theorem OutMoved.outputStream {ws : List Word} (h : OutMoved s t ws) : outputStream t = outputStream s := by
  have haddr : t.desc.outAddr = s.desc.outAddr := by rw [h.desc]
  rw [Machine.outputStream, haddr, h.bytes, Machine.outputStream, h.fifo, List.flatMap_append]
  simp only [List.append_assoc]

theorem storeWords_outputStream {n : Nat} (hr : OutReady s.desc) (h : storeWords n s = .ok t) :
    outputStream t = outputStream s := by
  obtain ⟨m, -, hmoved, -⟩ := storeWords_ok hr h
  exact hmoved.outputStream

theorem finish_outputStream (hr : OutReady s.desc) (h : finish s = .ok t) : outputStream t = outputStream s := finish_ok hr h

theorem resumeInput_outputStream (h : resumeInput s = some t) : outputStream t = outputStream s := by
  unfold resumeInput at h
  dsimp only at h
  split at h
  · cases h; rfl
  split at h
  · cases h
  split at h
  · cases h; rfl
  split at h
  · cases h; rfl
  split at h <;> cases h <;> rfl

theorem Consistent.resumeOutput_outputStream (hs : Consistent s) (hj : s.fsm ≠ .idle) (h : Machine.resumeOutput s = .ok t) :
    outputStream t = outputStream s := by
  unfold Machine.resumeOutput at h
  dsimp only at h
  split at h
  · cases h; rfl
  split at h
  · exact finish_outputStream (s := { s with ctx := { s.ctx with pauseOut := false } }) (hs.outReady hj) h
  split at h
  · cases h; rfl
  split at h <;> cases h <;> rfl

/-! ## The event handlers (43_transfer_fsm R215 to R226) -/

theorem handleErr_outputStream (h : handleErr s = .ok t) : outputStream t = outputStream s := by
  obtain ⟨-, rfl⟩ := notify_ok.mp h
  exact outputStream_effect (e := .error ErrCode.hardwareTransferError.code) rfl rfl

theorem handleHpd_outputStream (h : handleHpd s = .ok t) : outputStream t = outputStream s := by
  obtain ⟨-, rfl⟩ := notify_ok.mp h
  exact outputStream_effect (e := .infoReady) rfl rfl

theorem handleIn_outputStream (h : handleIn s = .ok t) : outputStream t = outputStream s := by
  obtain ⟨u, hu, hr⟩ := feedWords_ok.mp h
  have hstart : outputStream u = outputStream s := by
    split at hu
    · exact refill_outputStream hu
    · rw [hu]
  rw [← hstart]
  split at hr
  · rw [hr]
  · rw [feedAvail_frame hr]
    rfl

theorem Consistent.handleOut_outputStream (hs : Consistent s) (he : eligible .out s = true)
    (h : Machine.handleOut s = .ok t) : outputStream t = outputStream s :=
  storeWords_outputStream (hs.outReady (hs.modes.in_job_of_method (method_ne_none_of_fifo (eligible_out.mp he).1))) h

theorem Consistent.handleEoc_outputStream (hs : Consistent s) (hno : s.ctx.dmaMethod = false) (he : eligible .eoc s = true)
    (h : Machine.handleEoc s = .ok t) : outputStream t = outputStream s := by
  have hready := hs.outReady (hs.modes.in_job_of_method (eligible_eoc.mp he).1)
  unfold Machine.handleEoc at h
  dsimp only at h
  split at h
  · next hd => exact absurd (hno.symm.trans hd) Bool.false_ne_true
  · exact finish_outputStream (s := s.stopSources) hready h

/-- A record is taken of an event whose handler keeps the output stream. -/
theorem takeEvent_keepsStream {e : Event} {handler : State → Except Fault State}
    (hh : ∀ {t}, eligible e s = true → handler s = .ok t → outputStream t = outputStream s) :
    NextKeepsStream s (takeEvent e handler s) := by
  intro t ht
  rcases takeEvent_next.mp ht with ⟨-, rfl⟩ | ⟨htaken, u, hu, rfl⟩
  · rfl
  · exact (hh (eligible_of_taken htaken) hu : outputStream u = outputStream s)

/-- The events of method DMA are eligible in no other method. -/
theorem Consistent.execEvent_keepsStream (hs : Consistent s) (hno : s.ctx.dmaMethod = false) :
    ∀ e : Event, NextKeepsStream s (Machine.exec e.instr s)
  | .err => takeEvent_keepsStream fun _ => handleErr_outputStream
  | .hpd => takeEvent_keepsStream fun _ => handleHpd_outputStream
  | .inp => takeEvent_keepsStream fun _ => handleIn_outputStream
  | .out => takeEvent_keepsStream hs.handleOut_outputStream
  | .eoc => takeEvent_keepsStream (hs.handleEoc_outputStream hno)
  | .dmaInCplt => takeEvent_keepsStream fun he => by
    simp [dmaMethod_iff.mpr (eligible_dmaInCplt.mp he).1] at hno
  | .dmaOutCplt => takeEvent_keepsStream fun he => by
    simp [dmaMethod_iff.mpr (eligible_dmaOutCplt.mp he).1] at hno
  | .dmaAbort => takeEvent_keepsStream fun he => by
    simp [hs.engines.abort_dma (.inr (.inr (eligible_dmaAbort.mp he).2.2))] at hno

/-! ## The commands of a job -/

/-- One event of a pass, given what its handler does. -/
theorem pollEvent_outputStream {e : Event} {handler : State → Except Fault State} {p r : Word × State}
    (hh : eligible e p.2 = true → handler p.2 = .ok r.2 → outputStream r.2 = outputStream p.2)
    (h : pollEvent e handler p = .ok r) : outputStream r.2 = outputStream p.2 :=
  pollEvent_rel (R := fun s t => outputStream t = outputStream s) h rfl hh

theorem Consistent.pollPass_outputStream (hs : Consistent s) (hm : s.ctx.method = some .poll) {p : Word × State}
    (h : Machine.pollPass s = .ok p) : outputStream p.2 = outputStream s := by
  obtain ⟨p1, h1, h⟩ := bind_eq_ok.mp h
  obtain ⟨p2, h2, h⟩ := bind_eq_ok.mp h
  obtain ⟨p3, h3, h⟩ := bind_eq_ok.mp h
  obtain ⟨p4, h4, h5⟩ := bind_eq_ok.mp h
  have ready3 : PollReady p3.2 := (((PollReady.start hs hm).err h1).hpd h2).inp h3
  have ready4 : PollReady p4.2 := ready3.out h4
  calc outputStream p.2
      = outputStream p4.2 := pollEvent_outputStream (ready4.consistent.handleEoc_outputStream ready4.no_dma) h5
    _ = outputStream p3.2 := pollEvent_outputStream ready3.consistent.handleOut_outputStream h4
    _ = outputStream p2.2 := pollEvent_outputStream (fun _ => handleIn_outputStream) h3
    _ = outputStream p1.2 := pollEvent_outputStream (fun _ => handleHpd_outputStream) h2
    _ = outputStream s := pollEvent_outputStream (p := (0#32, s)) (fun _ => handleErr_outputStream) h1

theorem Consistent.execPoll_keepsStream (hs : Consistent s) : NextKeepsStream s (Machine.execPoll s) := by
  unfold Machine.execPoll
  split
  · exact .returnOk rfl
  next hm =>
    split
    · next hp => exact .returnOk (hs.pollPass_outputStream (not_not.mp hm) hp)
    · exact .fault

theorem Consistent.execResume_keepsStream (hs : Consistent s) (dir : DirSet) :
    NextKeepsStream s (Machine.execResume dir s) := by
  unfold Machine.execResume
  split
  · exact .returnOk rfl
  next hj =>
    split
    · exact .raiseError rfl
    next u hin =>
      have hu : outputStream u = outputStream s ∧ Consistent u ∧ u.fsm ≠ .idle := by
        split at hin
        · exact ⟨resumeInput_outputStream hin, hs.resumeInput hj hin, by rwa [resumeInput_fsm hin]⟩
        · cases hin; exact ⟨rfl, hs, hj⟩
      obtain ⟨hstream, hcu, hju⟩ := hu
      split
      · next v hout =>
        refine .returnOk (Eq.trans ?_ hstream)
        split at hout
        · exact hcu.resumeOutput_outputStream hju hout
        · cases hout; rfl
      · exact .fault

theorem pauseDirs_outputStream (dir : DirSet) (s : State) : outputStream (pauseDirs dir s) = outputStream s := by
  unfold pauseDirs
  dsimp only
  split <;> split <;> rfl

theorem execPause_keepsStream (dir : DirSet) (s : State) : NextKeepsStream s (execPause dir s) := by
  unfold execPause
  split
  · exact .returnOk rfl
  · exact .returnOk (pauseDirs_outputStream dir s)

theorem execStart_keepsStream (hj : s.fsm ≠ .idle) (op : JobOp) (m : Method) : NextKeepsStream s (execStart op m s) := by
  rw [execStart, if_pos hj]
  exact .raiseError rfl

theorem execAbort_keepsStream (s : State) : NextKeepsStream s (execAbort s) := by
  unfold execAbort
  split
  · exact .returnOk rfl
  split
  · exact .raiseError rfl
  · exact .returnOk rfl

theorem finishInputWrite_keepsStream (s : State) : NextKeepsStream s (finishInputWrite s) := by
  unfold finishInputWrite
  split
  · exact .returnOk rfl
  split
  · exact .fault
  · exact .returnOk rfl

/-- In a job a `WRD` writes the input descriptor or nothing (45_register_access R281). -/
theorem execWrd_keepsStream (hj : s.fsm ≠ .idle) (reg : DescReg) (value : Word) :
    NextKeepsStream s (execWrd reg value s) := by
  have hinput : ∀ d : Desc, d.outAddr = s.desc.outAddr → d.outOff = s.desc.outOff → NextKeepsStream s
      (if inputWritable s then finishInputWrite { s with desc := d } else raiseError .busy s) := fun d haddr hoff => by
    have hd : outputStream { s with desc := d } = outputStream s :=
      outputStream_congr (by simp only [State.outputParts, haddr, hoff])
    split
    · exact fun t ht => (finishInputWrite_keepsStream { s with desc := d } t ht).trans hd
    · exact .raiseError rfl
  have houtput : ∀ d : Desc, NextKeepsStream s
      (if s.fsm = .idle then returnOk 0#32 { s with desc := d } else raiseError .busy s) := fun d => by
    rw [if_neg hj]
    exact .raiseError rfl
  cases reg with
  | inAddr => exact hinput _ rfl rfl
  | inLen => exact hinput _ rfl rfl
  | outAddr => exact houtput _
  | outLen => exact houtput _

/-! ## The programming and load commands, which a job has not (60_exceptions R302) -/

theorem execLdb_keepsStream (hj : s.fsm ≠ .idle) (file : LdbFile) (index : BitVec 8) (data : Byte) :
    NextKeepsStream s (execLdb file index data s) := by
  unfold execLdb
  rw [if_pos hj]
  split
  · exact .raiseError rfl
  · exact .fault

theorem execQgen_keepsStream (hj : s.fsm ≠ .idle) (q : BitVec 4) (quality : BitVec 8) :
    NextKeepsStream s (execQgen q quality s) := by
  unfold execQgen
  rw [if_pos hj]
  split
  · exact .raiseError rfl
  · exact .fault

theorem execQest_keepsStream (hj : s.fsm ≠ .idle) (q : BitVec 4) : NextKeepsStream s (execQest q s) := by
  unfold execQest
  rw [if_pos hj]
  split
  · exact .raiseError rfl
  · exact .fault

/-! ## The Streaming Buffer Manager (44_stream_buffers R271, R273) -/

theorem execSbinit_keepsStream (s : State) : NextKeepsStream s (execSbinit s) := by
  unfold execSbinit
  split
  · exact .raiseError rfl
  · exact .returnOk rfl

/-- What the first step of `SBFILL` leaves of the output. -/
theorem sbfillStep1_outputParts {len : Word} (h : sbfillStep1 len s = .ok t) :
    t.outputParts = ({ s with hmem := t.hmem } : State).outputParts := by
  obtain ⟨u, hu, hr⟩ := bind_eq_ok.mp h
  obtain ⟨-, rfl⟩ := memWrite_ok.mp hu
  cases hr
  rfl

/-- No streaming buffer of a job shares a byte with its output buffer (20_memory R74). -/
theorem Consistent.fill_apart (hs : Consistent s) (hj : s.fsm ≠ .idle) {a : Nat} (ha : inNextFill s a) :
    a < s.desc.outAddr.toNat ∨ s.desc.outAddr.toNat + s.desc.outLen.toNat ≤ a := by
  obtain ⟨-, hfill⟩ := ha
  rw [← not_inRange]
  exact fun hout => outOverlapsSb_eq_false.mp (hs.buffers.apart_sb hj) s.sb.wr a hout hfill

theorem Consistent.execSbfill_keepsStream (hs : Consistent s) (hj : s.fsm ≠ .idle) (len : Word) :
    NextKeepsStream s (Machine.execSbfill len s) := by
  have hwrites := execSbfill_writes len s
  have hoff := hs.buffers.out_off hj
  unfold Machine.execSbfill at hwrites ⊢
  split
  · exact .raiseError rfl
  split
  · exact .returnOk rfl
  split
  · exact .raiseError rfl
  next hcap hzero hfull =>
    split
    · next t hstep =>
      rw [if_neg hcap, if_neg hzero, if_neg hfull, hstep] at hwrites
      have hbuffer : readBytes t.hmem s.desc.outAddr.toNat s.desc.outOff.toNat =
          readBytes s.hmem s.desc.outAddr.toNat s.desc.outOff.toNat :=
        readBytes_congr fun a hlo hhi => hwrites t rfl a fun ha => by
          rcases hs.fill_apart hj ha with h | h <;> omega
      refine .next ((outputStream_congr (sbfillStep1_outputParts hstep)).trans ?_)
      simp only [outputStream, hbuffer]
    · exact .fault

theorem sbTakeBuffer_outputStream {i : BufIdx} (h : sbTakeBuffer i s = .ok t) : outputStream t = outputStream s := by
  unfold sbTakeBuffer at h
  split at h
  · split at h <;> cases h
    rfl
  · cases h; rfl

theorem sbfillStep2_keepsStream (i : BufIdx) (s : State) : NextKeepsStream s (sbfillStep2 i s) := by
  unfold sbfillStep2
  dsimp only
  split
  · exact .returnOk rfl
  split
  · exact .fault
  next htake =>
    split
    · next hresume =>
      exact .returnOk ((resumeInput_outputStream hresume).trans ((sbTakeBuffer_outputStream htake).trans rfl))
    · exact .raiseError rfl

/-! ## Every instruction and every agent -/

theorem Consistent.exec_keepsStream (hs : Consistent s) (hj : s.fsm ≠ .idle) (hno : s.ctx.dmaMethod = false) :
    ∀ i : Instr, NextKeepsStream s (Machine.exec i s)
  | .ldb file index data => execLdb_keepsStream hj file index data
  | .wrd reg value => execWrd_keepsStream hj reg value
  | .build _ => .of_fault (execBuild_fault.mpr (.inl ⟨hj, rfl⟩))
  | .progc _ _ => .of_fault (execProgc_fault.mpr (.inl ⟨hj, rfl⟩))
  | .progr _ => .of_fault (execProgr_fault.mpr (.inl ⟨hj, rfl⟩))
  | .qgen q quality => execQgen_keepsStream hj q quality
  | .qest q => execQest_keepsStream hj q
  | .start op m => execStart_keepsStream hj op m
  | .pause dir => execPause_keepsStream dir s
  | .resume dir => hs.execResume_keepsStream dir
  | .poll => hs.execPoll_keepsStream
  | .abort => execAbort_keepsStream s
  | .getinfo _ => .returnOk rfl
  | .getstate => .returnOk rfl
  | .geterr => .returnOk rfl
  | .sbfill len => hs.execSbfill_keepsStream hj len
  | .sbinit => execSbinit_keepsStream s
  | .evErr => hs.execEvent_keepsStream hno .err
  | .evHpd => hs.execEvent_keepsStream hno .hpd
  | .evIn => hs.execEvent_keepsStream hno .inp
  | .evOut => hs.execEvent_keepsStream hno .out
  | .evEoc => hs.execEvent_keepsStream hno .eoc
  | .evDmaInCplt => hs.execEvent_keepsStream hno .dmaInCplt
  | .evDmaOutCplt => hs.execEvent_keepsStream hno .dmaOutCplt
  | .evDmaAbort => hs.execEvent_keepsStream hno .dmaAbort

theorem dinWords_outputParts {n : Nat} (h : dinWords n s = .ok t) : t.outputParts = s.outputParts := by
  induction n generalizing s with
  | zero => cases h; rfl
  | succ n ih =>
    obtain ⟨b, -, h⟩ := bind_eq_ok.mp h
    obtain ⟨u, hu, hr⟩ := bind_eq_ok.mp h
    obtain ⟨-, rfl⟩ := pushInput_ok.mp hu
    exact (ih hr).trans rfl

theorem dinStep_outputStream (h : dinStep s = .ok t) : outputStream t = outputStream s := by
  unfold dinStep at h
  split at h
  · cases h; rfl
  split at h
  · obtain ⟨u, hu, hr⟩ := bind_eq_ok.mp h
    cases hr
    exact (outputStream_congr (dinWords_outputParts hu) : outputStream u = outputStream s)
  · cases h; rfl

/-- Outside method DMA the engine `DOUT` moves no word. -/
theorem Consistent.doutStep_outputStream (hs : Consistent s) (hno : s.ctx.dmaMethod = false)
    (h : Machine.doutStep s = .ok t) : outputStream t = outputStream s := by
  have hstill : ¬ doutMoves s = true := fun hm => by
    obtain ⟨-, -, hen, -⟩ := doutMoves_iff.mp hm
    simp [dma_of_enable hs.modes hs.enables (.inr hen)] at hno
  unfold Machine.doutStep at h
  rw [if_neg hstill] at h
  split at h <;> cases h <;> rfl

theorem doutErrorStep_outputStream (s : State) : outputStream (doutErrorStep s) = outputStream s := by
  unfold doutErrorStep
  split <;> rfl

theorem dinErrorStep_outputStream (s : State) : outputStream (dinErrorStep s) = outputStream s := by
  unfold dinErrorStep
  split <;> rfl

/-- What is next is an act of `CORE`. -/
theorem step_core {a : CoreAct} {rest : List Stimulus} (hin : s.inputs = .core a :: rest) :
    step s = .next (coreStep a { s with inputs := rest }) :=
  step_of_outcome (by simp only [fetch, hin])

/-- `CORE` adds the word it pushes, and no other of its acts touches the output (43_transfer_fsm R236). -/
theorem coreStep_outputStream {a : CoreAct} {rest : List Stimulus} (hin : s.inputs = .core a :: rest) :
    outputStream (coreStep a { s with inputs := rest }) = outputStream s ++ pushedBytes s := by
  have hallowed : coreAllowed a { s with inputs := rest } = coreAllowed a s := rfl
  unfold pushedBytes coreStep
  rw [hin, hallowed]
  cases a with
  | push w =>
    dsimp only
    split
    · simp [coreDo, outputStream]
    · exact (List.append_nil _).symm
  | _ =>
    rw [List.append_nil]
    split <;> rfl

/-- Every step of a job but one of `CORE` or of the host's own. -/
theorem Consistent.step_keepsStream (hs : Consistent s) (hj : s.fsm ≠ .idle) (hno : s.ctx.dmaMethod = false)
    (hcore : ∀ a rest, s.inputs ≠ .core a :: rest) (hhost : ∀ a b rest, s.inputs ≠ .host (.write a b) :: rest) :
    NextKeepsStream s (Machine.step s) := by
  have htaken : Consistent s.inputTaken := hs.of_visible rfl
  have hkind := step_kind s
  generalize Machine.step s = r at hkind
  cases hkind with
  | run i => exact htaken.exec_keepsStream hj hno i
  | fill k u _ hu =>
    have hsame : outputStream u = outputStream s := by rw [hu]; rfl
    exact fun t ht => (sbfillStep2_keepsStream k u t ht).trans hsame
  | illegal => exact .raiseError rfl
  | still t ht => exact .next (by rw [ht]; rfl)
  | din => exact .agent fun h => (dinStep_outputStream h).trans rfl
  | dinError => exact .next (dinErrorStep_outputStream s.inputTaken)
  | dout => exact .agent fun h => htaken.doutStep_outputStream hno h
  | doutError => exact .next (doutErrorStep_outputStream s.inputTaken)
  | core a rest hin => exact absurd hin (hcore a rest)
  | host a rest hin =>
    cases a with
    | write addr b => exact absurd hin (hhost addr b rest)
    | writeBlockState => exact .fault

/-- Settles O13: `CORE` adds the word it pushes, and every other step keeps the stream. -/
theorem outputStreamConserved : Obligations.OutputStreamConserved := by
  intro s t hi hj hf hhost hstep
  by_cases hcore : ∃ a rest, s.inputs = .core a :: rest
  · obtain ⟨a, rest, hin⟩ := hcore
    rw [step_core hin] at hstep
    cases hstep
    exact coreStep_outputStream hin
  · rw [not_exists] at hcore
    have hpushed : pushedBytes s = [] := by
      unfold pushedBytes
      split
      · next h => exact absurd ⟨_, h⟩ (hcore _)
      · rfl
    rw [hpushed, List.append_nil]
    exact hi.consistent.step_keepsStream hj (not_dma_of_fifo hf) (fun a rest h => hcore a ⟨rest, h⟩) hhost t hstep

end Sys2Proof.Machine
end

section
/-! The residual drain of a job and its end (43_transfer_fsm R219 to R222): `EV_EOC` (O49, O50), `EV_DMA_ABORT` (O53) and
`RESUME {Output}` in `Draining` (O38) run `Finish()` on a state of their own; what it leaves is said once. -/

namespace Sys2Proof.Machine

open Sys2Proof

-- One proof after the other: side by side they take more threads than the check's memory limit has room for.
set_option Elab.async false

variable {s t : State}

/-! ## What `Finish()` leaves -/

/-- The bytes of a job that have not reached the host: those in the output buffer, then those of these words. -/
def pendingBytes (s : State) (words : List Word) : List Byte :=
  readBytes s.hmem s.desc.outAddr.toNat s.desc.outOff.toNat ++ words.flatMap bytesOfWord

/-- The effects of the end of a job all of whose bytes reach the host. -/
def endEffects (s : State) : List Effect :=
  finalEffects s.desc.outAddr s.desc.outLen s.ctx.op (pendingBytes s s.ofifo)

/-- The job is complete; the host is `host` after its replies, and its memory is `m`. -/
def State.completed (s : State) (m : Store Byte) (host : HostSide) : State :=
  { s.endJob with
    hmem := m
    ofifo := []
    trace := s.trace ++ endEffects s
    desc := { s.desc with outOff := 0#32 }
    host := { host with notices := s.host.notices.tail } }

/-- The residual drain has stopped at a `Pause` after `n` words; the host is `host` after it, and its memory is `m`. -/
def State.stoppedAfter (s : State) (n : Nat) (m : Store Byte) (host : HostSide) : State :=
  { s with
    hmem := m
    ofifo := s.ofifo.drop n
    trace := s.trace ++ fullDrains s.desc.outAddr s.desc.outLen (pendingBytes s (s.ofifo.take n))
    desc := { s.desc with outOff := 0#32 }
    ctx := { s.ctx with pauseOut := true }
    host := host }

/-- The memory `m` has the bytes of `s` at every address outside the output buffer of its job. -/
def SavesOthers (s : State) (m : Store Byte) : Prop := ∀ a, ¬ inOutputBuffer s a → readByte m a = readByte s.hmem a

theorem SavesOthers.of_outside {m : Store Byte} (hj : s.fsm ≠ .idle)
    (h : ∀ a, a < s.desc.outAddr.toNat ∨ s.desc.outAddr.toNat + s.desc.outLen.toNat ≤ a →
      readByte m a = readByte s.hmem a) : SavesOthers s m :=
  OutputOnly.writes (t := { s with hmem := m }) ⟨rfl, rfl, h⟩ hj

/-- The output buffer of a job is ready for `Finish()`, `OFIFO` holds no more than it moves, and every source is off. -/
structure FinishReady (s : State) : Prop where
  job : s.fsm ≠ .idle
  buffer : OutReady s.desc
  fifo : s.ofifo.length ≤ s.cfg.fifoDepth
  stopped : s.cr = .reset

/-- `Finish()` where the host lets every `DRAIN` pass. -/
theorem FinishReady.finish_completes (h : FinishReady s) (hp : s.ctx.pauseOut = false ∨ s.ofifo = []) {host : HostSide}
    (hc : s.host.passes ((endEffects s).length - 1) host) (hn : s.host.notices.head? ≠ some .command) :
    ∃ m, SavesOthers s m ∧ finish s = .ok (s.completed m host) := by
  obtain ⟨u, hu, hout, hframe⟩ := finish_passes hp h.buffer h.fifo h.stopped hn hc
  refine ⟨u.hmem, .of_outside h.job hout, ?_⟩
  rw [HostSide.passes_notices hc] at hframe
  rw [hu, State.completed]
  exact congrArg _ hframe

/-- `Finish()` where the host answers with `Pause` and words are left. -/
theorem FinishReady.finish_stops (h : FinishReady s) (hp : s.ctx.pauseOut = false) {host : HostSide} {k n : Nat}
    (hc : s.host.pausesAfter k host) (hn : n < s.ofifo.length)
    (hk : s.desc.outOff.toNat + 4 * n = s.desc.outLen.toNat * (k + 1)) :
    ∃ m, SavesOthers s m ∧ finish s = .ok (s.stoppedAfter n m host) := by
  obtain ⟨u, hu, hout, hframe⟩ := finish_pauses hp h.buffer h.fifo h.stopped hn hk hc
  refine ⟨u.hmem, .of_outside h.job hout, ?_⟩
  rw [hu, State.stoppedAfter]
  exact congrArg _ hframe

/-- At the end of a job every byte of it has reached the host. -/
theorem drainBytes_endEffects (s : State) :
    drainBytes (s.trace ++ endEffects s) = drainBytes s.trace ++ pendingBytes s s.ofifo := by
  rw [drainBytes_append, endEffects, drainBytes_finalEffects]

theorem outputStream_eq_pending (s : State) : outputStream s = drainBytes s.trace ++ pendingBytes s s.ofifo :=
  List.append_assoc _ _ _

/-! ## `EV_EOC` in the FIFO methods (43_transfer_fsm R220) -/

theorem handleEoc_fifo (hno : s.ctx.dmaMethod = false) : handleEoc s = finish s.stopSources :=
  if_neg (by rw [show s.stopSources.ctx.dmaMethod = false from hno]; exact Bool.false_ne_true)

/-- `EV_EOC` turns every source off before it drains. -/
theorem FinishReady.of_eoc (hi : Inv s) (he : eligible .eoc s = true) : FinishReady s.stopSources :=
  have hbuffer := outReady_of_inv hi (running_of_eligible hi he)
  ⟨nofun, hbuffer, hi.fifos.output, rfl⟩

/-- The block drains in `Draining`, and its output buffer is that of the job. -/
theorem SavesOthers.of_stopSources {m : Store Byte} (hj : s.fsm ≠ .idle) (h : SavesOthers s.stopSources m) :
    SavesOthers s m :=
  fun a ha => h a fun ⟨_, hin⟩ => ha ⟨hj, hin⟩

/-- Settles O49: `EV_EOC` turns the sources off, then `Finish()` runs. -/
theorem evEocFifo : Obligations.EvEocFifo := by
  intro s hi hf ht bytes effects
  have he := eligible_of_taken ht
  have hj := running_of_eligible hi he
  have hready := FinishReady.of_eoc hi he
  have hp : s.stopSources.ctx.pauseOut = false := (eligible_eoc.mp he).2.2.2.2
  have hfinish := handleEoc_fifo (not_dma_of_fifo hf)
  refine ⟨fun host hc hn => ?_, fun host k n hc hn hk => ?_⟩
  · obtain ⟨m, hm, hok⟩ := hready.finish_completes (.inl hp) hc hn
    refine ⟨_, takeEvent_of_ok ht (hfinish.trans hok), rfl, rfl, rfl, rfl, rfl, ?_, rfl, hm.of_stopSources hj, rfl⟩
    exact (drainBytes_endEffects s.stopSources).trans (outputStream_eq_pending s).symm
  · obtain ⟨m, hm, hok⟩ := hready.finish_stops hp hc hn hk
    exact ⟨_, takeEvent_of_ok ht (hfinish.trans hok), hm.of_stopSources hj, rfl⟩

/-! ## `EV_EOC` in method DMA (43_transfer_fsm R220) -/

theorem Dma.requestAbort_eq (d : Dma) : d.requestAbort = { d with abortReq := d.abortReq || d.busy } := by
  unfold Dma.requestAbort
  split
  · next hb => rw [hb, Bool.or_true]
  · next hb => rw [Bool.not_eq_true] at hb; rw [hb, Bool.or_false, ← hb]

/-- The count of `DOUT` as the fill offset. -/
def State.withDoutOff (s : State) : State := { s with desc := { s.desc with outOff := s.dout.done } }

/-- `EV_EOC` with an engine busy. -/
theorem handleEoc_busy (hd : s.ctx.dmaMethod = true) (hb : s.din.busy = true ∨ s.dout.busy = true) :
    handleEoc s = .ok { s.stopSources with din := s.din.requestAbort, dout := s.dout.requestAbort } := by
  have hb' : (s.din.requestAbort.busy || s.dout.requestAbort.busy) = true := by
    rw [s.din.requestAbort_others.1, s.dout.requestAbort_others.1, Bool.or_eq_true]
    exact hb
  exact (if_pos hd).trans (if_pos hb')

/-- `EV_EOC` with both engines idle. -/
theorem handleEoc_dma (hd : s.ctx.dmaMethod = true) (hin : s.din.busy = false) (hout : s.dout.busy = false) :
    handleEoc s = finish s.stopSources.withDoutOff := by
  have hdin : s.din.requestAbort = s.din := if_neg (by simp [hin])
  have hdout : s.dout.requestAbort = s.dout := if_neg (by simp [hout])
  unfold handleEoc
  dsimp only
  rw [if_pos (show s.stopSources.ctx.dmaMethod = true from hd), State.stopSources_din, State.stopSources_dout, hdin, hdout,
    if_neg (by simp [hin, hout])]
  rfl

/-- Settles O50: with an engine busy the aborts are asked for; else the count of `DOUT` is the fill offset and `Finish()` runs. -/
theorem evEocDma : Obligations.EvEocDma := by
  intro s hd ht bytes effects
  have he := eligible_of_taken ht
  refine ⟨fun hb => ?_, fun hi hin hout => ?_⟩
  · refine (takeEvent_of_ok ht (handleEoc_busy hd hb)).trans ?_
    rw [Dma.requestAbort_eq, Dma.requestAbort_eq]
    rfl
  · have hj := running_of_eligible hi he
    have hcplt := dout_reported_of_taken ht (.inl rfl) hd
    have hready : FinishReady s.stopSources.withDoutOff :=
      ⟨nofun, hi.consistent.doutReady hd hcplt, hi.fifos.output, rfl⟩
    have hp : s.stopSources.withDoutOff.ctx.pauseOut = false := (eligible_eoc.mp he).2.2.2.2
    have hfinish := handleEoc_dma hd hin hout
    refine ⟨fun host hc hn => ?_, fun host k n hc hn hk => ?_⟩
    · obtain ⟨m, hm, hok⟩ := hready.finish_completes (.inl hp) hc hn
      exact ⟨_, takeEvent_of_ok ht (hfinish.trans hok), SavesOthers.of_stopSources hj hm, rfl⟩
    · obtain ⟨m, hm, hok⟩ := hready.finish_stops hp hc hn hk
      exact ⟨_, takeEvent_of_ok ht (hfinish.trans hok), SavesOthers.of_stopSources hj hm, rfl⟩

/-! ## `EV_DMA_ABORT` (43_transfer_fsm R225) -/

/-- The aborts of both engines taken. -/
def State.abortsTaken (s : State) : State :=
  { s with din := { s.din with aborted := false }, dout := { s.dout with aborted := false } }

theorem handleDmaAbort_busy (hb : s.din.busy = true ∨ s.dout.busy = true) : handleDmaAbort s = .ok s.abortsTaken :=
  if_pos (Bool.or_eq_true .. ▸ hb)

theorem handleDmaAbort_idle (hin : s.din.busy = false) (hout : s.dout.busy = false) :
    handleDmaAbort s = finish s.abortsTaken.withDoutOff :=
  if_neg (by simp [hin, hout])

/-- Settles O53: the abort flags clear, and with both engines idle `Finish()` runs from the count of `DOUT`. -/
theorem evDmaAbortResult : Obligations.EvDmaAbortResult := by
  intro s ht bytes effects
  obtain ⟨-, hend, haborted⟩ := eligible_dmaAbort.mp (eligible_of_taken ht)
  refine ⟨fun hb => takeEvent_of_ok ht (handleDmaAbort_busy hb), fun hin hout hp hne => ?_, fun hi hin hout => ?_⟩
  · exact takeEvent_of_ok ht ((handleDmaAbort_idle hin hout).trans (finish_paused hp hne))
  · have hd := hi.engines.abort_dma (.inr (.inr haborted))
    have hready : FinishReady s.abortsTaken.withDoutOff :=
      ⟨hi.modes.in_job_of_dma hd, hi.consistent.doutReady hd (dout_reported_of_taken ht (.inr rfl) hd), hi.fifos.output,
        hi.consistent.cr_of_ending hend⟩
    have hfinish := handleDmaAbort_idle hin hout
    refine ⟨fun hp host hc hn => ?_, fun hp host k n hc hn hk => ?_⟩
    · obtain ⟨m, hm, hok⟩ := hready.finish_completes hp hc hn
      exact ⟨_, takeEvent_of_ok ht (hfinish.trans hok), rfl, rfl, rfl, rfl,
        drainBytes_endEffects s.abortsTaken.withDoutOff, rfl, hm, rfl⟩
    · obtain ⟨m, hm, hok⟩ := hready.finish_stops hp hc hn hk
      exact ⟨_, takeEvent_of_ok ht (hfinish.trans hok), hm, rfl⟩

/-! ## `RESUME {Output}` in `Draining` (43_transfer_fsm R228, R231) -/

/-- The output of a job that is ending resumed. -/
theorem resumeOutput_ending (hp : s.ctx.pauseOut = true) (hend : s.ctx.ending = true) :
    resumeOutput s = finish { s with ctx := { s.ctx with pauseOut := false } } := by
  simp [resumeOutput, hp, hend]

theorem execResume_output_ok (hj : s.fsm ≠ .idle) (h : resumeOutput s = .ok t) :
    execResume { input := false, output := true } s = returnOk 0#32 t := by
  simp [execResume, hj, h]

/-- Settles O38: the output runs again and `Finish()` goes on where it stopped. -/
theorem resumeFinishes : Obligations.ResumeFinishes := by
  intro s hi hdraining hp bytes effects
  have hend := hi.modes.draining_iff.mp hdraining
  have hj : s.fsm ≠ .idle := by simp [hdraining]
  have hbuffer := outReady_of_inv hi hj
  have hready : FinishReady { s with ctx := { s.ctx with pauseOut := false } } :=
    ⟨hj, hbuffer, hi.fifos.output, hi.consistent.cr_of_ending hend⟩
  have hfinish := resumeOutput_ending hp hend
  refine ⟨fun host hc hn => ?_, fun host k n hc hn hk => ?_⟩
  · obtain ⟨m, hm, hok⟩ := hready.finish_completes (.inl rfl) hc hn
    refine ⟨_, execResume_output_ok hj (hfinish.trans hok), rfl, rfl, rfl, rfl, ?_, rfl, hm, rfl⟩
    exact (drainBytes_endEffects { s with ctx := { s.ctx with pauseOut := false } }).trans (outputStream_eq_pending s).symm
  · obtain ⟨m, hm, hok⟩ := hready.finish_stops rfl hc hn hk
    have hctx : ({ s.ctx with pauseOut := true } : Ctx) = s.ctx := by rw [← hp]
    refine ⟨_, execResume_output_ok hj (hfinish.trans hok), hm, ?_⟩
    simp only [State.stoppedAfter, hctx]
    rfl

end Sys2Proof.Machine
end

section
/-! `PAUSE` (O35), `RESUME` (O37), their idempotence (O36) and `ABORT` (O40): what each leaves of the pauses, the sources and the
engines, said once for each direction (43_transfer_fsm R227, R228, R230, R231, R235). -/

namespace Sys2Proof.Machine

open Sys2Proof

-- One proof after the other: side by side they take more threads than the check's memory limit has room for.
set_option Elab.async false

variable {s t u : State} {dir : DirSet}

/-! ## The words of the commands (30_encoding R104) -/

/-- A command without range tests on its operands is decoded from its word, whatever `ARG` is. -/
theorem decodeCommand_of_encodeCmd {nq : Nat} {cmd arg : Word} {i : Instr} (hi : i.isEvent = false) (hc : encodeCmd i = cmd)
    (ha : ArgFits arg i) (hw : i.wellFormed nq = true) : decodeCommand nq cmd arg = some i := by
  rw [decodeCommand, parseCommand_of_encodeCmd hi hc ha, Option.filter_some, if_pos hw]

/-! ## `PAUSE` (43_transfer_fsm R227, R231) -/

/-- `DoPause(Input)` where asked for: a source stays on only where its direction is not masked. -/
theorem pauseInput_where (s : State) (b : Bool) : (if b then s.pauseInput else s) = { s with
    ctx := { s.ctx with pauseIn := s.ctx.pauseIn || b }
    cr := { s.cr with
      ieIft := s.cr.ieIft && !(s.ctx.fifoMethod && b), ieIfnf := s.cr.ieIfnf && !(s.ctx.fifoMethod && b) } } := by
  cases b <;> cases hf : s.ctx.fifoMethod <;> simp [State.pauseInput, hf]

/-- `DoPause(Output)` where asked for. -/
theorem pauseOutput_where (s : State) (b : Bool) : (if b then s.pauseOutput else s) = { s with
    ctx := { s.ctx with pauseOut := s.ctx.pauseOut || b }
    cr := { s.cr with
      ieOft := s.cr.ieOft && !(s.ctx.fifoMethod && b), ieOfne := s.cr.ieOfne && !(s.ctx.fifoMethod && b)
      ieEoc := s.cr.ieEoc && !(s.ctx.fifoMethod && b) } } := by
  cases b <;> cases hf : s.ctx.fifoMethod <;> simp [State.pauseOutput, hf]

theorem pauseDirs_eq (dir : DirSet) (s : State) : pauseDirs dir s = { s with
    ctx := { s.ctx with pauseIn := s.ctx.pauseIn || dir.input, pauseOut := s.ctx.pauseOut || dir.output }
    cr := { s.cr with
      ieIft := s.cr.ieIft && !(s.ctx.fifoMethod && dir.input), ieIfnf := s.cr.ieIfnf && !(s.ctx.fifoMethod && dir.input)
      ieOft := s.cr.ieOft && !(s.ctx.fifoMethod && dir.output), ieOfne := s.cr.ieOfne && !(s.ctx.fifoMethod && dir.output)
      ieEoc := s.cr.ieEoc && !(s.ctx.fifoMethod && dir.output) } } := by
  unfold pauseDirs
  dsimp only
  rw [pauseOutput_where, pauseInput_where]
  rfl

theorem execPause_idle (hi : s.fsm = .idle) : execPause dir s = returnOk 0#32 s := if_pos hi

theorem execPause_job (hj : s.fsm ≠ .idle) : execPause dir s = returnOk 0#32 (pauseDirs dir s) := if_neg hj

/-- The sources of a job are those of its pauses, so to set these again changes nothing (10_state R45). -/
theorem Consistent.setPauses_self (hs : Consistent s) : s.setPauses s.ctx.pauseIn s.ctx.pauseOut = s := by
  have hcr : (if s.ctx.fifoMethod && s.cr.run then s.cr.masked s.ctx.pauseIn s.ctx.pauseOut else s.cr) = s.cr := by
    split
    · next h =>
      obtain ⟨hf, hrun⟩ := Bool.and_eq_true_iff.mp h
      exact (hs.cr_masked hrun hf).symm
    · rfl
  rw [State.setPauses, hcr]

theorem Consistent.pauseDirs_paused (hs : Consistent s) (hin : dir.input = true → s.ctx.pauseIn = true)
    (hout : dir.output = true → s.ctx.pauseOut = true) : Machine.pauseDirs dir s = s := by
  have hself := hs.setPauses_self
  have hinput : (if dir.input then s.pauseInput else s) = s := by
    split
    · next h => rwa [hin h, ← hs.pauseInput_eq] at hself
    · rfl
  have houtput : (if dir.output then s.pauseOutput else s) = s := by
    split
    · next h => rwa [hout h, ← hs.pauseOutput_eq] at hself
    · rfl
  unfold Machine.pauseDirs
  dsimp only
  rw [hinput, houtput]

/-- `PAUSE` of directions that are paused changes nothing (43_transfer_fsm R235). -/
theorem Consistent.execPause_paused (hs : Consistent s) (hin : dir.input = true → s.ctx.pauseIn = true)
    (hout : dir.output = true → s.ctx.pauseOut = true) : Machine.execPause dir s = returnOk 0#32 s := by
  by_cases hi : s.fsm = .idle
  · exact execPause_idle hi
  · rw [execPause_job hi, hs.pauseDirs_paused hin hout]

/-- Settles O35: `PAUSE` in `Idle` and in a job, of directions already paused, and its word. -/
theorem pauseResult : Obligations.PauseResult := by
  intro s dir
  refine ⟨fun hi => execPause_idle hi, fun hj => ?_, fun hi hin hout => ?_, fun arg => ?_⟩
  · intro maskIn maskOut
    refine (execPause_job hj).trans ?_
    rw [pauseDirs_eq]
    rfl
  · exact hi.consistent.execPause_paused hin hout
  · exact decodeCommand_of_encodeCmd rfl rfl trivial rfl

/-! ## `RESUME` (43_transfer_fsm R228, R231) -/

theorem resumeInput_running (hp : s.ctx.pauseIn = false) : resumeInput s = some s := by simp [resumeInput, hp]

theorem resumeOutput_running (hp : s.ctx.pauseOut = false) : resumeOutput s = .ok s := by simp [resumeOutput, hp]

/-- `RESUME` in a job is `DoResume` of each direction, `Input` first. -/
theorem execResume_ok (hj : s.fsm ≠ .idle) (hin : (if dir.input then resumeInput s else some s) = some t)
    (hout : (if dir.output then resumeOutput t else .ok t) = .ok u) : execResume dir s = returnOk 0#32 u := by
  rw [execResume, if_neg hj, hin]
  dsimp only
  rw [hout]

/-- `RESUME` of directions that run changes nothing (43_transfer_fsm R235). -/
theorem execResume_running (hin : dir.input = true → s.ctx.pauseIn = false)
    (hout : dir.output = true → s.ctx.pauseOut = false) : execResume dir s = returnOk 0#32 s := by
  by_cases hi : s.fsm = .idle
  · exact if_pos hi
  · refine execResume_ok (t := s) hi ?_ ?_
    · split
      · next h => exact resumeInput_running (hin h)
      · rfl
    · split
      · next h => exact resumeOutput_running (hout h)
      · rfl

/-- Settles O36: no direction named is changed, and the sources of those that are paused are off by the invariant. -/
theorem pauseResumeIdempotent : Obligations.PauseResumeIdempotent :=
  fun _ _ hi => ⟨hi.consistent.execPause_paused, execResume_running⟩

/-- A flag is cleared only where it was set and its direction is named. -/
theorem and_not_of_not_and {p b : Bool} (h : (p && b) = false) : (p && !b) = p := by
  revert p b
  decide

/-- `DoResume(Input)` of an input that runs, or that is not named. -/
theorem resumeInput_unless {b : Bool} (h : (s.ctx.pauseIn && b) = false) :
    (if b then resumeInput s else some s) = some s := by
  split
  · next hb => exact resumeInput_running (by simpa [hb] using h)
  · rfl

/-- `DoResume(Output)` of an output that runs, or that is not named. -/
theorem resumeOutput_unless {b : Bool} (h : (s.ctx.pauseOut && b) = false) :
    (if b then resumeOutput s else .ok s) = .ok s := by
  split
  · next hb => exact resumeOutput_running (by simpa [hb] using h)
  · rfl

/-- In a FIFO method: the flag, and the sources of an input that was paused. -/
theorem resumeInput_fifo (hend : s.ctx.ending = false) (hf : s.ctx.fifoMethod = true) (b : Bool) :
    (if b then resumeInput s else some s) = some { s with
      ctx := { s.ctx with pauseIn := s.ctx.pauseIn && !b }
      cr := { s.cr with ieIft := s.cr.ieIft || (s.ctx.pauseIn && b), ieIfnf := s.cr.ieIfnf || (s.ctx.pauseIn && b) } } := by
  cases h : s.ctx.pauseIn && b with
  | true =>
    obtain ⟨hp, rfl⟩ := Bool.and_eq_true_iff.mp h
    simp [resumeInput, hp, hend, hf, not_dma_of_fifo hf]
  | false => simp only [resumeInput_unless h, and_not_of_not_and h, Bool.or_false]

/-- In a FIFO method: the flag, and the sources of an output that was paused. -/
theorem resumeOutput_fifo (hend : s.ctx.ending = false) (hf : s.ctx.fifoMethod = true) (b : Bool) :
    (if b then resumeOutput s else .ok s) = .ok { s with
      ctx := { s.ctx with pauseOut := s.ctx.pauseOut && !b }
      cr := { s.cr with
        ieOft := s.cr.ieOft || (s.ctx.pauseOut && b), ieOfne := s.cr.ieOfne || (s.ctx.pauseOut && b)
        ieEoc := s.cr.ieEoc || (s.ctx.pauseOut && b) } } := by
  cases h : s.ctx.pauseOut && b with
  | true =>
    obtain ⟨hp, rfl⟩ := Bool.and_eq_true_iff.mp h
    simp [resumeOutput, hp, hend, hf]
  | false => simp only [resumeOutput_unless h, and_not_of_not_and h, Bool.or_false]

/-- In method DMA: the flag, and the next block of an input that was paused, if `DIN` is idle. -/
theorem resumeInput_dma (hend : s.ctx.ending = false) (hd : s.ctx.dmaMethod = true) {b : Bool}
    (hdata : (s.ctx.pauseIn && b) = true → s.desc.inOff ≠ s.desc.inLen) :
    (if b then resumeInput s else some s) = some { s with
      ctx := { s.ctx with pauseIn := s.ctx.pauseIn && !b }
      din := if (s.ctx.pauseIn && b) = true ∧ s.din.busy = false ∧ s.din.cplt = false then s.primeIn.din else s.din } := by
  cases h : s.ctx.pauseIn && b with
  | true =>
    obtain ⟨hp, rfl⟩ := Bool.and_eq_true_iff.mp h
    by_cases hfree : s.din.busy = false ∧ s.din.cplt = false
    · simp [resumeInput, hp, hend, hd, not_fifo_of_dma hd, hdata h, hfree, State.primeIn]
    · have hfree' : (!s.din.busy && !s.din.cplt) = false := by simpa using hfree
      simp [resumeInput, hp, hend, hd, not_fifo_of_dma hd, hdata h, hfree, hfree']
  | false => simp [resumeInput_unless h, and_not_of_not_and h]

/-- In method DMA: the flag, and the next block of an output that was paused, if `DOUT` is idle. -/
theorem resumeOutput_dma (hend : s.ctx.ending = false) (hd : s.ctx.dmaMethod = true) (b : Bool) :
    (if b then resumeOutput s else .ok s) = .ok { s with
      ctx := { s.ctx with pauseOut := s.ctx.pauseOut && !b }
      dout := if (s.ctx.pauseOut && b) = true ∧ s.dout.busy = false ∧ s.dout.cplt = false then s.primeOut.dout
        else s.dout } := by
  cases h : s.ctx.pauseOut && b with
  | true =>
    obtain ⟨hp, rfl⟩ := Bool.and_eq_true_iff.mp h
    by_cases hfree : s.dout.busy = false ∧ s.dout.cplt = false
    · simp [resumeOutput, hp, hend, hd, not_fifo_of_dma hd, hfree, State.primeOut]
    · have hfree' : (!s.dout.busy && !s.dout.cplt) = false := by simpa using hfree
      simp [resumeOutput, hp, hend, hd, not_fifo_of_dma hd, hfree, hfree']
  | false => simp [resumeOutput_unless h, and_not_of_not_and h]

/-- In method DMA a paused input without data is not resumed. -/
theorem resumeInput_empty (hend : s.ctx.ending = false) (hd : s.ctx.dmaMethod = true) (hp : s.ctx.pauseIn = true)
    (hdata : s.desc.inOff = s.desc.inLen) : resumeInput s = none := by
  simp [resumeInput, hp, hd, hend, hdata]

/-- In `Draining` the flag alone. -/
theorem resumeInput_ending (hend : s.ctx.ending = true) (b : Bool) :
    (if b then resumeInput s else some s) = some { s with ctx := { s.ctx with pauseIn := s.ctx.pauseIn && !b } } := by
  cases h : s.ctx.pauseIn && b with
  | true =>
    obtain ⟨hp, rfl⟩ := Bool.and_eq_true_iff.mp h
    simp [resumeInput, hp, hend]
  | false => simp only [resumeInput_unless h, and_not_of_not_and h]

/-- Settles O37: each direction in turn, in a FIFO method, in method DMA and in `Draining`. -/
theorem resumeResult : Obligations.ResumeResult := by
  intro s dir hj ok inp out flags
  refine ⟨fun hend hf => ?_, fun hend hd hdata => ?_, fun hend hd hinp hdata => ?_, fun hend hout => ?_,
    fun hend hin hout => ?_⟩
  · exact execResume_ok hj (resumeInput_fifo hend hf _) (resumeOutput_fifo (by exact hend) (by exact hf) _)
  · exact execResume_ok hj (resumeInput_dma hend hd hdata) (resumeOutput_dma (by exact hend) (by exact hd) _)
  · obtain ⟨hp, hin⟩ := Bool.and_eq_true_iff.mp hinp
    have hnone : (if dir.input then resumeInput s else some s) = none := (if_pos hin).trans (resumeInput_empty hend hd hp hdata)
    refine (if_neg hj).trans ?_
    rw [hnone]
    rfl
  · refine (execResume_ok hj (resumeInput_ending hend _) (resumeOutput_unless hout)).trans ?_
    simp only [flags, and_not_of_not_and hout]
    rfl
  · have hinput : resumeInput s = some { s with ctx := { s.ctx with pauseIn := s.ctx.pauseIn && !true } } :=
      resumeInput_ending hend true
    rw [Bool.not_true, Bool.and_false] at hinput
    obtain ⟨input, output⟩ := dir
    obtain rfl : input = true := hin
    obtain rfl : output = true := hout
    refine ((if_neg hj).trans ?_).trans (if_neg (by exact hj)).symm
    rw [if_pos rfl, hinput]

/-! ## `ABORT` (43_transfer_fsm R230) -/

/-- Settles O40: `ABORT` in `Idle`, without both pauses and with both, and its word. -/
theorem abortResult : Obligations.AbortResult := by
  intro s
  refine ⟨fun hi => if_pos hi, fun hj hrunning => ?_, fun hj hin hout => ?_, fun arg => ?_⟩
  · exact (if_neg hj).trans (if_pos (by simpa using hrunning))
  · exact (if_neg hj).trans (if_neg (by simp [hin, hout]))
  · exact decodeCommand_of_encodeCmd rfl rfl trivial rfl

end Sys2Proof.Machine
end

section
/-! A step of `CORE` (O59), and the events that leave the input alone: `EV_ERR` (O42), `EV_HPD` (O43), an `EV_OUT` stopped by a
`Pause` (O48) and `EV_DMA_OUT_CPLT` (O52). -/

namespace Sys2Proof.Machine

open Sys2Proof

-- One proof after the other: side by side they take more threads than the check's memory limit has room for.
set_option Elab.async false

variable {s t : State} {a : CoreAct}

/-! ## A step of `CORE` (43_transfer_fsm R236) -/

/-- What `CORE` may have changed between `s` and `t`, and how. -/
structure CoreLeaves (s t : State) : Prop where
  others : t = { s with ififo := t.ififo, ofifo := t.ofifo, sr := t.sr, hdr := t.hdr, qmem := t.qmem }
  stopped : s.cr.run = false → t = s
  decode : s.ctx.op ≠ some .decode → t.qmem = s.qmem ∧ t.hdr = s.hdr ∧ t.sr.hpdf = s.sr.hpdf
  popped : t.ififo = s.ififo ∨ ∃ w, s.ififo = w :: t.ififo
  pushed : t.ofifo = s.ofifo ∨ s.sr.eocf = false ∧ s.ofifo.length < s.cfg.fifoDepth ∧ ∃ w, t.ofifo = s.ofifo ++ [w]
  eocf : s.sr.eocf = true → t.sr.eocf = true
  hpdf : s.sr.hpdf = true → t.sr.hpdf = true
  errf : s.sr.errf = true → t.sr.errf = true

theorem CoreLeaves.refl (s : State) : CoreLeaves s s where
  others := rfl
  stopped _ := rfl
  decode _ := ⟨rfl, rfl, rfl⟩
  popped := .inl rfl
  pushed := .inl rfl
  eocf := id
  hpdf := id
  errf := id

/-- With the run bit on, what `CORE` keeps does not depend on it. -/
theorem CoreLeaves.of_running (hrun : s.cr.run = true)
    (others : t = { s with ififo := t.ififo, ofifo := t.ofifo, sr := t.sr, hdr := t.hdr, qmem := t.qmem })
    (decode : s.ctx.op = some .decode ∨ t.qmem = s.qmem ∧ t.hdr = s.hdr ∧ t.sr.hpdf = s.sr.hpdf)
    (popped : t.ififo = s.ififo ∨ ∃ w, s.ififo = w :: t.ififo)
    (pushed : t.ofifo = s.ofifo ∨ s.sr.eocf = false ∧ s.ofifo.length < s.cfg.fifoDepth ∧ ∃ w, t.ofifo = s.ofifo ++ [w])
    (flags : (s.sr.eocf = true → t.sr.eocf = true) ∧ (s.sr.hpdf = true → t.sr.hpdf = true) ∧
      (s.sr.errf = true → t.sr.errf = true)) : CoreLeaves s t where
  others := others
  stopped h := absurd hrun (by simp [h])
  decode h := decode.resolve_left h
  popped := popped
  pushed := pushed
  eocf := flags.1
  hpdf := flags.2.1
  errf := flags.2.2

theorem coreStep_allowed (h : coreAllowed a s = true) : coreStep a s = coreDo a s := if_pos h

theorem coreStep_not_allowed (h : coreAllowed a s = false) : coreStep a s = s := if_neg (by simp [h])

/-- Each act, where it is allowed. -/
theorem coreDo_leaves (h : coreAllowed a s = true) : CoreLeaves s (coreDo a s) := by
  obtain ⟨hrun, hact⟩ := Bool.and_eq_true_iff.mp h
  cases a with
  | pop =>
    obtain ⟨w, l, hl⟩ : ∃ w l, s.ififo = w :: l := List.exists_cons_of_ne_nil (by simpa using hact)
    exact .of_running hrun rfl (.inr ⟨rfl, rfl, rfl⟩) (.inr ⟨w, by simp [coreDo, hl]⟩) (.inl rfl) ⟨id, id, id⟩
  | push w =>
    obtain ⟨hroom, heoc⟩ : s.ofifo.length < s.cfg.fifoDepth ∧ s.sr.eocf = false := by simpa using hact
    exact .of_running hrun rfl (.inr ⟨rfl, rfl, rfl⟩) (.inl rfl) (.inr ⟨heoc, hroom, w, rfl⟩) ⟨id, id, id⟩
  | header hdr =>
    have hdec : s.ctx.op = some .decode := of_decide_eq_true (by simp_all)
    exact .of_running hrun rfl (.inl hdec) (.inl rfl) (.inl rfl) ⟨id, fun _ => rfl, id⟩
  | endOfConversion => exact .of_running hrun rfl (.inr ⟨rfl, rfl, rfl⟩) (.inl rfl) (.inl rfl) ⟨fun _ => rfl, id, id⟩
  | error => exact .of_running hrun rfl (.inr ⟨rfl, rfl, rfl⟩) (.inl rfl) (.inl rfl) ⟨id, id, fun _ => rfl⟩
  | writeQmem q w v =>
    have hdec : s.ctx.op = some .decode := of_decide_eq_true (by simp_all)
    exact .of_running hrun rfl (.inl hdec) (.inl rfl) (.inl rfl) ⟨id, id, id⟩

theorem coreStep_leaves (a : CoreAct) (s : State) : CoreLeaves s (coreStep a s) := by
  cases h : coreAllowed a s with
  | true => rw [coreStep_allowed h]; exact coreDo_leaves h
  | false => rw [coreStep_not_allowed h]; exact .refl s

/-! With the run bit on, what each act leaves. -/

theorem coreStep_pop (hrun : s.cr.run = true) : coreStep .pop s = { s with ififo := s.ififo.tail } := by
  cases h : s.ififo with
  | nil =>
    rw [coreStep_not_allowed (by simp [coreAllowed, h])]
    show s = { s with ififo := [] }
    rw [← h]
  | cons w l => rw [coreStep_allowed (by simp [coreAllowed, hrun, h]), coreDo, h]

theorem coreStep_push {w : Word} (hrun : s.cr.run = true) : coreStep (.push w) s =
    if s.ofifo.length < s.cfg.fifoDepth ∧ s.sr.eocf = false then { s with ofifo := s.ofifo ++ [w] } else s := by
  simp [coreStep, coreAllowed, coreDo, hrun]

theorem coreStep_header {h : Hdr} (hrun : s.cr.run = true) : coreStep (.header h) s =
    if s.ctx.op = some .decode ∧ s.sr.hpdf = false ∧ s.cr.ieHpd = true then
      { s with hdr := h, sr := { s.sr with hpdf := true } } else s := by
  simp [coreStep, coreAllowed, coreDo, hrun, and_assoc]

/-- The flag may be set already. -/
theorem coreStep_endOfConversion (hrun : s.cr.run = true) :
    coreStep .endOfConversion s = { s with sr := { s.sr with eocf := true } } := by
  cases h : s.sr.eocf with
  | true =>
    rw [coreStep_not_allowed (by simp [coreAllowed, h])]
    show s = { s with sr := { s.sr with eocf := true } }
    rw [← h]
  | false => exact coreStep_allowed (by simp [coreAllowed, hrun, h])

theorem coreStep_error (hrun : s.cr.run = true) : coreStep .error s = { s with sr := { s.sr with errf := true } } :=
  coreStep_allowed (by simp [coreAllowed, hrun])

theorem coreStep_writeQmem {q w : BitVec 4} {v : Word} (hrun : s.cr.run = true) : coreStep (.writeQmem q w v) s =
    if s.ctx.op = some .decode ∧ q.toNat < s.cfg.nq then { s with qmem := Store.put s.qmem (qmemIndex q w) v } else s := by
  simp [coreStep, coreAllowed, coreDo, hrun]

/-- What `QMEM` reads as after `CORE` has written a word of it. -/
theorem readQmem_put {q w q' w' : BitVec 4} {v : Word} (h : t.qmem = Store.put s.qmem (qmemIndex q w) v) :
    readQmem t q' w' = if q' = q ∧ w' = w then v else readQmem s q' w' :=
  (readQmem_congr (t := s.qWrite q w v) h q' w').trans (readQmem_qWrite s q w q' w' v)

/-- Settles O59: what each act leaves, said for every state, of the state whose input is taken. -/
theorem coreStepResult : Obligations.CoreStep := by
  intro s a rest hin idle
  have hstep : step s = .next (coreStep a idle) := step_core hin
  obtain ⟨hothers, hstopped, hdecode, hpopped, hpushed, heocf, hhpdf, herrf⟩ := coreStep_leaves a idle
  refine ⟨⟨_, hstep, hothers, hstopped, hdecode, hpopped, hpushed, heocf, hhpdf, herrf⟩, fun hrun => ?_⟩
  have hrun' : idle.cr.run = true := hrun
  cases a with
  | pop => rw [hstep, coreStep_pop hrun']
  | push w => rw [hstep, coreStep_push hrun']
  | header h => rw [hstep, coreStep_header hrun']
  | endOfConversion => rw [hstep, coreStep_endOfConversion hrun']
  | error => rw [hstep, coreStep_error hrun']
  | writeQmem q w v =>
    rw [coreStep_writeQmem hrun'] at hstep
    dsimp only
    split
    · next hallowed =>
      rw [if_pos (by exact hallowed)] at hstep
      refine ⟨_, hstep, rfl, (readQmem_put (s := idle) rfl).trans (if_pos ⟨rfl, rfl⟩), fun q' w' hne => ?_⟩
      refine (readQmem_put (s := idle) rfl).trans (if_neg fun heq => ?_)
      exact hne.elim (absurd heq.1) (absurd heq.2)
    · next hforbidden => rw [hstep, if_neg (by exact hforbidden)]

/-! ## `EV_ERR` and `EV_HPD` (43_transfer_fsm R215, R226) -/

theorem notify_of_silent {e : Effect} (h : s.host.notices.head? ≠ some .command) : notify e s = .ok { s with
    trace := s.trace ++ [e]
    host := { s.host with notices := s.host.notices.tail } } :=
  notify_ok.mpr ⟨h, rfl⟩

/-- Settles O42: the job is stopped, then the error is reported. -/
theorem evErrResult : Obligations.EvErrResult :=
  fun s ht hn => takeEvent_of_ok (handler := handleErr) ht (notify_of_silent (s := s.takeTransferError) hn)

theorem headerColor_other {h : Hdr} {old : ColorSpace} (h1 : h.ncomp ≠ 1#3) (h3 : h.ncomp ≠ 3#3) (h4 : h.ncomp ≠ 4#3) :
    headerColor h old = old := by
  rw [headerColor, if_neg h1, if_neg h3, if_neg h4]

theorem headerChroma_other {h : Hdr} (h3 : h.ncomp ≠ 3#3) (h4 : h.ncomp ≠ 4#3) : headerChroma h = .c444 := by
  simp [headerChroma, h3, h4]

theorem headerChroma_of_chroma {h : Hdr} (hc : h.ncomp = 3#3 ∨ h.ncomp = 4#3) : headerChroma h =
    if (h.nb0, h.nb1, h.nb2) = (2#4, 1#4, 1#4) then .c422
    else if (h.nb0, h.nb1, h.nb2) = (4#4, 1#4, 1#4) then .c420 else .c444 := by
  simp only [headerChroma, hc, true_and, Prod.mk.injEq]

/-- Settles O43: `INFO` from the header inputs, then `INFO_READY`. -/
theorem evHpdResult : Obligations.EvHpdResult := by
  intro s ht hn
  have hok : handleHpd s = _ := notify_of_silent (by exact hn)
  refine ⟨headerInfo s.hdr s.info, takeEvent_of_ok ht hok, rfl, rfl, rfl, fun h1 => ?_, fun h3 => ?_,
    fun h4 => ?_, fun h1 h3 h4 => ?_, headerChroma_of_chroma⟩
  · exact ⟨if_pos h1, headerChroma_other (by simp [h1]) (by simp [h1])⟩
  · simp [headerInfo, headerColor, h3]
  · simp [headerInfo, headerColor, h4]
  · exact ⟨headerColor_other h1 h3 h4, headerChroma_other h3 h4⟩

/-! ## `EV_OUT` with a `DRAIN` answered with `Pause` (43_transfer_fsm R219, R237) -/

theorem pauseOutput_fifo (hf : s.ctx.fifoMethod = true) : s.pauseOutput = { s with
    ctx := { s.ctx with pauseOut := true }
    cr := { s.cr with ieOft := false, ieOfne := false, ieEoc := false } } := by
  simp [State.pauseOutput, hf]

/-- The last word of a full output buffer. -/
theorem OutReady.off_of_full (hr : OutReady s.desc) (hfull : s.desc.outOff + 4#32 = s.desc.outLen) :
    s.desc.outOff.toNat + 4 = s.desc.outLen.toNat := by
  have hoff := hr.off
  have hlen : (s.desc.outOff.toNat + 4) % 2 ^ 32 = s.desc.outLen.toNat := by
    rw [← hfull, BitVec.toNat_add]
    rfl
  obtain ⟨hwords, hoffWords⟩ := hr.words
  omega

/-- The words that are left are those not moved. -/
theorem OutMoved.fifo_drop {n : Nat} (h : OutMoved s t (s.ofifo.take n)) : t.ofifo = s.ofifo.drop n :=
  List.append_cancel_left (h.fifo.symm.trans (List.take_append_drop n s.ofifo).symm)

/-- `EV_OUT` moves a word at least. -/
theorem outCount_pos (s : State) : ∃ n, outCount s = n + 1 := by
  rw [outCount_eq]
  split
  · exact ⟨7, rfl⟩
  · exact ⟨0, rfl⟩

/-- `EV_OUT` whose first word fills the buffer, the `DRAIN` answered with `Pause`. -/
theorem handleOut_pauses_first {w : Word} {words : List Word} {host : HostSide} (hr : OutReady s.desc)
    (hp : s.ctx.pauseOut = false) (hc : s.host.pausesAfter 0 host) (hw : s.ofifo = w :: words)
    (hfull : s.desc.outOff + 4#32 = s.desc.outLen) :
    let m := writeBytes s.hmem (s.desc.outAddr.toNat + s.desc.outOff.toNat) (bytesOfWord w)
    handleOut s = .ok { s.pauseOutput with
      hmem := m
      ofifo := words
      desc := { s.desc with outOff := 0#32 }
      trace := s.trace ++ [.drain s.desc.outAddr s.desc.outLen (readBytes m s.desc.outAddr.toNat s.desc.outLen.toNat)]
      host := host } := by
  intro m
  obtain ⟨n, hn⟩ := outCount_pos s
  have hstore := (storeWord_eq (w := w) (rest := words) hr).trans (if_pos (hr.off_of_full hfull))
  rw [drainFull_pauses (by exact hc)] at hstore
  rw [handleOut, hn, storeWords_cons hp hw hstore, storeWords_paused rfl]
  rfl

/-- Settles O48: a `Pause` at the first word of the burst, and at any word of it. -/
theorem evOutPauses : Obligations.EvOutPauses := by
  intro s hi ht masked
  have he := eligible_of_taken ht
  have hj := running_of_eligible hi he
  have hr := outReady_of_inv hi hj
  obtain ⟨hm, -, hp, -⟩ := eligible_out.mp he
  have hpause := pauseOutput_fifo (fifoMethod_iff.mpr hm)
  refine ⟨fun w words replies hout hreplies hw hfull => ?_, fun host k n hc hlen hn hk => ?_⟩
  · intro addr hmem
    have hok := handleOut_pauses_first hr hp (host := { s.host with drainReplies := replies }) ⟨hout, replies, hreplies, rfl⟩
      hw hfull
    rw [hpause] at hok
    exact takeEvent_of_ok ht hok
  · rw [← outCount_eq] at hn
    obtain ⟨t, hok, hmoved, hframe, hoff⟩ := storeWords_pauses hp hr hn hlen hk hc
    refine ⟨_, takeEvent_of_ok ht hok, SavesOthers.of_outside hj hmoved.outside, ?_⟩
    rw [hpause, answered, hoff, hmoved.fifo_drop, hmoved.effects] at hframe
    exact congrArg (fun v : State => { v with lastEvent := .taken .out }) hframe

/-! ## `EV_DMA_OUT_CPLT` (43_transfer_fsm R224) -/

/-- `DOUT` after a block that was drained with `Continue`. -/
def nextOutBlock (s : State) : Dma :=
  if s.ctx.pauseOut = false ∧ s.ctx.ending = false ∧ s.cr.run = true then
    { s.dout with
      cplt := false, addr := s.desc.outAddr
      len := BitVec.ofNat 32 (roundDown s.desc.outLen.toNat s.cfg.granOut)
      done := 0#32, busy := true }
  else { s.dout with cplt := false, done := 0#32 }

/-- The `DRAIN` of a block of `DOUT`. -/
def blockDrain (s : State) : Effect :=
  .drain s.desc.outAddr s.dout.len (readBytes s.hmem s.desc.outAddr.toNat s.dout.len.toNat)

theorem handleDmaOutCplt_continues {host : HostSide} (hc : s.host.continues 1 host) : handleDmaOutCplt s = .ok { s with
    trace := s.trace ++ [blockDrain s]
    desc := { s.desc with outOff := 0#32 }
    dout := nextOutBlock s
    host := host } := by
  have hdrain := drain_continues (addr := s.desc.outAddr) (len := s.dout.len)
    (s := { s with dout := { s.dout with cplt := false } }) (by exact hc)
  rw [handleDmaOutCplt, hdrain]
  by_cases hnext : s.ctx.pauseOut = false ∧ s.ctx.ending = false ∧ s.cr.run = true
  · rw [nextOutBlock, if_pos hnext]
    obtain ⟨hp, hend, hrun⟩ := hnext
    simp [bind, Except.bind, pure, Except.pure, State.emit, State.primeOut, blockDrain, hp, hend, hrun]
  · rw [nextOutBlock, if_neg hnext]
    have hnext' : (!s.ctx.pauseOut && !s.ctx.ending && s.cr.run) = false := by simpa [and_assoc] using hnext
    simp [bind, Except.bind, pure, Except.pure, State.emit, blockDrain, hnext']

/-- The sources of the output are off in method DMA, so the pause masks none. -/
theorem handleDmaOutCplt_pauses {host : HostSide} (hd : s.ctx.dmaMethod = true) (hc : s.host.pausesAfter 0 host) :
    handleDmaOutCplt s = .ok { s with
      trace := s.trace ++ [blockDrain s]
      desc := { s.desc with outOff := 0#32 }
      dout := { s.dout with cplt := false, done := 0#32 }
      ctx := { s.ctx with pauseOut := true }
      host := host } := by
  have hdrain := drain_pauses (addr := s.desc.outAddr) (len := s.dout.len)
    (s := { s with dout := { s.dout with cplt := false } }) (by exact hc)
  rw [handleDmaOutCplt, hdrain]
  simp [bind, Except.bind, pure, Except.pure, State.emit, State.pauseOutput, not_fifo_of_dma hd, blockDrain]

/-- Settles O52: the manager and a host outside the block, which may pause the output. -/
theorem evDmaOutCpltResult : Obligations.EvDmaOutCpltResult := by
  intro s ht drained next
  have hd := dmaMethod_iff.mpr (eligible_dmaOutCplt.mp (eligible_of_taken ht)).1
  refine ⟨fun hm => ?_, fun replies hm hreplies => ?_, fun replies hm hreplies => ?_⟩
  · exact takeEvent_of_ok ht (handleDmaOutCplt_continues (HostSide.continues_of_managed 1 hm))
  · have hc : s.host.continues 1 { s.host with drainReplies := replies } := by
      rw [HostSide.continues, if_neg (by simp [hm])]
      exact ⟨replies, hreplies, rfl⟩
    exact takeEvent_of_ok ht (handleDmaOutCplt_continues hc)
  · exact takeEvent_of_ok ht (handleDmaOutCplt_pauses hd ⟨hm, replies, hreplies, rfl⟩)

end Sys2Proof.Machine
end

section
/-! `EV_DMA_IN_CPLT` (O51, 43_transfer_fsm R223): the reply to its `REFILL`, from a host outside the block and from the Streaming
Buffer Manager, and the next block. -/

namespace Sys2Proof.Machine

open Sys2Proof

-- One proof after the other: side by side they take more threads than the check's memory limit has room for.
set_option Elab.async false

variable {s : State} {addr len : Word} {sb : StreamBuffers} {replies : List RefillReply}

/-- The block that `DIN` has moved is accounted for: its bytes are taken from the input buffer. -/
def State.blockTaken (s : State) : State :=
  { s with din := { s.din with cplt := false }, desc := { s.desc with inOff := s.desc.inOff + s.din.len } }

/-- `EV_DMA_IN_CPLT` ends in a pause of the input with an empty buffer at `addr`. -/
def dmaInPaused (s : State) (addr : Word) (sb : StreamBuffers) (replies : List RefillReply) : State :=
  { refillAsked s.blockTaken sb replies with
    desc := { s.desc with inAddr := addr, inLen := 0#32, inOff := 0#32 }
    ctx := { s.ctx with pauseIn := true } }

/-- `DIN` with the first block of a new buffer, unless the input is paused or the job is ending. -/
def firstInBlock (s : State) (addr len : Word) : Dma :=
  if s.ctx.pauseIn = false ∧ s.ctx.ending = false ∧ s.cr.run = true then
    { s.din with
      cplt := false, addr := addr, len := BitVec.ofNat 32 (primeLen len.toNat s.cfg.granIn), done := 0#32, busy := true }
  else { s.din with cplt := false }

/-- `EV_DMA_IN_CPLT` ends with the new buffer active. -/
def dmaInSupplied (s : State) (addr len : Word) (sb : StreamBuffers) (replies : List RefillReply) : State :=
  { refillAsked s.blockTaken sb replies with
    desc := { s.desc with inAddr := addr, inLen := len, inOff := 0#32 }
    din := firstInBlock s addr len }

/-- `DoPause(Input)` masks nothing in method DMA. -/
theorem pauseInput_dma (hd : s.ctx.dmaMethod = true) : s.pauseInput = { s with ctx := { s.ctx with pauseIn := true } } := by
  simp [State.pauseInput, not_fifo_of_dma hd]

theorem handleDmaInCplt_pause (hd : s.ctx.dmaMethod = true)
    (hr : refillAnswer s.blockTaken = (.pause, refillAsked s.blockTaken sb replies)) :
    handleDmaInCplt s = .ok (dmaInPaused s s.desc.inAddr sb replies) := by
  have hrefill := refill_of_pause hr
  rw [pauseInput_dma (by exact hd)] at hrefill
  exact bind_eq_ok.mpr ⟨_, hrefill, rfl⟩

theorem handleDmaInCplt_bad {v : State} {f : Fault} (hr : refillAnswer s.blockTaken = (.supply addr len, v))
    (hf : inputFault { v with desc := { v.desc with inAddr := addr, inLen := len, inOff := 0#32 } } = some f) :
    handleDmaInCplt s = .error f := by
  have hrefill := refill_of_bad hr hf
  unfold State.blockTaken at hrefill
  rw [handleDmaInCplt, hrefill]
  rfl

/-- A `Supply` that passes the tests: of length 0 it is a pause. -/
theorem handleDmaInCplt_supply (hd : s.ctx.dmaMethod = true)
    (hr : refillAnswer s.blockTaken = (.supply addr len, refillAsked s.blockTaken sb replies))
    (hp : inputFault { s with desc := { s.desc with inAddr := addr, inLen := len, inOff := 0#32 } } = none) :
    handleDmaInCplt s = .ok (if len = 0#32 then dmaInPaused s addr sb replies else dmaInSupplied s addr len sb replies) := by
  have hrefill := refill_of_supply hr (by exact hp)
  dsimp only at hrefill
  by_cases hl : len = 0#32
  · rw [if_pos hl, pauseInput_dma (by exact hd), hl] at hrefill
    rw [if_pos hl]
    exact bind_eq_ok.mpr ⟨_, hrefill, rfl⟩
  · have hpos : 0 < len.toNat := Nat.pos_of_ne_zero fun h => hl (BitVec.eq_of_toNat_eq h)
    rw [if_neg hl] at hrefill ⊢
    refine bind_eq_ok.mpr ⟨_, hrefill, ?_⟩
    by_cases hnext : s.ctx.pauseIn = false ∧ s.ctx.ending = false ∧ s.cr.run = true
    · rw [dmaInSupplied, firstInBlock, if_pos hnext]
      obtain ⟨hpause, hend, hrun⟩ := hnext
      simp [pure, Except.pure, refillAsked, State.blockTaken, State.primeIn, hpause, hend, hrun, hpos]
    · rw [dmaInSupplied, firstInBlock, if_neg hnext]
      have hnext' : (!s.ctx.pauseIn && !s.ctx.ending && s.cr.run) = false := by simpa [and_assoc] using hnext
      simp [pure, Except.pure, refillAsked, State.blockTaken, hnext']

/-- The rest of a streaming buffer in its job, from a word offset on, passes the tests of 43_transfer_fsm R218. -/
theorem streamBuffer_rest_passes (hi : Inv s) (hj : s.fsm ≠ .idle) (i : BufIdx) {taken : Word}
    (hlt : taken.toNat < (s.sb.buf i).len.toNat) (hword : taken.toNat % 4 = 0) :
    inputFault { s with desc := { s.desc with
      inAddr := sbAddr s.cfg i + taken, inLen := (s.sb.buf i).len - taken, inOff := 0#32 } } = none := by
  have hspace := (streamBuffer_space hi i).1
  have hlen := streamBuffer_len hi i
  have hmax := (s.sb.buf i).len.isLt
  refine (streamBuffer_passes hi hj (i := i) (off := taken.toNat) ?_ ?_ fun _ => hword).2 _ rfl rfl rfl
  · simp only [Config.hostSpace] at hspace
    rw [BitVec.toNat_add]
    omega
  · rw [BitVec.toNat_sub]
    omega

/-- A whole streaming buffer passes them too. -/
theorem streamBuffer_whole_passes (hi : Inv s) (hj : s.fsm ≠ .idle) (i : BufIdx) :
    inputFault { s with desc := { s.desc with
      inAddr := sbAddr s.cfg i, inLen := (s.sb.buf i).len, inOff := 0#32 } } = none := by
  have hlen := streamBuffer_len hi i
  exact (streamBuffer_passes hi hj (i := i) (off := 0) rfl (by omega) fun _ => rfl).2 _ rfl rfl rfl

/-- Settles O51: each reply of the host, and each case of the manager. -/
theorem evDmaInCpltResult : Obligations.EvDmaInCpltResult := by
  intro s ht off paused supplied passes
  have he := eligible_of_taken ht
  have hd := dmaMethod_iff.mpr (eligible_dmaInCplt.mp he).1
  refine ⟨fun replies hm hr => ?_, fun replies addr len hm hr hp => ?_, fun addr len f hr hf => ?_, fun hi hm => ?_⟩
  · exact takeEvent_of_ok ht (handleDmaInCplt_pause hd (refillAnswer_outside hm hr))
  · refine (takeEvent_of_ok ht (handleDmaInCplt_supply hd (refillAnswer_outside hm hr) hp)).trans ?_
    split <;> rfl
  · have hreply : (refillAnswer s.blockTaken).1 = .supply addr len :=
      (refillReply_congr (s := s) (t := s.blockTaken.emit (.refill off)) rfl rfl rfl rfl).trans hr
    refine takeEvent_of_error ht (handleDmaInCplt_bad (v := (refillAnswer s.blockTaken).2) (Prod.ext hreply rfl) ?_)
    rw [refillAnswer, refillReply_frame]
    exact hf
  · intro taken rd cur other flipped
    have hj := running_of_eligible hi he
    refine ⟨fun hlt hword => ?_, fun hle hfull hne => ?_, fun hle hempty => ?_⟩
    · have hne : cur.len - taken ≠ 0#32 := fun h0 => by
        rw [sub_eq_zero.mp h0] at hlt
        exact Nat.lt_irrefl _ hlt
      refine takeEvent_of_ok ht ((handleDmaInCplt_supply hd (refillAnswer_rest (s := s.blockTaken) hm hlt)
        (streamBuffer_rest_passes hi hj rd hlt hword)).trans (congrArg _ (if_neg hne)))
    · exact takeEvent_of_ok ht ((handleDmaInCplt_supply hd
        (refillAnswer_other (s := s.blockTaken) hm (Nat.not_lt.mpr hle) hfull)
        (streamBuffer_whole_passes hi hj rd.flip)).trans (congrArg _ (if_neg hne)))
    · exact takeEvent_of_ok ht (handleDmaInCplt_pause hd
        (refillAnswer_wait (s := s.blockTaken) hm (Nat.not_lt.mpr hle) hempty))

end Sys2Proof.Machine
end

section
/-! The second atomic step of `SBFILL` (O56, 44_stream_buffers R273): the hand-over of the filled buffer and what the input resumes
with. -/

namespace Sys2Proof.Machine

open Sys2Proof

-- One proof after the other: side by side they take more threads than the check's memory limit has room for.
set_option Elab.async false

variable {s t u v : State} {i : BufIdx}

/-! ## `DoResume(Input)` of a paused input (43_transfer_fsm R231) -/

theorem resumeInput_fifo_paused (hp : s.ctx.pauseIn = true) (hend : s.ctx.ending = false) (hf : s.ctx.fifoMethod = true) :
    resumeInput s = some { s with
      ctx := { s.ctx with pauseIn := false }
      cr := { s.cr with ieIft := true, ieIfnf := true } } := by
  simpa [hp] using resumeInput_fifo hend hf true

/-- With a block in flight, the flag alone. -/
theorem resumeInput_dma_paused (hp : s.ctx.pauseIn = true) (hend : s.ctx.ending = false) (hd : s.ctx.dmaMethod = true)
    (hdata : s.desc.inOff ≠ s.desc.inLen) (hb : s.din.busy = true ∨ s.din.cplt = true) :
    resumeInput s = some { s with ctx := { s.ctx with pauseIn := false } } := by
  have hflight : ¬ (s.din.busy = false ∧ s.din.cplt = false) := by simpa [← Bool.not_eq_true, imp_iff_not_or] using hb
  simpa [hp, hflight] using resumeInput_dma hend hd (b := true) fun _ => hdata

/-- With `DIN` idle, the flag and the next block. -/
theorem resumeInput_dma_primes (hp : s.ctx.pauseIn = true) (hend : s.ctx.ending = false) (hd : s.ctx.dmaMethod = true)
    (hdata : s.desc.inOff ≠ s.desc.inLen) (hb : s.din.busy = false ∧ s.din.cplt = false) :
    resumeInput s = some { s with ctx := { s.ctx with pauseIn := false }, din := s.primeIn.din } := by
  simpa [hp, hb] using resumeInput_dma hend hd (b := true) fun _ => hdata

theorem resumeInput_ending_paused (hp : s.ctx.pauseIn = true) (hend : s.ctx.ending = true) :
    resumeInput s = some { s with ctx := { s.ctx with pauseIn := false } } := by
  simpa [hp] using resumeInput_ending hend true

/-- Where a descriptor of method DMA has data, the input is resumed, and no error is raised. -/
theorem resumeInput_of_data (hdata : s.ctx.pauseIn = true → s.ctx.dmaMethod = true → s.desc.inOff ≠ s.desc.inLen) :
    ∃ v, resumeInput s = some v ∧ v.lastError = s.lastError := by
  by_cases hp : s.ctx.pauseIn = true
  · by_cases hend : s.ctx.ending = true
    · exact ⟨_, resumeInput_ending_paused hp hend, rfl⟩
    · rw [Bool.not_eq_true] at hend
      by_cases hd : s.ctx.dmaMethod = true
      · exact ⟨_, (if_pos rfl).symm.trans (resumeInput_dma hend hd (b := true) fun _ => hdata hp hd), rfl⟩
      · by_cases hf : s.ctx.fifoMethod = true
        · exact ⟨_, resumeInput_fifo_paused hp hend hf, rfl⟩
        · exact ⟨{ s with ctx := { s.ctx with pauseIn := false } }, by simp [resumeInput, hp, hend, hd, hf], rfl⟩
  · exact ⟨s, resumeInput_running (Bool.not_eq_true _ ▸ hp), rfl⟩

/-! ## The step (44_stream_buffers R273) -/

/-- The `SBFILL` in progress is over. -/
def State.fillDone (s : State) : State := { s with sb := { s.sb with filling := none } }

/-- What the task context does in the second step. -/
theorem step_fill (hk : s.sb.filling = some i) (hin : s.inputs = []) : step s = sbfillStep2 i s :=
  step_of_outcome (by rw [fetch, hin]; dsimp only; rw [taskIdle, hk])

theorem sbAwaits_iff : sbAwaits i s = true ↔ s.sb.wait = true ∧ s.sb.rd = i ∧ s.fsm ≠ .idle := by
  simp [sbAwaits, and_assoc]

theorem sbfillStep2_unawaited (h : sbAwaits i s = false) : sbfillStep2 i s = returnOk 0#32 s.fillDone :=
  if_pos (c := (!sbAwaits i s) = true) (by simp [h])

/-- Awaited, the step ends as its `DoResume(Input)` does. -/
theorem sbfillStep2_awaited (h : sbAwaits i s = true) (ht : sbTakeBuffer i s.fillDone = .ok u) : sbfillStep2 i s =
    match resumeInput u with
    | some v => returnOk 0#32 v
    | none => raiseError .invalidArgument s.fillDone := by
  refine (if_neg (c := (!sbAwaits i s) = true) (by simp [h])).trans ?_
  unfold State.fillDone at ht
  rw [ht]
  rfl

theorem sbfillStep2_resumes (h : sbAwaits i s = true) (ht : sbTakeBuffer i s.fillDone = .ok u)
    (hv : resumeInput u = some v) : sbfillStep2 i s = returnOk 0#32 v := by
  rw [sbfillStep2_awaited h ht, hv]

theorem sbfillStep2_empty (h : sbAwaits i s = true) (ht : sbTakeBuffer i s.fillDone = .ok u)
    (hv : resumeInput u = none) : sbfillStep2 i s = raiseError .invalidArgument s.fillDone := by
  rw [sbfillStep2_awaited h ht, hv]

theorem sbfillStep2_bad {f : Fault} (h : sbAwaits i s = true) (ht : sbTakeBuffer i s.fillDone = .error f) :
    sbfillStep2 i s = .fault f := by
  refine (if_neg (c := (!sbAwaits i s) = true) (by simp [h])).trans ?_
  unfold State.fillDone at ht
  rw [ht]

/-- Where a `WRD` of the descriptor would be `Busy`, it is left alone. -/
theorem sbTakeBuffer_kept (hw : inputWritable s = false) : sbTakeBuffer i s = .ok { s with sb := { s.sb with wait := false } } :=
  if_neg (by simp [hw])

theorem sbTakeBuffer_handed (hw : inputWritable s = true) (hf : inputFault (sbHandOver i s) = none) :
    sbTakeBuffer i s = .ok (sbHandOver i s) := by
  rw [sbTakeBuffer, if_pos hw, hf]

theorem sbTakeBuffer_bad {f : Fault} (hw : inputWritable s = true) (hf : inputFault (sbHandOver i s) = some f) :
    sbTakeBuffer i s = .error f := by
  rw [sbTakeBuffer, if_pos hw, hf]

/-- Under the invariant the step completes: the filled buffer passes the tests and is not empty, and a block in flight is one of a
descriptor with data (60_exceptions R292). -/
theorem sbfillStep2_completes (hi : Inv s) (hk : s.sb.filling = some i) :
    ∃ t, sbfillStep2 i s = .next t ∧ t.response = some { status := 0#8, data := 0#32 } ∧ t.lastError = s.lastError := by
  by_cases ha : sbAwaits i s = true
  · obtain ⟨-, -, hj⟩ := sbAwaits_iff.mp ha
    obtain ⟨u, hu, herr, hdata⟩ : ∃ u, sbTakeBuffer i s.fillDone = .ok u ∧ u.lastError = s.lastError ∧
        (u.ctx.pauseIn = true → u.ctx.dmaMethod = true → u.desc.inOff ≠ u.desc.inLen) := by
      by_cases hw : inputWritable s.fillDone = true
      · have hpass : inputFault (sbHandOver i s.fillDone) = none := streamBuffer_whole_passes hi hj i
        exact ⟨_, sbTakeBuffer_handed hw hpass, rfl, fun _ _ => (hi.streams.filled i hk).symm⟩
      · rw [Bool.not_eq_true] at hw
        refine ⟨_, sbTakeBuffer_kept hw, rfl, fun hp hd => hi.engines.din_data hd ?_⟩
        by_contra hfree
        rw [not_or, Bool.not_eq_true, Bool.not_eq_true] at hfree
        exact Bool.eq_false_iff.mp hw ((inputWritable_job (by exact hj)).mpr ⟨hp, hfree⟩)
    obtain ⟨v, hv, hverr⟩ := resumeInput_of_data hdata
    exact ⟨_, sbfillStep2_resumes ha hu hv, rfl, hverr.trans herr⟩
  · exact ⟨_, sbfillStep2_unawaited (Bool.not_eq_true _ ▸ ha), rfl, rfl⟩

/-- Settles O56: not awaited, with the descriptor left alone, with a bad buffer and with the buffer handed over. -/
theorem sbfillSecondStep : Obligations.SbfillSecondStep := by
  intro s i hk hin ok quiet handed kept noData
  rw [step_fill hk hin]
  refine ⟨fun h => ?_, fun hi => sbfillStep2_completes hi hk, fun hwait hrd hj => ?_⟩
  · have hno : ¬ (s.sb.wait = true ∧ s.sb.rd = i ∧ s.fsm ≠ .idle) := fun ⟨hwait, hrd, hj⟩ =>
      h.elim (fun h => by simp [h] at hwait) fun h => h.elim (absurd hrd) (absurd · hj)
    exact sbfillStep2_unawaited (Bool.not_eq_true _ ▸ mt sbAwaits_iff.mp hno)
  have ha : sbAwaits i s = true := sbAwaits_iff.mpr ⟨hwait, hrd, hj⟩
  have hwritable : inputWritable s.fillDone = true ↔ quiet := inputWritable_job hj
  have hkept (hq : ¬ quiet) := sbTakeBuffer_kept (i := i) (Bool.not_eq_true _ ▸ mt hwritable.mp hq)
  refine ⟨fun hp => ?_, fun hp hb => ?_, fun f hq hf => ?_, fun hq hf => ?_⟩
  · have hflag : s.ctx = { s.ctx with pauseIn := false } := by rw [← hp]
    refine (sbfillStep2_resumes ha (hkept fun hq => ?_) (resumeInput_running (by exact hp))).trans ?_
    · exact absurd hq.1 (by simp [hp])
    · exact congrArg (fun c => Host.Outcome.next { kept with ctx := c }) hflag
  · have htake := hkept fun hq => hb.elim (by simp [hq.2.1]) (by simp [hq.2.2])
    refine ⟨fun hend hf => ?_, fun hend hd hdata => ?_, fun hend hd hdata => ?_, fun hend => ?_⟩
    · exact sbfillStep2_resumes ha htake (resumeInput_fifo_paused (by exact hp) (by exact hend) (by exact hf))
    · exact sbfillStep2_resumes ha htake
        (resumeInput_dma_paused (by exact hp) (by exact hend) (by exact hd) (by exact hdata) (by exact hb))
    · exact sbfillStep2_empty ha htake (resumeInput_empty (by exact hend) (by exact hd) (by exact hp) (by exact hdata))
    · exact sbfillStep2_resumes ha htake (resumeInput_ending_paused (by exact hp) (by exact hend))
  · exact sbfillStep2_bad ha (sbTakeBuffer_bad (hwritable.mpr hq) hf)
  · have htake : sbTakeBuffer i s.fillDone = .ok (sbHandOver i s.fillDone) :=
      sbTakeBuffer_handed (hwritable.mpr hq) hf
    obtain ⟨hp, hfree⟩ := hq
    refine ⟨fun hend hf => ?_, fun hend hd hdata => ?_, fun hend hd hdata => ?_, fun hend => ?_⟩
    · exact sbfillStep2_resumes ha htake (resumeInput_fifo_paused (by exact hp) (by exact hend) (by exact hf))
    · refine (sbfillStep2_resumes ha htake
        (resumeInput_dma_primes (by exact hp) (by exact hend) (by exact hd) (by exact hdata.symm) (by exact hfree))).trans ?_
      simp only [sbHandOver, State.primeIn, BitVec.add_zero]
      rfl
    · exact sbfillStep2_empty ha htake (resumeInput_empty (by exact hend) (by exact hd) (by exact hp) (by exact hdata.symm))
    · exact sbfillStep2_resumes ha htake (resumeInput_ending_paused (by exact hp) (by exact hend))

end Sys2Proof.Machine
end

section
/-! `POLL` (O39, 43_transfer_fsm R229): its pass event by event, and under the Streaming Buffer Manager what the input, the output
and the end of the job each make of it. -/

namespace Sys2Proof.Machine

open Sys2Proof

-- One proof after the other: side by side they take more threads than the check's memory limit has room for.
set_option Elab.async false

variable {s t u a b c d : State}

/-! ## The pass -/

/-- The event `e` of a pass in the state `s` leaves `t`: its handler's outcome where it is eligible, else `s` itself. -/
def PollRan (e : Event) (handler : State → Except Fault State) (s t : State) : Prop :=
  if eligible e s = true then handler s = .ok t else t = s

theorem pollEvent_ran {e : Event} {handler : State → Except Fault State} (h : PollRan e handler s t) (data : Word) :
    pollEvent e handler (data, s) = .ok (data ||| bitAt (eligible e s) e.code, t) := by
  unfold PollRan at h
  by_cases he : eligible e s = true
  · rw [if_pos he] at h
    exact (if_pos he).trans (bind_eq_ok.mpr ⟨t, h, by rw [he]; rfl⟩)
  · rw [if_neg he] at h
    rw [Bool.not_eq_true] at he
    refine (if_neg (by simp [he])).trans ?_
    rw [h, he]
    exact congrArg (fun w => Except.ok (w, s)) (BitVec.or_zero).symm

theorem PollRan.skipped {e : Event} {handler : State → Except Fault State} (h : eligible e s = false) :
    PollRan e handler s s := by
  rw [PollRan, if_neg (by simp [h])]

theorem pollEvent_skips {e : Event} {handler : State → Except Fault State} {p : Word × State}
    (h : eligible e p.2 = false) : pollEvent e handler p = .ok p :=
  if_neg (by simp [h])

theorem pollEvent_runs {e : Event} {handler : State → Except Fault State} {p : Word × State} (he : eligible e p.2 = true)
    (h : handler p.2 = .ok t) : pollEvent e handler p = .ok (p.1 ||| bitAt true e.code, t) :=
  (if_pos he).trans (bind_eq_ok.mpr ⟨t, h, rfl⟩)

theorem pollEvent_faults {e : Event} {handler : State → Except Fault State} {p : Word × State} {f : Fault}
    (he : eligible e p.2 = true) (h : handler p.2 = .error f) : pollEvent e handler p = .error f :=
  (if_pos he).trans (bind_eq_error.mpr (.inl h))

/-- The `DATA` of `POLL`: the events of the pass that ran. -/
def pollData (hpd inp out eoc : Bool) : Word := bitAt hpd 2 ||| bitAt inp 3 ||| bitAt out 4 ||| bitAt eoc 5

theorem pollPass_ran (herr : eligible .err s = false) (ha : PollRan .hpd handleHpd s a) (hb : PollRan .inp handleIn a b)
    (hc : PollRan .out handleOut b c) (hd : PollRan .eoc handleEoc c d) :
    pollPass s = .ok (pollData (eligible .hpd s) (eligible .inp a) (eligible .out b) (eligible .eoc c), d) := by
  refine bind_eq_ok.mpr ⟨_, pollEvent_skips herr, bind_eq_ok.mpr ⟨_, pollEvent_ran ha _, bind_eq_ok.mpr ⟨_, pollEvent_ran hb _,
    bind_eq_ok.mpr ⟨_, pollEvent_ran hc _, (pollEvent_ran hd _).trans ?_⟩⟩⟩⟩
  rw [BitVec.zero_or]
  rfl

/-- A transfer error ends the job, and with it the pass. -/
theorem pollPass_err (herr : eligible .err s = true) (ht : handleErr s = .ok t) : pollPass s = .ok (2#32, t) := by
  have hnone := not_eligible_of_no_method (handleErr_method ht)
  have hdata : (0#32 ||| bitAt true Event.err.code : Word) = 2#32 := by decide
  rw [← hdata]
  exact bind_eq_ok.mpr ⟨_, pollEvent_runs herr ht, bind_eq_ok.mpr ⟨_, pollEvent_skips (hnone _), bind_eq_ok.mpr ⟨_,
    pollEvent_skips (hnone _), bind_eq_ok.mpr ⟨_, pollEvent_skips (hnone _), pollEvent_skips (hnone _)⟩⟩⟩⟩

/-- A fault of `EV_IN` ends the pass. -/
theorem pollPass_in_faults {f : Fault} (herr : eligible .err s = false) (ha : PollRan .hpd handleHpd s a)
    (he : eligible .inp a = true) (hf : handleIn a = .error f) : pollPass s = .error f :=
  bind_eq_error.mpr (.inr ⟨_, pollEvent_skips herr, bind_eq_error.mpr (.inr ⟨_, pollEvent_ran ha _,
    bind_eq_error.mpr (.inl (pollEvent_faults he hf))⟩)⟩)

theorem execPoll_ok {p : Word × State} (hm : s.ctx.method = some .poll) (h : pollPass s = .ok p) :
    execPoll s = returnOk p.1 p.2 := by
  rw [execPoll, if_neg (not_not.mpr hm), h]

theorem execPoll_error {f : Fault} (hm : s.ctx.method = some .poll) (h : pollPass s = .error f) :
    execPoll s = .fault f := by
  rw [execPoll, if_neg (not_not.mpr hm), h]

/-! ## `EV_HPD` -/

/-- The state after the first event of a pass whose host issues no command. -/
def State.headerPolled (s : State) : State :=
  if eligible .hpd s = true then { s with
    info := headerInfo s.hdr s.info
    cr := { s.cr with ieHpd := false }
    sr := { s.sr with hpdf := false }
    trace := s.trace ++ [.infoReady]
    host := { s.host with notices := s.host.notices.tail } }
  else s

theorem pollRan_headerPolled (hn : s.host.notices.head? ≠ some .command) : PollRan .hpd handleHpd s s.headerPolled := by
  unfold PollRan State.headerPolled
  split
  · exact notify_of_silent (by exact hn)
  · rfl

theorem PollRan.hpdLeaves (h : PollRan .hpd handleHpd s a) : HpdLeaves s a := by
  unfold PollRan at h
  split at h
  · next he => exact handleHpd_leaves he h
  · rw [h]; exact .refl s

/-! ## `EV_IN` under the manager (43_transfer_fsm R217, R218, R238) -/

/-- What the manager supplies to a used-up input buffer is nothing, or a buffer without bytes. -/
def Starved (s : State) : Prop :=
  s.desc.inOff = s.desc.inLen ∧ ∀ addr len, (managerRefill s.desc.inOff s).1 = .supply addr len → len = 0#32

/-- `Refill()` in the state `a` of a pass that began in `s`, with this reply, leaves `u`. -/
def RefilledBy (s a : State) (r : RefillReply × State) (u : State) : Prop :=
  let hold : Ctx := { s.ctx with pauseIn := true }
  let mask : Cr := { a.cr with ieIft := false, ieIfnf := false }
  (r.1 = .pause ∧ u = { r.2 with desc := { s.desc with inLen := 0#32, inOff := 0#32 }, ctx := hold, cr := mask }) ∨
  (∃ addr len, r.1 = .supply addr len ∧
    let supplied : State := { r.2 with desc := { s.desc with inAddr := addr, inLen := len, inOff := 0#32 } }
    u = if len = 0#32 then { supplied with ctx := hold, cr := mask } else supplied)

/-- The manager's reply in the state `a`. -/
def pollReply (s a : State) : RefillReply × State :=
  managerRefill s.desc.inOff { a with trace := a.trace ++ [.refill s.desc.inOff] }

/-- The state in which a pass that began in `s` feeds words: its FIFO and memory are those of `s`, and its input buffer, unless the
input is paused, has bytes left in host memory. -/
structure FeedReady (s u : State) : Prop where
  tail : u.tailFed = s.tailFed
  fifo : u.ififo = s.ififo
  memory : u.hmem = s.hmem
  paused : u.ctx.pauseIn = true ↔ Starved s
  space : u.ctx.pauseIn = false → u.desc.inAddr.toNat + u.desc.inLen.toNat ≤ Config.hostSpace
  left : u.ctx.pauseIn = false → u.desc.inOff.toNat < u.desc.inLen.toNat

theorem pauseInput_fifo (hf : s.ctx.fifoMethod = true) : s.pauseInput = { s with
    ctx := { s.ctx with pauseIn := true }
    cr := { s.cr with ieIft := false, ieIfnf := false } } := by
  simp [State.pauseInput, hf]

/-- What the header leaves to the input. -/
structure InputSame (s a : State) : Prop where
  cfg : a.cfg = s.cfg
  ctx : a.ctx = s.ctx
  desc : a.desc = s.desc
  sb : a.sb = s.sb
  managed : a.host.managed = s.host.managed
  tail : a.tailFed = s.tailFed
  fifo : a.ififo = s.ififo
  memory : a.hmem = s.hmem
  threshold : a.cr.ieIft = s.cr.ieIft

theorem HpdLeaves.inputSame (h : HpdLeaves s a) : InputSame s a := by
  rw [h.frame]
  exact ⟨rfl, rfl, rfl, rfl, rfl, rfl, rfl, rfl, rfl⟩

/-- The manager's reply stands on its parameters and its registers. -/
theorem managerRefill_fst {consumed : Word} (hc : t.cfg = s.cfg) (hb : t.sb = s.sb) :
    (managerRefill consumed t).1 = (managerRefill consumed s).1 := by
  unfold managerRefill
  simp only [hc, hb, apply_ite Prod.fst]

/-- A used-up input buffer is refilled by the manager. -/
theorem refill_polled (hi : Inv s) (hm : s.host.managed = true) (he : eligible .inp s = true) (hs : InputSame s a)
    (hoff : s.desc.inOff = s.desc.inLen) :
    ∃ u, refill a = .ok u ∧ RefilledBy s a (pollReply s a) u ∧ FeedReady s u := by
  obtain ⟨hmethod, -, hp, -⟩ := eligible_inp.mp he
  have hf := fifoMethod_iff.mpr hmethod
  have hfst : (pollReply s a).1 = (managerRefill s.desc.inOff s).1 := managerRefill_fst hs.cfg hs.sb
  obtain ⟨⟨sb, hsb⟩, hgood⟩ := managerRefill_good hi (running_of_eligible hi he) (not_dma_of_fifo hf) s.desc.inOff
    (t := a.emit (.refill s.desc.inOff)) hs.cfg hs.sb
  have hsb' : (pollReply s a).2 = { a.emit (.refill s.desc.inOff) with sb := sb } := hsb
  have hfifo : a.ctx.fifoMethod = true := hs.ctx ▸ hf
  have hreply : refillReply a.desc.inOff (a.emit (.refill a.desc.inOff)) = pollReply s a := by
    rw [hs.desc]
    exact if_pos (hs.managed.trans hm)
  rcases hgood with hpause | ⟨addr, len, hsupply, hspace, hpass⟩
  · refine ⟨_, refill_of_pause (hreply.trans (Prod.ext hpause hsb)), .inl ⟨hpause, ?_⟩, hs.tail, hs.fifo, hs.memory,
      ⟨fun _ => ⟨hoff, ?_⟩, fun _ => rfl⟩, nofun, nofun⟩
    · rw [hsb', pauseInput_fifo (by exact hfifo)]
      simp only [State.emit, hs.desc, hs.ctx]
    · intro addr len hs
      rw [← hfst] at hs
      exact absurd (hpause.symm.trans hs) nofun
  · have hrefill := refill_of_supply (hreply.trans (Prod.ext hsupply hsb)) (hpass _ (by rw [← hs.desc]; rfl) hs.ctx hs.cfg)
    have hstarved : Starved s ↔ len = 0#32 := by
      refine ⟨fun h => h.2 addr len (hfst ▸ hsupply), fun hl => ⟨hoff, fun addr' len' hs' => ?_⟩⟩
      rw [← hfst] at hs'
      cases hsupply.symm.trans hs'
      exact hl
    dsimp only at hrefill
    by_cases hl : len = 0#32
    · rw [if_pos hl] at hrefill
      refine ⟨_, hrefill, .inr ⟨addr, len, hsupply, ?_⟩, hs.tail, hs.fifo, hs.memory,
        ⟨fun _ => hstarved.mpr hl, fun _ => rfl⟩, nofun, nofun⟩
      dsimp only
      rw [if_pos hl, hsb', pauseInput_fifo (by exact hfifo)]
      simp only [State.emit, hs.desc, hs.ctx]
    · rw [if_neg hl] at hrefill
      have hpos : 0 < len.toNat := Nat.pos_of_ne_zero fun h => hl (BitVec.eq_of_toNat_eq h)
      have hrunning : a.ctx.pauseIn = false := hs.ctx ▸ hp
      refine ⟨_, hrefill, .inr ⟨addr, len, hsupply, ?_⟩, hs.tail, hs.fifo, hs.memory,
        ⟨fun h => absurd (h.symm.trans hrunning) nofun, fun h => absurd (hstarved.mp h) hl⟩, fun _ => hspace, fun _ => hpos⟩
      dsimp only
      rw [if_neg hl, hsb']
      simp only [State.emit, hs.desc]

/-- What a pass that began in `s` feeds from the input buffer of `u`: whole words, or its tail as one padded word. -/
def State.fedFrom (s u : State) : State :=
  let src : Nat := u.desc.inAddr.toNat + u.desc.inOff.toNat
  let left : Nat := u.desc.inLen.toNat - u.desc.inOff.toNat
  let n : Nat := min (if s.cr.ieIft = true ∧ 8 ≤ s.cfg.fifoDepth - s.ififo.length then 8 else 1) (left / 4)
  if 4 ≤ left then { u with
    ififo := s.ififo ++ (List.range n).map (fun j => wordOfBytes (readBytes s.hmem (src + 4 * j) 4))
    desc := { u.desc with inOff := u.desc.inOff + BitVec.ofNat 32 (4 * n) } }
  else { u with
    ififo := s.ififo ++ [wordOfBytes (readBytes s.hmem src left)]
    desc := { u.desc with inOff := u.desc.inLen }
    tailFed := true }

theorem InputSame.inCount (h : InputSame s a) : Machine.inCount a = Machine.inCount s := by
  rw [inCount_eq, inCount_eq, h.threshold, h.cfg, h.fifo]

/-- What `EV_IN` does in a pass: it refills a used-up buffer, then feeds what that leaves it. -/
theorem handleIn_polled (hi : Inv s) (hm : s.host.managed = true) (he : eligible .inp s = true) (hs : InputSame s a) :
    ∃ u, (if s.desc.inOff = s.desc.inLen then RefilledBy s a (pollReply s a) u else u = a) ∧ FeedReady s u ∧
      handleIn a = if u.ctx.pauseIn then .ok u else feedAvail (inCount s) u := by
  by_cases hoff : s.desc.inOff = s.desc.inLen
  · obtain ⟨u, hrefill, hby, hready⟩ := refill_polled hi hm he hs hoff
    refine ⟨u, by rwa [if_pos hoff], hready, ?_⟩
    rw [handleIn, feedWords_of_refill (hs.desc ▸ hoff) hrefill, hs.inCount]
  · have hp : a.ctx.pauseIn = false := hs.ctx ▸ (eligible_inp.mp he).2.2.1
    obtain ⟨hspace, hleft⟩ := hi.consistent.inputLeft he hoff
    refine ⟨a, by rw [if_neg hoff], ⟨hs.tail, hs.fifo, hs.memory, ⟨fun h => ?_, fun h => absurd h.1 hoff⟩,
      fun _ => hs.desc ▸ hspace, fun _ => hs.desc ▸ hleft⟩, ?_⟩
    · exact absurd (h.symm.trans hp) nofun
    · rw [handleIn, feedWords_of_data (hs.desc ▸ hoff) hp, hs.inCount, hp]
      rfl

theorem FeedReady.feedAvail_eq (h : FeedReady s u) (he : eligible .inp s = true) (hp : u.ctx.pauseIn = false)
    (htail : s.tailFed = false) : feedAvail (inCount s) u = .ok (s.fedFrom u) := by
  rw [feedAvail_ok (inCount_fits he).1 (h.tail.trans htail) (h.space hp) (h.left hp), inCount_eq, State.fedFrom, ← h.fifo,
    ← h.memory]
  rfl

/-- The event `EV_IN` of a pass that no padded tail word stops. -/
theorem pollRan_inp (hi : Inv s) (hm : s.host.managed = true) (hs : InputSame s a)
    (hel : eligible .inp a = eligible .inp s) (htail : eligible .inp s = true → s.tailFed = true → Starved s) :
    ∃ u b, PollRan .inp handleIn a b ∧
      (if eligible .inp s = true ∧ s.desc.inOff = s.desc.inLen then RefilledBy s a (pollReply s a) u else u = a) ∧
      (if eligible .inp s = true ∧ u.ctx.pauseIn = false then b = s.fedFrom u else b = u) := by
  unfold PollRan
  rw [hel]
  by_cases he : eligible .inp s = true
  · obtain ⟨u, hu, hready, hin⟩ := handleIn_polled hi hm he hs
    simp only [he, true_and, if_true]
    cases hp : u.ctx.pauseIn with
    | true =>
      rw [hp, if_pos rfl] at hin
      exact ⟨u, u, hin, hu, by rw [hp]; rfl⟩
    | false =>
      have htail' : s.tailFed = false := by
        rw [← Bool.not_eq_true]
        exact fun h => absurd ((hready.paused.mpr (htail he h)).symm.trans hp) nofun
      rw [hp, if_neg Bool.false_ne_true, hready.feedAvail_eq he hp htail'] at hin
      exact ⟨u, _, hin, hu, by rw [if_pos hp]⟩
  · exact ⟨a, a, by simp [he]⟩

/-- A word fed after a padded tail word ends the pass in a fault. -/
theorem handleIn_ragged (hi : Inv s) (hm : s.host.managed = true) (he : eligible .inp s = true) (hs : InputSame s a)
    (htail : s.tailFed = true) (hfed : ¬ Starved s) : handleIn a = .error .raggedMidStream := by
  obtain ⟨u, -, hready, hin⟩ := handleIn_polled hi hm he hs
  have hp : u.ctx.pauseIn = false := Bool.not_eq_true _ ▸ mt hready.paused.mp hfed
  rw [hin, hp]
  exact feedAvail_ragged (hready.tail.trans htail) (hready.space hp) (hready.left hp)

end Sys2Proof.Machine
end

section
/-! `POLL` (O39, 43_transfer_fsm R229) under the Streaming Buffer Manager: the output of its pass, the end of the job, and the
pass as a whole. -/

namespace Sys2Proof.Machine

open Sys2Proof

-- One proof after the other: side by side they take more threads than the check's memory limit has room for.
set_option Elab.async false

variable {s t a b c : State}

/-! ## What the input of a pass leaves to its output -/

/-- The output buffer and its bytes, the engines and the operation: what no event of the input touches. -/
def State.outputData (s : State) :=
  (s.cfg, s.hmem, s.desc.outAddr, s.desc.outLen, s.desc.outOff, s.din, s.dout, s.ctx.op)

/-- The output of a pass that began in `s` finds what it would have found there. -/
structure OutputSame (s t : State) : Prop where
  view : t.outputView = s.outputView
  data : t.outputData = s.outputData

theorem HpdLeaves.outputData (h : HpdLeaves s t) : t.outputData = s.outputData := by
  rw [h.frame]
  rfl

theorem refill_outputData (h : refill s = .ok t) : t.outputData = s.outputData := by
  obtain ⟨sb, host, draws, addr, len, -, -, ht⟩ := refill_cases h
  rcases ht with ⟨rfl, -⟩ | ⟨rfl, -⟩ <;> rfl

theorem handleIn_outputData (h : handleIn s = .ok t) : t.outputData = s.outputData := by
  obtain ⟨u, hu, hr⟩ := feedWords_ok.mp h
  have hfirst : u.outputData = s.outputData := by
    split at hu
    · exact refill_outputData hu
    · rw [hu]
  rw [← hfirst]
  split at hr
  · rw [hr]
  · rw [feedAvail_frame hr]
    rfl

theorem PollRan.inLeaves (h : PollRan .inp handleIn a b) : InLeaves a b ∧ b.outputData = a.outputData := by
  unfold PollRan at h
  split at h
  · exact ⟨handleIn_leaves h, handleIn_outputData h⟩
  · rw [h]; exact ⟨.refl a, rfl⟩

/-- After the input of a pass the output is as it was, and the host still issues no command. -/
theorem outputSame_of_ran (hn : .command ∉ s.host.notices) (ha : PollRan .hpd handleHpd s a) (hb : PollRan .inp handleIn a b) :
    OutputSame s b ∧ b.host.notices.head? ≠ some .command := by
  have hl := ha.hpdLeaves
  obtain ⟨hin, hdata⟩ := hb.inLeaves
  refine ⟨⟨hin.view.trans hl.view, hdata.trans hl.outputData⟩, fun h => hn ?_⟩
  have hmem : .command ∈ a.host.notices := hin.notices ▸ List.mem_of_mem_head? h
  rcases hl.notices with hsame | ⟨-, htail⟩
  · rwa [hsame] at hmem
  · rw [htail] at hmem
    exact List.mem_of_mem_tail hmem

/-- Each thing of the output that stays. -/
structure OutputKept (s t : State) : Prop where
  cfg : t.cfg = s.cfg
  memory : t.hmem = s.hmem
  addr : t.desc.outAddr = s.desc.outAddr
  len : t.desc.outLen = s.desc.outLen
  off : t.desc.outOff = s.desc.outOff
  din : t.din = s.din
  dout : t.dout = s.dout
  op : t.ctx.op = s.ctx.op
  method : t.ctx.method = s.ctx.method
  pause : t.ctx.pauseOut = s.ctx.pauseOut
  threshold : t.cr.ieOft = s.cr.ieOft
  fifo : t.ofifo = s.ofifo
  managed : t.host.managed = s.host.managed

theorem OutputSame.kept (h : OutputSame s t) : OutputKept s t := by
  obtain ⟨hview, hdata⟩ := h
  simp only [State.outputView, State.outputData, Prod.mk.injEq] at hview hdata
  obtain ⟨hmethod, -, hpause, -, hieOft, -, -, -, hfifo, hmanaged, -⟩ := hview
  obtain ⟨hcfg, hmem, haddr, hlen, hoff, hdin, hdout, hop⟩ := hdata
  exact ⟨hcfg, hmem, haddr, hlen, hoff, hdin, hdout, hop, hmethod, hpause, hieOft, hfifo, hmanaged⟩

theorem OutputKept.ready (h : OutputKept s t) (hr : OutReady s.desc) : OutReady t.desc := by
  obtain ⟨hspace, hoff, hwords⟩ := hr
  exact ⟨by rwa [h.addr, h.len], by rwa [h.off, h.len], by rwa [h.len, h.off]⟩

/-! ## `EV_OUT` (43_transfer_fsm R216, R237) -/

/-- What the output of a pass that began in `s` has changed in `b`, and how it is left. -/
structure StoreLeft (s b c : State) : Prop where
  frame : c = { b with
    hmem := c.hmem, ofifo := c.ofifo, desc := { b.desc with outOff := c.desc.outOff }, trace := c.trace }
  buffer : OutReady c.desc
  fifo : c.ofifo.length ≤ s.cfg.fifoDepth
  outside : SavesOthers s c.hmem

/-- The words stored by a pass that began in `s`, with a `DRAIN` of each full buffer. -/
def StoredFrom (s b c : State) : Prop :=
  let m : Nat := if s.cr.ieOft = true ∧ 8 ≤ s.ofifo.length then 8 else 1
  let bytes : List Byte :=
    readBytes s.hmem s.desc.outAddr.toNat s.desc.outOff.toNat ++ (s.ofifo.take m).flatMap bytesOfWord
  c.ofifo = s.ofifo.drop m ∧
  c.trace = b.trace ++ fullDrains s.desc.outAddr s.desc.outLen bytes ∧
  readBytes c.hmem s.desc.outAddr.toNat c.desc.outOff.toNat = undrained s.desc.outLen bytes ∧
  c.desc.outOff.toNat = (s.desc.outOff.toNat + 4 * m) % s.desc.outLen.toNat ∧
  (∀ x, ¬ inOutputBuffer s x → readByte c.hmem x = readByte s.hmem x) ∧
  c = { b with
    hmem := c.hmem, ofifo := c.ofifo, desc := { b.desc with outOff := c.desc.outOff }, trace := c.trace }

theorem OutputKept.outCount (h : OutputKept s b) : Machine.outCount b = Machine.outCount s := by
  rw [outCount_eq, outCount_eq, h.threshold, h.fifo]

/-- `EV_OUT` of a pass under the manager, which answers every `DRAIN` with `Continue`. -/
theorem handleOut_polled (hi : Inv s) (hm : s.host.managed = true) (he : eligible .out s = true) (hs : OutputKept s b) :
    ∃ c, handleOut b = .ok c ∧ StoredFrom s b c ∧ StoreLeft s b c := by
  have hj := running_of_eligible hi he
  have hr := hs.ready (outReady_of_inv hi hj)
  obtain ⟨c, hok, hmoved, hframe⟩ := storeWords_managed (n := outCount b) (hs.managed.trans hm)
    (hs.pause.trans (eligible_out.mp he).2.2.1) hr
  have hbuffer := hmoved.ready hr
  have hoff := hmoved.off
  rw [List.length_take] at hoff
  obtain ⟨-, -, heffects, hleft, -, houtside⟩ := id hmoved
  have hdrop := hmoved.fifo_drop
  rw [hs.outCount, hs.fifo, hs.addr, hs.len, hs.off, hs.memory] at heffects hleft
  rw [hs.outCount, hs.fifo, hs.len, hs.off, Nat.min_eq_left (outCount_le he)] at hoff
  rw [hs.addr, hs.len, hs.memory] at houtside
  rw [hs.outCount, hs.fifo] at hdrop
  have hothers := SavesOthers.of_outside hj houtside
  have hlength : c.ofifo.length ≤ s.cfg.fifoDepth := by
    rw [hdrop, List.length_drop]
    exact (Nat.sub_le _ _).trans hi.fifos.output
  refine ⟨c, hok, ?_, hframe, hbuffer, hlength, hothers⟩
  unfold StoredFrom
  rw [← outCount_eq]
  exact ⟨hdrop, heffects, hleft, hoff, hothers, hframe⟩

/-- The event `EV_OUT` of a pass. -/
theorem pollRan_out (hi : Inv s) (hm : s.host.managed = true) (hj : s.fsm ≠ .idle) (hs : OutputSame s b) :
    ∃ c, PollRan .out handleOut b c ∧ (if eligible .out s = true then StoredFrom s b c else c = b) ∧ StoreLeft s b c := by
  have hkept := hs.kept
  unfold PollRan
  rw [eligible_out_congr hs.view]
  by_cases he : eligible .out s = true
  · simp only [he, if_true]
    exact handleOut_polled hi hm he hkept
  · have hlength : b.ofifo.length ≤ s.cfg.fifoDepth := hkept.fifo ▸ hi.fifos.output
    exact ⟨b, by rw [if_neg he], by rw [if_neg he], rfl, hkept.ready (outReady_of_inv hi hj), hlength,
      fun _ _ => by rw [hkept.memory]⟩

/-! ## `EV_EOC` (43_transfer_fsm R220 to R222) -/

/-- The end of the job of a pass that began in `s`: every byte reaches the host. -/
def EndedFrom (s c d : State) : Prop :=
  d.ofifo = [] ∧ drainBytes d.trace = outputStream c ∧
  d.trace = c.trace ++ finalEffects s.desc.outAddr s.desc.outLen s.ctx.op
    (readBytes c.hmem s.desc.outAddr.toNat c.desc.outOff.toNat ++ c.ofifo.flatMap bytesOfWord) ∧
  (∀ x, ¬ inOutputBuffer s x → readByte d.hmem x = readByte s.hmem x) ∧
  d = { c with
    hmem := d.hmem, ofifo := d.ofifo, trace := d.trace
    fsm := .idle, cr := .reset, ctx := c.ctx.idleDefaults
    desc := { c.desc with outOff := 0#32 }
    sr := { c.sr with eocf := false, hpdf := false }
    din := { s.din with cplt := false, aborted := false, abortReq := false }
    dout := { s.dout with cplt := false, aborted := false, abortReq := false }
    host := { c.host with notices := c.host.notices.tail } }

theorem StoreLeft.eoc (h : StoreLeft s b c) : eligible .eoc c = eligible .eoc b := by
  rw [h.frame]
  rfl

/-- `EV_EOC` of a pass under the manager. -/
theorem handleEoc_polled (hm : s.host.managed = true) (hmethod : s.ctx.method = some .poll) (he : eligible .eoc s = true)
    (hj : s.fsm ≠ .idle) (hs : OutputKept s b) (hn : b.host.notices.head? ≠ some .command) (hleft : StoreLeft s b c) :
    ∃ d, handleEoc c = .ok d ∧ EndedFrom s c d := by
  obtain ⟨hframe, hbuffer, hlength, hothers⟩ := hleft
  have haddr : c.desc.outAddr = s.desc.outAddr := by rw [hframe]; exact hs.addr
  have hlen : c.desc.outLen = s.desc.outLen := by rw [hframe]; exact hs.len
  have hop : c.ctx.op = s.ctx.op := by rw [hframe]; exact hs.op
  have hdin : c.din = s.din := by rw [hframe]; exact hs.din
  have hdout : c.dout = s.dout := by rw [hframe]; exact hs.dout
  have hcfg : c.cfg = s.cfg := by rw [hframe]; exact hs.cfg
  have hpause : c.ctx.pauseOut = false := by rw [hframe]; exact hs.pause.trans (eligible_eoc.mp he).2.2.2.2
  have hmanaged : c.host.managed = true := by rw [hframe]; exact hs.managed.trans hm
  have hnotices : c.host.notices.head? ≠ some .command := by rw [hframe]; exact hn
  have hpoll : c.ctx.fifoMethod = true := fifoMethod_iff.mpr (.inl (by rw [hframe]; exact hs.method.trans hmethod))
  have hready : FinishReady c.stopSources := ⟨nofun, hbuffer, by rw [← hcfg] at hlength; exact hlength, rfl⟩
  obtain ⟨m, hsaves, hok⟩ := hready.finish_completes (.inl hpause) (host := c.host)
    (.inl (HostSide.continues_of_managed _ hmanaged)) hnotices
  refine ⟨_, (handleEoc_fifo (not_dma_of_fifo hpoll)).trans hok, rfl,
    (drainBytes_endEffects c.stopSources).trans (outputStream_eq_pending c).symm, ?_, fun x hx => ?_, ?_⟩
  · rw [← haddr, ← hlen, ← hop]
    rfl
  · refine (hsaves x fun hin => hx ⟨hj, ?_⟩).trans (hothers x hx)
    rw [← haddr, ← hlen]
    exact hin.2
  · rw [← hdin, ← hdout]
    rfl

/-- The event `EV_EOC` of a pass. -/
theorem pollRan_eoc (hm : s.host.managed = true) (hmethod : s.ctx.method = some .poll) (hj : s.fsm ≠ .idle)
    (hs : OutputSame s b) (hn : b.host.notices.head? ≠ some .command) (hleft : StoreLeft s b c) :
    ∃ d, PollRan .eoc handleEoc c d ∧ if eligible .eoc s = true then EndedFrom s c d else d = c := by
  unfold PollRan
  rw [hleft.eoc, eligible_eoc_congr hs.view]
  by_cases he : eligible .eoc s = true
  · simp only [he, if_true]
    exact handleEoc_polled hm hmethod he hj hs.kept hn hleft
  · exact ⟨c, by rw [if_neg he], by rw [if_neg he]⟩

/-! ## The pass -/

/-- Settles O39: a pass that does nothing, one that a transfer error or a fault of the input ends, and one event after the other. -/
theorem pollResult : Obligations.PollResult := by
  intro s starved ran
  have hsilent : .command ∉ s.host.notices → s.host.notices.head? ≠ some .command := fun hn h =>
    hn (List.mem_of_mem_head? h)
  refine ⟨fun hm => if_pos hm, fun hm hnone => ?_, fun hm herr hn => ?_, fun hm herr a b c d ha hb hc hd => ?_,
    fun hi hmanaged hm herr hn hin htail hfed => ?_, fun hi hmanaged hm herr hn htail => ?_⟩
  · refine (execPoll_ok hm (pollPass_ran (hnone .err) (.skipped (hnone _)) (.skipped (hnone _)) (.skipped (hnone _))
      (.skipped (hnone _)))).trans ?_
    simp only [hnone]
    rfl
  · exact execPoll_ok hm (pollPass_err herr (notify_of_silent (s := s.takeTransferError) hn))
  · exact execPoll_ok hm (pollPass_ran herr ha hb hc hd)
  · have ha := pollRan_headerPolled (hsilent hn)
    have hl := ha.hpdLeaves
    have hragged := handleIn_ragged hi hmanaged hin hl.inputSame htail hfed
    exact execPoll_error hm (pollPass_in_faults herr ha (hl.inp.trans hin) hragged)
  · have hj := hi.modes.in_job_of_method (s := s) (by simp [hm])
    have ha := pollRan_headerPolled (hsilent hn)
    have hl := ha.hpdLeaves
    obtain ⟨u, b, hb, hrefilled, hfed⟩ := pollRan_inp hi hmanaged hl.inputSame hl.inp htail
    obtain ⟨hsame, hnotices⟩ := outputSame_of_ran hn ha hb
    obtain ⟨c, hc, hstored, hleft⟩ := pollRan_out hi hmanaged hj hsame
    obtain ⟨d, hd, hended⟩ := pollRan_eoc hmanaged hm hj hsame hnotices hleft
    refine ⟨s.headerPolled, u, b, c, d, ?_, rfl, hrefilled, hfed, hstored, hended⟩
    refine (execPoll_ok hm (pollPass_ran herr ha hb hc hd)).trans ?_
    rw [hl.inp, eligible_out_congr hsame.view, hleft.eoc, eligible_eoc_congr hsame.view]
    rfl

end Sys2Proof.Machine
end

section
/-! The Streaming Buffer Manager itself (44_stream_buffers): its reply to `REFILL` (O46, R272), `SBINIT` (O54, R271) and the first
step of `SBFILL` (O55, R273). -/

namespace Sys2Proof.Machine

open Sys2Proof

-- One proof after the other: side by side they take more threads than the check's memory limit has room for.
set_option Elab.async false

variable {s : State} {b : StreamBuffers} {consumed len : Word}

/-! ## The flip of the read index -/

/-- The buffer that was being read is marked empty. -/
theorem StreamBuffers.flipped_buf_rd : b.flipped.buf b.rd = { b.buf b.rd with full := false } := by
  unfold StreamBuffers.flipped
  cases b.rd <;> rfl

/-- The write index, the wait and an `SBFILL` in progress are no concern of the reader's. -/
theorem StreamBuffers.flipped_frame : b.flipped.wr = b.wr ∧ b.flipped.wait = b.wait ∧ b.flipped.filling = b.filling := by
  unfold StreamBuffers.flipped
  cases b.rd <;> exact ⟨rfl, rfl, rfl⟩

/-- `SB_WAIT` is no part of a buffer. -/
theorem StreamBuffers.buf_of_wait (w : Bool) (i : BufIdx) : ({ b with wait := w } : StreamBuffers).buf i = b.buf i := by
  cases i <;> rfl

/-! ## The reply to `REFILL` -/

/-- A partly consumed buffer is supplied again from where its reader stopped (44_stream_buffers R276). -/
theorem managerRefill_rest (hleft : (s.sb.off + consumed).toNat < (s.sb.buf s.sb.rd).len.toNat) : managerRefill consumed s =
    (.supply (sbAddr s.cfg s.sb.rd + (s.sb.off + consumed)) ((s.sb.buf s.sb.rd).len - (s.sb.off + consumed)),
      { s with sb := { s.sb with off := s.sb.off + consumed } }) :=
  if_pos hleft

/-- A buffer that is used up makes way for the other one, or for a pause. -/
theorem managerRefill_used (hused : (s.sb.buf s.sb.rd).len.toNat ≤ (s.sb.off + consumed).toNat) : managerRefill consumed s =
    if (s.sb.buf s.sb.rd.flip).full then
      (.supply (sbAddr s.cfg s.sb.rd.flip) (s.sb.buf s.sb.rd.flip).len, { s with sb := s.sb.flipped })
    else (.pause, { s with sb := { s.sb.flipped with wait := true } }) := by
  rw [← s.sb.flipped_buf]
  exact if_neg (Nat.not_lt.mpr hused)

/-- Settles O46: the rest of the buffer, or a flip to the other one, which is supplied if it is full and waited for if not. -/
theorem managerReply : Obligations.ManagerReply := by
  intro s consumed off cur other
  obtain ⟨hwr, hwait, hfilling⟩ := s.sb.flipped_frame
  refine ⟨managerRefill_rest, fun hused hfull => ⟨s.sb.flipped, ?_, ?_⟩,
    fun hused hempty => ⟨{ s.sb.flipped with wait := true }, ?_, ?_⟩⟩
  · rw [managerRefill_used hused, if_pos hfull]
  · exact ⟨rfl, rfl, hwait, hwr, hfilling, s.sb.flipped_buf_rd, s.sb.flipped_buf⟩
  · rw [managerRefill_used hused, if_neg (Bool.not_eq_true _ ▸ hempty)]
  · exact ⟨rfl, rfl, rfl, hwr, hfilling, (StreamBuffers.buf_of_wait _ _).trans s.sb.flipped_buf_rd,
      (StreamBuffers.buf_of_wait _ _).trans s.sb.flipped_buf⟩

/-! ## `SBINIT` -/

theorem execSbinit_idle (hi : s.fsm = .idle) :
    execSbinit s = returnOk 0#32 { s with sb := { StreamBuffers.reset with filling := s.sb.filling } } :=
  if_neg (not_not_intro hi)

theorem execSbinit_job (hj : s.fsm ≠ .idle) : execSbinit s = raiseError .busy s := if_pos hj

/-- Settles O54: the manager of reset in `Idle`, and a refusal in a job. -/
theorem sbinitResult : Obligations.SbinitResult := fun _ => ⟨execSbinit_idle, execSbinit_job⟩

/-! ## The first step of `SBFILL` -/

@[simp] theorem sourceBytes_length (s : State) (n : Nat) : (sourceBytes s n).length = n := by simp [sourceBytes]

/-- A byte that is listed is the one the source returns. -/
theorem sourceBytes_listed {n j : Nat} {x : Byte} (hj : j < n) (hx : s.host.source[j]? = some x) :
    (sourceBytes s n)[j]'(by simpa using hj) = x := by
  simp [sourceBytes, hx]

/-- The parameters keep each streaming buffer inside host memory. -/
theorem sbAddr_space {c : Config} (hc : c.wf = true) (i : BufIdx) : (sbAddr c i).toNat + c.ibcap ≤ Config.hostSpace := by
  simp only [Config.wf, Bool.and_eq_true, decide_eq_true_eq] at hc
  obtain ⟨⟨⟨-, h0⟩, h1⟩, -⟩ := hc
  cases i
  · exact h0
  · exact h1

/-- The state after the first step of an `SBFILL` that is accepted. -/
def State.filled (s : State) (len : Word) : State := { s.sourceTaken len.toNat with
  hmem := writeBytes s.hmem (sbAddr s.cfg s.sb.wr).toNat (sourceBytes s len.toNat)
  sb := { s.sb.setBuf s.sb.wr { full := true, len := len } with wr := s.sb.wr.flip, filling := some s.sb.wr }
  response := none }

theorem sbfillStep1_filled (hspace : (sbAddr s.cfg s.sb.wr).toNat + len.toNat ≤ Config.hostSpace) :
    sbfillStep1 len s = .ok (s.filled len) :=
  bind_eq_ok.mpr ⟨_, memWrite_ok.mpr ⟨by simpa using hspace, rfl⟩, rfl⟩

theorem execSbfill_tooLong (hlen : s.cfg.ibcap < len.toNat) : execSbfill len s = raiseError .invalidArgument s := if_pos hlen

theorem execSbfill_zero : execSbfill 0#32 s = returnOk 0#32 s :=
  (if_neg (Nat.not_lt_zero _)).trans (if_pos rfl)

theorem execSbfill_full (h0 : len ≠ 0#32) (hlen : len.toNat ≤ s.cfg.ibcap) (hfull : (s.sb.buf s.sb.wr).full = true) :
    execSbfill len s = raiseError .busy s :=
  (if_neg (Nat.not_lt.mpr hlen)).trans ((if_neg h0).trans (if_pos hfull))

theorem execSbfill_fills (hc : s.cfg.wf = true) (h0 : len ≠ 0#32) (hlen : len.toNat ≤ s.cfg.ibcap)
    (hempty : (s.sb.buf s.sb.wr).full = false) : execSbfill len s = .next (s.filled len) := by
  have hspace := sbAddr_space hc s.sb.wr
  rw [execSbfill, if_neg (Nat.not_lt.mpr hlen), if_neg h0, if_neg (Bool.not_eq_true _ ▸ hempty),
    sbfillStep1_filled (by omega)]

/-- Settles O55: turned away by its length or a full buffer, nothing to fill, and the buffer filled. -/
theorem sbfillResult : Obligations.SbfillResult := by
  intro s len hc i addr
  refine ⟨execSbfill_tooLong, fun h0 => h0 ▸ execSbfill_zero, execSbfill_full, fun h0 hlen hempty =>
    ⟨s.filled len, execSbfill_fills hc h0 hlen hempty, fun j x hj hx => ?_, fun a ha => ?_, rfl⟩⟩
  · exact (readByte_writeBytes_inside (by simpa using hj)).trans (sourceBytes_listed hj hx)
  · exact readByte_writeBytes_outside (by simpa using ha)

end Sys2Proof.Machine
end

section
/-! Register load and read-out (45_register_access): `LDB` (O16, R280) and the packed words of the read-out commands (O18, R282 to
R285). -/

namespace Sys2Proof.Machine

open Sys2Proof

-- One proof after the other: side by side they take more threads than the check's memory limit has room for.
set_option Elab.async false

variable {s : State}

/-! ## `LDB` (45_register_access R280) -/

/-- A legal element in `Idle` is loaded. -/
theorem execLdb_ok {file : LdbFile} {index : BitVec 8} (hi : s.fsm = .idle) (hw : file.indexOk s.cfg.nq index = true)
    (data : Byte) : execLdb file index data s = returnOk 0#32 (loadByte file index.toNat data s) := by
  rw [execLdb, if_neg (by simp [Instr.wellFormed, hw]), if_neg (not_not_intro hi)]

/-- Settles O16: file by file, `loadByte` writes the element and clears what it invalidates. -/
theorem ldbResult : Obligations.LdbResult := by
  intro s index data hi
  refine ⟨fun slot hx => ?_, fun slot hx => ?_, fun q hx hq => ?_⟩
  · exact execLdb_ok (file := .bits slot) hi (decide_eq_true hx) data
  · exact execLdb_ok (file := .vals slot) hi (decide_eq_true hx) data
  · exact execLdb_ok (file := .baseline q) hi (by simp [LdbFile.indexOk, hx, hq]) data

/-! ## Packed words -/

/-- A field above all bits of a word is packed by adding it. -/
theorem toNat_or_shiftLeft {w f : Word} {n : Nat} (hw : w.toNat < 2 ^ n) (hf : f.toNat * 2 ^ n < 2 ^ 32) :
    (w ||| f <<< n).toNat = w.toNat + 2 ^ n * f.toNat := by
  rw [BitVec.toNat_or, BitVec.toNat_shiftLeft, Nat.shiftLeft_eq, Nat.mod_eq_of_lt hf, Nat.or_comm, Nat.mul_comm,
    ← Nat.two_pow_add_eq_or_of_lt hw, Nat.add_comm]

theorem bitAt_eq_shiftLeft (b : Bool) (n : Nat) : bitAt b n = BitVec.ofNat 32 b.toNat <<< n := by
  cases b <;> simp [bitAt]

/-- So is a flag above all bits of a word. -/
theorem toNat_or_bitAt {w : Word} {n : Nat} (hw : w.toNat < 2 ^ n) (hn : n < 32) (b : Bool) :
    (w ||| bitAt b n).toNat = w.toNat + 2 ^ n * b.toNat := by
  have hb : (BitVec.ofNat 32 b.toNat).toNat = b.toNat := by cases b <;> rfl
  have hfit : b.toNat * 2 ^ n < 2 ^ 32 :=
    calc b.toNat * 2 ^ n ≤ 1 * 2 ^ n := Nat.mul_le_mul_right _ b.toNat_le
      _ < 2 ^ 32 := by rw [Nat.one_mul]; exact Nat.pow_lt_pow_right (by decide) hn
  rw [bitAt_eq_shiftLeft, toNat_or_shiftLeft hw (by rwa [hb]), hb]

/-! The codes of the fields fit the bits they are given (10_state R24, R26, R32). -/

theorem Fsm.code_lt (f : Fsm) : f.code.toNat < 8 := by cases f <;> decide

theorem opCode_lt : ∀ op : Option JobOp, (opCode op).toNat < 4
  | none | some .encode | some .decode => by decide

theorem methodCode_lt : ∀ m : Option Method, (methodCode m).toNat < 4
  | none | some .poll | some .interrupt | some .dma => by decide

theorem ColorSpace.code_lt (c : ColorSpace) : c.code.toNat < 4 := by cases c <;> decide

theorem Chroma.code_lt (c : Chroma) : c.code.toNat < 4 := by cases c <;> decide

/-- `CTX[15:0]` field by field, from the lowest bit up (10_state R26). -/
theorem Ctx.toNat_pack (c : Ctx) : c.pack.toNat =
    (opCode c.op).toNat + 4 * (methodCode c.method).toNat + 256 * c.cfgHuff.toNat + 512 * c.cfgQuant.toNat +
      4096 * c.pauseIn.toNat + 8192 * c.pauseOut.toNat + 32768 * c.ending.toNat := by
  have hop := opCode_lt c.op
  have hmethod := methodCode_lt c.method
  have hhuff := c.cfgHuff.toNat_lt
  have hquant := c.cfgQuant.toNat_lt
  have hin := c.pauseIn.toNat_lt
  have hout := c.pauseOut.toNat_lt
  have h2 := toNat_or_shiftLeft (w := opCode c.op) (f := methodCode c.method) (n := 2) (by omega) (by omega)
  have h8 := toNat_or_bitAt (n := 8) (by omega) (by decide) c.cfgHuff (w := opCode c.op ||| methodCode c.method <<< 2)
  have h9 := toNat_or_bitAt (n := 9) (by rw [h8]; omega) (by decide) c.cfgQuant
  have h12 := toNat_or_bitAt (n := 12) (by rw [h9]; omega) (by decide) c.pauseIn
  have h13 := toNat_or_bitAt (n := 13) (by rw [h12]; omega) (by decide) c.pauseOut
  have h15 := toNat_or_bitAt (n := 15) (by rw [h13]; omega) (by decide) c.ending
  rw [Ctx.pack]
  omega

theorem Ctx.pack_lt (c : Ctx) : c.pack.toNat < 2 ^ 16 := by
  have hop := opCode_lt c.op
  have hmethod := methodCode_lt c.method
  have hhuff := c.cfgHuff.toNat_lt
  have hquant := c.cfgQuant.toNat_lt
  have hin := c.pauseIn.toNat_lt
  have hout := c.pauseOut.toNat_lt
  have hend := c.ending.toNat_lt
  rw [c.toNat_pack]
  omega

/-! ## The read-out commands (45_register_access R282 to R285) -/

theorem toNat_infoWord_dimensions (i : Info) :
    (infoWord .dimensions i).toNat = i.width.toNat + 65536 * i.height.toNat := by
  rw [infoWord, BitVec.toNat_append, ← Nat.shiftLeft_add_eq_or_of_lt i.width.isLt, Nat.shiftLeft_eq, Nat.mul_comm,
    Nat.add_comm]

theorem toNat_infoWord_attributes (i : Info) : (infoWord .attributes i).toNat =
    i.quality.toNat + 256 * i.colorspace.code.toNat + 4096 * i.chroma.code.toNat := by
  have hquality := i.quality.isLt
  have hcolor := i.colorspace.code_lt
  have hchroma := i.chroma.code_lt
  have h0 : (i.quality.setWidth 32).toNat = i.quality.toNat := BitVec.toNat_setWidth_of_le (by decide)
  have h8 := toNat_or_shiftLeft (w := i.quality.setWidth 32) (f := i.colorspace.code) (n := 8) (by omega) (by omega)
  have h12 := toNat_or_shiftLeft (f := i.chroma.code) (n := 12) (by rw [h8]; omega) (by omega)
  rw [infoWord]
  omega

theorem toNat_stateWord (s : State) : (stateWord s).toNat = s.fsm.code.toNat + 65536 * s.ctx.pack.toNat := by
  have hfsm := s.fsm.code_lt
  have hctx := s.ctx.pack_lt
  exact toNat_or_shiftLeft (n := 16) (by omega) (by omega)

/-- Settles O18: each command returns its packed word and touches only the response. -/
theorem readoutsResult : Obligations.ReadoutsResult := fun s =>
  ⟨⟨_, rfl, toNat_infoWord_dimensions s.info⟩, ⟨_, rfl, toNat_infoWord_attributes s.info⟩,
    ⟨_, rfl, by rw [toNat_stateWord, s.ctx.toNat_pack]⟩, ⟨_, rfl, BitVec.toNat_setWidth_of_le (by decide)⟩⟩

end Sys2Proof.Machine
end

section
/-! `LAST_ERROR` (O19, 45_register_access R286): no operation of the block writes it but the answer of a failed command and
`EV_ERR`. -/

namespace Sys2Proof.Machine

open Sys2Proof

-- One proof after the other: side by side they take more threads than the check's memory limit has room for.
set_option Elab.async false

variable {s t u : State}

/-! ## The transfer paths (43_transfer_fsm R218 to R222, R231, R237, R238) -/

theorem refill_lastError (h : refill s = .ok t) : t.lastError = s.lastError := by
  obtain ⟨sb, host, draws, addr, len, -, -, ht⟩ := refill_cases h
  rcases ht with ⟨rfl, -⟩ | ⟨rfl, -⟩ <;> rfl

theorem feedWords_lastError {n : Nat} (h : feedWords n s = .ok t) : t.lastError = s.lastError := by
  obtain ⟨u, hu, hr⟩ := feedWords_ok.mp h
  have hstart : u.lastError = s.lastError := by
    split at hu
    · exact refill_lastError hu
    · rw [hu]
  rw [← hstart]
  split at hr
  · rw [hr]
  · rw [feedAvail_frame hr]

theorem storeWords_lastError {n : Nat} (h : storeWords n s = .ok t) : t.lastError = s.lastError := by
  obtain ⟨hframe, -⟩ := storeWords_frame h
  rw [hframe]

theorem finish_lastError (h : finish s = .ok t) : t.lastError = s.lastError := by
  obtain ⟨u, hu, hr⟩ := bind_eq_ok.mp h
  rw [← storeWords_lastError hu]
  split at hr
  · rw [complete_ok hr, State.endJob_lastError]
  · cases hr; rfl

theorem finishFromDma_lastError (h : finishFromDma s = .ok t) : t.lastError = s.lastError :=
  (finish_lastError h).trans rfl

/-- All that `DoResume(Input)` may change. -/
theorem resumeInput_frame (h : resumeInput s = some t) : t = { s with ctx := t.ctx, cr := t.cr, din := t.din } := by
  unfold resumeInput at h
  dsimp only at h
  split at h
  · cases h; rfl
  split at h
  · cases h
  split at h
  · cases h; rfl
  split at h
  · cases h; rfl
  split at h <;> cases h <;> rfl

theorem resumeInput_lastError (h : resumeInput s = some t) : t.lastError = s.lastError := by rw [resumeInput_frame h]

theorem resumeOutput_lastError (h : resumeOutput s = .ok t) : t.lastError = s.lastError := by
  unfold resumeOutput at h
  dsimp only at h
  split at h
  · cases h; rfl
  split at h
  · exact (finish_lastError h).trans rfl
  split at h
  · cases h; rfl
  split at h <;> cases h <;> rfl

/-! ## The events (43_transfer_fsm R215 to R226) -/

/-- The handler of each event (43_transfer_fsm R214). -/
def Event.handler : Event → State → Except Fault State
  | .err => handleErr
  | .hpd => handleHpd
  | .inp => handleIn
  | .out => handleOut
  | .eoc => handleEoc
  | .dmaInCplt => handleDmaInCplt
  | .dmaOutCplt => handleDmaOutCplt
  | .dmaAbort => handleDmaAbort

theorem exec_instr (e : Event) (s : State) : exec e.instr s = takeEvent e e.handler s := by
  cases e <;> rfl

theorem handleErr_lastError (h : handleErr s = .ok t) : t.lastError = 0x06#8 := by
  obtain ⟨-, rfl⟩ := notify_ok.mp h
  rfl

theorem handleHpd_lastError (h : handleHpd s = .ok t) : t.lastError = s.lastError := by
  obtain ⟨-, rfl⟩ := notify_ok.mp h
  rfl

theorem handleEoc_lastError (h : handleEoc s = .ok t) : t.lastError = s.lastError := by
  unfold handleEoc at h
  dsimp only at h
  split at h
  · split at h
    · cases h; rfl
    · exact (finishFromDma_lastError h).trans rfl
  · exact (finish_lastError h).trans rfl

theorem handleDmaInCplt_lastError (h : handleDmaInCplt s = .ok t) : t.lastError = s.lastError := by
  obtain ⟨u, hu, hr⟩ := bind_eq_ok.mp h
  rw [pure_eq_ok] at hr
  subst hr
  rw [apply_ite State.lastError, State.primeIn_lastError, ite_self]
  exact (refill_lastError hu).trans rfl

theorem handleDmaOutCplt_lastError (h : handleDmaOutCplt s = .ok t) : t.lastError = s.lastError := by
  obtain ⟨p, hp, hr⟩ := bind_eq_ok.mp h
  have hdrained : p.2.lastError = s.lastError := by rw [drain_frame hp]
  simp only [pure_eq_ok] at hr
  subst hr
  simp only [apply_ite State.lastError, State.primeOut_lastError, State.pauseOutput_lastError, ite_self, hdrained]

theorem handleDmaAbort_lastError (h : handleDmaAbort s = .ok t) : t.lastError = s.lastError := by
  unfold handleDmaAbort at h
  dsimp only at h
  split at h
  · cases h; rfl
  · exact (finishFromDma_lastError h).trans rfl

/-- Of the eight handlers `EV_ERR` alone writes `LAST_ERROR`. -/
theorem handler_lastError {e : Event} (hne : e ≠ .err) (h : e.handler s = .ok t) : t.lastError = s.lastError := by
  cases e with
  | err => exact absurd rfl hne
  | hpd => exact handleHpd_lastError h
  | inp => exact feedWords_lastError h
  | out => exact storeWords_lastError h
  | eoc => exact handleEoc_lastError h
  | dmaInCplt => exact handleDmaInCplt_lastError h
  | dmaOutCplt => exact handleDmaOutCplt_lastError h
  | dmaAbort => exact handleDmaAbort_lastError h

theorem takeEvent_lastError {e : Event} (h : takeEvent e e.handler s = .next t) :
    t.lastError = if e = .err ∧ recordTaken .err s = true then 0x06#8 else s.lastError := by
  rcases takeEvent_next.mp h with ⟨hno, rfl⟩ | ⟨htaken, u, hu, rfl⟩
  · rw [if_neg]
    rintro ⟨rfl, htaken⟩
    exact absurd htaken (by simp [hno])
  · by_cases he : e = .err
    · subst he
      rw [if_pos ⟨rfl, htaken⟩]
      exact (handleErr_lastError hu : u.lastError = 0x06#8)
    · rw [if_neg (he ·.1)]
      exact (handler_lastError he hu : u.lastError = s.lastError)

/-! ## `POLL` (43_transfer_fsm R229) -/

theorem pollEvent_lastError {e : Event} (hne : e ≠ .err) {p r : Word × State} (h : pollEvent e e.handler p = .ok r) :
    r.2.lastError = p.2.lastError := by
  rcases pollEvent_ok h with ⟨rfl, -⟩ | ⟨-, hok⟩
  · rfl
  · exact handler_lastError hne hok

/-- A pass changes `LAST_ERROR` only where it begins with `EV_ERR`. -/
theorem pollPass_lastError {p : Word × State} (h : pollPass s = .ok p) :
    p.2.lastError = s.lastError ∨ eligible .err s = true ∧ p.2.lastError = 0x06#8 := by
  obtain ⟨p1, h1, h⟩ := bind_eq_ok.mp h
  obtain ⟨p2, h2, h⟩ := bind_eq_ok.mp h
  obtain ⟨p3, h3, h⟩ := bind_eq_ok.mp h
  obtain ⟨p4, h4, h5⟩ := bind_eq_ok.mp h
  have hrest : p.2.lastError = p1.2.lastError :=
    calc p.2.lastError = p4.2.lastError := pollEvent_lastError (e := .eoc) nofun h5
      _ = p3.2.lastError := pollEvent_lastError (e := .out) nofun h4
      _ = p2.2.lastError := pollEvent_lastError (e := .inp) nofun h3
      _ = p1.2.lastError := pollEvent_lastError (e := .hpd) nofun h2
  rw [hrest]
  rcases pollEvent_ok h1 with ⟨rfl, -⟩ | ⟨he, herr⟩
  · exact .inl rfl
  · exact .inr ⟨he, handleErr_lastError herr⟩

/-- `POLL` answers `OK` in every state. -/
theorem execPoll_lastError (h : execPoll s = .next t) : (∃ data, t.response = some { status := 0#8, data := data }) ∧
    (t.lastError = s.lastError ∨ eligible .err s = true ∧ t.lastError = 0x06#8) := by
  unfold execPoll at h
  split at h
  · cases h
    exact ⟨⟨_, rfl⟩, .inl rfl⟩
  split at h
  · next p hp =>
    cases h
    exact ⟨⟨_, rfl⟩, pollPass_lastError hp⟩
  · cases h

/-! ## What a command's outcome says of `LAST_ERROR` -/

/-- From `s` on, an answer other than `OK` is in `LAST_ERROR`, and `OK` leaves it as it was in `s`. -/
def RecordsError (s : State) (r : Result) : Prop :=
  ∀ t a, r = .next t → t.response = some a →
    (a.status ≠ 0#8 → t.lastError = a.status) ∧ (a.status = 0#8 → t.lastError = s.lastError)

theorem RecordsError.fault {f : Fault} : RecordsError s (.fault f) := by
  rintro _ _ ⟨⟩

theorem RecordsError.returnOk {data : Word} (h : t.lastError = s.lastError) : RecordsError s (returnOk data t) := by
  rintro _ _ ⟨⟩ ⟨⟩
  exact ⟨absurd rfl, fun _ => h⟩

theorem ErrCode.code_ne_zero (e : ErrCode) : e.code ≠ 0#8 := by cases e <;> decide

theorem RecordsError.raiseError (e : ErrCode) (t : State) : RecordsError s (raiseError e t) := by
  rintro _ _ ⟨⟩ ⟨⟩
  exact ⟨fun _ => rfl, (absurd · e.code_ne_zero)⟩

/-- A command that has not returned yet. -/
theorem RecordsError.pending (h : t.response = none) : RecordsError s (.next t) := by
  rintro _ a ⟨⟩ ha
  simp [h] at ha

/-! ## The programming and load commands -/

theorem buildSlot_lastError {k : Slot} {b : Built} (h : buildSlot k s = some b) : b.state.lastError = s.lastError := by
  have hbuilt (bits vals : List Byte) : (buildWith k bits vals s).state.lastError = s.lastError := by rw [buildWith_frame]
  unfold buildSlot at h
  split at h
  · cases h
  split at h
  · cases h; exact hbuilt _ _
  · obtain ⟨vals, -, rfl⟩ := Option.map_eq_some_iff.mp h
    exact hbuilt _ _

theorem programRegion_lastError (r : Slot) (table : ReadTable) (s : State) :
    (programRegion r table s).lastError = s.lastError := by rw [programRegion_frame]

theorem programSlots_lastError {mask : SlotSet} {slots : List Slot} (h : programSlots mask slots s = some t) :
    t.lastError = s.lastError := by
  induction slots generalizing s with
  | nil => cases h; rfl
  | cons k rest ih =>
    rw [programSlots] at h
    split at h
    · split at h
      · cases h
      · refine (ih h).trans ?_
        rw [programRaw_frame]
    · exact ih h

theorem execLdb_recordsError (file : LdbFile) (index : BitVec 8) (data : Byte) (s : State) :
    RecordsError s (execLdb file index data s) := by
  unfold execLdb
  split
  · exact .raiseError _ _
  split
  · exact .fault
  · exact .returnOk (by cases file <;> rfl)

theorem finishInputWrite_recordsError (s : State) : RecordsError s (finishInputWrite s) := by
  unfold finishInputWrite
  split
  · exact .returnOk rfl
  split
  · exact .fault
  · exact .returnOk rfl

theorem execWrd_recordsError (reg : DescReg) (value : Word) (s : State) : RecordsError s (execWrd reg value s) := by
  have hinput (d : Desc) : RecordsError s
      (if inputWritable s then finishInputWrite { s with desc := d } else raiseError .busy s) := by
    split
    · exact finishInputWrite_recordsError { s with desc := d }
    · exact .raiseError _ _
  have houtput (d : Desc) : RecordsError s
      (if s.fsm = .idle then returnOk 0#32 { s with desc := d } else raiseError .busy s) := by
    split
    · exact .returnOk rfl
    · exact .raiseError _ _
  cases reg with
  | inAddr => exact hinput _
  | inLen => exact hinput _
  | outAddr => exact houtput _
  | outLen => exact houtput _

theorem execBuild_recordsError (k : Slot) (s : State) : RecordsError s (execBuild k s) := by
  unfold execBuild
  split
  · exact .fault
  split
  · exact .fault
  next hb =>
    split
    · exact .returnOk (buildSlot_lastError hb)
    · exact .raiseError _ _

theorem programFrom_recordsError (r src : Slot) (s : State) : RecordsError s (programFrom r src s) := by
  unfold programFrom
  split
  · split
    · exact .fault
    · exact .returnOk (programRegion_lastError _ _ _)
  split
  · exact .fault
  next hb =>
    split
    · exact .raiseError _ _
    split
    · exact .fault
    · exact .returnOk ((programRegion_lastError _ _ _).trans (buildSlot_lastError hb))

theorem execProgc_recordsError (addr : BitVec 16) (src : Option Slot) (s : State) :
    RecordsError s (execProgc addr src s) := by
  unfold execProgc
  split
  · exact .fault
  split
  · exact .raiseError _ _
  split
  · exact .returnOk rfl
  split
  · exact .raiseError _ _
  · exact programFrom_recordsError _ _ _

theorem execProgr_recordsError (mask : SlotSet) (s : State) : RecordsError s (execProgr mask s) := by
  unfold execProgr
  split
  · exact .fault
  split
  · exact .fault
  · next h => exact .returnOk ((programSlots_lastError h).trans rfl)

theorem execQgen_recordsError (q : BitVec 4) (quality : BitVec 8) (s : State) : RecordsError s (execQgen q quality s) := by
  unfold execQgen
  split
  · exact .raiseError _ _
  split
  · exact .fault
  split
  · exact .raiseError _ _
  split
  · exact .fault
  · exact .returnOk (by rw [programQuant_frame])

theorem execQest_recordsError (q : BitVec 4) (s : State) : RecordsError s (execQest q s) := by
  unfold execQest
  split
  · exact .raiseError _ _
  split
  · exact .fault
  split
  · exact .fault
  split
  · exact .fault
  · exact .returnOk rfl

/-! ## The transfer commands -/

theorem execStart_recordsError (op : JobOp) (m : Method) (s : State) : RecordsError s (execStart op m s) := by
  unfold execStart
  split
  · exact .raiseError _ _
  split
  · exact .raiseError _ _
  split
  · exact .fault
  · refine .returnOk ?_
    unfold startWith
    split <;> rfl

theorem execPause_recordsError (dir : DirSet) (s : State) : RecordsError s (execPause dir s) := by
  unfold execPause
  split
  · exact .returnOk rfl
  · refine .returnOk ?_
    unfold pauseDirs
    simp only [apply_ite State.lastError, State.pauseInput_lastError, State.pauseOutput_lastError, ite_self]

theorem execResume_recordsError (dir : DirSet) (s : State) : RecordsError s (execResume dir s) := by
  unfold execResume
  split
  · exact .returnOk rfl
  split
  · exact .raiseError _ _
  next t hin =>
    have hin : t.lastError = s.lastError := by
      split at hin
      · exact resumeInput_lastError hin
      · cases hin; rfl
    split
    · next u hout =>
      have hout : u.lastError = t.lastError := by
        split at hout
        · exact resumeOutput_lastError hout
        · cases hout; rfl
      exact .returnOk (hout.trans hin)
    · exact .fault

theorem execAbort_recordsError (s : State) : RecordsError s (execAbort s) := by
  unfold execAbort
  split
  · exact .returnOk rfl
  split
  · exact .raiseError _ _
  · exact .returnOk rfl

/-! ## The Streaming Buffer Manager (44_stream_buffers R271, R273) -/

theorem execSbinit_recordsError (s : State) : RecordsError s (execSbinit s) := by
  unfold execSbinit
  split
  · exact .raiseError _ _
  · exact .returnOk rfl

/-- The first step of an accepted `SBFILL` returns nothing. -/
theorem sbfillStep1_response {len : Word} (h : sbfillStep1 len s = .ok t) : t.response = none := by
  obtain ⟨u, -, hr⟩ := bind_eq_ok.mp h
  cases hr; rfl

theorem execSbfill_recordsError (len : Word) (s : State) : RecordsError s (execSbfill len s) := by
  unfold execSbfill
  split
  · exact .raiseError _ _
  split
  · exact .returnOk rfl
  split
  · exact .raiseError _ _
  split
  · next h => exact .pending (sbfillStep1_response h)
  · exact .fault

/-- All that the second step of an `SBFILL` may change before it resumes the input. -/
theorem sbTakeBuffer_frame {i : BufIdx} (h : sbTakeBuffer i s = .ok t) :
    t = { s with sb := { s.sb with wait := false }, desc := t.desc } := by
  unfold sbTakeBuffer at h
  split at h
  · split at h <;> cases h
    rfl
  · cases h; rfl

theorem sbTakeBuffer_lastError {i : BufIdx} (h : sbTakeBuffer i s = .ok t) : t.lastError = s.lastError := by
  rw [sbTakeBuffer_frame h]

theorem sbfillStep2_recordsError (i : BufIdx) (s : State) : RecordsError s (sbfillStep2 i s) := by
  unfold sbfillStep2
  dsimp only
  split
  · exact .returnOk rfl
  split
  · exact .fault
  next htake =>
    split
    · next hresume => exact .returnOk ((resumeInput_lastError hresume).trans ((sbTakeBuffer_lastError htake).trans rfl))
    · exact .raiseError _ _

/-! ## Every command -/

/-- Every command but `POLL`, whose pass may run `EV_ERR`. -/
theorem exec_recordsError {i : Instr} (hi : i.isEvent = false) (hp : i ≠ .poll) (s : State) :
    RecordsError s (exec i s) := by
  cases i with
  | ldb file index data => exact execLdb_recordsError file index data s
  | wrd reg value => exact execWrd_recordsError reg value s
  | build k => exact execBuild_recordsError k s
  | progc addr src => exact execProgc_recordsError addr src s
  | progr mask => exact execProgr_recordsError mask s
  | qgen q quality => exact execQgen_recordsError q quality s
  | qest q => exact execQest_recordsError q s
  | start op m => exact execStart_recordsError op m s
  | pause dir => exact execPause_recordsError dir s
  | resume dir => exact execResume_recordsError dir s
  | poll => exact absurd rfl hp
  | abort => exact execAbort_recordsError s
  | getinfo | getstate | geterr => exact .returnOk rfl
  | sbfill len => exact execSbfill_recordsError len s
  | sbinit => exact execSbinit_recordsError s
  | evErr | evHpd | evIn | evOut | evEoc | evDmaInCplt | evDmaOutCplt | evDmaAbort => cases hi

/-- Settles O19: the commands by their answer, `POLL` by its pass, each event by its handler. -/
theorem lastErrorRule : Obligations.LastErrorRule := by
  refine ⟨fun i s t r hi h hr => ?_, fun k s t r h hr => sbfillStep2_recordsError k s t r h hr, fun e s t h => ?_⟩
  · by_cases hp : i = .poll
    · subst hp
      obtain ⟨⟨data, hok⟩, herr⟩ := execPoll_lastError h
      cases hok.symm.trans hr
      exact ⟨absurd rfl, fun _ => herr.imp_right fun ⟨he, h6⟩ => ⟨rfl, he, h6⟩⟩
    · obtain ⟨hfail, hkeep⟩ := exec_recordsError hi hp s t r h hr
      exact ⟨hfail, fun hz => .inl (hkeep hz)⟩
  · exact takeEvent_lastError (exec_instr e s ▸ h)

end Sys2Proof.Machine
end

section
/-! Two faults of 60_exceptions R304: a programming or load command outside `Idle` (O14, R302), and a command as the answer to a
callback (O60, R296): each callback with that answer faults, and so does whatever runs it. -/

namespace Sys2Proof.Machine

open Sys2Proof

-- One proof after the other: side by side they take more threads than the check's memory limit has room for.
set_option Elab.async false

variable {s : State}

/-! ## Programming and load commands outside `Idle` (60_exceptions R302) -/

theorem execLdb_outsideIdle {file : LdbFile} {index : BitVec 8} {data : Byte} (hj : s.fsm ≠ .idle)
    (hw : Instr.wellFormed s.cfg.nq (.ldb file index data) = true) :
    execLdb file index data s = .fault .programmingOutsideIdle := by
  rw [execLdb, if_neg (by simp [hw]), if_pos hj]

theorem execQgen_outsideIdle {q : BitVec 4} (hj : s.fsm ≠ .idle) (hq : q.toNat < s.cfg.nq) (quality : BitVec 8) :
    execQgen q quality s = .fault .programmingOutsideIdle := by
  rw [execQgen, if_neg (by simp [Instr.wellFormed, hq]), if_pos hj]

theorem execQest_outsideIdle {q : BitVec 4} (hj : s.fsm ≠ .idle) (hq : q.toNat < s.cfg.nq) :
    execQest q s = .fault .programmingOutsideIdle := by
  rw [execQest, if_neg (by simp [Instr.wellFormed, hq]), if_pos hj]

/-- Settles O14: each command tests `STATE` before anything but its operands, which are legal here. -/
theorem programmingOutsideIdle : Obligations.ProgrammingOutsideIdle := fun _ hj =>
  ⟨fun _ _ _ hw => execLdb_outsideIdle hj hw, fun _ => if_pos hj, fun _ _ => if_pos hj, fun _ => if_pos hj,
    fun _ quality hq => execQgen_outsideIdle hj hq quality, fun _ hq => execQest_outsideIdle hj hq⟩

/-! ## The callbacks answered with a command (60_exceptions R296) -/

theorem notify_of_command {e : Effect} (hn : s.host.notices.head? = some .command) :
    notify e s = .error .commandInCallback := notify_fault.mpr ⟨hn, rfl⟩

theorem refill_of_command (hm : s.host.managed = false) (hc : s.host.refillReplies.head? = some .command) :
    refill s = .error .commandInCallback := by
  obtain ⟨replies, hr⟩ := List.head?_eq_some_iff.mp hc
  have hreply : (refillReply s.desc.inOff (s.emit (.refill s.desc.inOff))).1 = .command := by
    simp [refillReply, outsideRefill, hm, hr]
  simp only [refill, takeRefill, hreply]

theorem drain_of_command {addr len : Word} (hm : s.host.managed = false)
    (hc : s.host.drainReplies.head? = some .command) : drain addr len s = .error .commandInCallback := by
  obtain ⟨replies, hr⟩ := List.head?_eq_some_iff.mp hc
  have hreply : (drainReply (s.emit (.drain addr len (readBytes s.hmem addr.toNat len.toNat)))).1 = .command := by
    simp [drainReply, hm, hr]
  simp only [drain, hreply]

/-! ## What runs a `REFILL` or a `DRAIN` -/

theorem handleDmaInCplt_of_command (hm : s.host.managed = false) (hc : s.host.refillReplies.head? = some .command) :
    handleDmaInCplt s = .error .commandInCallback :=
  bind_eq_error.mpr (.inl (refill_of_command hm hc))

theorem handleDmaOutCplt_of_command (hm : s.host.managed = false) (hc : s.host.drainReplies.head? = some .command) :
    handleDmaOutCplt s = .error .commandInCallback :=
  bind_eq_error.mpr (.inl (drain_of_command hm hc))

theorem drainFull_of_command (hm : s.host.managed = false) (hc : s.host.drainReplies.head? = some .command) :
    drainFull s = .error .commandInCallback :=
  bind_eq_error.mpr (.inl (drain_of_command hm hc))

/-- `EV_OUT` whose first word fills the buffer. -/
theorem handleOut_of_command (hr : OutReady s.desc) (he : eligible .out s = true)
    (hfull : s.desc.outOff + 4#32 = s.desc.outLen) (hm : s.host.managed = false)
    (hc : s.host.drainReplies.head? = some .command) : handleOut s = .error .commandInCallback := by
  obtain ⟨n, hn⟩ := outCount_pos s
  have hle := outCount_le he
  have hp : s.ctx.pauseOut = false := (eligible_out.mp he).2.2.1
  cases hw : s.ofifo with
  | nil => simp [hw, hn] at hle
  | cons w words =>
    have hstore : storeWord w { s with ofifo := words } = .error .commandInCallback :=
      (storeWord_eq hr).trans ((if_pos (hr.off_of_full hfull)).trans (drainFull_of_command hm hc))
    rw [handleOut, hn, storeWords, if_neg (by simp [hp]), hw]
    exact bind_eq_error.mpr (.inl hstore)

/-! ## `DONE` at the end of a job (43_transfer_fsm R221, R222) -/

theorem finalDrain_managed (hm : s.host.managed = true) : ∃ t, finalDrain s = .ok t ∧ t.host = s.host := by
  unfold finalDrain
  split
  · exact ⟨s, rfl, rfl⟩
  · rw [drain_managed hm]
    exact ⟨_, rfl, rfl⟩

theorem complete_of_command (hm : s.host.managed = true) (hn : s.host.notices.head? = some .command) :
    complete s = .error .commandInCallback := by
  obtain ⟨t, ht, hhost⟩ := finalDrain_managed hm
  exact bind_eq_error.mpr (.inr ⟨t, ht, notify_of_command (hhost ▸ hn)⟩)

/-- The manager lets every word pass, so the job completes. -/
theorem FinishReady.finish_of_command (h : FinishReady s) (hp : s.ctx.pauseOut = false) (hm : s.host.managed = true)
    (hn : s.host.notices.head? = some .command) : finish s = .error .commandInCallback := by
  obtain ⟨t, ht, hmoved, hans⟩ := storeWords_managed (n := s.cfg.fifoDepth) hm hp h.buffer
  have hempty : t.ofifo = [] := hmoved.fifo_drop.trans (List.drop_of_length_le h.fifo)
  have hhost : t.host = s.host := by rw [hans]
  refine bind_eq_error.mpr (.inr ⟨t, ht, (if_pos (by rw [hempty]; rfl)).trans ?_⟩)
  exact complete_of_command (hhost ▸ hm) (hhost ▸ hn)

/-- Settles O60: the handler of each event runs the callback, and the fault is its answer. -/
theorem callbackCommandFaults : Obligations.CallbackCommandFaults := by
  refine fun s => ⟨fun hn => ⟨fun ht => ?hpd, fun ht => ?err, fun hi hm hf ht => ?eoc⟩,
    fun hm hc => ⟨fun ht hoff => ?inp, fun ht => ?dmaIn⟩, fun hm hc => ⟨fun hi ht hfull => ?out, fun ht => ?dmaOut⟩⟩
  case hpd => exact takeEvent_of_error (handler := handleHpd) ht (notify_of_command hn)
  case err => exact takeEvent_of_error (handler := handleErr) ht (notify_of_command hn)
  case eoc =>
    have he := eligible_of_taken ht
    have hp : s.stopSources.ctx.pauseOut = false := (eligible_eoc.mp he).2.2.2.2
    have hfinish := (FinishReady.of_eoc hi he).finish_of_command hp hm hn
    exact takeEvent_of_error ht ((handleEoc_fifo (not_dma_of_fifo hf)).trans hfinish)
  case inp => exact execEvIn_of_error ht (feedWords_of_bad hoff (refill_of_command hm hc))
  case dmaIn => exact takeEvent_of_error ht (handleDmaInCplt_of_command hm hc)
  case out =>
    have he := eligible_of_taken ht
    have hr := outReady_of_inv hi (running_of_eligible hi he)
    exact takeEvent_of_error ht (handleOut_of_command hr he hfull hm hc)
  case dmaOut => exact takeEvent_of_error ht (handleDmaOutCplt_of_command hm hc)

end Sys2Proof.Machine
end
